-- ==== Sys2Proof/Word.lean ====
section
/-! DEFINITION. The word types of the Lyluhild N8: R7 and R8 of 00_scope.md. -/

namespace Sys2Proof

/-- One byte. -/
abbrev Byte := BitVec 8
/-- A 16-bit quantity (region entries R119, status fields of packets R390). -/
abbrev Half := BitVec 16
/-- A word is 32 bits (R8). -/
abbrev Word := BitVec 32
/-- A 64-bit quantity (addresses R103, beat numbers R460, seeds R53). -/
abbrev Dword := BitVec 64

end Sys2Proof
end

