-- ==== Sys2Proof/Syntax.lean ====
section
/-! DEFINITION. The commands of the block: one constructor per row of spec/opcode_table.json, with the operands a row's
rule leaves to the outside (a packet, a frame, a die, a measured outcome). -/

namespace Sys2Proof

/-- The UDP datagram over IPv4 that carries a unit on a management port (R387, R388). -/
structure Datagram where
  /-- The destination's address and UDP port. -/
  dst : Word := 0
  dstPort : Half := 7420
  /-- The source's. -/
  src : Word := 0
  srcPort : Half := 0
  /-- It came in fragments. -/
  fragmented : Bool := false
  deriving DecidableEq, Repr

/-- The header of a Farlos packet as it arrives on a port (R390); the opcode is the row's. -/
structure Hdr where
  /-- The master whose port the packet arrives on (R387). -/
  port : Fin 5
  /-- Byte 2. -/
  version : Byte := 1
  /-- Byte 3: bit 2 RETRY, bit 0 REPLY, the others reserved. -/
  flags : Byte := 0
  /-- Bytes 6 and 7, zero in a request. -/
  status : Half := 0
  /-- SEQ. -/
  seq : Word
  /-- MASTER. -/
  master : Byte
  /-- PART: 0 to 7, or 0xFF for the module. -/
  part : Byte
  /-- LEASE. -/
  lease : Word
  /-- Bytes 20 to 31, reserved. -/
  resv : BitVec 96 := 0
  /-- On a management port the datagram that carried the packet; a reply goes to its source (R388). -/
  net : Datagram := {}
  deriving DecidableEq, Repr

/-- What the FEC of a lane found in a port's byte stream since the frame before (R308): code words it could not correct, and ones it
corrected. -/
structure LaneErrs where
  lane : Fin 8
  bad : Nat := 0
  fixed : Nat := 0
  deriving DecidableEq, Repr

/-- A Farlos packet: header and payload (R390). Its trailer and LENGTH are right, or it is no packet (R391). -/
structure Pkt where
  hdr : Hdr
  payload : List Byte
  deriving DecidableEq, Repr

/-- How a register write of the operating system arrives: in a packet, or through the mapping of R413. -/
inductive Via where
  | packet (q : Hdr)
  | mapped
  deriving DecidableEq, Repr

/-- A memory channel: a cellar stack C0 to C15 and pseudo-channel, a loft or an attic channel of hub A (0) or B (1). -/
inductive Channel where
  | cellar (stack : Fin 16) (pc : Fin 32)
  | loft (hub : Fin 2) (ch : Fin 16)
  | attic (hub : Fin 2) (ch : Fin 6)
  deriving DecidableEq, Repr

/-- What a fill fills (R260): a cellar stack, or a hub's loft or attic slices. -/
inductive Tier where
  | cellar (stack : Fin 16)
  | loft (hub : Fin 2)
  | attic (hub : Fin 2)
  deriving DecidableEq, Repr

/-- A unit that changes power state: a die or a hub (R451, R452). -/
inductive PwrUnit where
  | die (d : Fin 8)
  | hub (h : Fin 2)
  deriving DecidableEq, Repr

/-- A unit that trips (R466, R467). -/
inductive TripUnit where
  | die (d : Fin 8)
  | stack (c : Fin 16)
  | hub (h : Fin 2)
  deriving DecidableEq, Repr

/-- What a supply monitor watches (R467): the module input, or the core rail of a die or a hub. -/
inductive Supply where
  | input
  | rail (u : PwrUnit)
  deriving DecidableEq, Repr

/-- A flash's two copies of a boot image, as verification meets them (R420). -/
structure ImageCopies where
  copy0 : List Byte
  copy1 : List Byte
  deriving DecidableEq, Repr

/-- A unit of bytes as it arrives on a port, with the datagram that carried it on a management port (R388, R391). -/
structure RawUnit where
  bytes : List Byte
  net : Datagram := {}
  deriving DecidableEq, Repr

/-- A port whose width change is done (R322): of a change that this end's episode began, or of one that the peer's began, with the lane
that both ends exclude. -/
structure WidthDone where
  port : Fin 32
  peer : Option (Fin 8) := none
  deriving DecidableEq, Repr

/-- What the frequency loop reads (R462): the highest clock in MHz that the margin sensors allow at the present voltage, the 1 ms mean of
the input power in W, the hottest junction in °C. -/
structure ClockReading where
  margin : Nat
  watts : Nat
  temp : Nat
  deriving DecidableEq, Repr

/-- What the voltage loop reads (R461): the rail in mV that the margin sensors ask for, and the highest clock in MHz that the rail one step
lower allows. -/
structure RailReading where
  asked : Nat
  margin : Nat
  deriving DecidableEq, Repr

/-- The commands the block takes. -/
inductive Instr where
  /-- ALWAYS_ON_START (R483). -/
  | alwaysOnStart
  /-- IMAGE_VERIFY (R420): image 0 to 4, as the flash of hub A's RoT holds it and as that of hub B's does. -/
  | imageVerify (image : Fin 5) (a b : ImageCopies)
  /-- MEMORY_TRAINING_DONE (R252). `failed`: both attempts failed; `lanes`: the lanes that test bad, 0 to 31 data, 32 and 33 check, from 34
  on address and command. -/
  | memoryTrainingDone (ch : Channel) (failed : Bool) (lanes : List Nat)
  /-- SLICE_FILL_DONE (R260). -/
  | sliceFillDone (t : Tier)
  /-- STORE_ROOM_FILL_DONE (R118). -/
  | storeRoomFillDone (d : Fin 8)
  /-- REFERENCE_LOCK (R457). -/
  | referenceLock
  /-- REF_LOST (R458). -/
  | refLost
  /-- REF_HOLDOVER_END (R458). -/
  | refHoldoverEnd
  /-- BEAT_EDGE (R460). -/
  | beatEdge
  /-- MARKER_PULSE (R459). `offset`: reference periods after the local beat edge at which the pulse falls. -/
  | markerPulse (epoch : Bool) (offset : Nat)
  /-- CLK_LOAD (R460). -/
  | clkLoad (q : Hdr) (hi : Word)
  /-- PING (R397). -/
  | ping (q : Pkt)
  /-- CLAIM (R402). -/
  | claim (q : Pkt)
  /-- HEARTBEAT (R403). -/
  | heartbeat (q : Pkt)
  /-- HANDOVER (R401). -/
  | handover (q : Pkt)
  /-- RELEASE (R401). -/
  | release (q : Pkt)
  /-- LEASE_ENDED (R403). -/
  | leaseEnded
  /-- PKT_STATUS (R396). -/
  | pktStatus (q : Pkt)
  /-- PACKET_DONE (R396). The k-th accepted action; `found`: what a self-test or a training measured. -/
  | packetDone (k : Nat) (found : List Nat)
  /-- DISCARD_UNIT (R391). -/
  | discardUnit (port : Fin 5) (unit : RawUnit)
  /-- PORT_QUEUE_FULL (R394). -/
  | portQueueFull (opcode : Half) (q : Pkt)
  /-- MBX_SUBMIT (R414). The bytes the operating system wrote into MBX_REQ. -/
  | mbxSubmit (unit : List Byte)
  /-- PWR_SET_RUN (R453). -/
  | pwrSetRun (q : Pkt)
  /-- PWR_SET_IDLE (R453). -/
  | pwrSetIdle (q : Pkt)
  /-- PWR_SET_NAP (R453). -/
  | pwrSetNap (q : Pkt)
  /-- PWR_SET_DEEP (R453). -/
  | pwrSetDeep (q : Pkt)
  /-- PWR_SET_OFF (R453). -/
  | pwrSetOff (q : Pkt)
  /-- POWER_TRANSITION_DONE (R455). -/
  | powerTransitionDone (u : PwrUnit)
  /-- PWR_LIMIT (R464). -/
  | pwrLimit (q : Pkt)
  /-- PWR_READ (R471). -/
  | pwrRead (q : Pkt)
  /-- QUIESCE (R473). -/
  | quiesce (q : Pkt)
  /-- REG_READ (R399). -/
  | regRead (q : Pkt)
  /-- RC_REGISTER_READ (R10). -/
  | rcRegisterRead (q : Hdr) (addr : Word)
  /-- REG_WRITE (R400). -/
  | regWrite (q : Pkt)
  /-- W1C_CLEAR (R407). `hwSet`: bits the hardware sets in the same cycle. -/
  | w1cClear (via : Via) (addr value hwSet : Word)
  /-- TOKEN_WRITE (R99). -/
  | tokenWrite (q : Hdr) (addr value : Word)
  /-- SEQ_LOG_RD_WRITE (R89). -/
  | seqLogRdWrite (q : Hdr) (d : Fin 8) (value : Word)
  /-- EVT_SIZE_WRITE (R411). -/
  | evtSizeWrite (q : Hdr) (ring : Fin 8) (value : Word)
  /-- EVT_RD_WRITE (R412). -/
  | evtRdWrite (via : Via) (ring : Fin 8) (value : Word)
  /-- REGION_ENTRY_WRITE (R120). -/
  | regionEntryWrite (q : Hdr) (addr value : Word)
  /-- MEM_READ (R398). -/
  | memRead (q : Pkt)
  /-- MEM_WRITE (R398). -/
  | memWrite (q : Pkt)
  /-- REGION_SET (R122). -/
  | regionSet (q : Pkt)
  /-- SCHED_LOAD (R64). -/
  | schedLoad (q : Pkt)
  /-- SCHED_UNLOAD (R66). -/
  | schedUnload (q : Pkt)
  /-- SCHED_START (R67). -/
  | schedStart (q : Pkt)
  /-- START_BEAT (R67). -/
  | startBeat
  /-- SCHED_STOP (R69). -/
  | schedStop (q : Pkt)
  /-- SCHEDULE_STOPPED (R66). -/
  | scheduleStopped (d : Fin 8)
  /-- SCHED_STATUS (R397). -/
  | schedStatus (q : Pkt)
  /-- RECIPE_SEED (R397). -/
  | recipeSeed (q : Pkt)
  /-- SNAPSHOT (R496). -/
  | snapshot (q : Pkt)
  /-- RESTORE (R497). -/
  | restore (q : Pkt)
  /-- PORT_SET_DISABLE (R309). -/
  | portSetDisable (q : Pkt)
  /-- PORT_SET_ENABLE (R309). -/
  | portSetEnable (q : Pkt)
  /-- PORT_SET_TRAIN (R309). -/
  | portSetTrain (q : Pkt)
  /-- PEER_TRAINING_START (R309). -/
  | peerTrainingStart (p : Fin 32)
  /-- TRAINING_DONE (R309). Lanes trained, and the peer module and port the training found. -/
  | trainingDone (p : Fin 32) (lanesUp : List Bool) (peer : Option (Nat × Nat))
  /-- FAB_SETMODE (R341). -/
  | fabSetmode (q : Pkt)
  /-- MAP_LOAD (R316). -/
  | mapLoad (q : Pkt)
  /-- EVT_READ (R397). -/
  | evtRead (q : Pkt)
  /-- FLAG_MISS (R407). -/
  | flagMiss (q : Pkt)
  /-- SELFTEST_STORE_MARCH (R486). -/
  | selftestStoreMarch (q : Pkt)
  /-- SELFTEST_CELLAR_ARRAY (R486). -/
  | selftestCellarArray (q : Pkt)
  /-- SELFTEST_ENGINE_KNOWN_ANSWER (R486). -/
  | selftestEngineKnownAnswer (q : Pkt)
  /-- SELFTEST_ON_PACKAGE_LINKS (R486). -/
  | selftestOnPackageLinks (q : Pkt)
  /-- SELFTEST_PORT_TRAFFIC (R486). -/
  | selftestPortTraffic (q : Pkt)
  /-- SELFTEST_CRYPTO_KNOWN_ANSWER (R486). -/
  | selftestCryptoKnownAnswer (q : Pkt)
  /-- GEK_STEP (R286). -/
  | gekStep (q : Pkt)
  /-- GEK_READ (R397). -/
  | gekRead (q : Pkt)
  /-- PART_SET (R430). -/
  | partSet (q : Pkt)
  /-- PART_READ (R397). -/
  | partRead (q : Pkt)
  /-- SEC_IDENTITY (R447). -/
  | secIdentity (q : Pkt)
  /-- SEC_CERT (R439). -/
  | secCert (q : Pkt)
  /-- SEC_ATTEST (R438). -/
  | secAttest (q : Pkt)
  /-- SEC_EXTEND (R423). -/
  | secExtend (q : Pkt)
  /-- SEC_KX_BEGIN (R434). -/
  | secKxBegin (q : Pkt)
  /-- SEC_KX_FINISH (R435). -/
  | secKxFinish (q : Pkt)
  /-- KX_TIMEOUT (R434). -/
  | kxTimeout (part : Fin 8)
  /-- SEC_KEY_ERASE (R435). -/
  | secKeyErase (q : Pkt)
  /-- SEC_CKPT_EXPORT (R437). -/
  | secCkptExport (q : Pkt)
  /-- SEC_CKPT_IMPORT (R437). -/
  | secCkptImport (q : Pkt)
  /-- SEC_DEBUG_SET (R443). -/
  | secDebugSet (q : Pkt)
  /-- DEBUG_TOKEN_EXPIRY (R443). -/
  | debugTokenExpiry
  /-- SEC_TOKEN (R444). -/
  | secToken (q : Pkt)
  /-- SEC_LIFECYCLE_SEALED (R442). -/
  | secLifecycleSealed (q : Pkt)
  /-- SEC_LIFECYCLE_RETIRED (R442). -/
  | secLifecycleRetired (q : Pkt)
  /-- SEC_SVN_COMMIT (R424). -/
  | secSvnCommit (q : Pkt)
  /-- SEC_FW_WRITE (R447). -/
  | secFwWrite (q : Pkt)
  /-- ROT_HEARTBEAT (R419). -/
  | rotHeartbeat
  /-- TAKEOVER (R419). -/
  | takeover
  /-- EVENT_WRITE (R411). -/
  | eventWrite (ring : Fin 8)
  /-- SEQUENCER_FORWARD (R60). -/
  | sequencerForward (d : Fin 8)
  /-- COMMAND_COMPLETE (R88). The k-th command started and not yet completed. -/
  | commandComplete (d : Fin 8) (k : Nat)
  /-- OVERRUN (R80). -/
  | overrun (d : Fin 8) (k : Nat)
  /-- NOP (R81). -/
  | nop (d : Fin 8)
  /-- WAITBEAT (R82). -/
  | waitbeat (d : Fin 8)
  /-- BRANCH (R84). -/
  | branch (d : Fin 8)
  /-- CALL (R84). -/
  | call (d : Fin 8)
  /-- RETURN (R81). -/
  | seqReturn (d : Fin 8)
  /-- STOP (R81). -/
  | stop (d : Fin 8)
  /-- WARM (R91). -/
  | warm (d : Fin 8)
  /-- SLEEP (R91). -/
  | sleep (d : Fin 8)
  /-- ENGINE_SLEEP_ENTER (R91). -/
  | engineSleepEnter (d : Fin 8) (e : Fin 17)
  /-- ENGINE_IDLE (R91). -/
  | engineIdle (d : Fin 8) (e : Fin 17)
  /-- ENGINE_NAP (R91). -/
  | engineNap (d : Fin 8) (e : Fin 17)
  /-- ENGINE_WAKE_DONE (R91). -/
  | engineWakeDone (d : Fin 8) (e : Fin 17)
  /-- MATMUL (R135). -/
  | matmul (d : Fin 8) (m : Fin 4)
  /-- DGRAD (R142). -/
  | dgrad (d : Fin 8) (m : Fin 4)
  /-- WGRAD (R143). -/
  | wgrad (d : Fin 8) (m : Fin 4)
  /-- SPLIT (R147). -/
  | split (d : Fin 8) (m : Fin 4)
  /-- GBCLEAR (R146). -/
  | gbclear (d : Fin 8) (m : Fin 4)
  /-- EPI (R159). -/
  | epi (d : Fin 8) (m : Fin 4)
  /-- BWD (R166). -/
  | bwd (d : Fin 8) (m : Fin 4)
  /-- NORM_LN (R167). -/
  | normLn (d : Fin 8) (m : Fin 4)
  /-- NORM_RMS (R167). -/
  | normRms (d : Fin 8) (m : Fin 4)
  /-- SMX_MAX (R169). -/
  | smxMax (d : Fin 8) (m : Fin 4)
  /-- SMX_EXP (R169). -/
  | smxExp (d : Fin 8) (m : Fin 4)
  /-- SMX_LAZY (R170). -/
  | smxLazy (d : Fin 8) (m : Fin 4)
  /-- ACC_SCALE (R169). -/
  | accScale (d : Fin 8) (m : Fin 4)
  /-- SMX_FINAL (R169). -/
  | smxFinal (d : Fin 8) (m : Fin 4)
  /-- SETPOS (R180). -/
  | setpos (d : Fin 8) (m : Fin 4)
  /-- VTLOAD (R165). -/
  | vtload (d : Fin 8) (m : Fin 4)
  /-- HCLEAR (R178). -/
  | hclear (d : Fin 8) (m : Fin 4)
  /-- HDUMP (R178). -/
  | hdump (d : Fin 8) (m : Fin 4)
  /-- GATHER (R209). -/
  | gather (d : Fin 8)
  /-- STRIDED (R216). -/
  | strided (d : Fin 8)
  /-- SCATTER (R215). -/
  | scatter (d : Fin 8)
  /-- DISPATCH (R217). -/
  | dispatch (d : Fin 8)
  /-- NCONV (R224). -/
  | nconv (d : Fin 8)
  /-- TOPK (R233). -/
  | topk (d : Fin 8)
  /-- SORT (R233). -/
  | sort (d : Fin 8)
  /-- COPY (R262). -/
  | copy (d : Fin 8)
  /-- CONVERT (R263). -/
  | convert (d : Fin 8)
  /-- PACK (R264). -/
  | pack (d : Fin 8)
  /-- UNPACK (R265). -/
  | unpack (d : Fin 8)
  /-- GAPPLY (R287). -/
  | gapply (d : Fin 8)
  /-- GPARAM (R286). -/
  | gparam (d : Fin 8)
  /-- GPREP (R297). -/
  | gprep (d : Fin 8)
  /-- PHASE (R330). -/
  | phase (d : Fin 8)
  /-- PHASE_TAKEOVER (R330). -/
  | phaseTakeover (p : Fin 32)
  /-- SLOT_START (R327). -/
  | slotStart (p : Fin 32)
  /-- PHASE_WATCHDOG (R331). -/
  | phaseWatchdog (p : Fin 32)
  /-- DCOPY (R348). -/
  | dcopy (d : Fin 8)
  /-- WCOPY (R342). -/
  | wcopy (d : Fin 8)
  /-- WINDOW_TIMEOUT (R344). -/
  | windowTimeout (d : Fin 8)
  /-- DATA_FRAME (R334). The bytes as the line delivers them, and what the FEC found since the last frame (R308). -/
  | dataFrame (p : Fin 32) (frame : List Byte) (errs : List LaneErrs)
  /-- EMPTY_FRAME (R328). The bytes as the line delivers them, and what the FEC found since the last frame (R308). -/
  | emptyFrame (p : Fin 32) (frame : List Byte) (errs : List LaneErrs)
  /-- ABORT_FRAME (R333). The bytes as the line delivers them, and what the FEC found since the last frame (R308). -/
  | abortFrame (p : Fin 32) (frame : List Byte) (errs : List LaneErrs)
  /-- LINK_FRAME (R320). The bytes as the line delivers them, and what the FEC found since the last frame (R308). -/
  | linkFrame (p : Fin 32) (frame : List Byte) (errs : List LaneErrs)
  /-- WREQ (R342). The bytes as the line delivers them, and what the FEC found since the last frame (R308). -/
  | wreq (p : Fin 32) (frame : List Byte) (errs : List LaneErrs)
  /-- WRSP (R342). The bytes as the line delivers them, and what the FEC found since the last frame (R308). -/
  | wrsp (p : Fin 32) (frame : List Byte) (errs : List LaneErrs)
  /-- ACK_TIMEOUT (R320). -/
  | ackTimeout (p : Fin 32)
  /-- WIDTH_CHANGE_DONE (R322). -/
  | widthChangeDone (w : WidthDone)
  /-- RETRY_BUDGET_EXPIRY (R321). -/
  | retryBudgetExpiry (p : Fin 32)
  /-- EPOCH_OPEN (R354). -/
  | epochOpen (d : Fin 8)
  /-- EPOCH_CLOSE (R354). -/
  | epochClose (d : Fin 8)
  /-- ABORT_NOTICE (R355). -/
  | abortNotice (d : Fin 8) (epoch : Half)
  /-- RSCAN (R360). -/
  | rscan (d : Fin 8)
  /-- RQUANT (R363). -/
  | rquant (d : Fin 8)
  /-- RDEQ (R369). -/
  | rdeq (d : Fin 8)
  /-- RESHARD (R378). -/
  | reshard (d : Fin 8)
  /-- TG_START (R271). -/
  | tgStart (q : Hdr) (d : Fin 8) (g : Nat)
  /-- TG_STOP (R273). -/
  | tgStop (q : Hdr) (d : Fin 8) (g : Nat)
  /-- TG_COMPLETE (R271). -/
  | tgComplete (d : Fin 8) (g : Nat)
  /-- PATROL_SCRUB of the line or code word at a memory key (R117, R251). `upsets`: the stored bits that have changed since its units were
  last judged, one pattern for each unit of 64 bytes, and in a store room one more for the tile's check word. -/
  | patrolScrub (addr : Nat) (upsets : List Nat)
  /-- CORRECTED_WRITEBACK (R116). -/
  | correctedWriteback (addr : Nat)
  /-- REFRESH (R255). -/
  | refresh (addr : Nat)
  /-- CELLAR_RETRAIN (R461). -/
  | cellarRetrain (stack : Fin 16)
  /-- FREQUENCY_STEP (R462). -/
  | frequencyStep (d : Fin 8) (reading : ClockReading)
  /-- VOLTAGE_STEP (R461). -/
  | voltageStep (d : Fin 8) (reading : RailReading)
  /-- LASER_BIAS_STEP (R461). -/
  | laserBiasStep (p : Fin 32) (lane : Fin 8) (code : Byte)
  /-- DROOP (R465). -/
  | droop (d : Fin 8)
  /-- STRETCH_END (R465). Edges of the set clock in the episode. -/
  | stretchEnd (d : Fin 8) (edges : Nat)
  /-- THERMAL_THROTTLE (R466). -/
  | thermalThrottle (d : Fin 8) (temp : Nat)
  /-- TRIP (R466). -/
  | trip (u : TripUnit) (temp : Nat)
  /-- SUPPLY_WARNING (R468). The input voltage at the time, in mV. -/
  | supplyWarning (what : Supply) (mv : Nat)
  /-- WARNING_RELEASE (R467). -/
  | warningRelease (what : Supply)
  /-- SUPPLY_RESET (R469). -/
  | supplyReset (what : Supply)
  /-- FLOW_LOW (R478). -/
  | flowLow (flow : Nat)
  /-- ENABLE (R472). -/
  | enable
  /-- PRESENCE_SHORT_BREAK (R473). -/
  | presenceShortBreak
  /-- ALWAYS_ON_STOP (R467). -/
  | alwaysOnStop
  /-- SUPPLY_RESET_RELEASE (R467). -/
  | supplyResetRelease (what : Supply)
  /-- STACK_HOT (R255). -/
  | stackHot (stack : Fin 16) (temp : Nat)
  /-- GAP_LINK_FRAME (R319). -/
  | gapLinkFrame (p : Fin 32)
  /-- ACTIVE_ROT_STOP (R419). -/
  | activeRotStop
  deriving DecidableEq, Repr

end Sys2Proof
end

