-- ==== Sys2Proof/Decode.lean ====
section
/-! DEFINITION. The command that a word spells by the bits of spec/opcode_table.json. No row of that table gives bits, so
no word spells a command. -/

namespace Sys2Proof

/-- The command of a word: none, since no row of the table has an encoding. (DESIGN CHOICE, log 2) -/
def decodeTableWord (_nbits _w : Nat) : Option Instr := none

end Sys2Proof
end

