-- ==== Sys2Proof/Machine/Bits.lean ====
section
/-! DEFINITION. Bit fields, little-endian bytes, saturating counters, CRC-32C (R111) and sparse maps in one canonical form. -/

namespace Sys2Proof.Machine

/-- Bits [hi:lo] of a word, as a number (R6: both ends included). -/
def fld (w : Word) (hi lo : Nat) : Nat := (w.toNat >>> lo) % 2 ^ (hi + 1 - lo)

/-- Bit `i` of a word. -/
def bitOf (w : Word) (i : Nat) : Bool := w.toNat.testBit i

/-- Bits [hi:lo] of a number. -/
def nfld (n hi lo : Nat) : Nat := (n >>> lo) % 2 ^ (hi + 1 - lo)

/-- A two's complement reading of the low `w` bits of a number. -/
def signedOf (w n : Nat) : Int := if n % 2 ^ w < 2 ^ (w - 1) then (n % 2 ^ w : Nat) else ((n % 2 ^ w : Nat) : Int) - (2 ^ w : Nat)

/-- A number as a 32-bit word. -/
def w32 (n : Nat) : Word := BitVec.ofNat 32 n
/-- A number as a byte. -/
def b8 (n : Nat) : Byte := BitVec.ofNat 8 n
/-- A Bool as the number 0 or 1. -/
def b2n (b : Bool) : Nat := if b then 1 else 0

/-- The number that little-endian bytes spell (R7). -/
def leNat : List Byte → Nat
  | [] => 0
  | b :: bs => b.toNat + 256 * leNat bs

/-- `n` little-endian bytes of a number (R7). -/
def natLE : Nat → Nat → List Byte
  | 0, _ => []
  | n + 1, v => b8 v :: natLE n (v / 256)

/-- The little-endian number of `len` bytes at byte offset `off`. -/
def rd (bs : List Byte) (off len : Nat) : Nat := leNat ((bs.drop off).take len)

/-- The 32-bit word at byte offset `off`. -/
def rdW (bs : List Byte) (off : Nat) : Word := w32 (rd bs off 4)

/-- The bytes of a slice. -/
def sub (bs : List Byte) (off len : Nat) : List Byte := (bs.drop off).take len

/-- Little-endian words of a byte list; a tail shorter than a word is dropped (R8). -/
def wordsOf : List Byte → List Word
  | a :: b :: c :: d :: r => w32 (leNat [a, b, c, d]) :: wordsOf r
  | _ => []

/-- The bytes of a list of words (R7, R8). -/
def bytesOf (ws : List Word) : List Byte := ws.flatMap fun w => natLE 4 w.toNat

/-- Every byte of a list is zero (R12). -/
def allZero (bs : List Byte) : Bool := bs.all (· == 0)

/-- A counter of 32 bits saturates (R13). -/
def satAdd (c : Word) (n : Nat) : Word := w32 (min (c.toNat + n) 0xFFFFFFFF)

/-- A 32-bit count and one more (R13). -/
def satInc (n : Nat) : Nat := min (n + 1) 0xFFFFFFFF

/-- Ceiling division. -/
def cdiv (a b : Nat) : Nat := (a + b - 1) / b

/-- The entry of a list at an index, with a value for an index outside it. -/
def atD {α : Type} (d : α) (l : List α) (i : Nat) : α := (l[i]?).getD d

/-- `n` copies of a byte. -/
def zeros (n : Nat) : List Byte := List.replicate n 0

/-- A list cut or padded with zero bytes to length `n` (R112: bytes beyond the tensor are zero). -/
def padTo (n : Nat) (bs : List Byte) : List Byte := (bs ++ zeros (n - bs.length)).take n

/-- A list of bytes cut into pieces of `k` bytes, at most `fuel` pieces. -/
def chunksGo (k : Nat) : Nat → List Byte → List (List Byte)
  | 0, _ => []
  | f + 1, bs => if bs.isEmpty then [] else bs.take k :: chunksGo k f (bs.drop k)

/-- A list of bytes cut into pieces of `k` bytes. -/
def chunks (k : Nat) (bs : List Byte) : List (List Byte) := chunksGo k bs.length bs

/-- One bit of the reflected CRC-32C (R111). -/
def crcBit (c : Word) : Word := if c.toNat % 2 = 1 then (c >>> 1) ^^^ 0x82F63B78#32 else c >>> 1

/-- One byte of CRC-32C. -/
def crcByte (c : Word) (b : Byte) : Word :=
  crcBit (crcBit (crcBit (crcBit (crcBit (crcBit (crcBit (crcBit (c ^^^ b.setWidth 32))))))))

/-- CRC-32C: polynomial 0x1EDC_6F41 reflected, initial and final value 0xFFFF_FFFF (R111). -/
def crc32c (bs : List Byte) : Word := (bs.foldl crcByte 0xFFFFFFFF#32) ^^^ 0xFFFFFFFF#32

/-- The CRC-32C of 4,096 zero bytes, the check word that a fill writes (R118, R260). (DESIGN CHOICE, log 10) -/
def crcZeroTile : Word := 0x98F94189#32

/-! ## Sparse maps: keys strictly rising, no entry equal to the default. -/

/-- A map from numbers with a default value that unlisted keys read as. -/
abbrev NMap (α : Type) := List (Nat × α)

/-- The value at a key. -/
def nget {α : Type} (d : α) : NMap α → Nat → α
  | [], _ => d
  | (k, v) :: r, x => if x = k then v else nget d r x

/-- The map with one key set; writing the default removes the entry. -/
def nset {α : Type} [DecidableEq α] (d : α) : NMap α → Nat → α → NMap α
  | [], k, v => if v = d then [] else [(k, v)]
  | (k', v') :: r, k, v =>
    if k = k' then (if v = d then nset d r k v else (k, v) :: r)
    else if k < k' ∧ v ≠ d then (k, v) :: (k', v') :: r
    else (k', v') :: nset d r k v

/-- The entries of a run of values from a key on, defaults left out. -/
def ncells {α : Type} [DecidableEq α] (d : α) : Nat → List α → NMap α
  | _, [] => []
  | b, v :: vs => if v = d then ncells d (b + 1) vs else (b, v) :: ncells d (b + 1) vs

/-- The map with a run of consecutive keys set. -/
def nsetRun {α : Type} [DecidableEq α] (d : α) (m : NMap α) (base : Nat) (vs : List α) : NMap α :=
  m.takeWhile (fun p => decide (p.1 < base)) ++ ncells d base vs ++ m.dropWhile (fun p => decide (p.1 < base + vs.length))

/-- The values of consecutive keys from a map whose first key is at least `b`. -/
def nrunGo {α : Type} (d : α) : Nat → NMap α → Nat → List α
  | 0, _, _ => []
  | n + 1, m, b =>
    match m with
    | [] => d :: nrunGo d n [] (b + 1)
    | (k, v) :: r => if k = b then v :: nrunGo d n r (b + 1) else d :: nrunGo d n ((k, v) :: r) (b + 1)

/-- The values of `len` consecutive keys from `base` on. -/
def nrun {α : Type} (d : α) (m : NMap α) (base len : Nat) : List α :=
  nrunGo d len (m.dropWhile (fun p => decide (p.1 < base))) base

/-- The map without the keys of [base, base + len). -/
def nclear {α : Type} (m : NMap α) (base len : Nat) : NMap α :=
  m.filter fun p => decide (p.1 < base) || decide (base + len ≤ p.1)

/-- The canonical form: keys strictly rising and no entry equal to the default. -/
abbrev nwf {α : Type} (d : α) (m : NMap α) : Prop := m.Pairwise (fun p q => p.1 < q.1) ∧ ∀ p ∈ m, p.2 ≠ d

end Sys2Proof.Machine
end

