-- ==== Sys2Proof/Machine/Crypto.lean ====
section
/-! DEFINITION. The algorithms that 14_security_and_partitions.md and R340 name: SM3, HMAC-SM3 and the key derivation of
R425, SM4 and SM4-GCM, SM2 signatures and key exchange. Byte strings are in the algorithms' own order. -/

namespace Sys2Proof.Machine

/-- The number that big-endian bytes spell. -/
def beNat (bs : List Byte) : Nat := bs.foldl (fun n b => n * 256 + b.toNat) 0
/-- `n` big-endian bytes of a number. -/
def natBE (n v : Nat) : List Byte := (natLE n v).reverse
/-- A rotation to the left. -/
def rol (x : Word) (n : Nat) : Word := x.rotateLeft (n % 32)
/-- Bytes combined by exclusive or. -/
def xorB (a b : List Byte) : List Byte := List.zipWith (· ^^^ ·) a b
/-- The big-endian words of a byte list. -/
def wordsBE : List Byte → List Word
  | a :: b :: c :: d :: r => w32 (beNat [a, b, c, d]) :: wordsBE r
  | _ => []

/-! ## SM3 -/

/-- P0 and P1 of SM3. -/
def sm3P0 (x : Word) : Word := x ^^^ rol x 9 ^^^ rol x 17
/-- P1. -/
def sm3P1 (x : Word) : Word := x ^^^ rol x 15 ^^^ rol x 23

/-- The message expansion: the window of the last 16 words, and the words made. -/
def sm3Expand : Nat → List Word → List Word
  | 0, _ => []
  | n + 1, w =>
    let x := sm3P1 (atD 0 w 0 ^^^ atD 0 w 7 ^^^ rol (atD 0 w 13) 15) ^^^ rol (atD 0 w 3) 7 ^^^ atD 0 w 10
    x :: sm3Expand n (w.drop 1 ++ [x])

/-- The eight working words of SM3. -/
structure Sm3 where
  a : Word
  b : Word
  c : Word
  d : Word
  e : Word
  f : Word
  g : Word
  h : Word

/-- One round of the compression. -/
def sm3Round (s : Sm3) (j : Nat) (w w' : Word) : Sm3 :=
  let t : Word := if j < 16 then 0x79CC4519 else 0x7A879D8A
  let ss1 := rol (rol s.a 12 + s.e + rol t j) 7
  let ss2 := ss1 ^^^ rol s.a 12
  let ff := if j < 16 then s.a ^^^ s.b ^^^ s.c else (s.a &&& s.b) ||| (s.a &&& s.c) ||| (s.b &&& s.c)
  let gg := if j < 16 then s.e ^^^ s.f ^^^ s.g else (s.e &&& s.f) ||| (~~~ s.e &&& s.g)
  let tt1 := ff + s.d + ss2 + w'
  let tt2 := gg + s.h + ss1 + w
  { a := tt1, b := s.a, c := rol s.b 9, d := s.c, e := sm3P0 tt2, f := s.e, g := rol s.f 19, h := s.g }

/-- Rounds from `j` on, over the expanded words. -/
def sm3Rounds : Nat → Nat → List Word → Sm3 → Sm3
  | 0, _, _, s => s
  | n + 1, j, ws, s => sm3Rounds n (j + 1) (ws.drop 1) (sm3Round s j (atD 0 ws 0) (atD 0 ws 0 ^^^ atD 0 ws 4))

/-- The compression of one 64-byte block. -/
def sm3Block (v : List Word) (blk : List Byte) : List Word :=
  let w := wordsBE blk
  let r := sm3Rounds 64 0 (w ++ sm3Expand 52 w)
    ⟨atD 0 v 0, atD 0 v 1, atD 0 v 2, atD 0 v 3, atD 0 v 4, atD 0 v 5, atD 0 v 6, atD 0 v 7⟩
  List.zipWith (· ^^^ ·) [r.a, r.b, r.c, r.d, r.e, r.f, r.g, r.h] v

/-- The SM3 digest, 32 bytes. (PRESUMED, log 32) -/
def sm3 (m : List Byte) : List Byte :=
  let n := m.length
  let pad := [b8 0x80] ++ zeros ((119 - n % 64) % 64) ++ natBE 8 (8 * n)
  let iv : List Word := [0x7380166F, 0x4914B2B9, 0x172442D7, 0xDA8A0600, 0xA96F30BC, 0x163138AA, 0xE38DEE4D, 0xB0FB0E4E]
  ((chunks 64 (m ++ pad)).foldl sm3Block iv).flatMap fun w => natBE 4 w.toNat

/-- HMAC-SM3. (PRESUMED, log 32) -/
def hmacSm3 (key m : List Byte) : List Byte :=
  let k := padTo 64 (if 64 < key.length then sm3 key else key)
  sm3 (k.map (· ^^^ 0x5C) ++ sm3 (k.map (· ^^^ 0x36) ++ m))

/-- KDF of R425: the first `bits` bits of the blocks HMAC-SM3(K, [i] label 0 context [L]). -/
def kdf (key label context : List Byte) (bits : Nat) : List Byte :=
  ((List.range (cdiv bits 256)).flatMap fun i =>
    hmacSm3 key (natLE 4 (i + 1) ++ label ++ [0] ++ context ++ natLE 4 bits)).take (bits / 8)

/-- The bytes of an ASCII string. -/
def ascii (s : String) : List Byte := s.toList.map fun c => b8 c.toNat

/-! ## SM4 -/

/-- The SM4 S-box, byte x at bits [8x+7:8x]. -/
def sm4Box : Nat := 0x4839CBD73E5FEE79204DDC3AEC7DF01884C66EC509F1B9657E77960C4A976989B0B4E5B812D0742DBD7BCDA58831C10AD85A101F415CD9117FBCDDBB92AF1B8D515B6C6D726AFF032F8EFDDE4537DBD56F4E530DAB2329C060CA66822EE2F61DE3B18CF5303293AD551A349BA45DAEE0A11561F9CEF2F7A3B538C740D28ABFEA9EC8C4A0E702364C5227D39F574600D4877821013B7C2225A2D158635E0E241E359D56704B0FEBF88BDA6471B2816B68A84F85E6193C5983BA1773F3FCA70747A63F8F75FA94DF8095E808C9A91CB3E462ACCFED430B54337A98EF91F450429C99068649261344AAC304BE2A769A672B052CFB28C214B616B73DE1CCFEE990D6

/-- The S-box on the four bytes of a word. -/
def sm4Tau (x : Word) : Word :=
  let s : Nat → Nat := fun i => (sm4Box >>> (8 * ((x.toNat >>> (8 * i)) % 256))) % 256 * 2 ^ (8 * i)
  w32 (s 0 + s 1 + s 2 + s 3)

/-- The round constant CK_i. -/
def sm4Ck (i : Nat) : Word := w32 (beNat ((List.range 4).map fun j => b8 ((4 * i + j) * 7)))

/-- Round keys from `i` on. -/
def sm4KeysGo : Nat → Nat → Word → Word → Word → Word → List Word
  | 0, _, _, _, _, _ => []
  | n + 1, i, a, b, c, d =>
    let t := sm4Tau (b ^^^ c ^^^ d ^^^ sm4Ck i)
    let k := a ^^^ t ^^^ rol t 13 ^^^ rol t 23
    k :: sm4KeysGo n (i + 1) b c d k

/-- The 32 round keys of a 16-byte key. -/
def sm4Keys (key : List Byte) : List Word :=
  let k := wordsBE key
  sm4KeysGo 32 0 (atD 0 k 0 ^^^ 0xA3B1BAC6) (atD 0 k 1 ^^^ 0x56AA3350) (atD 0 k 2 ^^^ 0x677D9197) (atD 0 k 3 ^^^ 0xB27022DC)

/-- The rounds. -/
def sm4Rounds : List Word → Word → Word → Word → Word → List Word
  | [], a, b, c, d => [d, c, b, a]
  | k :: ks, a, b, c, d =>
    let t := sm4Tau (b ^^^ c ^^^ d ^^^ k)
    sm4Rounds ks b c d (a ^^^ t ^^^ rol t 2 ^^^ rol t 10 ^^^ rol t 18 ^^^ rol t 24)

/-- One block enciphered. (PRESUMED, log 32) -/
def sm4 (rk : List Word) (blk : List Byte) : List Byte :=
  let x := wordsBE blk
  (sm4Rounds rk (atD 0 x 0) (atD 0 x 1) (atD 0 x 2) (atD 0 x 3)).flatMap fun w => natBE 4 w.toNat

/-! ## GCM -/

/-- The product in the field of GHASH, bit by bit. -/
def ghMulGo : Nat → Nat → Nat → Nat → Nat
  | 0, _, _, z => z
  | n + 1, x, v, z =>
    let z := if x.testBit n then z ^^^ v else z
    let v := if v % 2 = 1 then (v / 2) ^^^ (0xE1 * 2 ^ 120) else v / 2
    ghMulGo n x v z
/-- The product of two 128-bit numbers. -/
def ghMul (x y : Nat) : Nat := ghMulGo 128 x y 0
/-- GHASH over blocks. -/
def ghash (h : Nat) (blocks : List (List Byte)) : Nat := blocks.foldl (fun y b => ghMul (y ^^^ beNat (padTo 16 b)) h) 0
/-- The counter blocks' stream over data. -/
def ctrStream (rk : List Word) (iv : List Byte) : Nat → List (List Byte) → List Byte
  | _, [] => []
  | n, b :: bs => xorB b (sm4 rk (iv ++ natBE 4 n)) ++ ctrStream rk iv (n + 1) bs
/-- The tag of additional data and ciphertext. -/
def gcmTag (rk : List Word) (iv aad ct : List Byte) : List Byte :=
  let h := beNat (sm4 rk (zeros 16))
  let g := ghash h (chunks 16 aad ++ chunks 16 ct ++ [natBE 8 (8 * aad.length) ++ natBE 8 (8 * ct.length)])
  xorB (natBE 16 g) (sm4 rk (iv ++ natBE 4 1))
/-- SM4-GCM with a 96-bit IV: ciphertext and tag. (PRESUMED, log 32) -/
def gcmSeal (key iv aad pt : List Byte) : List Byte × List Byte :=
  let rk := sm4Keys key
  let ct := ctrStream rk iv 2 (chunks 16 pt)
  (ct, gcmTag rk iv aad ct)
/-- SM4-GCM opened: the plaintext, or none where the tag fails. (PRESUMED, log 32) -/
def gcmOpen (key iv aad ct tag : List Byte) : Option (List Byte) :=
  let rk := sm4Keys key
  if gcmTag rk iv aad ct = tag then some (ctrStream rk iv 2 (chunks 16 ct)) else none

/-! ## SM2 -/

/-- The SM2 prime, coefficients, order and base point (GB/T 32918). -/
def sm2P : Nat := 0xFFFFFFFEFFFFFFFFFFFFFFFFFFFFFFFFFFFFFFFF00000000FFFFFFFFFFFFFFFF
/-- Coefficient a. -/
def sm2A : Nat := sm2P - 3
/-- Coefficient b. -/
def sm2B : Nat := 0x28E9FA9E9D9F5E344D5A9E4BCF6509A7F39789F515AB8F92DDBCBD414D940E93
/-- The order n. -/
def sm2N : Nat := 0xFFFFFFFEFFFFFFFFFFFFFFFFFFFFFFFF7203DF6B21C6052B53BBF40939D54123
/-- The base point G. -/
def sm2G : Nat × Nat := (0x32C4AE2C1F1981195F9904466A39C9948FE30BBFF2660BE1715A4589334C74C7,
  0xBC3736A2F4F6779C59BDCEE36B692153D0A9877CC62A474002DF32E52139F0A0)

/-- x ^ e mod m, bit by bit. -/
def powModGo (m : Nat) : Nat → Nat → Nat → Nat → Nat
  | 0, _, _, r => r
  | f + 1, x, e, r => powModGo m f (x * x % m) (e / 2) (if e % 2 = 1 then r * x % m else r)
/-- The inverse modulo a prime. -/
def invMod (m x : Nat) : Nat := powModGo m 256 (x % m) (m - 2) 1
/-- x - y modulo m. -/
def subMod (m x y : Nat) : Nat := (x + m - y % m) % m

/-- The sum of two points; none is the point at infinity. -/
def ecAdd (x y : Option (Nat × Nat)) : Option (Nat × Nat) :=
  match x, y with
  | none, q => q
  | p, none => p
  | some (x1, y1), some (x2, y2) =>
    if x1 = x2 ∧ (y1 + y2) % sm2P = 0 then none
    else
      let l := if x1 = x2 then (3 * x1 * x1 + sm2A) * invMod sm2P (2 * y1) % sm2P
               else subMod sm2P y2 y1 * invMod sm2P (subMod sm2P x2 x1) % sm2P
      let x3 := subMod sm2P (l * l) (x1 + x2)
      some (x3, subMod sm2P (l * subMod sm2P x1 x3) y1)

/-- Twice a point in projective coordinates: (x, y, z) stands for (x / z², y / z³), and z = 0 for the point at infinity. -/
def jDouble (p : Nat × Nat × Nat) : Nat × Nat × Nat :=
  let (x, y, z) := p
  let g := y * y % sm2P
  let b := x * g % sm2P
  let zz := z * z % sm2P
  let a := 3 * subMod sm2P x zz * (x + zz) % sm2P
  let x3 := subMod sm2P (a * a) (8 * b)
  (x3, subMod sm2P (a * subMod sm2P (4 * b) x3) (8 * g * g), 2 * y * z % sm2P)
/-- The sum of a point in projective coordinates and a point of the curve. -/
def jAdd (p : Nat × Nat × Nat) (q : Nat × Nat) : Nat × Nat × Nat :=
  let (x, y, z) := p
  if z = 0 then (q.1, q.2, 1)
  else
    let zz := z * z % sm2P
    let h := subMod sm2P (q.1 * zz) x
    let r := subMod sm2P (q.2 * (z * zz % sm2P)) y
    if h = 0 then (if r = 0 then jDouble p else (1, 1, 0))
    else
      let hh := h * h % sm2P
      let hhh := h * hh % sm2P
      let v := x * hh % sm2P
      let x3 := subMod sm2P (r * r) (hhh + 2 * v)
      (x3, subMod sm2P (r * subMod sm2P v x3) (y * hhh), z * h % sm2P)
/-- Double and add, from the highest bit down. -/
def ecMulGo (k : Nat) (q : Nat × Nat) : Nat → Nat × Nat × Nat → Nat × Nat × Nat
  | 0, r => r
  | i + 1, r => ecMulGo k q i (if k / 2 ^ i % 2 = 1 then jAdd (jDouble r) q else jDouble r)
/-- k times a point; none is the point at infinity. -/
def ecMul (k : Nat) (p : Nat × Nat) : Option (Nat × Nat) :=
  let (x, y, z) := ecMulGo k p 256 (1, 1, 0)
  if z = 0 then none
  else
    let i := invMod sm2P z
    some (x * (i * i % sm2P) % sm2P, y * (i * i % sm2P * i % sm2P) % sm2P)
/-- A point's coordinates; zero at infinity. -/
def ecXY (p : Option (Nat × Nat)) : Nat × Nat := p.getD (0, 0)
/-- Does a point lie on the curve? -/
def ecOn (p : Nat × Nat) : Bool :=
  decide (p.1 < sm2P ∧ p.2 < sm2P) && decide (p.2 * p.2 % sm2P = (p.1 * p.1 * p.1 + sm2A * p.1 + sm2B) % sm2P)
/-- A point's bytes, x then y. -/
def ecBytes (p : Nat × Nat) : List Byte := natBE 32 p.1 ++ natBE 32 p.2

/-- Z of an identifier and a public key (GB/T 32918.2). -/
def sm2Z (id : List Byte) (pub : Nat × Nat) : List Byte :=
  sm3 (natBE 2 (8 * id.length) ++ id ++ natBE 32 sm2A ++ natBE 32 sm2B ++ ecBytes sm2G ++ ecBytes pub)

/-- A private key from 256 bits (R425). (DEDUCED, log 31) -/
def sm2Priv (u : Nat) : Nat := u % (sm2N - 1) + 1

/-- A signature (r, s) of a message under a private key with the random number k. (PRESUMED, log 32) -/
def sm2Sign (id : List Byte) (d k : Nat) (m : List Byte) : Nat × Nat :=
  let pub := ecXY (ecMul d sm2G)
  let e := beNat (sm3 (sm2Z id pub ++ m))
  let r := (e + (ecXY (ecMul k sm2G)).1) % sm2N
  (r, invMod sm2N (1 + d) * subMod sm2N k (r * d) % sm2N)

/-- Does a signature verify? (PRESUMED, log 32) -/
def sm2Verify (id : List Byte) (pub : Nat × Nat) (m : List Byte) (r s : Nat) : Bool :=
  let e := beNat (sm3 (sm2Z id pub ++ m))
  let t := (r + s) % sm2N
  ecOn pub && decide (0 < r ∧ r < sm2N ∧ 0 < s ∧ s < sm2N ∧ t ≠ 0) &&
    decide ((e + (ecXY (ecAdd (ecMul s sm2G) (ecMul t pub))).1) % sm2N = r)

/-- What the responder of the key exchange of GB/T 32918.3 computes: S_B, S_A and the shared key.
(DEDUCED, log 31; PRESUMED, log 32) -/
def sm2Respond (idA idB : List Byte) (pa ra : Nat × Nat) (dB rB bits : Nat) : List Byte × List Byte × List Byte :=
  let pb := ecXY (ecMul dB sm2G)
  let rb := ecXY (ecMul rB sm2G)
  let bar : Nat → Nat := fun x => 2 ^ 127 + x % 2 ^ 127
  let t := (dB + bar rb.1 * rB) % sm2N
  let v := ecXY ((ecAdd (some pa) (ecMul (bar ra.1) ra)).bind (ecMul t))
  let za := sm2Z idA pa
  let zb := sm2Z idB pb
  let inner := sm3 (natBE 32 v.1 ++ za ++ zb ++ ecBytes ra ++ ecBytes rb)
  let tag : Nat → List Byte := fun c => sm3 ([b8 c] ++ natBE 32 v.2 ++ inner)
  let key := ((List.range (cdiv bits 256)).flatMap fun i => sm3 (ecBytes v ++ za ++ zb ++ natBE 4 (i + 1))).take (bits / 8)
  (tag 2, tag 3, key)

end Sys2Proof.Machine
end

