-- ==== Sys2Proof/Config.lean ====
section
/-! DEFINITION. What the manual leaves open: constants without a body, so that no proof can rest on a value of theirs. -/

namespace Sys2Proof

/-- A free word: the value the manual leaves open at a use, told apart by the counter the step reads and advances.
(DESIGN CHOICE, log 7) -/
opaque Config.freeWord : Nat → BitVec 64

/-- A free 256-bit value (a random draw, R426, R444). (DESIGN CHOICE, log 7) -/
opaque Config.freeWide : Nat → BitVec 256

/-- The DER bytes of certificate 0, 1 or 2, as issued for the measurements and the public key given (R439): the manual names
what a certificate holds and not its bytes. (DESIGN CHOICE, log 7) -/
opaque Config.certificate : Nat → List Byte → List Byte

/-- The 16 bytes of PART_READ for a partition count, a protected mask, a keyed mask and a layout generation (R397): the
manual gives no layout. (DESIGN CHOICE, log 7) -/
opaque Config.partReadLayout : Nat → Nat → Nat → Nat → BitVec 128

/-- The lanes that the factory repaired on a pseudo-channel, which fuses hold, by its number (R252). (DESIGN CHOICE, log 42) -/
opaque Config.factoryRepair : Nat → List Nat

/-- The repair resources of the memory's standard on each pseudo-channel (R252). (DESIGN CHOICE, log 42) -/
opaque Config.repairResources : Nat

end Sys2Proof
end

