-- ==== Sys2Proof/Machine/Codes.lean ====
section
/-! DEFINITION. The codes that protect memory at rest and the encryption under them: SEC-DED words of the store rooms (R116), the
RS(68,64) burst code of the cellar (R249, R250), the codes of loft and attic (R240), SM4-XTS (R254, R426). -/

namespace Sys2Proof.Machine

/-! ## SM4-XTS (R254) -/

/-- The tweak of a data unit, multiplied by α once for each block before block `i`. -/
def xtsTweak : Nat → Nat → Nat
  | 0, t => t
  | i + 1, t => xtsTweak i (if t.testBit 127 then (2 * t % 2 ^ 128) ^^^ 0x87 else 2 * t)

/-- One 16-byte block, enciphered or deciphered: `rk` the round keys in the order used, `t` its tweak. (PRESUMED, log 32) -/
def xtsBlock (rk : List Word) (t : Nat) (blk : List Byte) : List Byte :=
  xorB (sm4 rk (xorB blk (natLE 16 t))) (natLE 16 t)

/-- Whole 16-byte blocks from block `idx` of the data unit `unit` on, under a key pair of 32 bytes: the data key, then the tweak key
(R426). -/
def xts (dec : Bool) (key : List Byte) (unit idx : Nat) (bs : List Byte) : List Byte :=
  let rk := sm4Keys (key.take 16)
  let rk := if dec then rk.reverse else rk
  let t := leNat (sm4 (sm4Keys (key.drop 16)) (natLE 16 unit))
  (chunks 16 bs).zipIdx.flatMap fun x => xtsBlock rk (xtsTweak (idx + x.2) t) x.1

/-! ## GF(2^8) under 0x11D (R249) -/

/-- α times an element. -/
def gfTwice (a : Byte) : Byte := if a.msb then (a <<< 1) ^^^ 0x1D#8 else a <<< 1
/-- The product, bit by bit of the second factor. -/
def gfMulGo : Nat → Byte → Byte → Byte → Byte
  | 0, _, _, r => r
  | n + 1, a, b, r => gfMulGo n (gfTwice a) (b >>> 1) (if b.getLsbD 0 then r ^^^ a else r)
/-- The product of two elements. -/
def gfMul (a b : Byte) : Byte := gfMulGo 8 a b 0
/-- α^n. -/
def gfAlpha : Nat → Byte
  | 0 => 1
  | n + 1 => gfTwice (gfAlpha n)
/-- The inverse, a^254. -/
def gfInv (a : Byte) : Byte :=
  let b := gfMul a a
  let c := gfMul b b
  let d := gfMul c c
  let e := gfMul d d
  let f := gfMul e e
  let g := gfMul f f
  gfMul b (gfMul c (gfMul d (gfMul e (gfMul f (gfMul g (gfMul g g))))))

/-! ## The cellar's code word (R249) -/

/-- The data symbols of 64 bytes: symbol 32b + p, bit k, is bit p mod 8 of byte 32b + 4k + p / 8. -/
def rsSymbols (bs : List Byte) : List Byte :=
  (List.range 64).map fun j =>
    b8 ((List.range 8).foldl (fun n k => n + b2n ((atD 0 bs (j / 32 * 32 + 4 * k + j % 32 / 8)).getLsbD (j % 8)) * 2 ^ k) 0)
/-- The 64 bytes that the data symbols of a code word carry. -/
def rsBytes (c : List Byte) : List Byte :=
  (List.range 64).map fun n =>
    b8 ((List.range 8).foldl (fun v i => v + b2n ((atD 0 c (n / 32 * 32 + n % 4 * 8 + i)).getLsbD (n / 4 % 8)) * 2 ^ i) 0)

/-- A remainder by g(x) = x^4 + 0x0F x^3 + 0x36 x^2 + 0x78 x + 0x40, coefficients of x^3 to x^0. -/
structure RsRem where
  r3 : Byte := 0
  r2 : Byte := 0
  r1 : Byte := 0
  r0 : Byte := 0
  deriving DecidableEq, Repr

/-- One more data symbol divided. -/
def RsRem.feed (r : RsRem) (c : Byte) : RsRem :=
  let f := c ^^^ r.r3
  ⟨r.r2 ^^^ gfMul f 0x0F, r.r1 ^^^ gfMul f 0x36, r.r0 ^^^ gfMul f 0x78, gfMul f 0x40⟩

/-- The 68 symbols of a code word: the data symbols c_0 to c_63, then the remainder of x^4 times the data part. -/
def rsEncode (bs : List Byte) : List Byte :=
  let d := rsSymbols bs
  let r := d.foldl RsRem.feed {}
  d ++ [r.r3, r.r2, r.r1, r.r0]

/-- c(α^i) of a word (R250). -/
def rsSyndrome (c : List Byte) (i : Nat) : Byte := c.foldl (fun s x => gfMul s (gfAlpha i) ^^^ x) 0
/-- The locator of symbol c_j: c(x) has it at x^(67 - j). -/
def rsLocator (j : Nat) : Byte := gfAlpha (67 - j)
/-- The lane that carries symbol c_j: check symbol 64 + 2b + q travels on lane 32 + q. -/
def rsLane (j : Nat) : Nat := if j < 64 then j % 32 else 32 + j % 2
/-- The two symbols of a lane. -/
def rsOfLane (p : Nat) : List Nat := if p < 32 then [p, 32 + p] else [32 + p, 34 + p]

/-! ## Decoding errors and erasures (R250) -/

/-- The product of x + X over locators, coefficients from x^0 on. -/
def rsPoly : List Byte → List Byte
  | [] => [1]
  | x :: xs =>
    let p := rsPoly xs
    List.zipWith (· ^^^ ·) (0 :: p) (p.map (gfMul x) ++ [0])
/-- A polynomial applied to syndromes: the sum of its coefficients times them. -/
def rsApply (p s : List Byte) : Byte := (List.zipWith gfMul p s).foldl (· ^^^ ·) 0
/-- Are the syndromes those of a word with symbols in error at the positions alone? -/
def rsFits (s : List Byte) (js : List Nat) : Bool :=
  (List.range (4 - js.length)).all fun i => rsApply (rsPoly (js.map rsLocator)) (s.drop i) == 0
/-- The error at the first of these positions, the others holding the rest. -/
def rsValue (s : List Byte) (j : Nat) (others : List Nat) : Byte :=
  let xs := others.map rsLocator
  gfMul (rsApply (rsPoly xs) s) (gfInv (xs.foldl (fun v x => gfMul v (rsLocator j ^^^ x)) 1))
/-- The positions with their errors. -/
def rsValues (s : List Byte) (js : List Nat) : List (Nat × Byte) := js.map fun j => (j, rsValue s j (js.filter (· != j)))

/-- The sets of at most `n` positions outside the erasures, the smaller first. -/
def rsGuesses (erased : List Nat) (n : Nat) : List (List Nat) :=
  let free := (List.range 68).filter fun j => !erased.contains j
  [[]] ++ (if 1 ≤ n then free.map ([·]) else [])
    ++ (if 2 ≤ n then free.flatMap fun j => (free.filter fun k => decide (j < k)).map fun k => [j, k] else [])

/-- The word decoded with the symbols of `lanes` erased: the code word and the positions changed; none where it is uncorrectable. -/
def rsDecode (lanes : List Nat) (r : List Byte) : Option (List Byte × List Nat) :=
  let s := (List.range 4).map (rsSyndrome r)
  if s.all (· == 0) then some (r, [])
  else
    let erased := lanes.flatMap rsOfLane
    match (rsGuesses erased ((4 - erased.length) / 2)).find? fun g => rsFits s (erased ++ g) with
    | none => none
    | some g =>
      let vs := (rsValues s (erased ++ g)).filter fun v => v.2 != 0
      some (vs.foldl (fun c v => c.set v.1 (atD 0 c v.1 ^^^ v.2)) r, vs.map (·.1))

/-! ## Upsets: what decoding makes of a stored code word whose bits have changed -/

/-- The bits set in the low `n` bits of a pattern. -/
def bitsIn (n v : Nat) : Nat := ((List.range n).filter v.testBit).length

/-- What a read or the scrub finds of one unit of 64 bytes. -/
structure Verdict where
  /-- Bits (R116) or symbols (R250) corrected. -/
  corr : Nat := 0
  /-- Code words that cannot be corrected. -/
  lost : Nat := 0
  /-- The cellar lanes that carried a corrected symbol. -/
  lanes : List Nat := []
  /-- What is delivered, where it is not what was written. -/
  bytes : Option (List Byte) := none
  /-- The pattern that stays once the corrected unit is written back. -/
  left : Nat := 0
  deriving DecidableEq, Repr

/-- The stored bits of a unit by kind of memory: eight SEC-DED words of 72 bits, 68 symbols, a loft's 64 bytes with two marks for what its
standard's codes find, a subchannel's ten devices of 64 bits. (DESIGN CHOICE, log 11) -/
def upsetBits : Nat → Nat
  | 0 => 576 | 1 => 544 | 2 => 514 | _ => 640

/-- The 64 bytes under an exclusive-or mask. -/
def maskBytes (bs : List Byte) (m : Nat) : List Byte := xorB bs (natLE bs.length m)

/-- One SEC-DED word: corrected bits, lost words, the mask on its 64 data bits. Three errors and more are beyond the code, and `pick` says
whether they are detected; what they deliver is `junk`. (DESIGN CHOICE, log 11) -/
def judge72 (p pick junk : Nat) : Nat × Nat × Nat :=
  match bitsIn 72 p with
  | 0 => (0, 0, 0)
  | 1 => (1, 0, 0)
  | 2 => (0, 1, 0)
  | _ => if pick % 2 = 0 then (0, 1, 0) else (0, 0, junk % 2 ^ 64)

/-- A unit of eight SEC-DED words. -/
def judgeRoom (p : Nat) (plain : List Byte) (pick junk : Nat) : Verdict :=
  let ws := (List.range 8).map fun w => judge72 (nfld p (72 * w + 71) (72 * w)) (pick / 2 ^ w) (junk / 2 ^ (64 * w))
  let mask := (ws.zipIdx.map fun x => x.1.2.2 * 2 ^ (64 * x.2)).foldl (· + ·) 0
  { corr := (ws.map (·.1)).foldl (· + ·) 0
    lost := (ws.map (·.2.1)).foldl (· + ·) 0
    bytes := if mask = 0 then none else some (maskBytes plain mask)
    left := ((List.range 8).map fun w => if bitsIn 72 (nfld p (72 * w + 71) (72 * w)) = 1 then 0 else nfld p (72 * w + 71) (72 * w) * 2 ^ (72 * w)).foldl (· + ·) 0 }

/-- A cellar code word: the encoded ciphertext with the pattern on its symbols, decoded with the erased lanes (R249, R250).
`cipher` is the ciphertext, `open_` deciphers what is delivered. -/
def judgeCellar (lanes : List Nat) (p : Nat) (cipher : List Byte) (open_ : List Byte → List Byte) : Verdict :=
  let c := rsEncode cipher
  match rsDecode lanes (xorB c (natLE 68 p)) with
  | none => { lost := 1, left := p }
  | some (w, pos) =>
    let data := rsBytes w
    { corr := pos.length, lanes := (pos.map rsLane).eraseDups
      bytes := if data = cipher then none else some (open_ data)
      left := leNat (xorB c w) }

/-- A loft code word: bit 513 says that its codes detect the error, bit 512 that they correct one; errors on the ciphertext that they leave
unseen are delivered (R240). (DESIGN CHOICE, log 11) -/
def judgeLoft (p : Nat) (cipher : List Byte) (open_ : List Byte → List Byte) : Verdict :=
  if p.testBit 513 then { lost := 1, left := p }
  else
    { corr := b2n (p.testBit 512), left := p % 2 ^ 512
      bytes := if p % 2 ^ 512 = 0 then none else some (open_ (maskBytes cipher (p % 2 ^ 512))) }

/-- An attic code word: errors within one x4 device are corrected, errors in two devices detected where they are not; `pick` says what
becomes of those and of more, `junk` what more deliver (R240). (DESIGN CHOICE, log 11) -/
def judgeAttic (p : Nat) (cipher : List Byte) (open_ : List Byte → List Byte) (pick junk : Nat) : Verdict :=
  let n := ((List.range 10).filter fun i => nfld p (64 * i + 63) (64 * i) != 0).length
  if n ≤ 1 ∨ (n = 2 ∧ pick % 2 = 1) then { corr := n }
  else if n = 2 ∨ pick % 2 = 0 then { lost := 1, left := p }
  else { bytes := some (open_ (maskBytes cipher (junk % 2 ^ 512))), left := p }

end Sys2Proof.Machine
end

