-- ==== Sys2Proof/Machine/Num.lean ====
section
/-! DEFINITION. Number formats and numerics: 02_number_formats_and_numerics.md R30 to R58, and the FP32 operations of
06_vector_engines.md R156, R157. Every value is an exact dyadic number until the one rounding the rule states. -/

namespace Sys2Proof.Machine

/-- The eleven formats (R30). -/
inductive Fmt where
  | fp32 | bf16 | fp16 | e4m3 | e5m2 | e3m2 | e2m3 | e2m1 | int8 | int32 | e8m0
  deriving DecidableEq, Repr

/-- The rounding modes of R39 and R44. -/
inductive Rnd where
  | rne | rtz | sr
  deriving DecidableEq, Repr

/-- The four counters of a command (R56) and its count of defined results (R157). They start at zero with the command. -/
structure Ctr where
  ovf : Word := 0
  sat : Word := 0
  ufz : Word := 0
  scrub : Word := 0
  dom : Word := 0
  deriving DecidableEq, Repr

/-- A computation that counts. -/
abbrev Cnt (α : Type) := StateM Ctr α

/-- Count `n` overflows (R42). -/
def cntOvf (n : Nat) : Cnt Unit := modify fun c => { c with ovf := satAdd c.ovf n }
/-- Count `n` saturations (R41 step 2). -/
def cntSat (n : Nat) : Cnt Unit := modify fun c => { c with sat := satAdd c.sat n }
/-- Count `n` underflows to zero (R43). -/
def cntUfz (n : Nat) : Cnt Unit := modify fun c => { c with ufz := satAdd c.ufz n }
/-- Count `n` scrubbed specials (R34). -/
def cntScrub (n : Nat) : Cnt Unit := modify fun c => { c with scrub := satAdd c.scrub n }
/-- Count `n` defined results (R157). -/
def cntDom (n : Nat) : Cnt Unit := modify fun c => { c with dom := satAdd c.dom n }

/-! ## Exact dyadic numbers -/

/-- The number `m * 2 ^ e`. -/
structure Dy where
  m : Int
  e : Int
  deriving DecidableEq, Repr

/-- Zero. -/
def dyZero : Dy := ⟨0, 0⟩
/-- A power of two. -/
def dyPow2 (e : Int) : Dy := ⟨1, e⟩
/-- An integer. -/
def dyInt (i : Int) : Dy := ⟨i, 0⟩
/-- The mantissa at a lower exponent. -/
def dyAt (x : Dy) (e : Int) : Int := x.m * (2 ^ (x.e - e).toNat : Nat)
/-- Exact sum. -/
def dyAdd (x y : Dy) : Dy := if x.m = 0 then y else if y.m = 0 then x else
  let e := min x.e y.e
  ⟨dyAt x e + dyAt y e, e⟩
/-- Exact product. -/
def dyMul (x y : Dy) : Dy := if x.m = 0 ∨ y.m = 0 then dyZero else ⟨x.m * y.m, x.e + y.e⟩
/-- Negation. -/
def dyNeg (x : Dy) : Dy := ⟨-x.m, x.e⟩
/-- Exact difference. -/
def dySub (x y : Dy) : Dy := dyAdd x (dyNeg y)
/-- Magnitude. -/
def dyAbs (x : Dy) : Dy := ⟨x.m.natAbs, x.e⟩
/-- Multiplication by a power of two. -/
def dyShift (x : Dy) (k : Int) : Dy := if x.m = 0 then x else ⟨x.m, x.e + k⟩
/-- Is it zero? -/
def dyIsZero (x : Dy) : Bool := x.m == 0
/-- Strictly less. -/
def dyLt (x y : Dy) : Bool := decide ((dySub x y).m < 0)
/-- Less or equal. -/
def dyLe (x y : Dy) : Bool := decide ((dySub x y).m ≤ 0)
/-- floor(log2 |x|) of a non-zero number. -/
def dyLog2 (x : Dy) : Int := (x.m.natAbs.log2 : Int) + x.e
/-- floor(x) toward negative infinity. -/
def dyFloor (x : Dy) : Int := if x.e ≥ 0 then x.m * (2 ^ x.e.toNat : Nat) else x.m.fdiv (2 ^ (-x.e).toNat : Nat)

/-- |x| rounded to a multiple of 2^q, as that multiple: q_lo, q_hi and frac of R44. For SR, `r` is the hash value. -/
def roundMag (x : Dy) (q : Int) (mode : Rnd) (r : Nat) : Nat :=
  let n := x.m.natAbs
  if q ≤ x.e then n * 2 ^ (x.e - q).toNat
  else
    let sh := (q - x.e).toNat
    let lo := n >>> sh
    let rem := n % 2 ^ sh
    match mode with
    | .rtz => lo
    | .rne => if 2 ^ sh < 2 * rem ∨ (2 * rem = 2 ^ sh ∧ lo % 2 = 1) then lo + 1 else lo
    | .sr => if r < (rem * 65536) >>> sh then lo + 1 else lo

/-! ## Formats -/

/-- Width in bits (R30). -/
def fmtBits : Fmt → Nat
  | .fp32 => 32 | .bf16 => 16 | .fp16 => 16 | .e4m3 => 8 | .e5m2 => 8 | .e3m2 => 6 | .e2m3 => 6 | .e2m1 => 4
  | .int8 => 8 | .int32 => 32 | .e8m0 => 8
/-- Mantissa bits (R30). -/
def fmtMant : Fmt → Nat
  | .fp32 => 23 | .bf16 => 7 | .fp16 => 10 | .e4m3 => 3 | .e5m2 => 2 | .e3m2 => 2 | .e2m3 => 3 | .e2m1 => 1
  | _ => 0
/-- Exponent bits (R30). -/
def fmtExpBits : Fmt → Nat
  | .fp32 => 8 | .bf16 => 8 | .fp16 => 5 | .e4m3 => 4 | .e5m2 => 5 | .e3m2 => 3 | .e2m3 => 2 | .e2m1 => 2
  | .e8m0 => 8 | _ => 0
/-- Exponent bias (R30). -/
def fmtBias : Fmt → Int
  | .fp32 => 127 | .bf16 => 127 | .fp16 => 15 | .e4m3 => 7 | .e5m2 => 15 | .e3m2 => 3 | .e2m3 => 1 | .e2m1 => 1
  | .e8m0 => 127 | _ => 0
/-- The code of the largest finite magnitude (R30, R42). -/
def fmtMaxCode : Fmt → Nat
  | .fp32 => 0x7F7FFFFF | .bf16 => 0x7F7F | .fp16 => 0x7BFF | .e4m3 => 0x7E | .e5m2 => 0x7B | .e3m2 => 0x1F
  | .e2m3 => 0x1F | .e2m1 => 0x7 | .int8 => 0x7F | .int32 => 0x7FFFFFFF | .e8m0 => 0xFE
/-- Is it an integer format? -/
def fmtIsInt : Fmt → Bool
  | .int8 => true | .int32 => true | _ => false

/-- The FORMAT codes of R39; codes 0xA to 0xE are reserved and 0xF is "from recipe". -/
def fmtOfCode : Nat → Option Fmt
  | 0 => some .fp32 | 1 => some .bf16 | 2 => some .fp16 | 3 => some .e4m3 | 4 => some .e5m2 | 5 => some .e3m2
  | 6 => some .e2m3 | 7 => some .e2m1 | 8 => some .int8 | 9 => some .int32 | _ => none

/-- The magnitude of a code whose sign bit is clear, no special encoding considered (R30). -/
def floatMag (f : Fmt) (c : Nat) : Dy :=
  let p := fmtMant f
  let ex := c >>> p
  let ma := c % 2 ^ p
  if ex = 0 then (if f = .fp32 then dyZero else ⟨ma, 1 - fmtBias f - p⟩)
  else ⟨(2 ^ p + ma : Nat), (ex : Int) - fmtBias f - p⟩

/-- Is the code's magnitude a NaN (`true`), an infinity (`false`), or neither (R30)? -/
def special (f : Fmt) (mag : Nat) : Option Bool :=
  match f with
  | .fp32 => if mag >>> 23 = 0xFF then some (decide (mag % 2 ^ 23 ≠ 0)) else none
  | .bf16 => if mag >>> 7 = 0xFF then some (decide (mag % 2 ^ 7 ≠ 0)) else none
  | .fp16 => if mag >>> 10 = 0x1F then some (decide (mag % 2 ^ 10 ≠ 0)) else none
  | .e4m3 => if mag = 0x7F then some true else none
  | .e5m2 => if mag >>> 2 = 0x1F then some (decide (mag % 4 ≠ 0)) else none
  | _ => none

/-- The value of a code read from memory, with the scrub of R34 told, and the FP32 subnormal flush of R33. -/
def decodeCode (f : Fmt) (c : Nat) : Dy × Bool :=
  match f with
  | .int8 => (dyInt (signedOf 8 c), false)
  | .int32 => (dyInt (signedOf 32 c), false)
  | .e8m0 => if c % 256 = 0xFF then (dyPow2 (-127), true) else (dyPow2 ((c % 256 : Nat) - 127), false)
  | _ =>
    let sb := fmtBits f - 1
    let mag := c % 2 ^ sb
    let neg := c.testBit sb
    let sg : Dy → Dy := fun x => if neg then dyNeg x else x
    match special f mag with
    | some true => (dyZero, true)
    | some false => (sg (floatMag f (fmtMaxCode f)), true)
    | none => (sg (floatMag f mag), false)

/-- Read one code, counting a scrub (R34). -/
def readCode (f : Fmt) (c : Nat) : Cnt Dy := do
  let (x, s) := decodeCode f c
  if s then cntScrub 1
  return x

/-- The largest finite value of a format (R42). -/
def fmtMax : Fmt → Dy
  | .int8 => dyInt 127
  | .int32 => dyInt (2 ^ 31 - 1)
  | f => floatMag f (fmtMaxCode f)

/-- The spacing exponent at which R41 step 4 rounds: unbounded exponent above, the format's subnormal spacing below;
FP32 has 24-bit precision and no subnormals. -/
def spacing (f : Fmt) (t : Dy) : Int :=
  if fmtIsInt f then 0
  else if f = .fp32 then dyLog2 t - 23
  else max (dyLog2 t) (1 - fmtBias f) - fmtMant f

/-- The code of a magnitude `n * 2^q` that the format holds exactly, with its sign; a zero is +0 (R35). -/
def encodeMag (f : Fmt) (n : Nat) (q : Int) (neg : Bool) : Nat :=
  if n = 0 then 0
  else match f with
  | .int8 => if neg then (256 - n * 2 ^ q.toNat) % 256 else n * 2 ^ q.toNat
  | .int32 => if neg then (2 ^ 32 - n * 2 ^ q.toNat) % 2 ^ 32 else n * 2 ^ q.toNat
  | _ =>
    let p := fmtMant f
    let e : Int := (n.log2 : Int) + q
    let emin : Int := 1 - fmtBias f
    let s := if neg then 2 ^ (fmtBits f - 1) else 0
    let at_ : Int → Nat := fun sp => if sp ≤ q then n * 2 ^ (q - sp).toNat else n >>> (sp - q).toNat
    if e < emin then s + at_ (emin - p)
    else s + (e + fmtBias f).toNat * 2 ^ p + (at_ (e - p) - 2 ^ p)

/-- Steps 4 and 5 of R41 on one value: round, saturate, flush, normalise the sign; counts of R42 and R43. -/
def roundTo (f : Fmt) (mode : Rnd) (r : Nat) (t : Dy) : Cnt Nat := do
  if dyIsZero t then return 0
  let q := spacing f t
  let n := roundMag t q mode r
  let v : Dy := ⟨n, q⟩
  let neg := decide (t.m < 0)
  if dyLt (fmtMax f) v then
    cntOvf 1
    return if fmtIsInt f && neg then 2 ^ fmtBits f - fmtMaxCode f
           else fmtMaxCode f + (if neg then 2 ^ (fmtBits f - 1) else 0)
  else if n = 0 ∨ (f = .fp32 ∧ dyLt v (dyPow2 (-126))) then
    cntUfz 1
    return 0
  else return encodeMag f n q neg

/-! ## Stochastic rounding hash and block scaling -/

/-- The 16-bit value r of R45: 64-bit products modulo 2^64, logical shifts, TENSOR_ID zero-extended. -/
def srHash (seed : Dword) (tid : Word) (idx : Nat) : Nat :=
  let i : Dword := BitVec.ofNat 64 idx
  let x := seed ^^^ (tid.setWidth 64 * 0x9E3779B97F4A7C15#64) ^^^ (i * 0xC2B2AE3D27D4EB4F#64)
  let x := x ^^^ (x >>> 31)
  let x := x * 0xBF58476D1CE4E5B9#64
  let x := x ^^^ (x >>> 27)
  let x := x * 0x94D049BB133111EB#64
  let x := x ^^^ (x >>> 31)
  x.toNat % 65536

/-- The largest exponents of R47. -/
def fmtEmax : Fmt → Int
  | .e4m3 => 8 | .e5m2 => 15 | .e3m2 => 4 | .e2m3 => 2 | .e2m1 => 2 | .int8 => 6 | .fp16 => 15 | .bf16 => 127
  | _ => 0

/-- The scale exponent of a block from its largest magnitude (R47). -/
def blockScale (f : Fmt) (amax : Dy) : Int :=
  if dyIsZero amax then -127 else max (-127) (min 127 (dyLog2 amax - fmtEmax f))

/-- The largest magnitude of a list. -/
def dyAmax (ts : List Dy) : Dy := ts.foldl (fun a t => if dyLt a (dyAbs t) then dyAbs t else a) dyZero

/-- What an output conversion needs, recipe and descriptor resolved (R38, R39, R52, R53). -/
structure Conv where
  scale : Dy
  bound : Dy
  fmt : Fmt
  mode : Rnd
  bs : Bool
  seed : Dword
  tid : Word
  deriving DecidableEq, Repr

/-- Steps 1 and 2 of R41: t = a * SCALE + bias exactly, then the clip. -/
def convClip (c : Conv) (a bias : Dy) : Cnt Dy := do
  let t := dyAdd (dyMul a c.scale) bias
  if !dyIsZero c.bound && dyLt c.bound (dyAbs t) then
    cntSat 1
    return if t.m < 0 then dyNeg c.bound else c.bound
  else return t

/-- Steps 4 and 5 of R41 on a value already block-scaled. -/
def convRound (c : Conv) (idx : Nat) (t : Dy) : Cnt Nat :=
  roundTo c.fmt c.mode (srHash c.seed c.tid idx) t

/-- One block of 32 elements with their element indices: the codes and the scale byte (R47). -/
def convBlock (c : Conv) (ts : List (Dy × Nat)) : Cnt (List Nat × Nat) := do
  let amax := dyAmax (ts.map (·.1))
  let s := blockScale c.fmt amax
  let codes ← ts.mapM fun (t, i) => convRound c i (dyShift t (-s))
  return (codes, (s + 127).toNat)

/-- A list cut into blocks of 32, at most `fuel` blocks. -/
def blocks32 {α : Type} : Nat → List α → List (List α)
  | 0, _ => []
  | n + 1, l => if l.isEmpty then [] else l.take 32 :: blocks32 n (l.drop 32)

/-- A row of clipped values with their element indices: codes and, when block-scaled, scale bytes (R41 steps 3 to 5, R48). -/
def convRow (c : Conv) (ts : List (Dy × Nat)) : Cnt (List Nat × List Nat) :=
  if c.bs then do
    let bl ← (blocks32 ts.length ts).mapM (convBlock c)
    return (bl.flatMap (·.1), bl.map (·.2))
  else do
    let codes ← ts.mapM fun (t, i) => convRound c i t
    return (codes, [])

/-! ## Packing (R32) -/

/-- Four 6-bit elements in three bytes, the last group padded with zeros. -/
def pack6 : List Nat → List Byte
  | a :: b :: c :: d :: r => natLE 3 (a % 64 + 64 * (b % 64) + 4096 * (c % 64) + 262144 * (d % 64)) ++ pack6 r
  | [] => []
  | [a] => natLE 3 (a % 64)
  | [a, b] => natLE 3 (a % 64 + 64 * (b % 64))
  | [a, b, c] => natLE 3 (a % 64 + 64 * (b % 64) + 4096 * (c % 64))

/-- Two 4-bit elements in a byte, the even element in bits [3:0]. -/
def pack4 : List Nat → List Byte
  | a :: b :: r => b8 (a % 16 + 16 * (b % 16)) :: pack4 r
  | [a] => [b8 (a % 16)]
  | [] => []

/-- A sequence of codes packed in memory order (R32). -/
def packCodes (f : Fmt) (cs : List Nat) : List Byte :=
  match fmtBits f with
  | 6 => pack6 cs
  | 4 => pack4 cs
  | b => cs.flatMap (natLE (b / 8))

/-- Bytes that `n` packed elements occupy (R32). -/
def packBytes (f : Fmt) (n : Nat) : Nat :=
  match fmtBits f with
  | 6 => cdiv n 4 * 3
  | 4 => cdiv n 2
  | b => n * (b / 8)

/-- Element `i` of a packed sequence (R32). -/
def unpackAt (f : Fmt) (bs : List Byte) (i : Nat) : Nat :=
  match fmtBits f with
  | 6 => (rd bs (3 * (i / 4)) 3 >>> (6 * (i % 4))) % 64
  | 4 => (rd bs (i / 2) 1 >>> (4 * (i % 2))) % 16
  | b => rd bs (i * (b / 8)) (b / 8)

/-- The first `n` elements of a packed sequence, one pass (R32). -/
def unpackGo (f : Fmt) : Nat → List Byte → List Nat
  | 0, _ => []
  | n + 1, bs =>
    match fmtBits f with
    | 6 => let g := leNat (bs.take 3); [g % 64, g / 64 % 64, g / 4096 % 64, g / 262144 % 64] ++ unpackGo f n (bs.drop 3)
    | 4 => let g := leNat (bs.take 1); [g % 16, g / 16] ++ unpackGo f n (bs.drop 1)
    | b => leNat (bs.take (b / 8)) :: unpackGo f n (bs.drop (b / 8))

/-- The first `n` elements of a packed sequence. -/
def unpackCodes (f : Fmt) (n : Nat) (bs : List Byte) : List Nat := (unpackGo f n bs).take n

/-! ## FP32 arithmetic (R156): one rounding to nearest even, saturation counted (R36), flush not counted, zero is +0 -/

/-- The exact value of an FP32 word (R33, R34: subnormals and NaN read as +0, infinities as the largest finite value). -/
def fval (w : Word) : Dy := (decodeCode .fp32 w.toNat).1

/-- The exact value of an FP32 pattern in an engine's lane. Beside FP32 values a lane holds the elements of formats of 16 bits or
fewer exactly (R33, R158), the smallest of them as patterns with a zero exponent field. (DESIGN CHOICE, log 50) -/
def lval (w : Word) : Dy :=
  if fld w 30 23 = 0 then ⟨if bitOf w 31 then -(fld w 22 0 : Int) else fld w 22 0, -149⟩ else fval w

/-- An exact value as FP32 inside an engine (R156, R36). -/
def fround (t : Dy) : Cnt Word := do
  if dyIsZero t then return 0
  let q := dyLog2 t - 23
  let n := roundMag t q .rne 0
  let v : Dy := ⟨n, q⟩
  let neg := decide (t.m < 0)
  if dyLt (fmtMax .fp32) v then
    cntOvf 1
    return if neg then 0xFF7FFFFF else 0x7F7FFFFF
  else if dyLt v (dyPow2 (-126)) then return 0
  else return w32 (encodeMag .fp32 n q neg)

/-- round(a + b). -/
def fadd (a b : Word) : Cnt Word := fround (dyAdd (lval a) (lval b))
/-- round(a - b). -/
def fsub (a b : Word) : Cnt Word := fround (dySub (lval a) (lval b))
/-- round(a * b). -/
def fmul (a b : Word) : Cnt Word := fround (dyMul (lval a) (lval b))
/-- fma(a, b, c) = round(a * b + c). -/
def ffma (a b c : Word) : Cnt Word := fround (dyAdd (dyMul (lval a) (lval b)) (lval c))
/-- The negation of an FP32 word; zero stays +0. -/
def fneg (a : Word) : Word := if dyIsZero (lval a) then 0 else a ^^^ 0x80000000
/-- An FP32 word as read: specials and subnormals replaced (R33, R34), −0 as +0. -/
def fclean (a : Word) : Word :=
  let x := decodeCode .fp32 a.toNat
  if dyIsZero x.1 then 0 else if x.2 then (if a.toNat.testBit 31 then 0xFF7FFFFF else 0x7F7FFFFF) else a
/-- Lane words compare by value (R35). -/
def flt (a b : Word) : Bool := dyLt (lval a) (lval b)
/-- Less or equal by value. -/
def fle (a b : Word) : Bool := dyLe (lval a) (lval b)
/-- Is the value zero? -/
def fzero (a : Word) : Bool := dyIsZero (lval a)
/-- maximum(a, b). -/
def fmax (a b : Word) : Word := if flt a b then b else a
/-- minimum(a, b). -/
def fmin (a b : Word) : Word := if flt b a then b else a
/-- Does an FP32 word hold a NaN or an infinity? -/
def fspecial (a : Word) : Bool := fld a 30 23 == 0xFF
/-- The FP32 constants of the manual. -/
def f1 : Word := 0x3F800000
/-- −1.0. -/
def fm1 : Word := 0xBF800000
/-- M_NONE (R157). -/
def mNone : Word := 0xFF7FFFFF
/-- The largest finite FP32 value. -/
def fBig : Word := 0x7F7FFFFF

/-- A quotient of non-zero numbers with a sticky bit below 27 or more quotient bits: it rounds as the exact one. -/
def quoDy (x y : Dy) : Dy :=
  let a := x.m.natAbs
  let b := y.m.natAbs
  let s := (28 + b.log2) - a.log2
  let n := a * 2 ^ s
  let q := n / b
  let st := if n % b = 0 then 0 else 1
  let neg := decide (x.m < 0) != decide (y.m < 0)
  ⟨if neg then -((2 * q + st : Nat) : Int) else (2 * q + st : Nat), x.e - y.e - s - 1⟩

/-- x / y, with the defined results of R157. -/
def fdiv (x y : Word) : Cnt Word :=
  if fzero y then do
    cntDom 1
    return if fzero x then 0 else if (lval x).m < 0 then 0xFF7FFFFF else 0x7F7FFFFF
  else if fzero x then return 0
  else fround (quoDy (lval x) (lval y))

/-- Integer square root, one bit a step. -/
def isqrtGo (n : Nat) : Nat → Nat → Nat
  | 0, r => r
  | k + 1, r => let t := r + 2 ^ k; if t * t ≤ n then isqrtGo n k t else isqrtGo n k r

/-- floor(sqrt n). -/
def isqrt (n : Nat) : Nat := isqrtGo n (n.log2 / 2 + 1) 0

/-- A square root with a sticky bit (x positive). -/
def sqrtDy (x : Dy) : Dy :=
  let odd := x.e % 2 != 0
  let m := if odd then 2 * x.m.natAbs else x.m.natAbs
  let e := if odd then x.e - 1 else x.e
  let n := m * 2 ^ 60
  let r := isqrt n
  let st := if r * r = n then 0 else 1
  ⟨(2 * r + st : Nat), e / 2 - 31⟩

/-- A reciprocal square root with a sticky bit (x positive). -/
def rsqrtDy (x : Dy) : Dy :=
  let odd := x.e % 2 != 0
  let m := if odd then 2 * x.m.natAbs else x.m.natAbs
  let e := if odd then x.e - 1 else x.e
  let s := 40 + m.log2
  let n := 2 ^ (2 * s)
  let r := isqrt (n / m)
  let st := if r * r * m = n then 0 else 1
  ⟨(2 * r + st : Nat), -(e / 2) - s - 1⟩

/-- sqrt(x), with the defined result of R157. -/
def fsqrt (x : Word) : Cnt Word :=
  if fzero x then return 0
  else if (lval x).m < 0 then do cntDom 1; return 0
  else fround (sqrtDy (lval x))

/-- rsqrt(x), with the defined results of R157. -/
def frsqrt (x : Word) : Cnt Word :=
  if fzero x then do cntDom 1; return 0x7F7FFFFF
  else if (lval x).m < 0 then do cntDom 1; return 0
  else fround (rsqrtDy (lval x))

/-- A code of a stored element as FP32, with its block scale exponent (R49, R158): the product saturates counted, and
below 2^-126 becomes +0 without counting. -/
def readF (f : Fmt) (c : Nat) (s : Int) : Cnt Word := do
  let x ← readCode f c
  fround (dyShift x s)

/-- A code of an element without a block scale, exactly (R33, R34, R158): a subnormal of a format of 16 bits or fewer stays, and so
does its -0, which compares as +0 (R35); an INT32 code rounds as an FP32 value does. A BF16 value below the smallest normal FP32 value
becomes an FP32 pattern with a zero exponent field: so TOPK writes it to VAL_OUT (R232), and a TOPK that reads VAL_OUT as FP32 takes it as
+0 (R33), so that R234's equality fails for such keys. (DESIGN CHOICE, log 50) -/
def readX (f : Fmt) (c : Nat) : Cnt Word := do
  let x ← readCode f c
  if f = .int32 then fround x
  else if x.m ≠ 0 then return w32 (encodeMag .fp32 x.m.natAbs x.e (decide (x.m < 0)))
  else return if f ≠ .fp32 ∧ !fmtIsInt f ∧ c % 2 ^ fmtBits f = 2 ^ (fmtBits f - 1) then 0x80000000 else 0

/-- An element of a tensor: exactly, or times its block scale when the tensor is block-scaled (R49, R158). -/
def readEl (f : Fmt) (bs : Bool) (c : Nat) (s : Int) : Cnt Word := if bs then readF f c s else readX f c

/-- A scale byte as its exponent; 0xFF reads as 0x00 and counts (R34). -/
def readScale (b : Nat) : Cnt Int := do
  if b % 256 = 0xFF then
    cntScrub 1
    return -127
  else return ((b % 256 : Nat) : Int) - 127

/-- A piece of the split of R54: the top 16 bits of an FP32 word, as an exact value truncated to BF16. -/
def truncBf16 (x : Dy) : Dy :=
  if dyIsZero x then dyZero
  else
    let q := spacing .bf16 x
    let n := roundMag x q .rtz 0
    ⟨if x.m < 0 then -(n : Int) else n, q⟩

/-! ## Histograms (R57) -/

/-- The bin of a value for a base exponent B. -/
def histBin (base : Int) (t : Dy) : Nat :=
  if dyIsZero t then 0
  else
    let e := dyLog2 t
    if e ≤ base then 1 else if base + 62 ≤ e then 63 else (e - base).toNat + 1

/-! ## Recipes (R50 to R52) -/

/-- Formats a recipe permits for a kind: the first is its choice, with its block scaling. Kinds 3 and 6 are R51's. -/
def recipeFmts (recipe kind : Nat) : List (Fmt × Bool) :=
  match kind with
  | 0 => match recipe with
    | 0 => [(.e4m3, true), (.e2m1, true)] | 1 => [(.e4m3, true), (.e2m1, true)] | 2 => [(.bf16, false)]
    | 3 => [(.e2m1, true), (.e4m3, true)] | 4 => [(.e2m3, true), (.e4m3, true)] | 5 => [(.int8, true)]
    | 6 => [(.fp16, true)] | 7 => [(.e4m3, true), (.e2m1, true)] | _ => []
  | 1 => match recipe with
    | 0 => [(.e4m3, true)] | 1 => [(.bf16, false)] | 2 => [(.bf16, false)] | 3 => [(.e4m3, true)]
    | 4 => [(.e4m3, true)] | 5 => [(.int8, true)] | 6 => [(.fp16, true)] | 7 => [(.e4m3, true)] | _ => []
  | 2 => match recipe with
    | 0 => [(.e5m2, true)] | 1 => [(.bf16, false)] | 2 => [(.bf16, false)] | 3 => [(.e5m2, true)]
    | 4 => [(.e5m2, true)] | 6 => [(.fp16, true)] | 7 => [(.e5m2, true)] | _ => []
  | 3 => [(.fp32, false)]
  | 4 => match recipe with
    | 0 => [(.bf16, true)] | 1 => [(.bf16, true)] | 2 => [(.fp32, false)] | 3 => [(.bf16, true)]
    | 4 => [(.bf16, true)] | 6 => [(.fp32, false)] | 7 => [(.bf16, true)] | _ => []
  | 5 => [(.fp32, false)]
  | 6 => [(.fp32, false)]
  | _ => []

/-- The rounding a recipe takes for a kind (R52). -/
def recipeRound (recipe kind : Nat) : Rnd :=
  if recipe = 7 then .rne else if kind = 2 ∨ kind = 4 then .sr else .rne

end Sys2Proof.Machine
end

