-- ==== Sys2Proof/Machine/State.lean ====
section
/-! DEFINITION. The state of the module: everything the manual gives it, as plain data, and the state after the always-on
domain starts (R483). Plain status registers and counters live in one register file keyed by register address (R399);
what has a structure of its own lives in fields of its own, and its registers are computed views. -/

namespace Sys2Proof.Machine

/-! ## Memory (04_store_rooms_and_tiles.md, 09_cellar_loft_and_attic.md) -/

/-- All byte memory. A key is die * 2^48 + local address for what a die has alone, and 8 * 2^48 + local address for the loft and
the attic. The bytes are those that were written; what an external tier's cells store of them is their encryption under the present
slice key, in code words (R249, R254). (DESIGN CHOICE, log 10 and 12) -/
structure Mem where
  cells : List Host.Cell := []
  /-- Check words by tile key, unlisted the check word of a zero tile. -/
  checks : NMap Word := []
  /-- Upsets: by 64-byte unit, the stored bits that have changed since they were written. (DESIGN CHOICE, log 11) -/
  errs : NMap Nat := []
  /-- Upsets of the check words that the store rooms and the gradient buffer hold beside their banks (R112), by tile. -/
  chkErrs : NMap Nat := []
  /-- Units whose corrected contents wait to be written back, and the upsets that then stay (R116, R248). -/
  back : NMap (Option Nat) := []
  deriving DecidableEq, Repr

/-! ## Schedules (03_schedules_queues_and_tokens.md) -/

/-- The states of a die's schedule (R66), in the order of SEQ_STATUS.STATE (R98). -/
inductive Sched where
  | empty | loaded | armed | running | stopping | stopped | halted
  deriving DecidableEq, Repr

/-- The power states (R451), coded as PWR_SET and PWR_STATE code them. -/
inductive Pw where
  | run | idle | nap | deep | off
  deriving DecidableEq, Repr

/-- The states of an engine (R91, R97). -/
inductive EngSt where
  | run | idle | nap | waking
  deriving DecidableEq, Repr

/-- An engine of the engine mask (R93). -/
structure Eng where
  st : EngSt := .run
  /-- The level a SLEEP named and the engine has not yet entered; `true` is Nap. -/
  sleepTo : Option Bool := none
  /-- Beats for which its queue has held no command for it (R91). -/
  quiet : Nat := 0
  /-- Beats that it has spent in Idle (R91). -/
  idle : Nat := 0
  deriving DecidableEq, Repr

/-- A summary slot (R83). -/
structure Summary where
  max : Word := 0
  min : Word := 0
  sum : Word := 0
  sat : Word := 0
  scrub : Word := 0
  flags : Word := 0
  status : Byte := 0
  cmd : Word := 0
  deriving DecidableEq, Repr

/-- A command waiting in a queue: its index and its sixteen words (R70). -/
structure Queued where
  idx : Nat
  words : List Word
  /-- The module beat in which its budget clock started (R78), once it has. -/
  clock : Option Nat := none
  /-- TIMING so far: its clock may run past its budget while its engine wakes or is busy (R78). -/
  timing : Byte := 0
  deriving DecidableEq, Repr

/-- A command started and not yet completed. -/
structure Started where
  idx : Nat
  words : List Word
  /-- The module beat in which its budget clock started (R78). -/
  clock : Nat
  /-- The outcome its work has had so far (R87). -/
  status : Byte := 0
  /-- TIMING: OK, OVERRUN or SUBSUMED. -/
  timing : Byte := 0
  ctr : Ctr := {}
  /-- Its own number on its die. -/
  uid : Nat := 0
  /-- Its completion is held for log space (R89). -/
  held : Bool := false
  /-- Its work is not yet done (a phase, a window copy, a delivery on its way). -/
  busy : Bool := false
  /-- What the engine keeps of it: the port, the stream or the slot it occupies. -/
  note : Nat := 0
  /-- The summary it writes into a slot as it completes (R174, R176). -/
  summ : Option (Nat × Summary) := none
  /-- Its 64 private bins, and the record that takes them as it completes (R178). -/
  feed : Option (Nat × List Nat) := none
  deriving DecidableEq, Repr

/-- The sequencer of a die (R60 to R69, R97, R98). (DESIGN CHOICE, log 9) -/
structure Seq where
  st : Sched := .empty
  haltClass : Nat := 0
  haltStatus : Byte := 0
  haltValid : Bool := false
  /-- The command space (R62), 16 words a command. -/
  space : List (List Word) := []
  pc : Nat := 0
  /-- The target `t` of the fetch window (R62). -/
  window : Nat := 0
  stack : List Nat := []
  /-- The sequencer fetches: cleared by STOP, a failure and a stop packet. -/
  fetching : Bool := false
  /-- STOP has been executed in this run. -/
  stopped : Bool := false
  /-- The start beat has come since the die was last armed. -/
  ran : Bool := false
  startBeat : Nat := 0
  logWr : Word := 0
  logRd : Word := 0
  overruns : Word := 0
  logStalls : Word := 0
  logBase : Nat := 0
  logN : Nat := 0
  /-- When the waits of the control command at `pc` first held at a beat edge, and whether its completion is held. -/
  ctlClock : Option Nat := none
  ctlHeld : Bool := false
  /-- What a held control command has settled: its TIMING, and whether its condition held. -/
  ctlTiming : Byte := 0
  ctlTaken : Bool := false
  idleHold : Nat := 0
  napHold : Nat := 0
  /-- Queues (0 to 8, and 15 for the control queue) that have overrun in this run (R80), and queues a failure halted. -/
  overrun : List Nat := []
  halted : List Nat := []
  deriving DecidableEq, Repr

/-! ## Engines -/

/-- What an ME and its VE hold (05_matrix_engines.md, 06_vector_engines.md). -/
structure MeVe where
  /-- The two accumulator banks: row * 512 + column, FP32, unlisted +0 (R133). -/
  bank0 : NMap Word := []
  bank1 : NMap Word := []
  /-- Placement of SETPOS (R180). -/
  row0 : Nat := 0
  col0 : Nat := 0
  rowLen : Nat := 0
  maskOff : Nat := 0
  /-- Function table slots: slot * 4096 + byte (R162), and which are valid. -/
  tables : NMap Byte := []
  valid : NMap Bool := []
  deriving DecidableEq, Repr

/-- A Gecko context (R282): 128 static bytes and 64 bytes of per-step record. -/
structure Context where
  static : List Byte
  step : List Byte
  deriving DecidableEq, Repr

/-- The state of an epoch number on a die (R353). -/
inductive EpSt where
  | idle | open_ | closed | aborted
  deriving DecidableEq, Repr

/-- An open epoch slot (R370, R385). -/
structure EpSlot where
  red : Nat
  number : Nat
  buckets : Nat
  abortTokens : List Nat := []
  committed : NMap Bool := []
  quantised : NMap Bool := []
  deriving DecidableEq, Repr

/-- A window copy under way (R344): tiles asked for so far, and the request tags without an answer. -/
structure WinRun where
  uid : Nat
  next : Nat
  waiting : List Nat := []
  deriving DecidableEq, Repr

/-- A tile in a frog engine's run-ahead buffer that its stream has not consumed (R213): the stream, how many of its accesses ahead, the
tile. -/
structure Ahead where
  stream : Nat
  dist : Nat
  tile : Nat
  deriving DecidableEq, Repr

/-- What a frog command whose rows have run leaves to be counted as it completes (R211 to R214): its engine and stream; the accesses it
consumed, and of those the ones that run-ahead had not reached (`base`); whether the last one, which failed, had been run ahead, so that its
tile was discarded and is read again; the accesses that its run-ahead met and did not issue, those it issued and did not consume; the slots
that its run-ahead can hold at a time, and the most that all streams of its engine could hold at a time while it ran. Then what evictions
have made of it so far: how many of its consumed tiles were evicted and read again, whether the discarded one was evicted before, and how
many of its demand accesses have evicted a tile, of those run-ahead had not reached and of those that read again. A command that has
completed stays, with the number that the next command takes, while one that ran beside it still runs. -/
structure AheadRun where
  uid : Nat
  engine : Nat
  stream : Nat
  used : Nat := 0
  base : Nat := 0
  dropped : Bool := false
  met : Nat := 0
  left : Nat := 0
  slots : Nat := 0
  peak : Nat := 0
  reread : Nat := 0
  lost : Bool := false
  baseSpent : Nat := 0
  againSpent : Nat := 0
  ended : Option Nat := none
  deriving DecidableEq, Repr

/-- One Nirit die. (DESIGN CHOICE, log 9) -/
structure Die where
  pw : Pw := .off
  /-- The target of a power transition under way (R455). -/
  target : Option Pw := none
  /-- Held in reset or fused off: reported ABSENT (R19, R420). -/
  absent : Bool := false
  seq : Seq := {}
  queues : Vector (List Queued) 9 := Vector.replicate 9 []
  started : List Started := []
  /-- The last run passed from Running to Stopped through STOP (R492). -/
  cleanStop : Bool := false
  /-- Beats in Run since the die last left Deep or Off (R471). -/
  up : Nat := 0
  /-- The number the next started command takes, and the window copy under way (R344). -/
  nextUid : Nat := 0
  win : Option WinRun := none
  eng : Vector Eng 17 := Vector.replicate 17 {}
  tokens : NMap Word := []
  marks : NMap Bool := []
  qsum : Vector (Vector Word 4) 9 := Vector.replicate 9 (Vector.replicate 4 0)
  summ : Vector Summary 16 := Vector.replicate 16 {}
  mv : Vector MeVe 4 := Vector.replicate 4 {}
  /-- The run-ahead buffers of the frog engines, at most 1,024 tiles each (R213). -/
  ahead : Vector (List Ahead) 8 := Vector.replicate 8 []
  /-- The frog commands whose run-ahead is still to be counted (R214). -/
  runs : List AheadRun := []
  /-- The beat since always-on start, plus one, in which the newt engine, and the sorter, was last counted as busy (R238). -/
  auxBeat : Vector Nat 2 := Vector.replicate 2 0
  /-- Histogram records, 272 bytes each, from record 0 on (R177). -/
  hist : NMap Byte := []
  ctx : List (Nat × Context) := []
  /-- The retention store of STEP (R301). -/
  retained : NMap Word := []
  epochs : NMap EpSt := []
  slots : Vector (Option EpSlot) 16 := Vector.replicate 16 none
  /-- FAIL_EPOCH and FAIL_STATUS hold the first failure since their flags were last cleared (R386). -/
  redFailed : Bool := false
  deriving DecidableEq, Repr

/-! ## Ports (11_chivary_fabric.md) -/

/-- The states of a port (R309). -/
inductive PortSt where
  | disabled | down | training | up
  deriving DecidableEq, Repr

/-- A sequenced frame in the retry buffer (R323): its SEQ and its bytes without the CRC, which each transmission makes afresh. -/
structure TxFrame where
  seq : Nat
  bytes : List Byte
  deriving DecidableEq, Repr

/-- A phase on one port (R330). -/
structure PhaseRun where
  uid : Nat
  table : Nat
  start : Nat
  slack : Nat
  epoch : Nat
  /-- The slot that goes next. -/
  next : Nat := 0
  firstSeq : Option Nat := none
  lastSeq : Option Nat := none
  failed : Bool := false
  /-- A watchdog decision is deferred (R332). -/
  deferred : Bool := false
  /-- The lag of the slot that started last, in always-on cycles (R329). -/
  lag : Nat := 0
  /-- The first schedule beat in which that slot can have ended, of a VALID one (R327). -/
  ends : Option Nat := none
  /-- Its frames, and the first schedule beat in which it has ended for certain, with no episode and no width change under way. -/
  frames : Nat := 0
  sure : Nat := 0
  deriving DecidableEq, Repr

/-- A retry episode (R321): replays so far, the transmit SEQ at its start, and whether it has lost a lane (R322). -/
structure Episode where
  replays : Nat
  upTo : Nat
  degraded : Bool := false
  deriving DecidableEq, Repr

/-- A Chivary port. (DESIGN CHOICE, log 9) -/
structure Port where
  st : PortSt := .down
  width : Nat := 0
  /-- Lanes excluded since training (R322). -/
  excluded : List Nat := []
  /-- The next transmit SEQ, in the always-on domain (R319); the frames below `ack` are received, those below `dlv` delivered. -/
  txSeq : Nat := 0
  ack : Nat := 0
  dlv : Nat := 0
  retry : List TxFrame := []
  /-- Header and tile of the frames that wait for room in the buffer, at the receiver or in time (R322, R323). -/
  waiting : List (List Byte) := []
  episode : Option Episode := none
  /-- The 1.0 µs of a width change is running (R322). -/
  changing : Bool := false
  /-- Uncorrectable code words by lane since the last accepted frame, and in the episode (R322). -/
  errSince : List Nat := []
  errEpisode : List Nat := []
  /-- Corrected code words by lane in the epoch-marker interval (R308, R349). -/
  corrected : Vector Nat 8 := Vector.replicate 8 0
  /-- The fibre delay found at training, in always-on cycles (R337). -/
  fibre : Nat := 0
  /-- LAST_FAIL holds the first failure since its flags were last cleared (R350). -/
  failed : Bool := false
  /-- The SEQ the receiver expects; none until the first sequenced frame after training. -/
  rxNext : Option Nat := none
  /-- NAK has been sent since the last accepted frame (R320). -/
  nak : Bool := false
  /-- The refusal repeated until REFUSE_ACK (R336), and whether the entry under way is refused. -/
  refusal : Option (Nat × Byte) := none
  refusing : Bool := false
  /-- The last refusal seen as the sender, which REFUSE_ACK answers. -/
  refSeen : Option Nat := none
  /-- Phases that have not taken the port over, the oldest first (R330). -/
  armed : List PhaseRun := []
  running : Option PhaseRun := none
  /-- Phases that have sent their last slot and wait for DLV. -/
  draining : List PhaseRun := []
  /-- The slot tables of the image, eight words an entry (R325). -/
  tables : List (List (List Word)) := []
  deriving DecidableEq, Repr

/-- A module entry of a membership map (R314). -/
structure MapMod where
  module : Nat
  prot : Bool
  present : Bool
  detour : Nat
  deriving DecidableEq, Repr

/-- A group entry of a membership map (R314). -/
structure MapGroup where
  kind : Nat
  group : Nat
  pos : Nat
  module : Nat
  die : Nat
  deriving DecidableEq, Repr

/-- A membership map (R314). -/
structure MMap where
  z : Nat
  ra : Nat
  rb : Nat
  mods : List MapMod
  groups : List MapGroup
  deriving DecidableEq, Repr

/-- What the fabric holds for the whole module. -/
structure Fab where
  /-- 0 NORMAL, 1 BRINGUP, 2 TEST, 3 RECOVERY (R341). -/
  mode : Nat := 1
  ownerMap : Option MMap := none
  /-- The image map of each partition (R316). -/
  imageMaps : Vector (Option MMap) 8 := Vector.replicate 8 none
  /-- Abort notices on their way: to die, from die, epoch (R356). -/
  notices : List (Nat × Nat × Nat) := []
  deriving DecidableEq, Repr

/-! ## Events (13_control_plane_and_ownership.md R408 to R412) -/

/-- An event before its ring gives it a PHASE: the bytes of R408. -/
structure Event where
  area : Nat
  code : Nat
  status : Byte
  /-- The 32-bit word at offset 4: unit, block and number within the block. -/
  where_ : Word
  beat : Dword
  sub : Byte
  detail : List Byte
  deriving DecidableEq, Repr

/-- An event in the hold queue: the rings it still waits for; none yet while no ring that routes it is enabled. -/
structure Held where
  ev : Event
  rings : List Nat
  written : Bool := false
  deriving DecidableEq, Repr

/-! ## The control plane (13_control_plane_and_ownership.md) -/

/-- The lease (R401). -/
inductive Lease where
  | free
  | owned (m : Fin 5)
  | pending (m t : Fin 5)
  deriving DecidableEq, Repr

/-- A reply as the module sent it (R392, R393). -/
structure Reply where
  opcode : Half
  hdr : Hdr
  status : Half
  payload : List Byte
  deriving DecidableEq, Repr

/-- An ACCEPTED action that runs (R396). -/
structure Action where
  master : Fin 5
  opcode : Half
  seq : Word
  part : Byte
  payload : List Byte
  /-- The final status it will report, where the action's work already fixed it. -/
  status : Byte := 0
  /-- The module beat in which it was accepted (R495). -/
  beat : Nat := 0
  deriving DecidableEq, Repr

/-- A window access of a packet to another module, whose reply waits for the WRSP (R342, R398). -/
structure WinPkt where
  opcode : Half
  pkt : Pkt
  /-- The die that asks, and the request tag. -/
  die : Nat
  tag : Nat
  /-- A MEM_WRITE has read the tile and sent it back with its bytes. -/
  wrote : Bool := false
  deriving DecidableEq, Repr

/-- A packet that waits, with its opcode and the beat in which it arrived (R67, R394). -/
structure HeldPkt where
  code : Half
  pkt : Pkt
  beat : Nat
  deriving DecidableEq, Repr

/-- The control plane. (DESIGN CHOICE, log 9) -/
structure Ctl where
  lease : Lease := .free
  leaseId : Word := 0
  nextLease : Word := 1
  /-- Always-on cycles left in the lease (R403). -/
  leaseLeft : Nat := 0
  /-- The last reply to each master (R393). -/
  replies : Vector (Option Reply) 5 := Vector.replicate 5 none
  /-- The last 16 ACCEPTED packets of each master, newest first, with their final status once there is one (R396). -/
  accepted : Vector (List (Word × Option Byte)) 5 := Vector.replicate 5 []
  /-- ACCEPTED actions that run. -/
  actions : List Action := []
  /-- MBX_SUBMIT was written through a packet: the unit in MBX_REQ is taken next (R414). -/
  submitted : Bool := false
  /-- A step of QUIESCE has been taken (R473). -/
  quiesced : Bool := false
  winPkt : Option WinPkt := none
  /-- Packets that wait behind the one being acted on, in the order in which their trailers completed; at most 8 of a port (R394). -/
  queue : List HeldPkt := []
  /-- The beat in which the packet arrived that is being taken from the queue; none for one that is taken as it arrives (R67). -/
  arrived : Option Nat := none
  /-- Mailbox interrupts raised at the hub cores' interrupt controller since always-on start (R414). -/
  mbxIrqs : Nat := 0
  /-- The request and reply buffers of the mailbox (R415). -/
  req : NMap Byte := []
  rsp : NMap Byte := []
  deriving DecidableEq, Repr

/-! ## Security, partitions and keys (14_security_and_partitions.md) -/

/-- A pending key exchange (R434): the tenant's identifier and public keys, and the RoT's ephemeral scalar. -/
structure Kx where
  tenantId : List Byte
  pa : Nat × Nat
  ra : Nat × Nat
  scalar : Nat
  /-- The partition key that an accepted SEC_KX_FINISH unwrapped, until its action installs it. -/
  key : Option (List Byte) := none
  deriving DecidableEq, Repr

/-- What the RoT holds. Fuses and flash outlive an always-on start. (DESIGN CHOICE, log 8) -/
structure Sec where
  serial : Nat := (Config.freeWord 0).toNat
  seed : BitVec 256 := Config.freeWide 0
  /-- The debug-token key whose hash is fused, as a point. -/
  tokenKey : Nat × Nat := ((Config.freeWide 1).toNat, (Config.freeWide 2).toNat)
  /-- The firmware-signing key whose hash is fused (R417, R420). -/
  firmKey : Nat × Nat := ((Config.freeWide 3).toNat, (Config.freeWide 4).toNat)
  fuseSeed : Bool := true
  fuseVendor : Bool := true
  fuseSealed : Bool := false
  fuseRetired : Bool := false
  /-- SVN0 to SVN5 (R424). -/
  svn : Vector Nat 6 := Vector.replicate 6 0
  /-- The Service record of the flash (R442). -/
  service : Bool := false
  /-- Bytes SEC_FW_WRITE has put over the image copies: (image * 2 + copy) * 2^32 + offset. -/
  flash : NMap (Option Byte) := []
  /-- The active copy of each image. -/
  active : Vector Nat 5 := Vector.replicate 5 0
  /-- The SVN of the image that runs in each slot, once verified. -/
  imageSvn : Vector (Option Nat) 5 := Vector.replicate 5 none
  /-- SEC_FW_WRITE has written the inactive copy since the last always-on start. -/
  written : Vector Bool 5 := Vector.replicate 5 false
  /-- The last CKPT_ID by partition * 2^32 + KEYGEN (R437). -/
  ckptId : NMap Nat := []
  /-- The end of each port's reserved block of transmit SEQ and the digest of the fabric key it is for (R436). -/
  txEnd : NMap Nat := []
  txDigest : NMap (List Byte) := []
  /-- The control firmware runs; boot recovery (R422); nothing is controlled any more (R419). -/
  fwUp : Bool := false
  recovery : Bool := false
  noControl : Bool := false
  bootFail : Nat := 0
  bootFallback : Nat := 0
  mr : Vector (List Byte) 8 := Vector.replicate 8 (zeros 32)
  /-- SEC_EXTEND is still open (R423). -/
  mr5Open : Bool := true
  rboot : BitVec 256 := 0
  nonce : BitVec 256 := 0
  pk : Vector (Option (List Byte)) 8 := Vector.replicate 8 none
  keygen : Vector Nat 8 := Vector.replicate 8 0
  tenant : Vector Nat 8 := Vector.replicate 8 0
  /-- The partition count P (R429). -/
  parts : Nat := 1
  prot : Nat := 0
  layoutGen : Nat := 0
  /-- 0 None, 1 Observe, 2 Control. -/
  debug : Nat := 0
  /-- LEVEL_MAX and EXPIRY_BEAT of the last accepted token. -/
  token : Option (Nat × Nat) := none
  kx : Vector (Option Kx) 8 := Vector.replicate 8 none
  /-- MR0 to MR4 of the standby RoT (R418). -/
  mrB : Vector (List Byte) 5 := Vector.replicate 5 (zeros 32)
  /-- The controlling RoT is hub B's (R419); the mirror condition (R418). -/
  rotB : Bool := false
  mirrorOk : Bool := false
  /-- The controlling RoT has stopped and no takeover has followed yet. -/
  rotStopped : Bool := false
  /-- Beats since the standby last heard a heartbeat. -/
  unheard : Nat := 0
  /-- Keys installed in each die's controllers (R445, R450). -/
  keysIn : Vector Bool 8 := Vector.replicate 8 false
  /-- The installed XTS keys, 32 bytes each: slice p of tier t at 3p + t, the reserve of hub h at 24 + h (R426). -/
  memKeys : NMap (List Byte) := []
  /-- The flash's record of field repairs: lanes by pseudo-channel (R252). -/
  fieldRepair : NMap (List Nat) := []
  deriving DecidableEq, Repr

/-! ## Images, power and clocks -/

/-- A recipe record (R53). -/
structure Recipe where
  seed : Dword := 0
  path : Byte := 0
  deriving DecidableEq, Repr

/-- What a partition's loaded schedule image leaves beside its dies. (DESIGN CHOICE, log 9) -/
structure Image where
  /-- The resident image, from which a wake from Deep rewrites tables, histograms and contexts (R455). -/
  bytes : List Byte := []
  digest : List Byte := []
  recipes : Vector Recipe 8 := Vector.replicate 8 {}
  deriving DecidableEq, Repr

/-- Power, supply and board (15_power_clocks_and_board.md). (DESIGN CHOICE, log 8) -/
structure Pwr where
  /-- The always-on domain runs. -/
  on : Bool := true
  hub : Vector Pw 2 := Vector.replicate 2 .off
  hubTarget : Vector (Option Pw) 2 := Vector.replicate 2 none
  warnInput : Bool := false
  /-- Rails with a standing warning or reset: die number, 8 and 9 for the hubs. -/
  warnRail : List Nat := []
  resetInput : Bool := false
  resetRail : List Nat := []
  /-- A SUPPLY_RESET event is owed when the hubs next reach Run (R488). -/
  resetEvent : Bool := false
  /-- Dies that have spent a beat below the floor in this run (R466). -/
  belowFloor : List Nat := []
  /-- Dies that the power limit holds below their upper limit (R462, R480). -/
  held : List Nat := []
  /-- The setpoints of the die rails, in steps of 2.5 mV above 650 mV (R461). -/
  rails : Vector Nat 8 := Vector.replicate 8 0
  /-- The beat since always-on start in which a die's arithmetic clock, and its rail, last changed, so far as a mean can show it (R471). -/
  clkMoved : Vector Nat 8 := Vector.replicate 8 0
  railMoved : Vector Nat 8 := Vector.replicate 8 0
  /-- Contacts: enable S3, ready to remove S5 driven low, the front end closed, presence short made (R472, R473, R475). -/
  enable : Bool := true
  ready : Bool := false
  frontEnd : Bool := true
  presence : Bool := true
  deriving DecidableEq, Repr

/-- Clocks and beats (15_power_clocks_and_board.md). (DESIGN CHOICE, log 8) -/
structure Clk where
  /-- The 64-bit module beat number (R460), and the beats since always-on start, whatever CLK_LOAD did. -/
  beat : Nat := 0
  up : Nat := 0
  /-- The module number that the address contacts strap (R475). -/
  module : Nat := 0
  /-- Marker pulses in a row that agreed with the count, up to 16 (R481). -/
  agreed : Nat := 0
  /-- When the last marker pulse came, in reference periods since always-on start: 256 to a beat (R459). -/
  lastPulse : Option Nat := none
  /-- The reference has left tolerance and the clock holds its last frequency (R458). -/
  holdover : Bool := false
  deriving DecidableEq, Repr

/-- What a traffic generator's run was started with: its registers as START finds them (R272, R273). -/
structure GenRun where
  /-- CEL_TG_CTRL. -/
  ctrl : Word := 0
  base : Nat := 0
  limit : Nat := 0
  count : Nat := 0
  /-- The inject mask, one bit for each lane. -/
  inject : Nat := 0
  deriving DecidableEq, Repr

/-- The external memories' channels and the traffic generators' present runs. -/
structure Tiers where
  /-- Channels by number: 0 not trained, 1 trained, 2 failed both attempts. -/
  chan : NMap Nat := []
  /-- Code words corrected by lane in the present interval, by channel number * 64 + lane (R253). -/
  laneHits : NMap Nat := []
  /-- Channels whose generator has been told to stop (R273). -/
  stopping : NMap Bool := []
  /-- The run of a channel's generator, by channel number: what was written to its registers since START belongs to the next one.
  (DESIGN CHOICE, log 42) -/
  runs : NMap GenRun := []
  /-- Snapshot slots that the module holds invalid whatever their records say, by partition * 2 + slot (R489, R496). -/
  badSlots : NMap Bool := []
  deriving DecidableEq, Repr

structure State where
  /-- The commands that wait, first in, first out. (DESIGN CHOICE, log 1) -/
  pending : List Instr := []
  /-- The model's own counter of free values used so far. (DESIGN CHOICE, log 7) -/
  free : Nat := 0
  mem : Mem := {}
  regs : NMap Word := []
  /-- Miss counters of W1C bits (R407), by register address * 32 + bit. -/
  miss : NMap Nat := []
  /-- Region entries that differ from their reset values (R119, R246). -/
  regions : NMap Half := []
  dies : Vector Die 8 := Vector.replicate 8 {}
  hold : List Held := []
  lost : NMap Nat := []
  ports : Vector Port 32 := Vector.replicate 32 {}
  fab : Fab := {}
  ctl : Ctl := {}
  sec : Sec := {}
  images : Vector Image 8 := Vector.replicate 8 {}
  pwr : Pwr := {}
  clk : Clk := {}
  tiers : Tiers := {}
  /-- Snapshot numbers of the partitions (R495). -/
  snapSeq : NMap Nat := []
  deriving DecidableEq, Repr

/-- The module right after the always-on domain has started on the crystal (R483): the lease FREE, every ring disabled,
every die and both hubs Off, the fabric in BRINGUP, no image verified. (DESIGN CHOICE, log 2 and 8) -/
def State.reset : State := {}

/-- Why a step stops: no rule of the manual stops the module without a next state, so nothing raises it (safe). -/
inductive Fault where
  | none_
  deriving DecidableEq, Repr

/-- Why a command is refused. -/
inductive Refusal where
  /-- Raised by the dispatcher for a command that has no meaning yet (safe). -/
  | notModelled (mnemonic : String)
  deriving DecidableEq, Repr

end Sys2Proof.Machine
end

