-- ==== Sys2Proof/Machine/Regs.lean ====
section
/-! DEFINITION. The register map: addresses (R399), access codes (R10) and reset values of every register table of the
manual. A register's number is unit * 2^28 + block * 2^23 + offset. -/

namespace Sys2Proof.Machine

/-- The access of a register word: its RW, W1C and WO bits, whether a read clears it, and its reset value. -/
structure RegInfo where
  rw : Nat := 0
  w1c : Nat := 0
  wo : Nat := 0
  rc : Bool := false
  reset : Nat := 0
  deriving DecidableEq, Repr

/-- A register address from unit, block code and offset (R399). -/
def regA (unit blk off : Nat) : Nat := unit * 2 ^ 28 + blk * 2 ^ 23 + off
/-- The unit of a register address. -/
def regUnit (a : Nat) : Nat := a / 2 ^ 28
/-- The block code of a register address. -/
def regBlk (a : Nat) : Nat := a / 2 ^ 23 % 32
/-- The offset of a register address within its block. -/
def regOff (a : Nat) : Nat := a % 2 ^ 23

/-- Block codes (R399). -/
def bSEQ : Nat := 0x00
def bTOK : Nat := 0x01
def bME : Nat := 0x02
def bVE : Nat := 0x03
def bFRG : Nat := 0x04
def bMOV : Nat := 0x05
def bCEL : Nat := 0x06
def bGEK : Nat := 0x07
def bFAB : Nat := 0x08
def bSEC : Nat := 0x09
def bLFT : Nat := 0x0A
def bATC : Nat := 0x0B
def bPWR : Nat := 0x0C
def bCLK : Nat := 0x0D
def bDBG : Nat := 0x0E
def bMBX : Nat := 0x0F
def bEVT : Nat := 0x10
/-- The hub side as a unit (R399). -/
def uHub : Nat := 8

/-- A read-only register. -/
def rRO : Option RegInfo := some {}
/-- Is `a ≤ x < b`? -/
def within (x a b : Nat) : Bool := decide (a ≤ x) && decide (x < b)

/-- Generator registers (R272, R273); the inject and lane registers only in a cellar block. -/
def genInfo (cellar : Bool) (o : Nat) : Option RegInfo :=
  if o = 0x00 then some { rw := 0x0FFFFFF0, wo := 3, reset := 0x800 }
  else if o = 0x04 ∨ o = 0x08 then some { rw := 0x0FFFFFFF }
  else if o = 0x0C then some { rw := 0xFFFFFFFF, reset := 1 }
  else if o = 0x10 ∨ o = 0x14 ∨ o = 0x18 then some { rw := 0xFFFFFFFF }
  else if o = 0x1C then (if cellar then some { rw := 0xFFFFFFFF } else none)
  else if o = 0x20 then (if cellar then some { rw := 3 } else none)
  else if within o 0x24 0x3C then rRO
  else if within o 0x3C 0x44 then (if cellar then rRO else none)
  else none

/-- The registers of one cellar, loft or attic block below the generators (R274, R277). -/
def tierInfo (cellar : Bool) (o : Nat) : Option RegInfo :=
  if o = 0 then some { w1c := 7 }
  else if o = 0xC then some { rc := true }
  else if o = 0x14 then (if cellar then rRO else none)
  else if within o 4 0x28 then rRO
  else if within o 0x100 0x180 ∨ within o 0x200 0x280 then (if cellar then rRO else none)
  else none

/-- SEQ_ (R97, R98). -/
def seqInfo (o : Nat) : Option RegInfo :=
  if o = 0 then some { w1c := 0xE0 }
  else if o = 0x10 then some { rw := 0xFFFFFFFF }
  else if within o 4 0x24 ∨ within o 0x100 0x190 ∨ within o 0x200 0x400 then rRO
  else none

/-- TOK_ (R99). -/
def tokInfo (o : Nat) : Option RegInfo := if o < 0x4200 then some { rw := 0xFFFFFFFF } else none

/-- ME_ (R152 to R154). -/
def meInfo (o : Nat) : Option RegInfo :=
  if o < 0x800 then
    let x := o % 0x200
    if x = 0 then some { w1c := 3 } else if x = 0x18 ∨ x = 0x1C then some { rc := true }
    else if x < 0x18 then rRO else none
  else if o = 0x800 then some { w1c := 7 }
  else if o = 0x808 then some { rc := true }
  else if within o 0x804 0x814 then rRO else none

/-- VE_ (R183, R184). -/
def veInfo (o : Nat) : Option RegInfo :=
  if o < 0x800 then
    let x := o % 0x200
    if x = 0 then some { w1c := 0xF } else if x = 0xC then some { rc := true }
    else if x < 0x1C then rRO else none
  else if within o 0x100000 0x300000 then rRO else none

/-- FRG_ (R221, R222, R238, R239). -/
def frgInfo (o : Nat) : Option RegInfo :=
  if o < 0x8000 then
    let x := o % 0x1000
    if x = 0 then some { w1c := 0xF } else if within x 4 0x14 ∨ within x 0x400 0x600 then rRO else none
  else if o = 0x8000 ∨ o = 0x8100 then some { w1c := 3 }
  else if within o 0x8004 0x8010 ∨ within o 0x8104 0x8110 ∨ o = 0x9000 then rRO else none

/-- MOV_ (R123, R124, R278, R279). -/
def movInfo (o : Nat) : Option RegInfo :=
  if o = 0 then some { w1c := 7 }
  else if o = 0x800 then some { w1c := 7, reset := 0xF000 }
  else if o = 0x80C then some { rc := true }
  else if within o 4 0x24 ∨ within o 0x804 0x824 then rRO else none

/-- CEL_ (R272 to R276). -/
def celInfo (o : Nat) : Option RegInfo :=
  if o < 0x10000 then
    let x := o % 0x8000
    if x < 0x4000 then tierInfo true x else if x < 0x5000 then genInfo true (x % 0x80) else none
  else none

/-- LFT_ and ATC_, with the number of their channels (R277). -/
def hubTierInfo (chans o : Nat) : Option RegInfo :=
  if o < 0x20000 then
    let x := o % 0x10000
    if x < 0x4000 then tierInfo false x
    else if x < 0x4000 + 0x80 * chans then genInfo false (x % 0x80) else none
  else none

/-- GEK_ (R304, R305). -/
def gekInfo (o : Nat) : Option RegInfo :=
  if o < 0x2000 then
    let x := o % 0x1000
    if x = 0 then some { w1c := 0xF, reset := 0xFFE0 } else if x < 0x20 then rRO else none
  else if within o 0x10000 0x50000 then rRO else none

/-- FAB_ (R349 to R351, R385, R386). -/
def fabInfo (o : Nat) : Option RegInfo :=
  if o < 0x1000 then
    let x := o % 0x400
    if x = 0 then some { w1c := 0xFC, reset := 0x01000000 } else if x = 0x24 then some { rc := true }
    else if x < 0x38 ∨ within x 0x40 0x60 then rRO else none
  else if o = 0x8100 then some { w1c := 0x1F }
  else if within o 0x8000 0x801C ∨ within o 0x8104 0x811C ∨ within o 0x8140 0x8180 ∨ within o 0xA000 0xE000
    ∨ within o 0xE000 0x10000 then rRO
  else none

/-- The region windows of SEC_ (R123, R246): the tables a die has alone, and the module-wide ones. -/
def regionInfo (die : Bool) (o : Nat) : Option RegInfo :=
  if die && (within o 0x2000 0x3A00 || within o 0x10000 0x28000) then some { rw := 0xFFFFFFFF }
  else if within o 0x100000 0x440000 then some { rw := 0xFFFFFFFF }
  else none

/-- SEC_ of the hub side (R448, R449). -/
def secInfo (o : Nat) : Option RegInfo :=
  if o = 0 then some { w1c := 0x7F }
  else if o = 4 ∨ o = 8 ∨ within o 0x20 0x6C ∨ within o 0x80 0xA0 ∨ within o 0x100 0x200 then rRO
  else regionInfo false o

/-- The default limits of the adaptive loops, by loop code (R464). -/
def pwrDefault (c : Nat) : Nat × Nat := atD (0, 0) [(3600, 4000), (650, 900), (40, 0), (0, 4800), (0, 105), (0, 63), (0, 4)] c

/-- PWR_ and CLK_ of the hub side (R479 to R481). -/
def pwrInfo (o : Nat) : Option RegInfo :=
  if o = 0 then some { w1c := 0x1E }
  else if o < 0x10 then rRO
  else if within o 0x40 0x78 then
    some { reset := if o % 8 = 0 then (pwrDefault ((o - 0x40) / 8)).1 else (pwrDefault ((o - 0x40) / 8)).2 }
  else none

/-- CLK_ of the hub side (R479, R481). -/
def clkInfo (o : Nat) : Option RegInfo :=
  if o = 0 then some { w1c := 3 }
  else if o = 0xC ∨ o = 0x10 then some { rw := 0xFFFFFFFF }
  else if o < 0x1C then rRO else none

/-- MBX_ (R415, R416). -/
def mbxInfo (o : Nat) : Option RegInfo :=
  if o = 0 then some { w1c := 0x1E }
  else if o = 4 then some { wo := 1 }
  else if o = 0x14 then some { reset := 0x42421412 }
  else if o = 0x18 ∨ o = 0x1C then some { rw := 0xFFFFFFFF }
  else if o < 0x18 ∨ within o 0x20 0x34 ∨ within o 0x40 0x54 ∨ within o 0x60 0x74 ∨ within o 0x2000 0x3000 then rRO
  else if within o 0x1000 0x2000 then some { rw := 0xFFFFFFFF }
  else none

/-- EVT_ (R412). -/
def evtInfo (o : Nat) : Option RegInfo :=
  if o < 0x200 then
    let x := o % 0x40
    if x = 0 then some { w1c := 4 }
    else if x = 4 ∨ x = 0x18 then some { rw := 0xFFFFFFFF }
    else if x = 8 then some { rw := 0x1F }
    else if x = 0xC then some { rw := 0x1FF }
    else if x = 0x10 then some { rw := 7, reset := 2 }
    else if x = 0x14 ∨ x = 0x1C then rRO else none
  else if o = 0x200 then rRO else none

/-- The register that an address names, or none (R399): offsets are multiples of 4. -/
def regInfo (a : Nat) : Option RegInfo :=
  let u := regUnit a
  let b := regBlk a
  let o := regOff a
  if a % 4 ≠ 0 then none
  else if u < 8 then
    match b with
    | 0x00 => seqInfo o | 0x01 => tokInfo o | 0x02 => meInfo o | 0x03 => veInfo o | 0x04 => frgInfo o
    | 0x05 => movInfo o | 0x06 => celInfo o | 0x07 => gekInfo o | 0x08 => fabInfo o
    | 0x09 => if o = 0 then rRO else regionInfo true o
    | 0x0A => hubTierInfo 16 o | 0x0B => hubTierInfo 6 o
    | 0x0C => if o < 0x10 then rRO else none
    | 0x0D => if o = 0 then some { reset := 0xE10 } else if o = 8 then some { rc := true } else if o < 0x10 then rRO else none
    | _ => none
  else if u = uHub then
    match b with
    | 0x09 => secInfo o | 0x0C => pwrInfo o | 0x0D => clkInfo o | 0x0F => mbxInfo o | 0x10 => evtInfo o
    | _ => none
  else none

/-- The one home of a register word: every die reads the hubs' own LFT_ and ATC_ blocks (R277). -/
def canon (a : Nat) : Nat :=
  if regUnit a < 8 ∧ (regBlk a = bLFT ∨ regBlk a = bATC) then a % 2 ^ 28 else a

/-- The reset value of a register word (R13's note; R6). -/
def regReset (a : Nat) : Word := match regInfo a with | some i => w32 i.reset | none => 0

/-- A word of the register file. -/
def rget (s : State) (a : Nat) : Word := nget (regReset a) s.regs (canon a)
/-- A word of the register file written. -/
def rset (s : State) (a : Nat) (v : Word) : State := { s with regs := nset (regReset a) s.regs (canon a) v }
/-- A counter raised, saturating (R13). -/
def rbump (s : State) (a n : Nat) : State := if n = 0 then s else rset s a (satAdd (rget s a) n)
/-- Flags set. -/
def ror (s : State) (a : Nat) (mask : Nat) : State := rset s a (rget s a ||| w32 mask)
/-- Bits cleared. -/
def rclr (s : State) (a : Nat) (mask : Nat) : State := rset s a (rget s a &&& ~~~ w32 mask)
/-- A field [hi:lo] of a register set. -/
def rfield (s : State) (a hi lo v : Nat) : State :=
  let m := (2 ^ (hi + 1 - lo) - 1) * 2 ^ lo
  rset s a ((rget s a &&& ~~~ w32 m) ||| (w32 (v * 2 ^ lo) &&& w32 m))

end Sys2Proof.Machine
end

