-- ==== Sys2Proof/Machine/Ops.lean ====
section
/-! DEFINITION. Named operations over the state: working copies and their memory log, memory of every tier, regions,
register and event helpers. Chapters 04, 09 and 13 of the manual. -/

namespace Sys2Proof.Machine

/-! ## Memory operations as data -/

/-- One change of memory. -/
inductive MemOp where
  /-- Bytes stored from a key on; units written whole are new code words, without upsets. -/
  | put (key : Nat) (bs : List Byte)
  /-- The check word of a tile, a new code word. -/
  | chk (tile : Nat) (w : Word)
  /-- The upsets of a 64-byte unit. -/
  | err (unit : Nat) (p : Nat)
  /-- The upsets of a check word beside the banks. -/
  | chkErr (tile : Nat) (p : Nat)
  /-- A unit's corrected contents wait to be written back, or no longer do. -/
  | back (unit : Nat) (o : Option Nat)
  /-- A fill: zero bytes, valid codes and check words, over the tiles of a range whose number from its start is `r` modulo `n`
  (R118, R260); what a stack or a channel holds is such a set (R241, R242). -/
  | wipe (key len n r : Nat)
  deriving DecidableEq, Repr

/-- Does a fill reach a tile? -/
def wiped (key len n r tile : Nat) : Bool :=
  decide (key / 4096 ≤ tile) && decide (tile < key / 4096 + len / 4096) && (tile - key / 4096) % n == r

/-- A map by units without the `n` units from `u` on. -/
def dropUnits {α : Type} (m : NMap α) (u n : Nat) : NMap α := if m.isEmpty then [] else nclear m u n

/-- One change applied. -/
def Mem.apply (m : Mem) : MemOp → Mem
  | .put k bs => { m with
      cells := nsetRun 0 m.cells k bs
      errs := dropUnits m.errs (cdiv k 64) ((k + bs.length) / 64 - cdiv k 64)
      back := dropUnits m.back (cdiv k 64) ((k + bs.length) / 64 - cdiv k 64) }
  | .chk t w => { m with checks := nset crcZeroTile m.checks t w, chkErrs := nset 0 m.chkErrs t 0 }
  | .err u p => { m with errs := nset 0 m.errs u p }
  | .chkErr t p => { m with chkErrs := nset 0 m.chkErrs t p }
  | .back u o => { m with back := nset none m.back u o }
  | .wipe k len n r => {
      cells := m.cells.filter fun p => !wiped k len n r (p.1 / 4096)
      checks := m.checks.filter fun p => !wiped k len n r p.1
      errs := m.errs.filter fun p => !wiped k len n r (p.1 / 64)
      chkErrs := m.chkErrs.filter fun p => !wiped k len n r p.1
      back := m.back.filter fun p => !wiped k len n r (p.1 / 64) }

/-- Changes applied in order. -/
def Mem.applyAll (m : Mem) (ops : List MemOp) : Mem := ops.foldl Mem.apply m

/-- The canonical form of memory: addresses strictly rising, no entry equal to what an unlisted one reads as. -/
abbrev Mem.wf (m : Mem) : Prop :=
  nwf (0 : Byte) m.cells ∧ nwf crcZeroTile m.checks ∧ nwf 0 m.errs ∧ nwf 0 m.chkErrs ∧ nwf none m.back

/-! ## Working copies -/

/-- The working copy of a step: the state as it stands, the memory changes made, newest first, and the events raised, which go to the
rings as the step ends. -/
structure Work where
  s : State
  log : List MemOp := []
  evs : List Event := []
  deriving DecidableEq, Repr

/-- A computation on a working copy. -/
abbrev W (α : Type) := StateM Work α

/-- The state as the step's work so far leaves it. -/
def getS : W State := do return (← get).s
/-- Change the state other than memory. -/
def modS (f : State → State) : W Unit := modify fun w => { w with s := f w.s }
/-- One change of memory, made and logged. -/
def emit (op : MemOp) : W Unit := modify fun w =>
  { w with s := { w.s with mem := w.s.mem.apply op }, log := op :: w.log }

/-- The outcome of a step's work: what it leaves, with memory told by the log of its changes. -/
def Work.result (s : State) (w : Work) : State := { w.s with pending := s.pending, mem := s.mem.applyAll w.log.reverse }

/-! ## Scopes: the parts of the state that a family of commands may change -/

/-- An engine or control command of one die: memory, registers, the dies, events. -/
def dieScope (s t : State) : State :=
  { s with mem := t.mem, regs := t.regs, dies := t.dies, hold := t.hold, lost := t.lost, free := t.free, tiers := t.tiers }
/-- What also reaches the ports: frames sent, phases, notices, reserved transmit SEQ. -/
def fabScope (s t : State) : State :=
  { dieScope s t with ports := t.ports, fab := t.fab, sec := { s.sec with txEnd := t.sec.txEnd } }
/-- A packet that only reads: replies, registers, miss counters, events, the lease's restart. -/
def readScope (s t : State) : State :=
  { s with mem := t.mem, regs := t.regs, miss := t.miss, hold := t.hold, lost := t.lost, free := t.free, tiers := t.tiers, ctl := t.ctl }
/-- A change of board state alone. -/
def boardScope (s t : State) : State :=
  { s with mem := t.mem, regs := t.regs, hold := t.hold, lost := t.lost, free := t.free, pwr := t.pwr, clk := t.clk, tiers := t.tiers }
/-- Everything but the queue. -/
def wideScope (s t : State) : State := { t with pending := s.pending }

/-! ## Dies -/

/-- A die of the state. -/
def State.die (s : State) (d : Fin 8) : Die := s.dies[d]
/-- The state with one die changed. -/
def State.onDie (s : State) (d : Fin 8) (f : Die → Die) : State := { s with dies := s.dies.set d (f s.dies[d]) }
/-- A die, in a working copy. -/
def getD (d : Fin 8) : W Die := do return (← getS).die d
/-- Change a die. -/
def modD (d : Fin 8) (f : Die → Die) : W Unit := modS (·.onDie d f)
/-- Change a die's sequencer. -/
def modSeq (d : Fin 8) (f : Seq → Seq) : W Unit := modD d fun x => { x with seq := f x.seq }
/-- The eight dies. -/
def allDies : List (Fin 8) := [0, 1, 2, 3, 4, 5, 6, 7]
/-- Is a die's rail and clock down, so that its readings are zero (R471)? -/
def darkDie (d : Die) : Bool := d.pw == .deep || d.pw == .off

/-- The partition of a die: partition p holds dies 8p/P to 8(p+1)/P - 1 (R243). -/
def partOf (s : State) (d : Fin 8) : Nat := d.val * s.sec.parts / 8
/-- The dies of a partition. -/
def diesOf (s : State) (p : Nat) : List (Fin 8) := allDies.filter fun d => partOf s d == p

/-- A free value: nothing constrains it; the counter tells each use apart. (DESIGN CHOICE, log 7) -/
def freeVal : W Nat := do
  let n := (← getS).free
  modS fun s => { s with free := n + 1 }
  return (Config.freeWord n).toNat

/-- A fresh random number of 256 bits: a free value. (DESIGN CHOICE, log 7) -/
def freeWide : W (BitVec 256) := do
  let n := (← getS).free
  modS fun s => { s with free := n + 1 }
  return Config.freeWide n

/-! ## Registers -/

/-- Raise a counter. -/
def bump (a n : Nat) : W Unit := modS (rbump · a n)
/-- Set flags. -/
def setFlags (a mask : Nat) : W Unit := modS (ror · a mask)
/-- Set a field. -/
def setField (a hi lo v : Nat) : W Unit := modS (rfield · a hi lo v)
/-- Set a whole register. -/
def setReg (a : Nat) (v : Nat) : W Unit := modS (rset · a (w32 v))
/-- Read a register of the register file. -/
def getReg (a : Nat) : W Word := do return rget (← getS) a

/-- A counter of times and waits has counted: from here on its register holds 1, and what it reads as is open.
(DESIGN CHOICE, log 6) -/
def timed (a : Nat) : W Unit := setReg a 1

/-! ## The local map (R103) -/

/-- The memories of the local map. -/
inductive Store where
  | front
  | tier (t : Nat)
  | wgb
  | cellar
  | loft (h : Nat)
  | attic (h : Nat)
  deriving DecidableEq, Repr

/-- The memory a local address lies in, and its offset from that memory's start; none when reserved (R103). -/
def storeOf (a : Nat) : Option (Store × Nat) :=
  if a < 0x20000000 then some (.front, a)
  else if within a 0x80000000 0xE0000000 then some (.tier 0, a - 0x80000000)
  else if within a 0x100000000 0x160000000 then some (.tier 1, a - 0x100000000)
  else if within a 0x180000000 0x1E0000000 then some (.tier 2, a - 0x180000000)
  else if within a 0x200000000 0x260000000 then some (.tier 3, a - 0x200000000)
  else if within a 0x300000000 0x320000000 then some (.wgb, a - 0x300000000)
  else if within a 0x1000000000 0x2800000000 then some (.cellar, a - 0x1000000000)
  else if within a 0x10000000000 0x18000000000 then some (.loft 0, a - 0x10000000000)
  else if within a 0x18000000000 0x20000000000 then some (.loft 1, a - 0x18000000000)
  else if within a 0x40000000000 0x52000000000 then some (.attic 0, a - 0x40000000000)
  else if within a 0x52000000000 0x64000000000 then some (.attic 1, a - 0x52000000000)
  else none

/-- Is it a store room? -/
def Store.isRoom : Store → Bool
  | .front => true | .tier _ => true | _ => false
/-- Is it an external tier? -/
def Store.isExt : Store → Bool
  | .cellar => true | .loft _ => true | .attic _ => true | _ => false

/-- 2^30. -/
def gib : Nat := 0x40000000

/-- The tiles that a run of bytes touches. -/
def tileCount (a len : Nat) : Nat := if len = 0 then 0 else (a + len - 1) / 4096 + 1 - a / 4096

/-- The slice of an external offset: its start, its size and its owner; the reserve has no owner (R243). -/
def sliceOf (s : State) (d : Fin 8) (st : Store) (off : Nat) : Nat × Nat × Option Nat :=
  match st with
  | .cellar => (0, 96 * gib, some (partOf s d))
  | .loft _ =>
    if off < 32 * gib then (0, 32 * gib, none)
    else
      let sz := 480 * gib / s.sec.parts
      let p := (off - 32 * gib) / sz
      (32 * gib + p * sz, sz, some p)
  | .attic _ =>
    let sz := 1152 * gib / s.sec.parts
    (off / sz * sz, sz, some (off / sz))
  | _ => (0, 0, some (partOf s d))

/-- Does an external offset lie in the check area of its slice (R244)? (DEDUCED, log 13) -/
def inCheckArea (s : State) (d : Fin 8) (st : Store) (off : Nat) : Bool :=
  match sliceOf s d st off with
  | (_, _, none) => false
  | (b, sz, some _) => st.isExt && decide (b + (sz - sz / 1024) ≤ off)

/-- Does an address lie in the operating system reserve (R21)? -/
def inReserve (a : Nat) : Bool :=
  match storeOf a with
  | some (.loft _, off) => decide (off < 32 * gib)
  | _ => false

/-- The key of a local address of the loft or the attic. -/
def hubKey (a : Nat) : Nat := 8 * 2 ^ 48 + a
/-- The key of a local address of a die. -/
def keyOf (d : Fin 8) (a : Nat) : Nat :=
  match storeOf a with
  | some (.loft _, _) => hubKey a
  | some (.attic _, _) => hubKey a
  | _ => d.val * 2 ^ 48 + a

/-! ## Regions (R119 to R122, R246) -/

/-- The key of a region entry: table 0 to 7 a die's store rooms, 8 to 15 a die's cellar, 16 and 17 the loft, 18 and 19 the attic. -/
def regionKey (d : Fin 8) (st : Store) (off : Nat) : Option Nat :=
  match st with
  | .front => some (d.val * 2 ^ 32 + off / 2 ^ 21)
  | .tier t => some (d.val * 2 ^ 32 + 256 + 768 * t + off / 2 ^ 21)
  | .wgb => none
  | .cellar => some ((8 + d.val) * 2 ^ 32 + off / 2 ^ 21)
  | .loft h => some ((16 + h) * 2 ^ 32 + off / 2 ^ 21)
  | .attic h => some ((18 + h) * 2 ^ 32 + off / 2 ^ 21)

/-- The owner of the region a key names; none in a check area or the reserve (R246). -/
def regionOwner (s : State) (k : Nat) : Option Nat :=
  let t := k / 2 ^ 32
  let off := k % 2 ^ 32 * 2 ^ 21
  if h : t < 8 then some (partOf s ⟨t, h⟩)
  else if h : t - 8 < 8 then
    if inCheckArea s ⟨t - 8, h⟩ .cellar off then none else some (partOf s ⟨t - 8, h⟩)
  else
    let st : Store := if t < 18 then .loft (t - 16) else .attic (t - 18)
    if inCheckArea s 0 st off then none else (sliceOf s 0 st off).2.2

/-- The reset value of a region entry (R119, R246). -/
def regionReset (s : State) (k : Nat) : Half :=
  match regionOwner s k with
  | some p => BitVec.ofNat 16 (3 * 2 ^ (2 * p))
  | none => 0

/-- A region entry. -/
def regionEntry (s : State) (k : Nat) : Half := nget (regionReset s k) s.regions k

/-- May partition `p` access the address for writing or reading (R121)? A reserved address may not (R104). The wide gradient buffer
has no region entries and belongs to its die's partition (R144). -/
def permitted (s : State) (p : Nat) (d : Fin 8) (a : Nat) (write : Bool) : Bool :=
  match storeOf a with
  | none => false
  | some (st, off) =>
    match regionKey d st off with
    | none => p == partOf s d
    | some k => (regionEntry s k).toNat.testBit (2 * p + (if write then 1 else 0))

/-! ## Check areas and keys of the external tiers (R244, R254, R426) -/

/-- The offset in its window of the word that checks the tile at an external offset; none where the tile carries none (R244). -/
def checkOff (s : State) (d : Fin 8) (st : Store) (off : Nat) : Option Nat :=
  match sliceOf s d st off with
  | (b, sz, some _) => if st.isExt && !inCheckArea s d st off then some (b + (sz - sz / 1024) + 4 * ((off - b) / 4096)) else none
  | _ => none

/-- Bytes of a check area: the check words of its slice's tiles (R244). (DEDUCED, log 13) -/
def checkBytes (s : State) (d : Fin 8) (st : Store) (a off n : Nat) : List Byte :=
  let (b, sz, _) := sliceOf s d st off
  let area := b + (sz - sz / 1024)
  (List.range n).map fun i =>
    let o := off + i - area
    let tile := keyOf d (a - off + b + o / 4 * 4096) / 4096
    b8 ((nget crcZeroTile s.mem.checks tile).toNat / 2 ^ (8 * (o % 4)) % 256)

/-- The bytes of memory from a key on. -/
def Mem.bytes (m : Mem) (key len : Nat) : List Byte := nrun 0 m.cells key len

/-- The bytes written at a local address. -/
def plainBytes (s : State) (d : Fin 8) (a len : Nat) : List Byte :=
  match storeOf a with
  | some (st, off) => if inCheckArea s d st off then checkBytes s d st a off len else s.mem.bytes (keyOf d a) len
  | none => s.mem.bytes (keyOf d a) len

/-- The installed key of the slice, or of the reserve, at an external offset (R426). -/
def tierKey (s : State) (d : Fin 8) (st : Store) (off : Nat) : List Byte :=
  let t := match st with | .cellar => 0 | .loft _ => 1 | _ => 2
  nget [] s.sec.memKeys (match (sliceOf s d st off).2.2, st with
    | some p, _ => 3 * p + t
    | none, .loft h => 24 + h
    | none, _ => 24)

/-- The data unit of a local address: its tile number, for a cellar with the die in bits [42:40] (R254). -/
def tweakOf (d : Fin 8) (st : Store) (a : Nat) : Nat := a / 4096 + (if st = .cellar then d.val * 2 ^ 40 else 0)

/-- Bytes of whole 16-byte blocks at an external address enciphered, or deciphered (R254). -/
def cipherAt (dec : Bool) (s : State) (d : Fin 8) (st : Store) (a off : Nat) (bs : List Byte) : List Byte :=
  xts dec (tierKey s d st off) (tweakOf d st a) (a % 4096 / 16) bs

/-- The ciphertext that an external tier stores at an address (R254). -/
def storedBytes (s : State) (d : Fin 8) (st : Store) (a off len : Nat) : List Byte :=
  cipherAt false s d st a off (plainBytes s d a len)

/-- Status codes (R16). -/
def sOK : Byte := 0x00
def sACCEPTED : Byte := 0x01
def sBUSY : Byte := 0x02
def sSTATE : Byte := 0x03
def sPARAM : Byte := 0x04
def sOWNER : Byte := 0x05
def sAUTH : Byte := 0x06
def sABSENT : Byte := 0x07
def sRANGE : Byte := 0x08
def sCHECK : Byte := 0x09
def sUNCORR : Byte := 0x0A
def sLINK : Byte := 0x0B
def sTIMEOUT : Byte := 0x0C
def sEPOCH : Byte := 0x0D
def sEMPTY : Byte := 0x0E
def sSTEP : Byte := 0x0F
def sSUBSUMED : Byte := 0x10
def sOVERRUN : Byte := 0x11
def sPOWER : Byte := 0x12
def sLAZYMAX : Byte := 0x13

/-! ## Failure records of the memories (R124, R154, R275) -/

/-- The status block of an external store: the cellar's stack by address bit 12 (R241), or the hub's block (R277). -/
def tierBlock (d : Fin 8) (st : Store) (off : Nat) : Nat :=
  match st with
  | .cellar => regA d bCEL (0x8000 * (off / 4096 % 2))
  | .loft h => regA 0 bLFT (0x10000 * h)
  | .attic h => regA 0 bATC (0x10000 * h)
  | _ => 0

/-- The pseudo-channel or channel of an external offset (R241, R242). -/
def channelOf (st : Store) (off : Nat) : Nat :=
  match st with
  | .cellar => off / 2 ^ 13 % 32
  | .loft _ => off / 4096 % 16
  | .attic _ => off / 4096 % 6
  | _ => 0

/-- The failure record of the store rooms: the 128-byte line at fault, and of a failed check its tile's first (R124).
(DESIGN CHOICE, log 52) -/
def failRoom (d : Fin 8) (fs a kind : Nat) : W Unit := do
  let b := regA d bMOV 0x800
  let line := a / 128 * 128
  let cur ← getReg b
  if fld cur 2 1 = 0 then
    setField b 15 12 fs
    setField b 11 8 (if kind = 0 then 1 else if kind = 1 then 2 else 3)
    setReg (b + 4) (line % 2 ^ 32)
    setReg (b + 8) (line / 2 ^ 32 % 2 ^ 16)
  setFlags b (if kind = 0 then 2 else 4)
  bump (if kind = 0 then b + 0x14 else b + 0x10) 1

/-- The failure record of the wide gradient buffer; of a failed check it holds the first of its tile's two rows (R154).
(DESIGN CHOICE, log 52) -/
def failWgb (d : Fin 8) (off kind : Nat) : W Unit := do
  let b := regA d bME 0x800
  let cur ← getReg b
  if fld cur 2 1 = 0 then
    setField b 7 4 (if kind = 0 then 1 else if kind = 1 then 2 else 3)
    setReg (b + 4) (off / 2048)
  setFlags b (if kind = 0 then 2 else 4)
  bump (b + 0xC) (if kind = 0 then 0 else 1)

/-- The failure record of an external tier (R275); a tile check at a consumer is recorded there, not here. -/
def failExt (b chan a kind : Nat) : W Unit := do
  let cur ← getReg b
  if !bitOf cur 1 then
    setField b 15 11 chan
    setField b 10 8 kind
    setReg (b + 4) (a % 2 ^ 32)
    setReg (b + 8) (a / 2 ^ 32 % 2 ^ 16)
  if kind ≠ 3 then
    setFlags b 2
    bump (b + 0x10) 1

/-- Record a failure at an address: `kind` 0 a tile check at a consumer, 1 uncorrectable at a read, 2 uncorrectable
found by the scrub, 3 a check at an external merge. -/
def recordFail (d : Fin 8) (a kind : Nat) : W Unit :=
  match storeOf a with
  | none => pure ()
  | some (.front, _) => failRoom d 0 a kind
  | some (.tier t, _) => failRoom d (t + 1) a kind
  | some (.wgb, off) => failWgb d off kind
  | some (st, off) => if kind = 0 then pure () else failExt (tierBlock d st off) (channelOf st off) a kind

/-- The lanes that the erasure map of a pseudo-channel holds (R276). -/
def erasedLanes (map : Word) : List Nat :=
  (if bitOf map 7 then [fld map 5 0] else []) ++ (if bitOf map 15 then [fld map 13 8] else [])

/-- The erasure map of the pseudo-channel at a cellar offset (R276). -/
def eraseMapA (d : Fin 8) (off : Nat) : Nat := regA d bCEL (0x8000 * (off / 4096 % 2) + 0x100 + 4 * channelOf .cellar off)

/-- Count `n` corrections of the code word at an address (R116, R250). -/
def recordCorr (d : Fin 8) (a n : Nat) : W Unit := do
  match storeOf a with
  | none => return
  | some (st, off) =>
    match st with
    | .front | .tier _ => setFlags (regA d bMOV 0x800) 1; bump (regA d bMOV 0x80C) n
    | .wgb => setFlags (regA d bME 0x800) 1; bump (regA d bME 0x808) n
    | _ => setFlags (tierBlock d st off) 1; bump (tierBlock d st off + 0xC) n

/-! ## Judging what is stored (R116, R250, R271) -/

/-- Is the channel that serves an address held by a traffic generator (R271)? -/
def genBusy (s : State) (d : Fin 8) (st : Store) (off : Nat) : Bool :=
  st.isExt && bitOf (rget s (tierBlock d st off + 0x4000 + 0x80 * channelOf st off)) 2

/-- Is the channel of a tile, or of its check word, held by a traffic generator (R245, R271)? -/
def tileBusy (s : State) (d : Fin 8) (st : Store) (off : Nat) : Bool :=
  genBusy s d st off || (checkOff s d st off).any (genBusy s d st)

/-- The stored unit at a local address judged by its memory's code: the pattern on it decoded, and what is delivered deciphered. A cellar
code word is decoded under the given erasures, or those of the map. (DESIGN CHOICE, log 11) -/
def judgeUnitBy (lanes : Option (List Nat)) (d : Fin 8) (a : Nat) : W Verdict := do
  let s ← getS
  let p := nget 0 s.mem.errs (keyOf d a / 64)
  if p = 0 then return {}
  match storeOf a with
  | none => return {}
  | some (st, off) =>
    let pick ← freeVal
    let x ← freeWide
    let y ← freeWide
    let junk := x.toNat + 2 ^ 256 * y.toNat
    let cipher := storedBytes s d st a off 64
    let open_ := cipherAt true s d st a off
    return match st with
      | .cellar => judgeCellar (lanes.getD (erasedLanes (rget s (eraseMapA d off)))) p cipher open_
      | .loft _ => judgeLoft p cipher open_
      | .attic _ => judgeAttic p cipher open_ pick junk
      | _ => judgeRoom p (plainBytes s d a 64) pick junk

/-- A stored unit judged under the map that stands. -/
def judgeUnit (d : Fin 8) (a : Nat) : W Verdict := judgeUnitBy none d a

/-- What a read or the scrub found of the unit at an address: corrections are counted and wait to be written back, and what cannot be
corrected is recorded as `kind`. -/
def noteUnit (kind : Nat) (d : Fin 8) (a : Nat) (v : Verdict) : W Unit := do
  if v.corr ≠ 0 then
    recordCorr d a v.corr
    emit (.back (keyOf d a / 64) (some v.left))
  (List.range v.lost).forM fun _ => recordFail d a kind

/-! ## The reserve (R244) -/

/-- Bytes written into the reserve in code words of 64 bytes: one written in part is read first and written back corrected, and where it
cannot be corrected its other bytes stay lost (R244). A correction that waited to be written back is dropped (R248). -/
def putReserve (a : Nat) (bs : List Byte) : W Unit := do
  let m := (← getS).mem
  if !m.errs.isEmpty then
    ([a / 64, (a + bs.length - 1) / 64].filter fun u => decide (64 * u < a ∨ a + bs.length < 64 * u + 64) && nget 0 m.errs (hubKey (64 * u) / 64) != 0).eraseDups.forM fun u => do
      let v ← judgeUnit 0 (64 * u)
      noteUnit 1 0 (64 * u) v
      if v.lost = 0 then emit (.err (hubKey (64 * u) / 64) v.left)
      emit (.back (hubKey (64 * u) / 64) none)
  emit (.put (hubKey a) bs)

/-- Is a channel that serves a run of the reserve held by a traffic generator (R271)? -/
def reserveBusy (s : State) (a len : Nat) : Bool :=
  (List.range (cdiv (a % 4096 + len) 4096)).any fun i =>
    match storeOf ((a / 4096 + i) * 4096) with
    | some (st, off) => genBusy s 0 st off
    | none => false

/-! ## Events (R408 to R412) -/

/-- The register base of a ring. -/
def ringA (r : Nat) : Nat := regA uHub bEVT (0x40 * r)
/-- The size of a ring in entries, 0 when disabled. -/
def ringN (s : State) (r : Nat) : Nat := let z := fld (rget s (ringA r + 8)) 4 0; if z = 0 then 0 else 2 ^ z
/-- Does a ring route an area? -/
def ringRoutes (s : State) (r area : Nat) : Bool := bitOf (rget s (ringA r + 0xC)) area
/-- Entries in a ring. -/
def ringUsed (s : State) (r : Nat) : Nat := (rget s (ringA r + 0x14) - rget s (ringA r + 0x18)).toNat

/-- The 32 bytes of an entry (R408). -/
def eventBytes (e : Event) (phase : Nat) : List Byte :=
  [b8 e.code, b8 e.area, e.status, b8 phase] ++ natLE 4 e.where_.toNat ++ natLE 8 e.beat.toNat ++ [e.sub, 0, 0, 0]
    ++ padTo 12 e.detail

/-- An event as a ring shows it: a non-tenant consumer gets an event of a protected partition's unit with BEAT rounded
down, SUBBEAT and DETAIL zero (R440). -/
def shownEvent (s : State) (m : Nat) (e : Event) : Event :=
  let u := fld e.where_ 31 28
  if h : u < 8 then
    let p := partOf s ⟨u, h⟩
    if s.sec.prot.testBit p && !(s.sec.tenant.toList.getD p 0).testBit m then
      { e with beat := BitVec.ofNat 64 (e.beat.toNat / 1024 * 1024), sub := 0, detail := [] }
    else e
  else e

/-- The address of the entry that a ring writes next. -/
def ringSlot (s : State) (r : Nat) : Nat := (rget s (ringA r + 4)).toNat * 4096 + 32 * ((rget s (ringA r + 0x14)).toNat % max (ringN s r) 1)

/-- Write an entry into a ring with room, and only then advance EVT_WR (R410). -/
def ringWrite (r : Nat) (e : Event) : W Unit := do
  let s ← getS
  let n := ringN s r
  let wr := rget s (ringA r + 0x14)
  putReserve (ringSlot s r) (eventBytes (shownEvent s (fld (rget s (ringA r + 0x10)) 2 0) e) (wr.toNat / n % 2))
  modS (rset · (ringA r + 0x14) (wr + 1))

/-- Are the rings' entries there to be written: hub A, whose loft holds them, is in Run (R410, R452)?
(DESIGN CHOICE, log 14) -/
def ringsUp (s : State) : Bool := s.pwr.hub[0] == .run

/-- Does a held event wait for a ring; an event that no enabled ring routed waits for any that does? -/
def waitsFor (s : State) (r : Nat) (h : Held) : Bool := h.rings.contains r || (h.rings.isEmpty && !h.written && ringRoutes s r h.ev.area)

/-- Can a ring take an event now: enabled, room, no event that occurred before waiting for it, no EVENTS_LOST entry due (R411), its loft
channel free (R271)? -/
def ringReady (s : State) (r : Nat) : Bool :=
  let n := ringN s r
  ringsUp s && !reserveBusy s (ringSlot s r) 32 && decide (0 < n) && decide (ringUsed s r < n) && s.hold.all (fun h => !waitsFor s r h) && decide (nget 0 s.lost r = 0)

/-- An event of the module at this moment, in a cycle of its beat (R408). -/
def mkEvent (s : State) (sub area code : Nat) (status : Byte) (wh : Nat) (detail : List Byte) : Event :=
  { area, code, status, where_ := w32 wh, beat := BitVec.ofNat 64 s.clk.beat, sub := b8 (sub % 64), detail }

/-- Send an event to the rings that route it; what a ring cannot take waits in the hold queue. With the hold queue full no further event
is written, and each ring that routes it has lost one (R411). (DESIGN CHOICE, log 14) -/
def post (e : Event) : W Unit := do
  let s ← getS
  let targets := (List.range 8).filter fun r => decide (0 < ringN s r) && ringRoutes s r e.area
  if 1024 ≤ s.hold.length then
    targets.forM fun r => do
      bump (ringA r + 0x1C) 1
      setFlags (ringA r) 4
      modS fun s => { s with lost := nset 0 s.lost r (satInc (nget 0 s.lost r)) }
  else
    let now := targets.filter (ringReady s)
    let later := targets.filter fun r => !ringReady s r
    now.forM fun r => ringWrite r e
    if targets.isEmpty || !later.isEmpty then modS fun s => { s with hold := s.hold ++ [⟨e, later, !now.isEmpty⟩] }

/-- Raise an event. `wh` is the word at offset 4: unit, block and number (R408). -/
def raise (area code : Nat) (status : Byte) (wh : Nat) (detail : List Byte) : W Unit := modify fun w =>
  { w with evs := w.evs ++ [mkEvent w.s 0 area code status wh detail] }

/-- An event put among others in ascending order of the word at offset 4, after those with the same word (R411). -/
def insertEvent (e : Event) : List Event → List Event
  | [] => [e]
  | x :: r => if e.where_.toNat < x.where_.toNat then e :: x :: r else x :: insertEvent e r

/-- The events that one step has raised are sent: they are of one always-on cycle, which cycle of its beat is a free value
(R408, R411). (DESIGN CHOICE, log 6 and 14) -/
def flushEvents : W Unit := do
  let w ← get
  if w.evs.isEmpty then return
  set { w with evs := [] }
  let sub ← freeVal
  (w.evs.foldl (fun l e => insertEvent e l) []).forM fun e => post { e with sub := b8 (sub % 64) }

/-- A working copy with its events sent. -/
def Work.flushed (w : Work) : Work := (flushEvents w).2

/-- Run a step's work on a state. -/
def W.on (s : State) (p : W Unit) : State := (p { s }).2.flushed.result s

/-- The step a piece of work makes within a scope. -/
def W.within (scope : State → State → State) (s : State) (p : W Unit) : Host.Outcome State Fault Refusal :=
  .next (scope s (W.on s p))

/-- The word at offset 4 of an entry. -/
def whereW (unit blk n : Nat) : Nat := unit * 2 ^ 28 + blk * 2 ^ 23 + n % 128 * 2 ^ 16

/-! ## Run-time erasures (R253) -/

/-- The number under which a lane of the pseudo-channel at a cellar offset is counted. -/
def laneKey (d : Fin 8) (off lane : Nat) : Nat := ((2 * d.val + off / 4096 % 2) * 32 + channelOf .cellar off) * 64 + lane

/-- The decoder has corrected a lane's symbol in a code word. A lane corrected in 8 code words of an interval becomes a run-time erasure
while the pseudo-channel has fewer than two (R253). -/
def laneHit (d : Fin 8) (off lane : Nat) : W Unit := do
  let k := off / 4096 % 2
  let pc := channelOf .cellar off
  let a := eraseMapA d off
  let v ← getReg a
  if (erasedLanes v).contains lane then return
  let key := laneKey d off lane
  let n := nget 0 (← getS).tiers.laneHits key + 1
  modS fun s => { s with tiers := { s.tiers with laneHits := nset 0 s.tiers.laneHits key n } }
  if 8 ≤ n ∧ (erasedLanes v).length < 2 then
    if bitOf v 7 then setField a 15 8 (0xC0 + lane) else setField a 7 0 (0xC0 + lane)
    bump (regA d bCEL (0x8000 * k + 0x14)) 1
    setFlags (regA d bCEL (0x8000 * k)) 4
    raise 2 2 sOK (whereW d bCEL k) [b8 pc, b8 lane]

/-! ## Reading under the memories' codes (R116, R244, R250) -/

/-- A unit read, by a command or by the scrub: judged, noted, and the cellar lanes that were corrected counted. -/
def readUnit (kind : Nat) (d : Fin 8) (a : Nat) : W Verdict := do
  let v ← judgeUnit d a
  noteUnit kind d a v
  match storeOf a with
  | some (.cellar, off) => v.lanes.forM (laneHit d off)
  | _ => pure ()
  return v

/-- The CRC-32C of a tile as it was written. -/
def Mem.tileCrc (m : Mem) (tile : Nat) : Word :=
  if (m.cells.dropWhile fun p => decide (p.1 < tile * 4096)).head?.all (fun p => decide ((tile + 1) * 4096 ≤ p.1)) then crcZeroTile
  else crc32c (m.bytes (tile * 4096) 4096)

/-- Bytes with those from an offset on replaced. -/
def splice (bs : List Byte) (off : Nat) (new : List Byte) : List Byte := bs.take off ++ new ++ bs.drop (off + new.length)

/-- The upset units of a run of `n` units from a unit-aligned address on, read in order: the first bytes with what they deliver, and
whether one of them is lost. -/
def readUpsets (d : Fin 8) (a : Nat) : List Nat → List Byte → Bool → W (List Byte × Bool)
  | [], bs, bad => return (bs, bad)
  | u :: r, bs, bad => do
    let v ← readUnit 1 d (a + 64 * u)
    readUpsets d a r (match v.bytes with | some b => splice bs (64 * u) b | none => bs) (bad || v.lost != 0)

/-- Bytes read under the memory's codes alone (R116, R244, R250): every correctable unit of theirs is corrected and counted; UNCORR where
one cannot be corrected, which is recorded. -/
def readBytes (d : Fin 8) (a len : Nat) : W (Except Byte (List Byte)) := do
  let s ← getS
  if s.mem.errs.isEmpty then return .ok (plainBytes s d a len)
  let a0 := a / 64 * 64
  let n := cdiv (a - a0 + len) 64
  let hit := ((nrun 0 s.mem.errs (keyOf d a0 / 64) n).zipIdx.filter fun x => x.1 != 0).map (·.2)
  let (bs, bad) ← readUpsets d a0 hit (plainBytes s d a0 (64 * n)) false
  return if bad then .error sUNCORR else .ok (sub bs (a - a0) len)

/-- The check word that a read of a tile finds (R112, R244, R245): an external tier reads its code word, and the others hold it under a
SEC-DED code of its own (R116). A single error in such a word is corrected and counted at each read, and stays as it is stored until the
word is written again: no write-back of it waits (DESIGN CHOICE, log 11). A double error in it is recorded as an uncorrectable error of
the tile's first line, and counts as one. (DESIGN CHOICE, log 52) -/
def readCheck (d : Fin 8) (st : Store) (a off : Nat) : W (Except Byte Word) := do
  let s ← getS
  let tile := keyOf d a / 4096
  match checkOff s d st off with
  | some c =>
    match ← readBytes d (a - off + c) 4 with
    | .error e => return .error e
    | .ok b => return .ok (rdW b 0)
  | none =>
    let w := nget crcZeroTile s.mem.checks tile
    let p := nget 0 s.mem.chkErrs tile
    if p = 0 then return .ok w
    let (corr, lost, mask) := judge72 p (← freeVal) (← freeVal)
    if corr ≠ 0 then recordCorr d a corr
    if lost ≠ 0 then
      recordFail d a 1
      return .error sUNCORR
    return .ok (w ^^^ w32 mask)

/-! ## Reading tiles -/

/-- An access by a lane other than an engine command's: one to a store room may have lost periods to arbitration (R108).
(DESIGN CHOICE, log 6) -/
def laneAccess (d : Fin 8) (a : Nat) : W Unit :=
  if (storeOf a).any fun x => x.1.isRoom then timed (regA d bMOV 0x81C) else pure ()

/-- The tile at a local address with its errors judged (R113, R115, R116, R247, R271): its bytes, or the status. Tiles of
the reserve carry no check words (R244). `kind` records a check failure at an external tier. No line of a tile fails its check, and
the record names the tile's first. (DESIGN CHOICE, log 52) -/
def oldTile (kind : Nat) (d : Fin 8) (a : Nat) : W (Except Byte (List Byte)) := do
  let s ← getS
  let a := a / 4096 * 4096
  match storeOf a with
  | none => return .error sRANGE
  | some (st, off) =>
    if tileBusy s d st off then return .error sBUSY
    if st.isExt then timed (tierBlock d st off + 0x18)
    match ← readBytes d a 4096 with
    | .error e => return .error e
    | .ok bs =>
      if inReserve a then return .ok bs
      match ← readCheck d st a off with
      | .error e => return .error e
      | .ok w =>
        if (if s.mem.errs.isEmpty then s.mem.tileCrc (keyOf d a / 4096) else crc32c bs) != w then
          recordFail d a (if st.isExt then kind else 0)
          return .error sCHECK
        return .ok bs

/-- Read the tile at a local address as a consumer (R113, R121): its bytes, or the status. -/
def readTile (p : Nat) (d : Fin 8) (a : Nat) : W (Except Byte (List Byte)) := do
  if !permitted (← getS) p d (a / 4096 * 4096) false then return .error sRANGE
  oldTile 0 d a

/-! ## Writing tiles -/

/-- The code word that a tile's check word shares with fifteen others is read and written back, as a write of one of them needs: what it
holds is corrected, or stands as it was decoded (R245). Where it cannot be corrected the write ends with UNCORR before any byte.
(DESIGN CHOICE, log 11) -/
def tendCheck (d : Fin 8) (st : Store) (a off : Nat) : W Byte := do
  let s ← getS
  match checkOff s d st off with
  | none => return sOK
  | some c =>
    let u := keyOf d (a - off + c) / 64
    if nget 0 s.mem.errs u = 0 then return sOK
    let v ← readUnit 1 d (a - off + c / 64 * 64)
    if v.lost ≠ 0 then return sUNCORR
    let words := v.bytes.getD []
    (List.range (words.length / 4)).forM fun i => emit (.chk (keyOf d a / 4096 / 16 * 16 + i) (rdW words (4 * i)))
    emit (.err u 0)
    emit (.back u none)
    return sOK

/-- The check word of a tile written. -/
def putCheck (d : Fin 8) (st : Store) (a off : Nat) (w : Word) : W Byte := do
  let e ← tendCheck d st a off
  if e ≠ sOK then return e
  emit (.chk (keyOf d a / 4096) w)
  return sOK

/-- Write a whole tile with a check word (R112): the status. -/
def writeTile (p : Nat) (d : Fin 8) (a : Nat) (bs : List Byte) (check : Word) : W Byte := do
  let s ← getS
  let a := a / 4096 * 4096
  match storeOf a with
  | none => return sRANGE
  | some (st, off) =>
    if !permitted s p d a true then return sRANGE
    if tileBusy s d st off then return sBUSY
    let e ← if inReserve a then pure sOK else putCheck d st a off check
    if e ≠ sOK then return e
    emit (.put (keyOf d a) bs)
    return sOK

/-- A run of tiles is about to be written: a check code word all of whose sixteen tiles are among them is written whole, and nothing of
what it held is read (R245). -/
def freshChecks (d : Fin 8) (tiles : List Nat) : W Unit := do
  let s ← getS
  if s.mem.errs.isEmpty then return
  tiles.forM fun t => do
    match storeOf (t * 4096) with
    | none => pure ()
    | some (st, off) =>
      match checkOff s d st off with
      | none => pure ()
      | some c =>
        if t % 16 = 0 ∧ (List.range 16).all fun i => tiles.contains (t + i) then
          emit (.err (keyOf d (t * 4096 - off + c) / 64) 0)
          emit (.back (keyOf d (t * 4096 - off + c) / 64) none)

/-- The code words of a run of bytes are read and written back with what they hold corrected: 64 bytes in an external tier, a line of 128
in a store room or the gradient buffer. -/
def healRun (d : Fin 8) (a len : Nat) : W Unit := do
  let m := (← getS).mem
  if m.errs.isEmpty then return
  let z := match storeOf a with | some (st, _) => if st.isExt then 1 else 2 | none => 1
  let u := keyOf d a / 64 / z * z
  (List.range (cdiv (keyOf d a + len) (64 * z) * z - u)).forM fun i => do
    emit (.err (u + i) 0)
    emit (.back (u + i) none)

/-- The bytes of a merge put into the tile at `t`, whose old bytes have been read and passed, in runs `ps` of address and bytes: its check
word is written anew, and the code words that a run reaches are written whole, and no others (R114, R247). -/
def mergePut (d : Fin 8) (t : Nat) (ps : List (Nat × List Byte)) : W Byte := do
  match storeOf t with
  | none => return sRANGE
  | some (st, off) =>
    let new := ((← getS).mem.applyAll (ps.map fun x => .put (keyOf d x.1) x.2)).tileCrc (keyOf d t / 4096)
    let e ← if inReserve t then pure sOK else putCheck d st t off new
    if e ≠ sOK then return e
    ps.forM fun x => do
      healRun d x.1 x.2.length
      emit (.put (keyOf d x.1) x.2)
    if st.isRoom then bump (regA d bMOV 0x818) 1
    else if st.isExt then bump (tierBlock d st off + 0x1C) 1
    return sOK

/-- A partial write of runs of bytes: a merge into the tile at `t` (R114, R247). The requester's write permission and the
tile's old check word decide; the check word is written anew. -/
def mergeRuns (p : Nat) (d : Fin 8) (t : Nat) (ps : List (Nat × List Byte)) : W Byte := do
  if !permitted (← getS) p d t true then return sRANGE
  match ← oldTile 3 d t with
  | .error e => return e
  | .ok _ => mergePut d t ps

/-- A partial write of one run, which lies within its tile. -/
def mergeTile (p : Nat) (d : Fin 8) (a : Nat) (bs : List Byte) : W Byte := do
  if bs.isEmpty then return sOK
  mergeRuns p d (a / 4096 * 4096) [(a, bs)]

end Sys2Proof.Machine
end

