-- ==== Sys2Proof/Machine/Operands.lean ====
section
/-! DEFINITION. The common header of commands (R70), the conversion descriptor (R38, R39) and the address fields that
operand words carry. -/

namespace Sys2Proof.Machine

/-- A command's sixteen words. -/
abbrev Words := List Word

/-- Word `i` of a command. -/
def cw (ws : Words) (i : Nat) : Word := atD 0 ws i
/-- OPCODE. -/
def cOp (ws : Words) : Nat := fld (cw ws 0) 7 0
/-- CLASS. -/
def cClass (ws : Words) : Nat := fld (cw ws 0) 11 8
/-- WAIT_A_EN. -/
def cWaitAEn (ws : Words) : Bool := bitOf (cw ws 0) 12
/-- WAIT_B_EN. -/
def cWaitBEn (ws : Words) : Bool := bitOf (cw ws 0) 13
/-- SIGNAL_EN. -/
def cSignalEn (ws : Words) : Bool := bitOf (cw ws 0) 14
/-- LOG. -/
def cLog (ws : Words) : Bool := bitOf (cw ws 0) 15
/-- WAIT_A. -/
def cWaitA (ws : Words) : Nat := fld (cw ws 0) 27 16
/-- WAIT_B. -/
def cWaitB (ws : Words) : Nat := fld (cw ws 1) 11 0
/-- BUDGET. -/
def cBudget (ws : Words) : Nat := fld (cw ws 1) 31 16
/-- THRESH_A. -/
def cThreshA (ws : Words) : Word := cw ws 2
/-- THRESH_B. -/
def cThreshB (ws : Words) : Word := cw ws 3
/-- RECIPE. -/
def cRecipe (ws : Words) : Nat := fld (cw ws 4) 18 16
/-- SIGNAL. -/
def cSignal (ws : Words) : Nat := fld (cw ws 4) 11 0

/-- A tile number as an address: bits [43:12]. -/
def tileA (w : Word) : Nat := w.toNat * 4096
/-- A store-room line as an address: bits [33:7]. -/
def lineA (w : Nat) : Nat := w * 128

/-- What the waits of a command say (R73, R76). -/
inductive Waits where
  | hold | wait | epoch
  deriving DecidableEq, Repr

/-- One wait on a token. -/
def waitOne (d : Die) (en : Bool) (n : Nat) (th : Word) : Waits :=
  if !en then .hold
  else if th.toNat ≤ (nget 0 d.tokens n).toNat then .hold
  else if nget false d.marks n then .epoch else .wait

/-- Both waits of a command. -/
def waitsOf (d : Die) (ws : Words) : Waits :=
  let a := waitOne d (cWaitAEn ws) (cWaitA ws) (cThreshA ws)
  let b := waitOne d (cWaitBEn ws) (cWaitB ws) (cThreshB ws)
  if a = .epoch ∨ b = .epoch then .epoch else if a = .hold ∧ b = .hold then .hold else .wait

/-- The engines of the mask that a command names (R93); frog commands name theirs in word 5 (R209), AUX commands by
opcode (R223), and a GAPPLY runs on both Gecko units. (DEDUCED, log 46) -/
def enginesOf (ws : Words) : List (Fin 17) :=
  match cClass ws with
  | 0 => [0] | 1 => [1] | 2 => [2] | 3 => [3]
  | 4 => [⟨4 + fld (cw ws 5) 26 24 % 8, by omega⟩]
  | 5 => [12]
  | 7 => if cOp ws = 1 then [13] else [14]
  | 8 => [15, 16]
  | _ => []

/-- The queue that feeds an engine of the mask (R20, R93). -/
def queueOfEngine (e : Fin 17) : Fin 9 :=
  if e.val < 4 then ⟨e.val % 4, by omega⟩ else if e.val < 12 then 4 else if e.val = 12 then 5 else if e.val < 15 then 7 else 8

end Sys2Proof.Machine
end

