-- ==== Sys2Proof/Machine/Flags.lean ====
section
/-! DEFINITION. Tokens, abort marks, halts and overruns: 03_schedules_queues_and_tokens.md R72 to R90. -/

namespace Sys2Proof.Machine

/-- The schedule beat of a module beat on a die (R68): beats since the start beat. -/
def schedAt (d : Die) (beat : Nat) : Nat := beat - d.seq.startBeat
/-- The present schedule beat of a die. -/
def schedBeat (s : State) (d : Fin 8) : Nat := schedAt (s.die d) s.clk.beat

/-- A schedule beat as a 32-bit register, record or event shows it: SEQ_BEAT counts beats, and a counter saturates (R13, R97).
(DEDUCED, log 28) -/
def shownBeat (n : Nat) : Nat := min n 0xFFFFFFFF

/-- SEQ_STATUS of a die. -/
def seqStatusA (d : Fin 8) : Nat := regA d bSEQ 0

/-- Add 1 to a token, saturating, with TOK_SAT (R72). -/
def signalTok (d : Fin 8) (n : Nat) : W Unit := do
  let v := satAdd (nget 0 (← getD d).tokens n) 1
  modD d fun x => { x with tokens := nset 0 x.tokens n v }
  if v = 0xFFFFFFFF then setFlags (seqStatusA d) 0x20

/-- Set a token's abort mark (R76). -/
def markTok (d : Fin 8) (n : Nat) : W Unit := modD d fun x => { x with marks := nset false x.marks n true }

/-- Is a status a failure of a command (R90)? -/
def failing (st : Byte) : Bool := st != sOK && st != sEMPTY

/-- The DETAIL of HALT and OVERRUN (R488). -/
def cmdDetail (idx cls op beat : Nat) : List Byte := natLE 4 idx ++ [b8 cls, b8 op, 0, 0] ++ natLE 4 (shownBeat beat)

/-- Record the first failure since the die entered Armed, and raise its event (R90). -/
def recordHalt (d : Fin 8) (cls op idx : Nat) (st : Byte) : W Unit := do
  let s ← getS
  if !(s.die d).seq.haltValid then
    modSeq d fun q => { q with haltValid := true, haltClass := cls, haltStatus := st }
    raise 3 1 st (whereW d bSEQ 0) (cmdDetail idx cls op (schedBeat s d))

/-- Count an overrun against a queue (R80, R82): the TIMING it gives. The first of each queue in a run raises an event,
and a die in Halted records SUBSUMED and raises none. (DEDUCED, log 47) -/
def countOverrun (d : Fin 8) (q idx op : Nat) : W Byte := do
  let s ← getS
  let die := s.die d
  modSeq d fun x => { x with overruns := satAdd x.overruns 1 }
  setFlags (seqStatusA d) 0x40
  if die.seq.st = .halted then return sSUBSUMED
  if !die.seq.overrun.contains q then
    modSeq d fun x => { x with overrun := q :: x.overrun }
    raise 3 2 sOVERRUN (whereW d bSEQ 0) (cmdDetail idx q op (schedBeat s d))
  return sOVERRUN

/-- Change the started command with a number. -/
def modStarted (d : Fin 8) (uid : Nat) (f : Started → Started) : W Unit :=
  modD d fun x => { x with started := x.started.map fun c => if c.uid = uid then f c else c }

/-- Give a started command a failing status, unless it already has one. -/
def failStarted (d : Fin 8) (uid : Nat) (st : Byte) : W Unit :=
  modStarted d uid fun c => if failing c.status then c else { c with status := st, busy := false }

end Sys2Proof.Machine
end

