-- ==== Sys2Proof/Machine/Frames.lean ====
section
/-! DEFINITION. Frames of the Chivary fabric and their sending: 11_chivary_fabric.md R306 to R319, R340. -/

namespace Sys2Proof.Machine

/-- The die of a port: P4d to P4d+3 (R28). -/
def dieOf (p : Fin 32) : Fin 8 := ⟨p.val / 4, by omega⟩
/-- The ports of a die. -/
def portsOf (d : Fin 8) : List (Fin 32) := (List.finRange 32).filter fun p => dieOf p == d
/-- A port of the state. -/
def State.port (s : State) (p : Fin 32) : Port := s.ports[p]
/-- Change a port. -/
def modP (p : Fin 32) (f : Port → Port) : W Unit := modS fun s => { s with ports := s.ports.set p (f s.ports[p]) }
/-- A port, in a working copy. -/
def getP (p : Fin 32) : W Port := do return (← getS).port p
/-- The register base of a port (R349). -/
def portA (p : Fin 32) : Nat := regA (p.val / 4) bFAB (0x400 * (p.val % 4))
/-- The register base of a die's fabric engine registers (R351, R385). -/
def fabA (d : Fin 8) : Nat := regA d bFAB 0x8000

/-! ## Topology (R310 to R312) -/

/-- A coordinate of a module number, by dimension 0 x, 1 y, 2 z, 3 a, 4 b. -/
def coord (m dim : Nat) : Nat :=
  match dim with
  | 0 => nfld m 1 0 | 1 => nfld m 3 2 | 2 => nfld m 5 4 | 3 => nfld m 8 6 | _ => nfld m 11 9
/-- A module number with one coordinate replaced. -/
def withCoord (m dim c : Nat) : Nat :=
  let sh := match dim with | 0 => 0 | 1 => 2 | 2 => 4 | 3 => 6 | _ => 9
  m - coord m dim * 2 ^ sh + c * 2 ^ sh
/-- The size of a dimension under a map. -/
def dimSize (g : MMap) (dim : Nat) : Nat :=
  match dim with | 0 => 4 | 1 => 4 | 2 => g.z | 3 => g.ra | _ => g.rb
/-- The direction code of a port and its index within it (R311). -/
def portDir (p : Nat) : Nat × Nat :=
  if p < 24 then (p / 4, p % 4) else (6 + (p - 24) / 2, p % 2)
/-- The first port and the number of ports of a direction code. -/
def dirPorts (dir : Nat) : Nat × Nat := if dir < 6 then (4 * dir, 4) else (24 + 2 * (dir - 6), 2)
/-- The module one step away in a direction. -/
def neighbour (g : MMap) (m dir : Nat) : Nat :=
  let dim := dir / 2
  let n := dimSize g dim
  withCoord m dim (if dir % 2 = 0 then (coord m dim + 1) % n else (coord m dim + n - 1) % n)
/-- The peer that the cabling rule gives a port (R312): module and port; none when the port stays dark. -/
def cabled (g : MMap) (m p : Nat) : Option (Nat × Nat) :=
  let (dir, i) := portDir p
  if dimSize g (dir / 2) ≤ 1 then none
  else some (neighbour g m dir, (dirPorts (if dir % 2 = 0 then dir + 1 else dir - 1)).1 + i)
/-- A module's entry in a map. -/
def MMap.find (g : MMap) (m : Nat) : Option MapMod := g.mods.find? fun x => x.module == m
/-- Is a module listed and PRESENT? -/
def MMap.has (g : MMap) (m : Nat) : Bool := (g.find m).any (·.present)

/-! ## The frame header (R317) -/

/-- Frame types. -/
def tDATA : Nat := 1
/-- EMPTY. -/
def tEMPTY : Nat := 2
/-- LINK. -/
def tLINK : Nat := 3
/-- ABORT. -/
def tABORT : Nat := 4
/-- WREQ. -/
def tWREQ : Nat := 5
/-- WRSP. -/
def tWRSP : Nat := 6

/-- The fields of a frame header. -/
structure FHdr where
  type : Nat
  enc : Bool := false
  last : Bool := false
  token : Bool := false
  op : Nat := 0
  status : Byte := 0
  srcModule : Nat := 0
  srcDie : Nat := 0
  srcPort : Nat := 0
  dstModule : Nat := 0
  dstDie : Nat := 0
  dstToken : Nat := 0
  dstTile : Nat := 0
  /-- Bytes 16 to 19: PHASE, SLOT and FRAME, a request tag, or a beat. -/
  w16 : Nat := 0
  epoch : Nat := 0
  seq : Nat := 0
  ack : Nat := 0
  dlv : Nat := 0
  check : Word := 0
  ackV : Bool := false
  nak : Bool := false
  refuse : Bool := false
  refuseAck : Bool := false
  tag : List Byte := zeros 16
  deriving DecidableEq, Repr

/-- The 64 bytes of a header. -/
def FHdr.bytes (h : FHdr) : List Byte :=
  [b8 h.type, b8 (4 * b2n h.enc + 2 * b2n h.last + b2n h.token), b8 h.op, h.status]
    ++ natLE 4 (h.srcModule * 2 ^ 20 + h.srcDie * 2 ^ 17 + h.srcPort * 2 ^ 12)
    ++ natLE 4 (h.dstModule * 2 ^ 20 + h.dstDie * 2 ^ 17 + h.dstToken) ++ natLE 4 h.dstTile ++ natLE 4 h.w16
    ++ natLE 4 (h.epoch * 2 ^ 16) ++ natLE 8 h.seq ++ natLE 4 h.ack ++ natLE 4 h.dlv ++ natLE 4 h.check.toNat
    ++ [b8 (128 * b2n h.ackV + 64 * b2n h.nak + 32 * b2n h.refuse + 16 * b2n h.refuseAck), 0, 0, 0] ++ h.tag

/-- The header that 64 bytes spell. -/
def FHdr.parse (b : List Byte) : FHdr :=
  let f := rd b 1 1
  let s := rd b 4 4
  let t := rd b 8 4
  let l := rd b 44 1
  { type := rd b 0 1, enc := f.testBit 2, last := f.testBit 1, token := f.testBit 0, op := rd b 2 1, status := b8 (rd b 3 1)
    srcModule := nfld s 31 20, srcDie := nfld s 19 17, srcPort := nfld s 16 12
    dstModule := nfld t 31 20, dstDie := nfld t 19 17, dstToken := nfld t 11 0
    dstTile := rd b 12 4, w16 := rd b 16 4, epoch := rd b 22 2, seq := rd b 24 8, ack := rd b 32 4, dlv := rd b 36 4
    check := rdW b 40, ackV := l.testBit 7, nak := l.testBit 6, refuse := l.testBit 5, refuseAck := l.testBit 4
    tag := sub b 48 16 }

/-- Do the reserved fields of a header hold zero, and are its type, operation and STATUS ones that its type may carry (R16, R317, R318)? -/
def frameFieldsOk (b : List Byte) : Bool :=
  let t := rd b 0 1
  decide (1 ≤ t ∧ t ≤ 6) && decide (rd b 1 1 < 8) && decide (rd b 2 1 < 3)
    && decide (nfld (rd b 4 4) 11 0 = 0) && decide (nfld (rd b 8 4) 16 12 = 0)
    && (decide (t = tLINK ∨ t = tWREQ ∨ t = tWRSP) || decide (nfld (rd b 16 4) 9 0 = 0))
    && decide (rd b 20 2 = 0) && decide (rd b 44 1 % 16 = 0) && decide (rd b 45 3 = 0)
    && decide (rd b 3 1 ≤ (if t = tLINK ∨ t = tWRSP then 0x12 else 0) ∧ rd b 3 1 ≠ 1)

/-- Is a frame of bytes whole: a full or a short frame with a right CRC and right fields (R318)? -/
def frameOk (b : List Byte) : Bool :=
  let t := rd b 0 1
  let full := decide (b.length = 4164)
  (full || decide (b.length = 68)) && (if t = tDATA then full else if t = tWREQ ∨ t = tWRSP then true else !full)
    && (crc32c (b.take (b.length - 4)) == rdW b (b.length - 4)) && frameFieldsOk b

/-! ## Frame encryption (R340, R436) -/

/-- Is a partition Sealed: protected and keyed (R430)? -/
def isProt (s : State) (p : Nat) : Bool := s.sec.prot.testBit p
/-- Does a partition hold a PK_p? -/
def isKeyed (s : State) (p : Nat) : Bool := (s.sec.pk.toList.getD p none).isSome
/-- F_p of a partition (R426). -/
def fabKey (s : State) (p : Nat) : List Byte :=
  match s.sec.pk.toList.getD p none with
  | some k => kdf k (ascii "LYH FAB") (natLE 4 (s.sec.keygen.toList.getD p 0)) 128
  | none => zeros 16
/-- The IV of a frame (R340), 96 bits little-endian. (DEDUCED, log 33) -/
def frameIv (h : FHdr) : List Byte := natLE 12 (h.srcModule * 2 ^ 84 + h.srcPort * 2 ^ 79 + h.seq)

/-- The bytes of a frame without its CRC, enciphered where its header asks for it.
(DESIGN CHOICE, log 12; DEDUCED, log 33) -/
def sealFrame (key : List Byte) (h : FHdr) (tile : List Byte) : List Byte :=
  if h.enc then
    let pt := if tile.isEmpty then [] else natLE 4 h.check.toNat ++ tile
    let (ct, tag) := gcmSeal key (frameIv h) (h.bytes.take 32) pt
    if tile.isEmpty then { h with check := 0, tag }.bytes
    else { h with check := rdW ct 0, tag }.bytes ++ ct.drop 4
  else h.bytes ++ tile

/-- A frame opened: its check word and tile, or none where the tag fails. -/
def openFrame (key : List Byte) (h : FHdr) (b tile : List Byte) : Option (Word × List Byte) :=
  if h.enc then
    match gcmOpen key (frameIv h) (b.take 32) (if tile.isEmpty then [] else sub b 40 4 ++ tile) h.tag with
    | none => none
    | some pt => some (if tile.isEmpty then (0, []) else (rdW pt 0, pt.drop 4))
  else some (h.check, tile)

/-! ## Sending -/

/-- May a port send `n` new sequenced frames: free entries in its retry buffer, fewer than 512 frames beyond DLV, no width change under
way (R322, R323)? -/
def hasRoom (x : Port) (n : Nat) : Bool :=
  !x.changing && decide (x.retry.length + n ≤ 512) && decide (x.txSeq - x.dlv + n ≤ 512)

/-- The partition whose key seals a frame: that of SRC_DIE, or of a frame that another module sent, that of DST_DIE, which opened it
on arrival (R340). (DEDUCED, log 34) -/
def sealPart (s : State) (h : FHdr) : Nat :=
  partOf s ⟨(if h.srcModule = s.clk.module then h.srcDie else h.dstDie) % 8, by omega⟩

/-- Is a frame sent with ENC 1: one of this module's Sealed partitions, or one that came with ENC 1 and goes on (R340)?
(DEDUCED, log 34) -/
def sealEnc (s : State) (h : FHdr) : Bool :=
  if h.srcModule = s.clk.module then isProt s (sealPart s h) && isKeyed s (sealPart s h) else h.enc

/-- Send a sequenced frame on a port: it takes the next SEQ and enters the retry buffer (R319); with ENC 1 under the key of its
partition (R340, R436). -/
def sendNow (p : Fin 32) (h : FHdr) (tile : List Byte) : W Unit := do
  let s ← getS
  let seq := (s.port p).txSeq
  let h := { h with seq, enc := sealEnc s h }
  let bytes := sealFrame (fabKey s (sealPart s h)) h tile
  modP p fun x => { x with txSeq := seq + 1, retry := x.retry ++ [⟨seq, bytes⟩] }
  modS fun s => if nget 0 s.sec.txEnd p.val ≤ seq then
      { s with sec := { s.sec with txEnd := nset 0 s.sec.txEnd p.val ((seq / 2 ^ 40 + 1) * 2 ^ 40) } } else s
  bump (portA p + 0x10) 1
  if h.type = tABORT then bump (fabA (dieOf p) + 0x14) 1

/-- The frames that wait go as far as there is room. -/
def sendWaiting (p : Fin 32) : Nat → W Unit
  | 0 => return
  | n + 1 => do
    let x ← getP p
    match x.waiting with
    | [] => return
    | b :: r =>
      if hasRoom x 1 then
        modP p fun x => { x with waiting := r }
        sendNow p (FHdr.parse b) (b.drop 64)
        sendWaiting p n

/-- A sequenced frame of a port, sent at once or behind those that wait for room (R323): the SEQ that it takes. -/
def sendFrame (p : Fin 32) (h : FHdr) (tile : List Byte) : W Nat := do
  let s ← getS
  let x := s.port p
  let src := if h.type = tWREQ ∨ h.type = tWRSP then h.srcModule else s.clk.module
  let h := { h with srcModule := src, srcPort := p.val }
  if x.waiting.isEmpty && hasRoom x 1 then sendNow p h tile
  else modP p fun x => { x with waiting := x.waiting ++ [h.bytes ++ tile] }
  return x.txSeq + x.waiting.length

/-- The module and port that a port's FAB_PEER records (R349). -/
def peerOf (s : State) (p : Fin 32) : Nat × Nat :=
  let w := rget s (portA p + 4)
  (fld w 31 20, fld w 19 15)

/-- Record a failure of a port: LAST_FAIL takes the first since DOWN_SEEN and REFUSE_SEEN were last cleared (R350). (DEDUCED, log 53) -/
def portFail (p : Fin 32) (st : Byte) : W Unit := do
  if !(← getP p).failed then
    setField (portA p) 15 8 st.toNat
    modP p fun x => { x with failed := true }

/-- A slot entry's words, eight to an entry (R325). -/
def slotOf (s : State) (p : Fin 32) (table i : Nat) : List Word := atD [] (atD [] (s.port p).tables table) i
/-- The number of slots of a table. -/
def tableLen (s : State) (p : Fin 32) (table : Nat) : Nat := (atD [] (s.port p).tables table).length
/-- VALID of a slot. -/
def slValid (w : List Word) : Bool := bitOf (atD 0 w 0) 31
/-- TOKEN_EN of a slot. -/
def slToken (w : List Word) : Bool := bitOf (atD 0 w 0) 29

/-! ## Lag (R329) -/

/-- The whole beats by which the slot that a phase has next on a port is late (R329). -/
def lateBeats (s : State) (p : Fin 32) (ph : PhaseRun) : Nat := schedBeat s (dieOf p) - (ph.start + ph.next)

/-- The lag of that slot in always-on cycles: within its beat the cycle is a free value (R329). (DESIGN CHOICE, log 5) -/
def lagNow (p : Fin 32) (ph : PhaseRun) : W Nat := do
  let k ← freeVal
  return 64 * lateBeats (← getS) p ph + k % 64

/-- The lag of a slot that starts, in FAB_LAG, and the largest of its phase in FAB_LAG_MAX (R329). -/
def noteLag (p : Fin 32) (ph : PhaseRun) : W Nat := do
  let lag ← lagNow p ph
  let mx ← getReg (portA p + 0x24)
  setReg (portA p + 0x20) (min lag 0xFFFFFFFF)
  setReg (portA p + 0x24) (max mx.toNat (min lag 0xFFFFFFFF))
  return lag

/-- The first schedule beat in which a slot of `n` frames that starts now can have ended: it lasts as long as its frames and its tail at
a width (R307, R327). -/
def slotEnd (s : State) (p : Fin 32) (w n : Nat) : Nat := schedBeat s (dieOf p) + (n * 4164 + 68) / (40960 * w)

/-- A phase whose next slot starts now with `n` frames and a lag. -/
def PhaseRun.started (s : State) (p : Fin 32) (ph : PhaseRun) (n lag : Nat) : PhaseRun :=
  { ph with lag, ends := some (slotEnd s p (s.port p).width n), frames := n, sure := slotEnd s p (s.port p).width n + 2 }

/-- A phase whose slot was held up until now, and may still have all of its frames to send at a width (R321, R322). -/
def PhaseRun.stretched (s : State) (p : Fin 32) (w : Nat) (ph : PhaseRun) : PhaseRun := { ph with sure := max ph.sure (slotEnd s p w ph.frames + 2) }

/-- A phase of whose slot `n` frames, which had waited for room, go now (R323). -/
def PhaseRun.resumed (s : State) (p : Fin 32) (n : Nat) (ph : PhaseRun) : PhaseRun :=
  { ph with
    ends := ph.ends.map (max · (slotEnd s p (s.port p).width n))
    sure := max ph.sure (slotEnd s p (s.port p).width n + 2) }

/-- Has a phase a slot that has not started, and is its due edge at least a beat past? -/
def slotLate (s : State) (p : Fin 32) (ph : PhaseRun) : Bool := decide (ph.next < tableLen s p ph.table) && decide (0 < lateBeats s p ph)

/-- The phase whose next slot may be its port's current one, late by at least a beat: no frame of the slot before it waits (R323). -/
def waitingSlot (s : State) (p : Fin 32) : Option PhaseRun :=
  if (s.port p).waiting.isEmpty then (s.port p).running.filter (slotLate s p) else none

/-- FAB_LAG and FAB_LAG_MAX of a port whose next slot may be the current one take its lag, once the slot before it has ended: not before the
beat in which it can have, and from the second beat after that on for certain; between them, and in a retry episode or a width change, a free
value says whether it has (R327, R329). (DESIGN CHOICE, log 5) -/
def noteWaiting (p : Fin 32) (ph : PhaseRun) : W Unit := do
  let s ← getS
  let x := s.port p
  let k ← freeVal
  let beat := schedBeat s (dieOf p)
  if ph.ends.all fun e => decide (e ≤ beat) && (decide (ph.sure ≤ beat) && x.episode.isNone && !x.changing || k % 2 == 1) then
    let _ ← noteLag p ph

/-- The header fields that a slot gives its frames (R317, R325). -/
def slotHdr (w : List Word) (d : Fin 8) (type table slot frame epoch : Nat) : FHdr :=
  { type, op := fld (atD 0 w 0) 15 14, srcDie := d.val, dstModule := fld (atD 0 w 4) 31 20, dstDie := fld (atD 0 w 4) 19 17,
    dstToken := fld (atD 0 w 4) 11 0, w16 := table * 2 ^ 29 + slot * 2 ^ 17 + frame * 2 ^ 10, epoch }

/-- The ABORT frame of a slot, in place of its data (R333, R356 step 3). -/
def sendSlotAbort (p : Fin 32) (ph : PhaseRun) (slot : Nat) (w : List Word) : W Nat :=
  sendFrame p { slotHdr w (dieOf p) tABORT ph.table slot 0 ph.epoch with op := 0, last := true, token := slToken w } []

end Sys2Proof.Machine
end

