-- ==== Sys2Proof/Machine/Epochs.lean ====
section
/-! DEFINITION. Epochs and their abort: 12_collectives_and_expert_traffic.md R352 to R358. -/

namespace Sys2Proof.Machine

/-- The state of an epoch number on a die (R353). -/
def epochSt (d : Die) (x : Nat) : EpSt := nget .idle d.epochs x
/-- The open slot of an epoch on a die. -/
def epochSlot (d : Die) (x : Nat) : Option EpSlot :=
  (d.slots.toList.find? fun o => o.any (·.number == x)).join
/-- Change an open slot. -/
def modSlot (d : Fin 8) (x : Nat) (f : EpSlot → Option EpSlot) : W Unit :=
  modD d fun die => { die with slots := die.slots.map fun o => match o with
    | some e => if e.number = x then f e else some e
    | none => none }

/-- FAB_RED_STATUS of a die. -/
def redA (d : Fin 8) : Nat := regA d bFAB 0x8100

/-- Record a reduction or epoch failure: the first since CHECK_SEEN, AGREE_SEEN and ABORT_SEEN were last cleared (R386).
(DEDUCED, log 53) -/
def redFail (d : Fin 8) (epoch : Nat) (st : Byte) : W Unit := do
  if !(← getD d).redFailed then
    setField (redA d) 31 16 epoch
    setField (redA d) 15 8 st.toNat
    modD d fun x => { x with redFailed := true }

/-- The epoch that a started FABRIC command names; 0 for none (R346, R382). -/
def startedEpoch (c : Started) : Nat :=
  match cOp c.words with
  | 0x01 => fld (cw c.words 7) 15 0
  | 0x14 => fld (cw c.words 7) 15 0
  | 0x10 => fld (cw c.words 5) 15 0
  | 0x11 => fld (cw c.words 5) 15 0
  | 0x12 => fld (cw c.words 5) 15 0
  | 0x13 => fld (cw c.words 5) 15 0
  | _ => 0

/-- One ABORT frame for every remaining VALID slot of a phase, in slot order (R356 step 3). (DEDUCED, log 47) -/
def abortSlots (p : Fin 32) (ph : PhaseRun) : W Unit := do
  let s ← getS
  ((List.range (tableLen s p ph.table)).drop ph.next).forM fun i => do
    let w := slotOf s p ph.table i
    if slValid w then
      let _ ← sendSlotAbort p ph i w

/-- Does a frame that waits carry a slot's data, or stand for it (R328)? -/
def slotData (b : List Byte) : Bool := rd b 0 1 == tDATA || rd b 0 1 == tEMPTY

/-- The phase that runs on a port sends no further data: the frames of its slot that wait for room go no more, and that slot
counts among those that remain (R330, R356 step 3). (DEDUCED, log 47) -/
def cutSlot (uid : Nat) (x : Port) : Port :=
  if x.running.any (·.uid == uid) && x.waiting.any slotData then
    { x with waiting := x.waiting.filter fun b => !slotData b, running := x.running.map fun ph => { ph with next := ph.next - 1 } }
  else x

/-- Take a phase off a port; the lag of a slot that waits there counts still (R329). -/
def dropPhase (p : Fin 32) (uid : Nat) : W Unit := do
  (waitingSlot (← getS) p).toList.forM fun ph => if ph.uid = uid then noteWaiting p ph else pure ()
  modP p fun y =>
    let x := cutSlot uid y
    { x with
      armed := x.armed.filter (·.uid != uid)
      running := if x.running.any (·.uid == uid) then none else x.running
      draining := x.draining.filter (·.uid != uid) }
  let s ← getS
  if (s.port p).running.isNone then setField (portA p) 16 16 0

/-- Step 3 of R356 on one port: its phases of epoch `x` end. -/
def abortPort (d : Fin 8) (x : Nat) (p : Fin 32) : W Unit := do
  (← getP p).running.toList.forM fun ph => if ph.epoch = x then modP p (cutSlot ph.uid) else pure ()
  let s ← getS
  let port := s.port p
  (port.running.toList ++ port.armed).forM fun ph =>
    if ph.epoch = x then do
      if port.st = .up then abortSlots p ph
      failStarted d ph.uid sEPOCH
      dropPhase p ph.uid
    else pure ()
  port.draining.forM fun ph => if ph.epoch = x then do
      failStarted d ph.uid sEPOCH
      dropPhase p ph.uid
    else pure ()

/-- Step 5 of R356 on one started command. -/
def endReduction (x : Nat) (c : Started) : Started :=
  if cClass c.words == 6 && decide (0x11 ≤ cOp c.words ∧ cOp c.words ≤ 0x13) && startedEpoch c == x && !failing c.status then
    { c with status := sEPOCH, busy := false }
  else c

/-- Epoch `x` aborts on a die (R355, R356). `origin`: 0 this die, 1 an ABORT frame, 2 a notice; `arrival`: the port or die.
(DEDUCED, log 47) -/
def abortEpoch (d : Fin 8) (x origin arrival : Nat) : W Unit := do
  let s ← getS
  let die := s.die d
  match epochSt die x with
  | .closed => return
  | .aborted => return
  | st =>
    modD d fun y => { y with epochs := nset .idle y.epochs x .aborted }
    if st = .open_ then
      ((epochSlot die x).map (·.abortTokens) |>.getD []).forM (markTok d)
      modSlot d x fun _ => none
      (portsOf d).forM (abortPort d x)
      modD d fun y => { y with started := y.started.map (endReduction x) }
    (portsOf d).forM fun p => do
      let s ← getS
      if (s.port p).st = .up ∧ s.fab.mode = 0 then
        let (m, q) := peerOf s p
        let _ ← sendFrame p { type := tABORT, last := true, srcDie := d.val, dstModule := m, dstDie := q / 4, epoch := x } []
    modS fun s => { s with fab := { s.fab with
      notices := s.fab.notices ++ (allDies.filter (· != d)).map fun e => (e.val, d.val, x) } }
    redFail d x sEPOCH
    bump (regA d bFAB 0x8114) 1
    setFlags (redA d) 0x10
    raise 4 4 sEPOCH (whereW d bFAB 0) (natLE 2 x ++ [b8 origin, b8 arrival])

/-- Every epoch open on a die aborts (R355). -/
def abortOpen (d : Fin 8) : W Unit := do
  let die ← getD d
  (die.slots.toList.filterMap fun o => o.map (·.number)).forM fun x => abortEpoch d x 0 d.val

/-- Every phase of epoch 0 on a die sends nothing further and ends with a status (R330, R490). -/
def endFree (d : Fin 8) (uid : Option Nat) (st : Byte) : W Unit := do
  (portsOf d).forM fun p => do
    let port ← getP p
    (port.running.toList ++ port.armed ++ port.draining).forM fun ph =>
      if ph.epoch = 0 ∧ (uid = none ∨ uid = some ph.uid) then do
        failStarted d ph.uid st
        dropPhase p ph.uid
      else pure ()

/-- A PHASE fails on one of its ports (R330): the command takes the failure status, no port of the phase sends a further
data frame, and a phase of epoch 0 ends on every port. (DEDUCED, log 47) -/
def failPhase (d : Fin 8) (uid : Nat) (st : Byte) : W Unit := do
  failStarted d uid st
  (portsOf d).forM fun p => modP p fun y =>
    let x := cutSlot uid y
    { x with
      armed := x.armed.map fun ph => if ph.uid = uid then { ph with failed := true } else ph
      running := x.running.map fun ph => if ph.uid = uid then { ph with failed := true } else ph }
  endFree d (some uid) st

/-- The die halts: the sequencer stops fetching, the die enters Halted unless it is Stopping, and every epoch open on it
aborts (R90, R355). -/
def haltDie (d : Fin 8) : W Unit := do
  modSeq d fun q => { q with fetching := false, st := if q.st = .running then .halted else q.st }
  abortOpen d

end Sys2Proof.Machine
end

