-- ==== Sys2Proof/Machine/Sequencer.lean ====
section
/-! DEFINITION. The sequencer, its queues and control commands, completion and failure, engine sleep:
03_schedules_queues_and_tokens.md. -/

namespace Sys2Proof.Machine

/-! ## Completion (R87 to R90) -/

/-- The 32 bytes of a completion record (R88). -/
def recordBytes (c : Started) (cls : Nat) (startBeat endBeat : Nat) : List Byte :=
  natLE 4 c.idx ++ [b8 (cOp c.words), b8 cls, c.status, c.timing] ++ natLE 4 (shownBeat startBeat) ++ natLE 4 (shownBeat endBeat)
    ++ natLE 4 c.ctr.ovf.toNat ++ natLE 4 c.ctr.sat.toNat ++ natLE 4 c.ctr.ufz.toNat ++ natLE 4 c.ctr.scrub.toNat

/-- Free entries of the completion log (R89). -/
def logFree (q : Seq) : Nat := q.logN - (q.logWr - q.logRd).toNat

/-- Write a completion record: a 32-byte partial write into a loft tile (R89). -/
def writeRecord (d : Fin 8) (c : Started) (cls : Nat) : W Byte := do
  let s ← getS
  let die := s.die d
  let q := die.seq
  let st ← mergeTile (partOf s d) d (q.logBase + 32 * (q.logWr.toNat % (max q.logN 1)))
    (recordBytes c cls (schedAt die c.clock) (schedBeat s d))
  if st = sOK then modSeq d fun q => { q with logWr := q.logWr + 1 }
  return st

/-- The counters of a command added into the sums of its queue (R88). -/
def addQsum (d : Fin 8) (cls : Nat) (c : Ctr) : W Unit :=
  if h : cls < 9 then
    modD d fun x =>
      let v := x.qsum[cls]
      { x with qsum := x.qsum.set cls (#v[satAdd v[0] c.ovf.toNat, satAdd v[1] c.sat.toNat, satAdd v[2] c.ufz.toNat, satAdd v[3] c.scrub.toNat]) }
  else pure ()

/-- Replace the 32-bit word at a byte offset. -/
def setWord (bs : List Byte) (off : Nat) (v : Nat) : List Byte := bs.take off ++ natLE 4 v ++ bs.drop (off + 4)

/-- A context of a die. -/
def ctxOf (d : Die) (c : Nat) : Option Context := (d.ctx.find? fun x => x.1 == c).map (·.2)
/-- Change a context. -/
def modCtx (d : Fin 8) (c : Nat) (f : Context → Context) : W Unit :=
  modD d fun x => { x with ctx := x.ctx.map fun y => if y.1 = c then (y.1, f y.2) else y }

/-- FRG_ of frog engine `e` (R221). -/
def frogA (d : Fin 8) (e : Nat) : Nat := regA d bFRG (0x1000 * e)
/-- Counter `k` of stream `s` (R214, R221). -/
def streamA (d : Fin 8) (e s k : Nat) : Nat := frogA d e + 0x400 + 0x20 * s + 4 * k

/-- The tile of a buffer that a demand access evicts when it finds the buffer full: the greatest distance, among equal ones the highest
stream (R213). -/
def evicted (l : List Ahead) : Option Ahead :=
  l.foldl (fun o x => match o with
    | none => some x
    | some y => if y.dist < x.dist ∨ (y.dist = x.dist ∧ y.stream < x.stream) then some x else some y) none

/-- Accesses that read a tile again, evicted or discarded before (R213). -/
def AheadRun.again (r : AheadRun) : Nat := r.reread + b2n r.dropped
/-- Demand accesses: those that run-ahead had not reached, and those that read again (R214). -/
def AheadRun.demand (r : AheadRun) : Nat := r.base + r.again
/-- Did one command run while another one still did? -/
def AheadRun.beside (x y : AheadRun) : Bool := x.ended.all (decide <| y.uid < ·) && y.ended.all (decide <| x.uid < ·)

/-- What an eviction takes: a tile that no access has consumed as its command completes, one that a later access of a command consumes,
or the one of the access with which the command fails. -/
inductive Evictee where
  | left (x : Ahead)
  | consumed (uid : Nat)
  | failing (uid : Nat)
  deriving DecidableEq, Repr

/-- What a demand access of `x` may evict from a full buffer, or one of `x` that reads again (`again`) (R213): of the tiles left in it the
one with the greatest distance, and tiles that a command beside it consumes later. What run-ahead had not reached finds no tile of its own
stream ahead of it, and behind the access that fails nothing is consumed. -/
def evictees (rs : List AheadRun) (buf : List Ahead) (x : AheadRun) (again : Bool) : List Evictee :=
  let live := rs.filter fun y => y.ended.isNone && x.beside y && decide (1024 ≤ y.peak) && (again || y.uid != x.uid)
  let later := live.filter fun y => y.uid != x.uid || decide (x.againSpent < x.reread)
  (evicted (buf.filter fun a => live.any (·.stream == a.stream))).toList.map .left
    ++ (later.filter fun y => decide (y.base + y.again < y.used)).map (.consumed ·.uid)
    ++ (later.filter fun y => y.dropped && !y.lost).map (.failing ·.uid)

/-- The evictions that the demand accesses of an engine's commands may have made, each at most one: who, whether by an access that reads
again, and what. -/
def evictions (rs : List AheadRun) (buf : List Ahead) : List (Nat × Bool × Evictee) :=
  (rs.filter fun x => decide (1024 ≤ x.peak)).flatMap fun x =>
    (if x.baseSpent < x.base then (evictees rs buf x false).map (x.uid, false, ·) else [])
      ++ if x.againSpent < x.again then (evictees rs buf x true).map (x.uid, true, ·) else []

/-- Up to `n` evictions among an engine's commands, which ones being free. (DESIGN CHOICE, log 6) -/
def evictAhead (d : Fin 8) (e : Fin 8) : Nat → W Unit
  | 0 => return
  | n + 1 => do
    let die ← getD d
    let l := evictions (die.runs.filter (·.engine == e.val)) die.ahead[e]
    match l[(← freeVal) % l.length]? with
    | none => return
    | some (u, again, v) =>
      modD d fun x => { x with runs := x.runs.map fun r => if r.uid ≠ u then r
        else if again then { r with againSpent := r.againSpent + 1 } else { r with baseSpent := r.baseSpent + 1 } }
      match v with
      | .left t =>
        bump (streamA d e.val t.stream 5) 1
        modD d fun x => { x with ahead := x.ahead.set e (x.ahead[e].erase t) }
      | .consumed y => modD d fun x => { x with runs := x.runs.map fun r => if r.uid = y then { r with reread := r.reread + 1 } else r }
      | .failing y => modD d fun x => { x with runs := x.runs.map fun r => if r.uid = y then { r with lost := true } else r }
      evictAhead d e n

/-- A command's record closed, and the records gone beside which no command of their engine runs any more. -/
def endRun (d : Fin 8) (uid : Nat) : W Unit := modD d fun x =>
  let rs := x.runs.map fun r => if r.uid = uid then { r with ended := some x.nextUid } else r
  { x with runs := rs.filter fun r => r.ended.isNone || rs.any fun y => y.ended.isNone && y.engine == r.engine && r.beside y }

/-- The run-ahead of a frog command is counted as it completes, and the tiles it left are dropped unconsumed (R211 to R214). Where the
streams of the engine could fill the buffer together, the evictions up to then are free within what R213 allows, and so is how many of the
accesses used arrived late (R95). A tile that is left unconsumed and whose check word or code would have failed stays in the buffer until
then and counts as UNUSED. (DESIGN CHOICE, log 6; DEDUCED, log 16) -/
def settleAhead (d : Fin 8) (uid : Nat) : W Unit := do
  match (← getD d).runs.find? fun r => r.uid == uid && r.ended.isNone with
  | none => return
  | some r =>
    let e : Fin 8 := ⟨r.engine % 8, by omega⟩
    let ctr := streamA d e.val r.stream
    if 1024 ≤ r.peak then
      let most := (((← getD d).runs.filter (·.engine == r.engine)).map (·.used)).sum
      evictAhead d e ((← freeVal) % (most + 1))
    let die ← getD d
    let r := (die.runs.find? (·.uid == uid)).getD r
    let hits := r.used - r.demand
    let late := (← freeVal) % (hits + 1)
    bump (ctr 0) r.demand
    bump (ctr 1) (r.used - r.base + r.left)
    bump (ctr 2) hits
    bump (ctr 3) (die.ahead[e].filter (·.stream == r.stream)).length
    bump (ctr 4) late
    bump (ctr 5) (r.reread + b2n r.lost)
    bump (ctr 6) r.met
    if 0 < r.met then setFlags (frogA d e.val) 1
    modD d fun x => { x with ahead := x.ahead.set e (x.ahead[e].filter (·.stream != r.stream)) }
    endRun d uid

/-- The newt engine (0) or the sorter (1) runs a command in this beat, which counts once (R238). -/
def auxBusy (d : Fin 8) (i : Fin 2) : W Unit := do
  let s ← getS
  if (s.die d).auxBeat[i] = s.clk.up + 1 then return
  bump (regA d bFRG (if i = 0 then 0x800C else 0x810C)) 1
  modD d fun x => { x with auxBeat := x.auxBeat.set i (s.clk.up + 1) }

/-- What a class counts and changes as a command completes with its work's own status: R152, R183, R221, R238, R266,
R278, R287, R304, R351, R370, R385. `st` is the status it completes with, after its record (R89). (DESIGN CHOICE, log 18) -/
def doneHook (d : Fin 8) (cls : Nat) (c : Started) (st : Byte) : W Unit := do
  let op := cOp c.words
  match cls with
  | 4 =>
    bump (regA d bFRG (0x1000 * fld (cw c.words 5) 26 24 + 4)) 1
    settleAhead d c.uid
  | 5 => bump (regA d bMOV 4) 1
  | 6 =>
    bump (regA d bFAB 0x8004) 1
    if 0x11 ≤ op ∧ op ≤ 0x13 then
      bump (regA d bFAB 0x8104) 1
      let b := fld (cw c.words 5) 31 20
      if op = 0x12 ∧ st = sOK then
        modSlot d (startedEpoch c) fun e => some { e with quantised := nset false e.quantised b true }
      if op = 0x13 ∧ st = sOK then
        modSlot d (startedEpoch c) fun e => some { e with committed := nset false e.committed b true }
        bump (regA d bFAB 0x8108) 1
  | 7 =>
    if op = 1 then
      bump (regA d bFRG 0x8004) 1
      if st = sEMPTY then bump (regA d bFRG 0x8008) 1
    else bump (regA d bFRG 0x8104) 1
  | 8 =>
    bump (regA d bGEK 4) 1
    bump (regA d bGEK 0x1004) 1
    if op = 1 ∧ st = sOK then
      modCtx d (fld (cw c.words 5) 9 0) fun x => { x with static := setWord x.static 72 (min (rd x.static 72 4 + 1) 0xFFFFFFFF) }
  | _ =>
    if cls < 4 then
      if 1 ≤ op ∧ op ≤ 4 then bump (regA d bME (0x200 * cls + 4 * op)) 1
      if 0x40 ≤ op then bump (regA d bVE (0x200 * cls + 4)) 1

/-! ## Failure flags of the engines' status registers -/

/-- ENGINE of a frog command. -/
def fEngine (ws : Words) : Nat := fld (cw ws 5) 26 24
/-- STREAM of a frog command. -/
def fStream (ws : Words) : Nat := fld (cw ws 5) 23 20

/-- FRG_STATUS after a command failed; `bit` is the flag that its failure sets, 0 for none (R222). -/
def frogFlag (d : Fin 8) (ws : Words) (bit : Nat) : W Unit := do
  let a := frogA d (fEngine ws)
  if bit = 0 then return
  if fld (← getReg a) 3 2 = 0 then setField a 15 12 (fStream ws)
  setFlags a bit

/-- GEK_ of unit `u` (R304). -/
def gekA (d : Fin 8) (u : Nat) : Nat := regA d bGEK (0x1000 * u)

/-- GEK_STATUS of both units after an UPDATE command failed (R305). A status that sets no flag records no context.
(DESIGN CHOICE, log 51) -/
def gekFail (d : Fin 8) (ctx : Nat) (st : Byte) : W Unit := do
  if st ≠ sSTEP ∧ st ≠ sCHECK ∧ st ≠ sUNCORR ∧ st ≠ sRANGE ∧ st ≠ sPARAM then return
  [0, 1].forM fun u => do
    let v ← getReg (gekA d u)
    if fld v 3 2 = 0 then setField (gekA d u) 15 5 ctx
    if st = sSTEP then
      bump (gekA d u + 0x18) 1
      setFlags (gekA d u) 8
    else setFlags (gekA d u) 4

/-- The flags of a command that fails only as it completes, because its record cannot be written (R89): R153, R184, R222, R239,
R279, R305, R386. (DESIGN CHOICE, log 51) -/
def failFlags (d : Fin 8) (cls : Nat) (c : Started) (st : Byte) : W Unit := do
  let op := cOp c.words
  if st ≠ sCHECK ∧ st ≠ sUNCORR ∧ st ≠ sRANGE then return
  match cls with
  | 4 => frogFlag d c.words (if st = sRANGE then 8 else 0)
  | 5 => setFlags (regA d bMOV 0) 2
  | 6 => if 0x10 ≤ op ∧ op ≤ 0x14 then redFail d (startedEpoch c) st
  | 7 => setFlags (regA d bFRG (if op = 1 then 0x8000 else 0x8100)) 2
  | 8 => gekFail d (fld (cw c.words 5) 9 0) st
  | _ =>
    if cls < 4 then
      if 1 ≤ op ∧ op ≤ 4 then setFlags (regA d bME (0x200 * cls)) 2
      if 0x40 ≤ op then setFlags (regA d bVE (0x200 * cls)) 2

/-! ## Histogram records (R57, R177, R178) -/

/-- Bytes of a histogram record. -/
def histBytes (x : Die) (r off len : Nat) : List Byte := nrun 0 x.hist (r * 272 + off) len

/-- Private bins merged into a record by saturating addition, as one action (R178). -/
def mergeHist (d : Fin 8) (f : Nat × List Nat) : W Unit := do
  let old := wordsOf (histBytes (← getD d) f.1 16 256)
  let new := (List.range 64).map fun b => satAdd (atD 0 old b) (atD 0 f.2 b)
  modD d fun x => { x with hist := nsetRun 0 x.hist (f.1 * 272 + 16) (bytesOf new) }

/-- What a command leaves before it signals its token: its summary slot, whole, and its bins in their record (R174, R176, R178). -/
def deliver (d : Fin 8) (c : Started) : W Unit := do
  match c.summ with
  | some (k, m) => modD d fun x => { x with summ := x.summ.set (k % 16) m (Nat.mod_lt _ (by decide)) }
  | none => pure ()
  match c.feed with
  | some f => mergeHist d f
  | none => pure ()

/-- A command completes (R88 to R90): `false` where it is held for log space and nothing else of it happens. One whose wait stands on a
marked token (`marked`) marks its own SIGNAL token; no other failure marks it (R76). -/
def finish (d : Fin 8) (cls : Nat) (c : Started) (marked : Bool := false) : W Bool := do
  let q := (← getD d).seq
  let need := cLog c.words || failing c.status || c.timing != 0
  if need && !failing c.status && decide (logFree q ≤ 160) then
    if !c.held then
      modSeq d fun q => { q with logStalls := satAdd q.logStalls 1 }
      setFlags (seqStatusA d) 0x80
    return false
  let mut st := c.status
  if need then
    let r ← writeRecord d c cls
    if r ≠ sOK ∧ !failing c.status then
      failFlags d cls c r
      st := r
  doneHook d cls c st
  addQsum d cls c.ctr
  if !failing st then
    deliver d c
    if cSignalEn c.words then signalTok d (cSignal c.words)
  else
    if marked ∧ cSignalEn c.words then markTok d (cSignal c.words)
    recordHalt d cls (cOp c.words) c.idx st
    modSeq d fun q => { q with halted := if q.halted.contains cls then q.halted else cls :: q.halted }
    haltDie d
  return true

/-- Has a phase sent its last frame on a port, its remaining slots sending nothing, with DLV past that frame? -/
def portDone (s : State) (p : Fin 32) (ph : PhaseRun) : Bool :=
  ((atD [] (s.port p).tables ph.table).drop ph.next).all (fun w => !slValid w) && ph.lastSeq.all fun n => decide (n < (s.port p).dlv)

/-- Has a PHASE or RESHARD sent its last frame on every port, with DLV past it (R330)? -/
def phaseDone (s : State) (d : Fin 8) (uid : Nat) : Bool :=
  (portsOf d).all fun p =>
    let x := s.port p
    !(x.armed.any (·.uid == uid)) && (x.running.toList ++ x.draining).all fun ph => ph.uid != uid || portDone s p ph

/-- Is a command a product of an ME (R149)? -/
def isProduct (ws : Words) : Bool := decide (cClass ws < 4 ∧ 1 ≤ cOp ws ∧ cOp ws ≤ 4)

/-- Is a started command's work done? A product ends after the products of its ME that started before it (R141).
(DESIGN CHOICE, log 4) -/
def workDone (s : State) (d : Fin 8) (c : Started) : Bool :=
  if isProduct c.words && ((s.die d).started.takeWhile fun x => x.uid != c.uid).any fun x => isProduct x.words && cClass x.words == cClass c.words then false
  else if cClass c.words = 6 ∧ (cOp c.words = 1 ∨ cOp c.words = 0x14) then failing c.status || phaseDone s d c.uid
  else !c.busy

/-- The beats that a command may take: its BUDGET, or for a PACK or UNPACK its FB_BUDGET where that is set (R78, R266). -/
def allowance (ws : Words) : Nat :=
  let fb := if cClass ws = 5 ∧ (cOp ws = 3 ∨ cOp ws = 4) then fld (cw ws 9) 31 16 else 0
  if fb = 0 then cBudget ws else fb

/-- Does a budget clock that started in a beat exceed the allowance (R78, R266)? In the beat in which it runs out the cycle decides. -/
def overBudget (beat clock : Nat) (ws : Words) : Bool := cBudget ws != 0 && decide (clock + allowance ws ≤ beat)

/-- Has it exceeded the allowance whatever the cycles are? A command that completes then has overrun (R78, R80). -/
def pastBudget (beat clock : Nat) (ws : Words) : Bool := cBudget ws != 0 && decide (clock + allowance ws < beat)

/-- Does a PACK or UNPACK complete after BUDGET but within FB_BUDGET (R266)? In the beat in which BUDGET itself runs out it does not
count. (DESIGN CHOICE, log 5) -/
def ratioMiss (beat : Nat) (c : Started) : Bool :=
  c.timing == 0 && cBudget c.words != 0 && allowance c.words != cBudget c.words && decide (c.clock + cBudget c.words < beat)

/-- COMMAND_COMPLETE: the k-th started command of a die completes, or is held for log space. (DESIGN CHOICE, log 3 and 4) -/
def completeStarted (d : Fin 8) (k : Nat) : W Unit := do
  let s ← getS
  let die := s.die d
  match die.started[k]? with
  | none => return
  | some c =>
    if die.pw ≠ .run ∨ !workDone s d c then return
    let timing ← if c.timing = 0 ∧ pastBudget s.clk.beat c.clock c.words then countOverrun d (cClass c.words) c.idx (cOp c.words) else pure c.timing
    let c := { c with timing }
    let ratio := ratioMiss s.clk.beat c
    if ← finish d (cClass c.words) c then
      modD d fun x => { x with started := x.started.eraseIdx k }
      (portsOf d).forM fun p => modP p fun x => { x with draining := x.draining.filter (·.uid != c.uid) }
      if ratio then
        bump (regA d bMOV 0x1C) 1
        setFlags (regA d bMOV 0) 4
    else modStarted d c.uid fun c => { c with held := true, timing }

/-- COMMAND_COMPLETE (R88). -/
def execCommandComplete (d : Fin 8) (k : Nat) (s : State) : Host.Outcome State Fault Refusal :=
  W.within fabScope s (completeStarted d k)

/-- The head of a queue that still waits for its engine overruns (R78). -/
def overrunHead (d : Fin 8) (q : Fin 9) : W Unit := do
  let s ← getS
  match (s.die d).queues[q] with
  | [] => return
  | c :: rest =>
    if c.timing ≠ 0 ∨ (s.die d).seq.halted.contains q.val ∨ !c.clock.any fun b => overBudget s.clk.beat b c.words then return
    let t ← countOverrun d q.val c.idx (cOp c.words)
    modD d fun x => { x with queues := x.queues.set q ({ c with timing := t } :: rest) }

/-- OVERRUN: the budget clock of the k-th started command exceeds its budget (R78, R80); a k beyond the started commands
names the queues' heads, in the queues' order. -/
def overrunStarted (d : Fin 8) (k : Nat) : W Unit := do
  let s ← getS
  let n := (s.die d).started.length
  match (s.die d).started[k]? with
  | none => if h : k - n < 9 then overrunHead d ⟨k - n, h⟩ else return
  | some c =>
    if c.timing ≠ 0 ∨ !overBudget s.clk.beat c.clock c.words then return
    let t ← countOverrun d (cClass c.words) c.idx (cOp c.words)
    modStarted d c.uid fun c => { c with timing := t }

/-- OVERRUN (R80). -/
def execOverrun (d : Fin 8) (k : Nat) (s : State) : Host.Outcome State Fault Refusal :=
  W.within dieScope s (overrunStarted d k)

/-! ## The sequencer (R60 to R69) -/

/-- The command the sequencer is processing, while the die runs and the sequencer fetches. A control command whose completion
is held for log space has been executed, and stays through a halt or a stop (R69, R89). -/
def current (d : Die) : Option Words :=
  if d.pw = .run ∧ (d.seq.st = .running ∧ d.seq.fetching ∨ d.seq.ctlHeld ∧ (d.seq.st = .running ∨ d.seq.st = .halted ∨ d.seq.st = .stopping)) then d.seq.space[d.seq.pc]? else none

/-- Engines whose queue holds, or has just held, a command for them have been quiet for no beat (R91). -/
def stirred (es : List (Fin 17)) (v : Vector Eng 17) : Vector Eng 17 :=
  es.foldl (fun (v : Vector Eng 17) (e : Fin 17) => v.set e { v[e] with quiet := 0 }) v

/-- SEQUENCER_FORWARD: an engine command goes to the tail of its queue; a full queue stalls the sequencer (R60). -/
def forward (d : Fin 8) : W Unit := do
  let die ← getD d
  match current die with
  | none => return
  | some ws =>
    if h : cClass ws < 9 then
      let q := die.queues[cClass ws]
      if 256 ≤ q.length then return
      modD d fun x => { x with queues := x.queues.set (cClass ws) (q ++ [{ idx := x.seq.pc, words := ws }]), eng := stirred (enginesOf ws) x.eng }
      modSeq d fun x => { x with pc := x.pc + 1 }
    else return

/-- SEQUENCER_FORWARD (R60). -/
def execSequencerForward (d : Fin 8) (s : State) : Host.Outcome State Fault Refusal := W.within dieScope s (forward d)

/-- START_BEAT: every Armed die whose start beat has come begins at index 0 and enters Running (R66, R67). -/
def startDie (beat : Nat) (d : Die) : Die :=
  if d.seq.st = .armed ∧ d.seq.startBeat ≤ beat then
    { d with seq := { d.seq with st := .running, pc := 0, window := 0, stack := [], fetching := true, stopped := false, ran := true, ctlClock := none, ctlHeld := false, ctlTiming := 0, ctlTaken := false } }
  else d

/-- START_BEAT (R67). -/
def execStartBeat (s : State) : Host.Outcome State Fault Refusal :=
  .next { s with dies := s.dies.map (startDie s.clk.beat) }

/-- Are all queues of a die empty, all its engines done, and no control command held? -/
def idleDie (d : Die) : Bool := d.queues.toList.all (·.isEmpty) && d.started.isEmpty && !d.seq.ctlHeld

/-- SCHEDULE_STOPPED: Stopped once STOP has been reached, or the die is Stopping, and nothing is left to do (R66, R81). -/
def stopDie (d : Die) : Die :=
  if (d.seq.st = .running ∧ d.seq.stopped ∨ d.seq.st = .stopping) ∧ idleDie d then
    { d with seq := { d.seq with st := .stopped, fetching := false }, cleanStop := decide (d.seq.st = .running) }
  else d

/-- SCHEDULE_STOPPED (R66). -/
def execScheduleStopped (d : Fin 8) (s : State) : Host.Outcome State Fault Refusal := .next (s.onDie d stopDie)

/-! ## Control commands (R81 to R86) -/

/-- The TIMING that a control command keeps while its completion is held for log space (R89). -/
def heldTiming (q : Seq) : Byte := if q.ctlHeld then q.ctlTiming else 0

/-- Complete the control command at the sequencer's place and go on at `next`; held for log space it stays, with its TIMING (R89). -/
def controlDone (d : Fin 8) (ws : Words) (status timing : Byte) (next : W Unit) (marked : Bool := false) : W Unit := do
  let s ← getS
  let q := (s.die d).seq
  let timing := if heldTiming q ≠ 0 then heldTiming q else timing
  let c : Started := { idx := q.pc, words := ws, clock := q.ctlClock.getD s.clk.beat, status, timing, held := q.ctlHeld }
  if ← finish d 15 c marked then
    modSeq d fun q => { q with pc := q.pc + 1, ctlClock := none, ctlHeld := false, ctlTiming := 0, ctlTaken := false }
    next
  else modSeq d fun q => { q with ctlHeld := true, ctlTiming := timing }

/-- The TIMING of a control command that completes now: a WAITBEAT more than LATE beats after its BEAT has overrun, against the control
queue, once (R82). -/
def lateTiming (d : Fin 8) (ws : Words) : W Byte := do
  let s ← getS
  let q := (s.die d).seq
  if cOp ws = 1 ∧ (cw ws 5).toNat + fld (cw ws 6) 15 0 < schedBeat s d ∧ heldTiming q = 0 then countOverrun d 15 q.pc 1 else return 0

/-- A control command of the given opcode at the sequencer's place: with its waits holding, or its completion held, `body`
runs; on a marked token it completes with EPOCH (R76); otherwise it waits. -/
def control (d : Fin 8) (op : Nat) (body : Words → W Unit) : W Unit := do
  let die ← getD d
  match current die with
  | none => return
  | some ws =>
    if cClass ws ≠ 15 ∨ cOp ws ≠ op then return
    match if die.seq.ctlHeld then .hold else waitsOf die ws with
    | .wait => return
    | .epoch => controlDone d ws sEPOCH (← lateTiming d ws) (pure ()) true
    | .hold => body ws

/-- NOP (R81). -/
def execNop (d : Fin 8) (s : State) : Host.Outcome State Fault Refusal :=
  W.within fabScope s (control d 0 fun ws => controlDone d ws sOK 0 (pure ()))

/-- WAITBEAT (R81, R82): at a schedule beat at or after BEAT; one that completes more than LATE beats after it has overrun, against the
control queue, also where its completion was held for log space until then (R89). Where its waits first hold inside a beat that is
already at or past BEAT, it completes at once, and is late or not by that beat. (DEDUCED, log 28) -/
def waitbeat (d : Fin 8) (ws : Words) : W Unit := do
  if schedBeat (← getS) d < (cw ws 5).toNat then return
  controlDone d ws sOK (← lateTiming d ws) (pure ())

/-- WAITBEAT (R81). -/
def execWaitbeat (d : Fin 8) (s : State) : Host.Outcome State Fault Refusal :=
  W.within fabScope s (control d 1 (waitbeat d))

/-- The field of a summary slot that FIELD names (R84). -/
def summaryField (m : Summary) (f : Nat) : Word :=
  match f with
  | 0 => m.max | 1 => m.min | 2 => m.sum | 3 => m.sat | 4 => m.scrub | 5 => m.flags | _ => m.status.setWidth 32

/-- Does the condition of a BRANCH or CALL hold (R84)? -/
def condHolds (d : Die) (ws : Words) : Bool :=
  let w5 := cw ws 5
  let cond := fld w5 11 8
  let f := fld w5 7 4
  let v := summaryField (d.summ.toList.getD (fld w5 3 0) {}) f
  let imm := if f < 3 then fclean (cw ws 6) else cw ws 6
  let eq := if f < 3 then dyIsZero (dySub (lval v) (lval imm)) else v == imm
  let lt := if f < 3 then flt v imm else decide (v.toNat < imm.toNat)
  match cond with
  | 0 => true | 1 => eq | 2 => !eq | 3 => lt | 4 => !lt | 5 => v &&& imm != 0 | _ => v &&& imm == 0

/-- Is a target inside the fetch window w to w + 1,023 (R62)? After a taken jump backwards inside a window that has slid, the window
follows R62's formula and falls back with the command's index. (DEDUCED, log 28) -/
def inWindow (q : Seq) (c t : Nat) : Bool :=
  let w := max q.window (c - 511)
  decide (w ≤ t ∧ t ≤ w + 1023)

/-- A taken jump from index `c` (R62). -/
def jump (d : Fin 8) (c t : Nat) : W Unit :=
  modSeq d fun q => { q with pc := t, window := if inWindow q c t then q.window else t }

/-- BRANCH and CALL: TARGET where the condition holds, a CALL pushing the next index (R81, R84). -/
def branchOp (d : Fin 8) (push : Bool) (ws : Words) : W Unit := do
  let die ← getD d
  let c := die.seq.pc
  let taken := if die.seq.ctlHeld then die.seq.ctlTaken else condHolds die ws
  modSeq d fun q => { q with ctlTaken := taken }
  controlDone d ws sOK 0 (if taken then do
      if push then modSeq d fun q => { q with stack := (c + 1) :: q.stack }
      jump d c (fld (cw ws 7) 21 0)
    else pure ())

/-- BRANCH (R81). -/
def execBranch (d : Fin 8) (s : State) : Host.Outcome State Fault Refusal :=
  W.within fabScope s (control d 2 (branchOp d false))
/-- CALL (R81). -/
def execCall (d : Fin 8) (s : State) : Host.Outcome State Fault Refusal :=
  W.within fabScope s (control d 3 (branchOp d true))

/-- RETURN pops the return index and continues there (R81). -/
def returnOp (d : Fin 8) (ws : Words) : W Unit := do
  let q := (← getD d).seq
  match q.stack with
  | [] => return
  | r :: rest => controlDone d ws sOK 0 (do
      modSeq d fun q => { q with stack := rest }
      jump d q.pc r)

/-- RETURN (R81). -/
def execSeqReturn (d : Fin 8) (s : State) : Host.Outcome State Fault Refusal :=
  W.within fabScope s (control d 4 (returnOp d))

/-- STOP ends fetching (R81). -/
def execStop (d : Fin 8) (s : State) : Host.Outcome State Fault Refusal :=
  W.within fabScope s (control d 5 fun ws => controlDone d ws sOK 0 (modSeq d fun q => { q with fetching := false, stopped := true }))

/-- Change an engine of the mask. -/
def modEng (d : Fin 8) (e : Fin 17) (f : Eng → Eng) : W Unit := modD d fun x => { x with eng := x.eng.set e (f x.eng[e]) }

/-- An engine starts waking: from Idle or Nap; a sleep still to come stays so (R91). -/
def wake (e : Eng) : Eng := if e.st = .idle ∨ e.st = .nap then { e with st := .waking } else e

/-- Does an engine's queue hold no command for it? -/
def noneQueued (d : Die) (e : Fin 17) : Bool := d.queues[queueOfEngine e].all fun c => !(enginesOf c.words).contains e
/-- Has an engine no command queued and none started? -/
def engineFree (d : Die) (e : Fin 17) : Bool := noneQueued d e && d.started.all fun c => !(enginesOf c.words).contains e

/-- WARM on an engine: from Idle or Nap it starts waking, and a sleep that nothing has held back any more is over; one in Run or
waking is left (R81, R91). (DEDUCED, log 46) -/
def warm (free : Bool) (e : Eng) : Eng :=
  if e.st = .idle ∨ e.st = .nap then wake { e with sleepTo := if free then none else e.sleepTo } else e

/-- WARM: each named engine starts waking as the command is executed; for log space only its completion is held (R60, R81, R89, R91). -/
def warmOp (d : Fin 8) (ws : Words) : W Unit := do
  let die ← getD d
  if !die.seq.ctlHeld then
    (List.finRange 17).forM fun e => if bitOf (cw ws 5) e then modEng d e (warm (engineFree die e)) else pure ()
  controlDone d ws sOK 0 (pure ())

/-- WARM (R81). -/
def execWarm (d : Fin 8) (s : State) : Host.Outcome State Fault Refusal :=
  W.within fabScope s (control d 6 (warmOp d))

/-- SLEEP: each named engine is marked to go to LEVEL; one that is on its way to Nap still goes there, as a SLEEP never moves an engine
towards Run (R81, R91). -/
def sleepOp (d : Fin 8) (ws : Words) : W Unit :=
  controlDone d ws sOK 0 ((List.finRange 17).forM fun e =>
    if bitOf (cw ws 5) e then modEng d e fun x =>
      let nap := bitOf (cw ws 6) 0
      if x.st = .nap ∨ (x.st = .idle ∧ !nap) then x else { x with sleepTo := some (nap || x.sleepTo == some true) }
    else pure ())

/-- SLEEP (R81). -/
def execSleep (d : Fin 8) (s : State) : Host.Outcome State Fault Refusal :=
  W.within fabScope s (control d 7 (sleepOp d))

/-! ## Engine sleep (R91 to R93) -/

/-- Nap discards an ME's accumulators (R92). -/
def napContents (d : Die) (e : Fin 17) : Die :=
  if h : e.val < 4 then { d with mv := d.mv.set e.val { d.mv[e.val] with bank0 := [], bank1 := [] } } else d

/-- An engine put into Idle or Nap; in Idle a SLEEP to Nap that it has not yet followed still stands. -/
def toSleep (d : Die) (e : Fin 17) (nap : Bool) : Die :=
  let d := { d with eng := d.eng.set e { st := if nap then .nap else .idle, sleepTo := if nap then none else d.eng[e].sleepTo.filter (·), quiet := d.eng[e].quiet } }
  if nap then napContents d e else d

/-- ENGINE_SLEEP_ENTER: the level that a SLEEP named, once the engine is free (R91). -/
def sleepEnter (e : Fin 17) (d : Die) : Die :=
  let x := d.eng[e]
  match x.sleepTo with
  | some nap => if (x.st = .run ∨ (x.st = .idle ∧ nap)) ∧ engineFree d e then toSleep d e nap else d
  | none => d

/-- ENGINE_SLEEP_ENTER (R91). -/
def execEngineSleepEnter (d : Fin 8) (e : Fin 17) (s : State) : Host.Outcome State Fault Refusal := .next (s.onDie d (sleepEnter e))

/-- ENGINE_IDLE: Run to Idle once the last command has completed and the queue has held none for IDLE_HOLD beats, 0 meaning 1 (R65, R91).
(DEDUCED, log 46) -/
def engineIdle (e : Fin 17) (d : Die) : Die :=
  let x := d.eng[e]
  if x.st = .run ∧ engineFree d e ∧ max 1 d.seq.idleHold ≤ x.quiet then toSleep d e false else d

/-- ENGINE_IDLE (R91). -/
def execEngineIdle (d : Fin 8) (e : Fin 17) (s : State) : Host.Outcome State Fault Refusal := .next (s.onDie d (engineIdle e))

/-- ENGINE_NAP: Idle to Nap after NAP_HOLD beats in Idle, when NAP_HOLD is not 0 (R91). (DEDUCED, log 46) -/
def engineNap (e : Fin 17) (d : Die) : Die :=
  let x := d.eng[e]
  if x.st = .idle ∧ d.seq.napHold ≠ 0 ∧ d.seq.napHold ≤ x.idle then toSleep d e true else d

/-- ENGINE_NAP (R91). -/
def execEngineNap (d : Fin 8) (e : Fin 17) (s : State) : Host.Outcome State Fault Refusal := .next (s.onDie d (engineNap e))

/-- ENGINE_WAKE_DONE: a waking engine reaches Run (R91). -/
def wakeDone (e : Fin 17) (d : Die) : Die :=
  let x := d.eng[e]
  if x.st = .waking then { d with eng := d.eng.set e { x with st := .run } } else d

/-- ENGINE_WAKE_DONE (R91). -/
def execEngineWakeDone (d : Fin 8) (e : Fin 17) (s : State) : Host.Outcome State Fault Refusal := .next (s.onDie d (wakeDone e))

/-! ## Starting a command at a queue's head (R61, R76, R78, R91) -/

/-- What a command's work answers. -/
structure Res where
  status : Byte := 0
  ctr : Ctr := {}
  busy : Bool := false
  note : Nat := 0
  summ : Option (Nat × Summary) := none
  feed : Option (Nat × List Nat) := none
  deriving DecidableEq, Repr

/-- What a class asks of its engine before a command may start: `true` where the engine can accept it. -/
abbrev Accept := State → Fin 8 → Words → Bool

/-- A die after an engine's work: its sequencer, queues, engine states and power are those of before. -/
def workDie (x y : Die) : Die :=
  { y with
    pw := x.pw, target := x.target, absent := x.absent, seq := x.seq, queues := x.queues, eng := x.eng
    cleanStop := x.cleanStop, up := x.up, nextUid := x.nextUid }

/-- What the work of an engine leaves of the dies: no work feeds a sequencer or a queue, or wakes an engine. -/
def engineWork (before t : State) : State := { t with dies := Vector.zipWith workDie before.dies t.dies }

/-- A command whose wait stands on a marked token completes with EPOCH (R76); one that belongs to an epoch is that epoch's failure
(R386). -/
def endMarked (d : Fin 8) (q : Fin 9) (c : Started) : W Unit := do
  if q = 6 ∧ 0x10 ≤ cOp c.words ∧ cOp c.words ≤ 0x14 then redFail d (startedEpoch c) sEPOCH
  let _ ← finish d q.val c true

/-- The command at the head of queue `q` starts, if it is one of the opcode, its waits hold, its engines are in Run and
can accept it; it does its work and waits for its completion. A sleeping engine begins to wake instead; with a wait on a
marked token the command completes at once with EPOCH, without work. (DESIGN CHOICE, log 4; DEDUCED, log 46) -/
def startHead (d : Fin 8) (q : Fin 9) (op : Nat) (accept : Accept) (work : Nat → Words → W Res) : W Unit := do
  let s ← getS
  let die := s.die d
  if die.pw ≠ .run ∨ (die.seq.st ≠ .running ∧ die.seq.st ≠ .halted) ∨ die.seq.halted.contains q.val then return
  match die.queues[q] with
  | [] => return
  | c :: rest =>
    if cOp c.words ≠ op then return
    let clock := c.clock.getD s.clk.beat
    let uid := die.nextUid
    let pop : W Unit := modD d fun x => { x with queues := x.queues.set q rest, nextUid := uid + 1 }
    match waitsOf die c.words with
    | .wait => return
    | .epoch =>
      pop
      endMarked d q { idx := c.idx, words := c.words, clock, status := sEPOCH, timing := c.timing, uid }
    | .hold =>
      let es := enginesOf c.words
      if es.any fun e => die.eng[e].st != .run then
        modD d fun x => { x with
          eng := es.foldl (fun (v : Vector Eng 17) (e : Fin 17) => v.set e (wake v[e])) x.eng
          queues := x.queues.set q ({ c with clock := some clock } :: rest) }
        return
      if !accept s d c.words then return
      pop
      modD d fun x => { x with eng := stirred es x.eng }
      let before ← getS
      let r ← work uid c.words
      modS (engineWork before)
      timed (regA d bMOV 0x81C)
      let entry : Started :=
        { idx := c.idx, words := c.words, clock, status := r.status, timing := c.timing, ctr := r.ctr, uid, busy := r.busy, note := r.note
          summ := r.summ, feed := r.feed }
      modD d fun x => { x with started := x.started ++ [entry] }

/-- The started commands of a class on a die. -/
def startedOf (s : State) (d : Fin 8) (cls : Nat) : List Started := (s.die d).started.filter fun c => cClass c.words == cls

/-- At a beat edge the budget clocks of heads whose waits hold have started (R78). -/
def markReady (beat : Nat) (d : Die) : Die :=
  if d.pw ≠ .run ∨ (d.seq.st ≠ .running ∧ d.seq.st ≠ .halted) then d
  else
    let mark : List Queued → List Queued := fun l => match l with
      | c :: r => (if c.clock = none ∧ waitsOf d c.words = .hold then { c with clock := some beat } else c) :: r
      | [] => []
    let ctl := match current d with
      | some ws => if cClass ws = 15 ∧ d.seq.ctlClock = none ∧ waitsOf d ws = .hold then some beat else d.seq.ctlClock
      | none => d.seq.ctlClock
    { d with queues := d.queues.map mark, seq := { d.seq with ctlClock := ctl } }

/-- At a beat edge an engine in Run whose queue holds no command for it, or one in Idle, has been so for one beat more (R91). -/
def countQuiet (d : Die) : Die :=
  if d.pw ≠ .run then d
  else { d with eng := Vector.ofFn fun e =>
    let x := d.eng[e]
    { x with quiet := if noneQueued d e then x.quiet + 1 else 0, idle := if x.st = .idle then x.idle + 1 else 0 } }

end Sys2Proof.Machine
end

