-- ==== Sys2Proof/Machine/Convert.lean ====
section
/-! DEFINITION. Runs of tiles, the conversion descriptor resolved by recipe (R38, R39, R50 to R53), and the private
bins of histograms (R57, R178). -/

namespace Sys2Proof.Machine

/-! ## Runs of tiles and bytes (R112 to R115) -/

/-- The bytes of `n` tiles from a tile number on; the first failure ends the reading. -/
def readTiles (p : Nat) (d : Fin 8) : Nat → Nat → W (Except Byte (List Byte))
  | _, 0 => return .ok []
  | t, n + 1 => do
    match ← readTile p d (t * 4096) with
    | .error e => return .error e
    | .ok b =>
      match ← readTiles p d (t + 1) n with
      | .error e => return .error e
      | .ok r => return .ok (b ++ r)

/-- A run of bytes, read through whole tiles. -/
def readSpan (p : Nat) (d : Fin 8) (a len : Nat) : W (Except Byte (List Byte)) := do
  match ← readTiles p d (a / 4096) (tileCount a len) with
  | .error e => return .error e
  | .ok b => return .ok (sub b (a % 4096) len)

/-- A run of bytes cut at tile boundaries. -/
def cutTiles : Nat → Nat → List Byte → List (Nat × List Byte)
  | 0, _, _ => []
  | f + 1, a, bs =>
    if bs.isEmpty then [] else
      let n := 4096 - a % 4096
      (a, bs.take n) :: cutTiles f (a + n) (bs.drop n)

/-- Pieces written in order, whole tiles by replacement and parts by merge, until one fails (R112, R114, R115). -/
def putPieces (p : Nat) (d : Fin 8) : List (Nat × List Byte) → W Byte
  | [] => return sOK
  | (a, b) :: r => do
    let st ← if b.length = 4096 then writeTile p d a b (crc32c b) else mergeTile p d a b
    if st ≠ sOK then return st
    putPieces p d r

/-- A run of bytes written. -/
def writeSpan (p : Nat) (d : Fin 8) (a : Nat) (bs : List Byte) : W Byte := do
  let ts := cutTiles (bs.length / 4096 + 2) a bs
  freshChecks d ((ts.filter fun t => t.2.length = 4096).map (·.1 / 4096))
  putPieces p d ts

/-- A tensor padded with zeros to whole tiles (R112). -/
def padTiles (bs : List Byte) : List Byte := padTo (cdiv bs.length 4096 * 4096) bs

/-- The part of a list that a failing command had completed, which the manual leaves open (R115, R300).
(DESIGN CHOICE, log 15) -/
def freePart {α : Type} : List α → W (List α)
  | [] => return []
  | x :: r => do
    let k ← freeVal
    let r ← freePart r
    return if k % 2 = 1 then x :: r else r

/-- Tiles of a run read until one fails: the bytes and the status. -/
def readUntil (p : Nat) (d : Fin 8) : Nat → Nat → List Byte → W (List Byte × Byte)
  | _, 0, acc => return (acc, sOK)
  | t, n + 1, acc => do
    match ← readTile p d (t * 4096) with
    | .error e => return (acc, e)
    | .ok b => readUntil p d (t + 1) n (acc ++ b)

/-- A run of bytes read until a tile fails. -/
def spanUntil (p : Nat) (d : Fin 8) (a len : Nat) : W (List Byte × Byte) := do
  let (b, st) ← readUntil p d (a / 4096) (tileCount a len) []
  return (sub b (a % 4096) len, st)

/-- A command's counters added. -/
def Ctr.add (a b : Ctr) : Ctr :=
  { ovf := satAdd a.ovf b.ovf.toNat, sat := satAdd a.sat b.sat.toNat, ufz := satAdd a.ufz b.ufz.toNat
    scrub := satAdd a.scrub b.scrub.toNat, dom := satAdd a.dom b.dom.toNat }

/-! ## Descriptors -/

/-- The recipe record that a command of a die uses (R53). -/
def recipeOf (s : State) (d : Fin 8) (r : Nat) : Recipe := (s.images.toList.getD (partOf s d) {}).recipes.toList.getD r {}

/-- Format and block scaling that a FORMAT code gives (R39). -/
def fmtFor (recipe kind code : Nat) (blockEn : Bool) : Fmt × Bool :=
  if code = 15 then (recipeFmts recipe kind).headD (.fp32, false) else ((fmtOfCode code).getD .fp32, blockEn)

/-- Rounding that a ROUND code gives (R39, R52). -/
def rndFor (recipe kind code : Nat) : Rnd :=
  match code with | 0 => .rne | 1 => .rtz | 2 => .sr | _ => recipeRound recipe kind

/-- A conversion descriptor, resolved. -/
structure Desc where
  conv : Conv
  bias : Bool
  hist : Option Nat
  kind : Nat
  deriving DecidableEq, Repr

/-- The descriptor that four words spell (R38), under a recipe. -/
def descOf (s : State) (d : Fin 8) (recipe : Nat) (w : List Word) : Desc :=
  let w3 := atD 0 w 3
  let kind := fld w3 10 8
  let (fmt, bs) := fmtFor recipe kind (fld w3 3 0) (bitOf w3 6)
  { conv := { scale := fval (atD 0 w 0), bound := fval (atD 0 w 1), fmt, bs, mode := rndFor recipe kind (fld w3 5 4)
              seed := (recipeOf s d recipe).seed, tid := atD 0 w 2 }
    bias := bitOf w3 11, hist := if bitOf w3 7 then some (fld w3 27 16) else none, kind }

/-- A row converted: values, their biases and their element indices, to codes, scale bytes and the values after step 2 of
R41, which feed histograms and summaries. -/
def convRowT (c : Conv) (row : List (Dy × Dy × Nat)) : Cnt (List Nat × List Nat × List Dy) := do
  let ts ← row.mapM fun (a, b, _) => convClip c a b
  let (codes, scales) ← convRow c (List.zipWith (fun t (x : Dy × Dy × Nat) => (t, x.2.2)) ts row)
  return (codes, scales, ts)

/-- The private bins of a command whose descriptor names a histogram record, by the record's base exponent (R57, R178). -/
def feedOf (x : Die) (h : Option Nat) (ts : List Dy) : Option (Nat × List Nat) :=
  h.map fun r =>
    let bins := ts.map (histBin (signedOf 8 (rd (histBytes x r 0 1) 0 1)))
    (r, (List.range 64).map fun b => bins.count b)

end Sys2Proof.Machine
end

