-- ==== Sys2Proof/Machine/Fabric.lean ====
section
/-! DEFINITION. Ports, replay, phases, slots, delivery and DCOPY: 11_chivary_fabric.md R306 to R339. -/

namespace Sys2Proof.Machine

/-! ## Lanes, replay and going down (R308, R320 to R324) -/

/-- The lanes active at a port's width: the lowest-numbered ones not excluded (R308). -/
def activeLanes (x : Port) : List Nat := ((List.range 8).filter fun l => !x.excluded.contains l).take x.width
/-- FAB_LANE of a port and lane (R349). -/
def laneA (p : Fin 32) (l : Nat) : Nat := portA p + 0x40 + 4 * l
/-- FAB_LANE shows EXCLUDED and ACTIVE of every lane. -/
def showLanes (p : Fin 32) : W Unit := do
  let x ← getP p
  (List.range 8).forM fun l => setField (laneA p l) 7 6
    (2 * b2n (x.excluded.contains l) + b2n (x.st == .up && (activeLanes x).contains l))

/-- The watchdog of a phase fires on a port: OVERRUN once for its command, or SUBSUMED after a failure of the phase (R331, R332); what is
SUBSUMED sets no OVERRUN_SEEN and does not count in SEQ_OVERRUNS. (DEDUCED, log 47) -/
def fireWatchdog (p : Fin 32) (ph : PhaseRun) : W Unit := do
  let s ← getS
  let d := dieOf p
  setFlags (portA p) 0x20
  match (s.die d).started.find? (·.uid == ph.uid) with
  | none => return
  | some c =>
    if c.timing ≠ 0 then return
    let t ← if failing c.status then pure sSUBSUMED else countOverrun d 6 c.idx (cOp c.words)
    modStarted d ph.uid fun c => { c with timing := t }

/-- Has a port sent, and its peer delivered, everything of a phase that has sent its last slot? -/
def drained (x : Port) (ph : PhaseRun) : Bool := ph.lastSeq.all fun n => decide (n < x.dlv)

/-- A port goes DOWN from UP (R324). -/
def portDown (p : Fin 32) : W Unit := do
  let x ← getP p
  if x.st ≠ .up then return
  let d := dieOf p
  let epoch := (x.running.map (·.epoch)).getD 0
  modP p fun x => { x with st := .down, width := 0, retry := [], waiting := [], episode := none, changing := false, nak := false, refusing := false, refusal := none, errSince := [], errEpisode := [], rxNext := none }
  portFail p sLINK
  setFlags (portA p) 8
  showLanes p
  raise 4 1 sLINK (whereW d bFAB (p.val % 4))
    ([b8 ((x.episode.map (·.replays)).getD 0), b8 x.width, 0, 0] ++ natLE 2 epoch)
  (x.running.toList ++ x.draining.filter fun ph => !drained x ph).forM fun ph => do
    if ph.deferred then
      setFlags (portA p) 0x20
      modStarted d ph.uid fun c => { c with timing := sSUBSUMED }
    failPhase d ph.uid sLINK
    dropPhase p ph.uid

/-- The next lower width (R307). -/
def narrower (w : Nat) : Nat := if w = 8 then 6 else if w = 6 then 4 else if w = 4 then 2 else 0

/-- A port loses a lane and a width step; below 2 lanes it goes DOWN (R322). -/
def narrow (p : Fin 32) (lane : Nat) : W Unit := do
  let x ← getP p
  let w := narrower x.width
  modP p fun x => { x with excluded := lane :: x.excluded }
  if w < 2 then portDown p
  else
    modP p fun x => { x with width := w, changing := true }
    setFlags (portA p) 0x10
    showLanes p

/-- The degradation of a port's own episode (R322). -/
def degrade (p : Fin 32) (lane : Nat) : W Unit := do
  modP p fun x => { x with episode := x.episode.map fun e => { e with degraded := true } }
  narrow p lane

/-- The one active lane that holds every code word of a list, where there is one. -/
def oneLane (x : Port) (errs : List Nat) : Option Nat :=
  match errs with
  | [] => none
  | l :: r => if r.all (· == l) && (activeLanes x).contains l then some l else none

/-- The active lane with the most code words of a list, the lowest-numbered on a tie. -/
def worstLane (x : Port) (errs : List Nat) : Nat :=
  ((activeLanes x).foldl (fun (b : Nat × Nat) l => if b.2 ≤ errs.count l then (l, errs.count l + 1) else b) (0, 0)).1

/-- One replay: every frame after ACK goes again, byte for byte but for the link fields (R320); its episode, its
degradations and its budget (R321, R322). The code words of an episode are those since its first replay. -/
def replay (p : Fin 32) : W Unit := do
  let x ← getP p
  if x.st ≠ .up ∨ x.retry.isEmpty then return
  bump (portA p + 0x18) 1
  setFlags (portA p) 4
  let e : Episode := match x.episode with
    | none => { replays := 1, upTo := x.txSeq }
    | some e => { e with replays := e.replays + 1 }
  if x.episode.isNone then bump (portA p + 0x1C) 1
  let errs := if x.episode.isNone then [] else x.errEpisode
  modP p fun x => { x with episode := some e, errEpisode := errs }
  if e.replays = 1 then
    match oneLane x x.errSince with
    | some l => degrade p l
    | none => pure ()
  else if e.replays = 4 ∧ !e.degraded then degrade p (worstLane x errs)
  else if 8 ≤ e.replays then portDown p

/-- An episode ends once every frame sent before its start has been received; a deferred watchdog then decides (R321, R332). -/
def closeEpisode (p : Fin 32) : W Unit := do
  let s ← getS
  let x := s.port p
  if x.episode.any fun e => decide (e.upTo ≤ x.ack) then
    let settled := fun (ph : PhaseRun) => { ph.stretched s p x.width with deferred := false }
    modP p fun x => { x with episode := none, errEpisode := [], running := x.running.map settled, draining := x.draining.map settled }
    x.running.toList.forM fun ph => if ph.deferred then do
        let lag ← if ph.next < tableLen s p ph.table then lagNow p ph else pure 0
        if ph.slack * 64 < max lag ph.lag then fireWatchdog p ph
      else pure ()
    x.draining.forM fun ph => if ph.deferred ∧ ph.slack * 64 < ph.lag then fireWatchdog p ph else pure ()

/-- A 32-bit number of the last frame, as a count of frames at or after `lo` and at most `hi` (R317). -/
def seqUpTo (w lo hi : Nat) : Nat :=
  let n := (w + 1 + 2 ^ 32 - lo % 2 ^ 32) % 2 ^ 32
  if n ≤ hi - lo then lo + n else lo

/-- The running phase of a port gives it up once it has sent its last slot, frames that waited for room included (R330). -/
def settlePort (p : Fin 32) : W Unit := do
  let s ← getS
  let x := s.port p
  match x.running with
  | none => return
  | some ph =>
    if tableLen s p ph.table ≤ ph.next ∧ x.waiting.isEmpty then
      modP p fun x => { x with running := none, draining := if (s.die (dieOf p)).started.any (·.uid == ph.uid) then x.draining ++ [ph] else x.draining }
      setField (portA p) 16 16 0

/-- The frames that wait for room go as far as there is some (R323). -/
def sendOn (p : Fin 32) : W Unit := do
  let n := (← getP p).waiting.length
  sendWaiting p n
  let s ← getS
  let sent := n - (s.port p).waiting.length
  if sent ≠ 0 then modP p fun x => { x with running := x.running.map (PhaseRun.resumed s p sent) }
  settlePort p

/-- The link fields of a frame: ACK frees the retry buffer, DLV confirms deliveries, NAK starts a replay (R320, R323). -/
def linkFields (p : Fin 32) (h : FHdr) : W Unit := do
  if h.refuseAck then modP p fun x => { x with refusal := none }
  if h.ackV then
    modP p fun x =>
      let ack := seqUpTo h.ack x.ack x.txSeq
      { x with ack, dlv := seqUpTo h.dlv x.dlv ack, retry := x.retry.filter fun f => decide (ack ≤ f.seq) }
    closeEpisode p
  if h.nak then replay p
  sendOn p

/-- The lanes of uncorrectable code words, one entry for each word. -/
def badWords (errs : List LaneErrs) : List Nat := errs.flatMap fun e => List.replicate e.bad e.lane.val

/-- Code words counted on their lanes, those that the FEC could not correct and those that it corrected (R308, R349). -/
def lineErrs (p : Fin 32) (errs : List LaneErrs) : W Unit := do
  errs.forM fun e => do
    let v ← getReg (laneA p e.lane.val)
    setField (laneA p e.lane.val) 31 16 (min 0xFFFF (fld v 31 16 + e.bad))
    modP p fun x => { x with corrected := x.corrected.set e.lane (x.corrected[e.lane] + e.fixed) }
  let l := badWords errs
  modP p fun x => { x with errSince := x.errSince ++ l, errEpisode := if x.episode.isSome then x.errEpisode ++ l else [] }

/-- The types that the ports carry outside NORMAL (R341). -/
def windowType (type : Nat) : Bool := type == tLINK || type == tWREQ || type == tWRSP

/-- Outside NORMAL the ports carry only window and LINK frames (R341). What becomes of another that arrives is not said: it is discarded
as lost. (DESIGN CHOICE, log 54) -/
def carried (s : State) (type : Nat) : Bool := s.fab.mode == 0 || windowType type

/-- A frame arrives on a port. A frame that fails its check, its order or its tag is discarded, with NAK from the first
discard on; one that is accepted brings its link fields and then `work` (R318 to R320, R340). After a training the first frame with a
SEQ is taken, whichever it is. (DESIGN CHOICE, log 57) -/
def onFrame (p : Fin 32) (type : Nat) (frame : List Byte) (errs : List LaneErrs) (work : FHdr → List Byte → W Unit) : W Unit := do
  let s ← getS
  let h := FHdr.parse frame
  let whole := frameOk frame
  if (s.port p).st ≠ .up ∨ (whole ∧ h.type ≠ type) then return
  lineErrs p errs
  let lose : W Unit := if type = tLINK then pure () else modP p fun x => { x with nak := true }
  if !whole || !carried s type then lose
  else if type = tLINK then
    linkFields p h
    work h []
  else if (s.port p).rxNext.any (· != h.seq) then lose
  else
    let part := partOf s ⟨h.dstDie % 8, by omega⟩
    match (if h.enc && !isKeyed s part then none else openFrame (fabKey s part) h frame (if frame.length = 4164 then sub frame 64 4096 else [])) with
    | none =>
      bump (portA p + 0x2C) 1
      lose
    | some (check, tile) =>
      modP p fun x => { x with rxNext := some (h.seq + 1), nak := false, errSince := [] }
      bump (portA p + 0x14) 1
      linkFields p h
      work { h with check } tile

/-- ACK_TIMEOUT: ACK has not advanced for 2 µs while frames are outstanding (R320). -/
def execAckTimeout (p : Fin 32) (s : State) : Host.Outcome State Fault Refusal := W.within fabScope s (replay p)

/-- WIDTH_CHANGE_DONE: the 1.0 µs of a width change are over; of a change that the peer's episode began, this end has excluded the lane and
narrowed with it (R322). (DESIGN CHOICE, log 55) -/
def widthChangeDone (p : Fin 32) (peer : Option (Fin 8)) : W Unit := do
  let x ← getP p
  let lost := if x.changing then none else peer.filter fun l => x.st == .up && (activeLanes x).contains l.val
  lost.toList.forM fun l => narrow p l.val
  let s ← getS
  modP p fun y => { y with
    changing := false
    running := if x.changing || lost.isSome then y.running.map (PhaseRun.stretched s p y.width) else y.running }
  sendOn p

/-- WIDTH_CHANGE_DONE (R322). -/
def execWidthChangeDone (w : WidthDone) (s : State) : Host.Outcome State Fault Refusal :=
  W.within fabScope s (widthChangeDone w.port w.peer)

/-- RETRY_BUDGET_EXPIRY: an episode reaches 4 µs (R321). -/
def execRetryBudgetExpiry (p : Fin 32) (s : State) : Host.Outcome State Fault Refusal :=
  W.within fabScope s (do if (← getP p).episode.isSome then portDown p else pure ())

/-- GAP_LINK_FRAME: a LINK frame in a gap carries the port's link fields; it has no SEQ, enters no buffer and is never
resent, so the sender is as before (R319). -/
def execGapLinkFrame (_ : Fin 32) (s : State) : Host.Outcome State Fault Refusal := .next s

/-! ## Port training (R309, R312) -/

/-- PEER_TRAINING_START: a port in DOWN trains with its peer; a DISABLED one does not (R309). -/
def execPeerTrainingStart (p : Fin 32) (s : State) : Host.Outcome State Fault Refusal :=
  let x := s.ports[p]
  .next { s with ports := s.ports.set p (if x.st = .down ∧ s.sec.bootFail.testBit 3 = false then { x with st := .training } else x) }

/-- The largest width that a number of passing lanes allows (R309). -/
def widthFor (n : Nat) : Nat := if 8 ≤ n then 8 else if 6 ≤ n then 6 else if 4 ≤ n then 4 else if 2 ≤ n then 2 else 0

/-- TRAINING_DONE: UP with the largest width the passing lanes allow and the peer recorded; DOWN with fewer than 2 lanes,
without a peer, or with a peer other than the owner's map gives (R309, R312, R316). The delay of a fibre of at most 150 m is a free value
(R306, R337), and so are the laser-bias codes within the owner's limits (R461). (DESIGN CHOICE, log 21)
No lane passes while the port's die is in Deep or Off, its lasers off: it stays DOWN (R455, R476). -/
def trainingDone (p : Fin 32) (lanesUp : List Bool) (peer : Option (Nat × Nat)) : W Unit := do
  let s ← getS
  if (s.port p).st ≠ .training then return
  let good := (List.range 8).filter fun l => atD false lanesUp l && !darkDie (s.die (dieOf p))
  let w := widthFor good.length
  modP p fun x => { x with
    st := .down, width := 0, excluded := (List.range 8).filter fun l => !good.contains l
    retry := [], waiting := [], ack := x.txSeq, dlv := x.txSeq, rxNext := none, nak := false, episode := none, changing := false
    errSince := [], errEpisode := [], corrected := Vector.replicate 8 0, refusal := none, refusing := false, refSeen := none }
  let delay ← freeVal
  modP p fun x => { x with fibre := delay % 30 }
  match peer with
  | some (m, q) =>
    if 2 ≤ w then
      setReg (portA p + 4) (m % 4096 * 2 ^ 20 + q % 32 * 2 ^ 15)
      let want := match s.fab.ownerMap with
        | some g => cabled g s.clk.module p.val
        | none => some (m, q)
      if want = some (m, q) then
        modP p fun x => { x with st := .up, width := w }
      else
        let e := want.getD (0, 0)
        raise 4 2 sABSENT (whereW (dieOf p) bFAB (p.val % 4))
          (natLE 4 (m % 4096 * 2 ^ 20 + q % 32 * 2 ^ 15) ++ natLE 4 (e.1 * 2 ^ 20 + e.2 * 2 ^ 15))
  | none => pure ()
  let lo := (rget s (regA uHub bPWR 0x68)).toNat
  let hi := (rget s (regA uHub bPWR 0x6C)).toNat
  (List.range 8).forM fun l => do
    let code ← freeVal
    setReg (laneA p l) (lo + code % (hi - lo + 1))
  showLanes p

/-- TRAINING_DONE (R309). -/
def execTrainingDone (p : Fin 32) (lanesUp : List Bool) (peer : Option (Nat × Nat)) (s : State) : Host.Outcome State Fault Refusal :=
  W.within fabScope s (trainingDone p lanesUp peer)

/-! ## Delivery (R334 to R336) -/

/-- The map that the PRESENT check of a destination partition uses (R316). -/
def presentMap (s : State) (part : Nat) : Option MMap :=
  match s.fab.imageMaps.toList.getD part none with
  | some g => some g
  | none => s.fab.ownerMap

/-- Is a die there to deliver to? -/
def diePresent (s : State) (d : Fin 8) : Bool := !(s.die d).absent && (s.die d).pw != .off

/-- Does a protected destination refuse a frame for want of authenticity (R336)? -/
def refuseAuth (s : State) (dst : Fin 8) (h : FHdr) : Bool :=
  let part := partOf s dst
  isProt s part && (!h.enc || (presentMap s part).any fun g => !g.has h.srcModule)

/-- INT32 words added, saturating at ±(2^31 - 1), with the sums that saturated (R335). -/
def addWords : List Word → List Word → List Word × Nat
  | a :: as, b :: bs =>
    let v := a.toInt + b.toInt
    let (r, n) := addWords as bs
    if 0x7FFFFFFF < v then (0x7FFFFFFF#32 :: r, n + 1)
    else if v < -0x7FFFFFFF then (0x80000001#32 :: r, n + 1)
    else (BitVec.ofInt 32 v :: r, n)
  | _, _ => ([], 0)

/-- Why a delivery of a tile is refused before anything is written: its own check word, or its place (R336). (DEDUCED, log 19) The wide
gradient buffer is such a place, of a frame as of a DCOPY (R334, R348), though R144 names other commands alone that reach it.
(DESIGN CHOICE, log 57) -/
def tileRefusal (s : State) (dst : Fin 8) (a : Nat) (check : Word) (bs : List Byte) : Byte :=
  if crc32c bs != check then sCHECK
  else match storeOf a with
    | none => sRANGE
    | some (st, off) => if inCheckArea s dst st off || inReserve a || !permitted s (partOf s dst) dst a true then sRANGE else sOK

/-- A delivered tile written with its operation (R335): the status, and the sums that saturated. (DEDUCED, log 19) -/
def landTile (dst : Fin 8) (a op : Nat) (check : Word) (bs : List Byte) : W (Byte × Nat) := do
  let part := partOf (← getS) dst
  laneAccess dst a
  if op = 0 then return (← writeTile part dst a bs check, 0)
  match ← oldTile 3 dst a with
  | .error e => return (e, 0)
  | .ok old =>
    let (new, sat) := if op = 1 then
        let (ws, n) := addWords (wordsOf old) (wordsOf bs)
        (bytesOf ws, n)
      else (List.zipWith (fun x y => if x.toNat < y.toNat then y else x) old bs, 0)
    return (← writeTile part dst a new (crc32c new), sat)

/-- A tile delivered with an operation (R335, R336): the status, and the sums that saturated. -/
def deliverTile (dst : Fin 8) (a op : Nat) (check : Word) (bs : List Byte) : W (Byte × Nat) := do
  let st := tileRefusal (← getS) dst a check bs
  if st ≠ sOK then return (st, 0) else landTile dst a op check bs

/-- A received entry is refused from this frame on (R336). (DEDUCED, log 19) -/
def refuseEntry (p : Fin 32) (h : FHdr) (st : Byte) : W Unit := do
  modP p fun x => { x with refusal := some (h.seq, st), refusing := !h.last }
  bump (portA p + 0x28) 1
  portFail p st
  setFlags (portA p) 0x40
  raise 4 3 st (whereW (dieOf p) bFAB (p.val % 4)) (natLE 2 h.srcModule ++ [b8 h.srcPort, 0] ++ natLE 4 h.dstTile)

/-- The die a frame names. -/
def FHdr.dst (h : FHdr) : Fin 8 := ⟨h.dstDie % 8, by omega⟩

/-- Is a frame DATA of an epoch that is aborted on a die (R356 step 6)? -/
def FHdr.late (h : FHdr) (d : Die) : Bool := h.type == tDATA && h.epoch != 0 && epochSt d h.epoch == .aborted

/-- Why a DATA or EMPTY frame is refused before it is passed on or written (R336). -/
def frameRefusal (s : State) (h : FHdr) (tile : List Byte) : Byte :=
  if !diePresent s h.dst then sABSENT else if refuseAuth s h.dst h then sAUTH
  else if tile.isEmpty then sOK else tileRefusal s h.dst (h.dstTile * 4096) h.check tile

/-- A DATA or EMPTY frame delivered, for another die over the on-package route; a frame of an epoch aborted on the receiving die or on
the destination is neither written nor raises a token (R334, R336, R351, R356 step 6). -/
def deliverFrame (p : Fin 32) (h : FHdr) (tile : List Byte) : W Unit := do
  let s ← getS
  let d := dieOf p
  if (s.port p).refusing && nfld h.w16 16 10 != 0 then
    modP p fun x => { x with refusing := !h.last }
    return
  modP p fun x => { x with refusing := false }
  if h.late (s.die d) then return
  let refused := frameRefusal s h tile
  if refused ≠ sOK then
    refuseEntry p h refused
    return
  if h.dst ≠ d then bump (fabA d + 0x10) 1
  if h.late (s.die h.dst) then return
  let (st, sat) ← if tile.isEmpty then pure (sOK, 0) else landTile h.dst (h.dstTile * 4096) h.op h.check tile
  bump (portA p + 0x30) sat
  if st ≠ sOK then refuseEntry p h st
  else if h.last && h.token then signalTok h.dst h.dstToken
  else pure ()

/-- DATA_FRAME (R334). -/
def execDataFrame (p : Fin 32) (frame : List Byte) (errs : List LaneErrs) (s : State) : Host.Outcome State Fault Refusal :=
  W.within fabScope s (onFrame p tDATA frame errs (deliverFrame p))
/-- EMPTY_FRAME (R328). -/
def execEmptyFrame (p : Fin 32) (frame : List Byte) (errs : List LaneErrs) (s : State) : Host.Outcome State Fault Refusal :=
  W.within fabScope s (onFrame p tEMPTY frame errs (deliverFrame p))

/-- An ABORT frame: with TOKEN the abort mark of DST_TOKEN, with an epoch that epoch's abort (R333, R355). A refused one is counted and has
no other effect (R336). (DEDUCED, log 47) -/
def abortFrame (p : Fin 32) (h : FHdr) (_ : List Byte) : W Unit := do
  let s ← getS
  bump (fabA (dieOf p) + 0x14) 1
  let st := if !diePresent s h.dst then sABSENT else if refuseAuth s h.dst h then sAUTH else sOK
  if st ≠ sOK then
    refuseEntry p h st
    return
  if h.dst ≠ dieOf p then bump (fabA (dieOf p) + 0x10) 1
  if h.epoch ≠ 0 then abortEpoch (dieOf p) h.epoch 1 p.val
  if h.token then markTok h.dst h.dstToken

/-- ABORT_FRAME (R333). -/
def execAbortFrame (p : Fin 32) (frame : List Byte) (errs : List LaneErrs) (s : State) : Host.Outcome State Fault Refusal :=
  W.within fabScope s (onFrame p tABORT frame errs (abortFrame p))

/-- A LINK frame: a refusal ends the phase that sent the refused frame (R336); on a cross-rack port the beat counts are
compared, less the fibre's delay; the cycles within the two beats are free values (R337). (DESIGN CHOICE, log 5) -/
def linkFrame (p : Fin 32) (h : FHdr) (_ : List Byte) : W Unit := do
  let s ← getS
  let x := s.port p
  if h.refuse && x.refSeen != some h.seq && failing h.status then
    modP p fun x => { x with refSeen := some h.seq }
    portFail p h.status
    setFlags (portA p) 0x40
    (x.running.toList ++ x.draining).forM fun ph =>
      if ph.firstSeq.any (fun f => decide (f ≤ h.seq)) && ph.lastSeq.any (fun l => decide (h.seq ≤ l)) then failPhase (dieOf p) ph.uid h.status
      else pure ()
  if 24 ≤ p.val then
    let sent ← freeVal
    let got ← freeVal
    let diff : Int := signedOf 32 ((h.w16 + 2 ^ 32 - s.clk.beat % 2 ^ 32) % 2 ^ 32) * 64 + sent % 64 - got % 64 + x.fibre
    modS (rset · (portA p + 0x34) (BitVec.ofInt 32 diff))
    let v ← getReg (portA p)
    if (diff < -64 ∨ 64 < diff) ∧ !bitOf v 7 then
      setFlags (portA p) 0x80
      raise 4 5 sOK (whereW (dieOf p) bFAB (p.val % 4)) (natLE 4 (BitVec.ofInt 32 diff).toNat)

/-- LINK_FRAME (R320). -/
def execLinkFrame (p : Fin 32) (frame : List Byte) (errs : List LaneErrs) (s : State) : Host.Outcome State Fault Refusal :=
  W.within fabScope s (onFrame p tLINK frame errs (linkFrame p))

/-! ## Phases and slots (R325 to R333) -/

/-- The ports that a PHASE or RESHARD names. -/
def phasePorts (d : Fin 8) (ws : Words) : List (Fin 32) :=
  (portsOf d).filter fun p => bitOf (cw ws 5) (4 + p.val % 4)

/-- The fabric engine accepts a phase when every named port has no armed phase: none whose first slot is not due yet (R330). -/
def phaseFree (s : State) (d : Fin 8) (ws : Words) : Bool :=
  (phasePorts d ws).all fun p => (s.port p).armed.all fun ph => decide (ph.start ≤ schedBeat s d)

/-- Arm a phase on its ports (R330, R341): STATE outside NORMAL, EPOCH on an aborted epoch; with a named port not UP it
fails with LINK, and what an epoch still owes as ABORT frames stays with the ports that are UP. -/
def armPhase (d : Fin 8) (uid : Nat) (ws : Words) : W Res := do
  let s ← getS
  let epoch := fld (cw ws 7) 15 0
  if s.fab.mode ≠ 0 then return { status := sSTATE }
  if epoch ≠ 0 ∧ epochSt (s.die d) epoch = .aborted then return { status := sEPOCH }
  let ps := phasePorts d ws
  let dark := ps.any fun p => (s.port p).st != .up
  let ph : PhaseRun := { uid, table := fld (cw ws 5) 2 0, start := (cw ws 6).toNat, slack := fld (cw ws 7) 31 16, epoch, failed := dark }
  (ps.filter fun p => (s.port p).st != .up).forM fun p => portFail p sLINK
  if !dark ∨ epoch ≠ 0 then
    ps.forM fun p => modP p fun x => if x.st = .up then { x with armed := x.armed ++ [ph] } else x
  return { status := if dark then sLINK else sOK, busy := !dark }

/-- PHASE (R330). -/
def execPhase (d : Fin 8) (s : State) : Host.Outcome State Fault Refusal :=
  W.within fabScope s (startHead d 6 0x01 phaseFree (armPhase d))

/-- PHASE_TAKEOVER: from its START_BEAT edge on an armed phase takes over its port once the phase before has sent its last
slot; a port that is not UP fails it with LINK (R330). (DESIGN CHOICE, log 3) -/
def phaseTakeover (p : Fin 32) : W Unit := do
  let s ← getS
  let x := s.port p
  match x.armed with
  | [] => return
  | ph :: rest =>
    if x.running.isSome ∨ schedBeat s (dieOf p) < ph.start then return
    if x.st ≠ .up then
      portFail p sLINK
      failPhase (dieOf p) ph.uid sLINK
      dropPhase p ph.uid
    else
      modP p fun x => { x with armed := rest, running := some ph }
      setField (portA p) 19 16 (2 * ph.table + 1)
      setReg (portA p + 0x24) 0

/-- PHASE_TAKEOVER (R330). -/
def execPhaseTakeover (p : Fin 32) (s : State) : Host.Outcome State Fault Refusal := W.within fabScope s (phaseTakeover p)

/-- Replace the running phase of a port, as its slot goes by. -/
def nextSlot (p : Fin 32) (ph : PhaseRun) : W Unit := do
  modP p fun x => { x with running := some ph }
  settlePort p

/-- The data frames of a slot, in order; the status of the tile that could not be read ends them (R113, R327). -/
def sendSlot (p : Fin 32) (ph : PhaseRun) (slot : Nat) (w : List Word) (n : Nat) : Nat → Nat → Option Nat → W (Byte × Option Nat)
  | 0, _, lastSeq => return (sOK, lastSeq)
  | k + 1, i, lastSeq => do
    let d := dieOf p
    let src := (atD 0 w 2).toNat + i
    match ← readTile (partOf (← getS) d) d (src * 4096) with
    | .error e => return (e, lastSeq)
    | .ok tile =>
      let s ← getS
      let h := { slotHdr w d tDATA ph.table slot i ph.epoch with
        last := i + 1 = n, token := slToken w && decide (i + 1 = n), dstTile := ((atD 0 w 3).toNat + i) % 2 ^ 32
        check := nget crcZeroTile s.mem.checks (keyOf d (src * 4096) / 4096) }
      let seq ← sendFrame p h tile
      sendSlot p ph slot w n k (i + 1) (some seq)

/-- Frames of a slot: COUNT, or with LIVE no more than the word at LIVE_LINE (R328). (DEDUCED, log 20) -/
def slotCount (p : Fin 32) (w : List Word) : W (Except Byte Nat) := do
  let count := fld (atD 0 w 0) 6 0
  if !bitOf (atD 0 w 0) 28 then return .ok count
  let a := lineA (fld (atD 0 w 5) 26 0)
  match ← readTile (partOf (← getS) (dieOf p)) (dieOf p) a with
  | .error e => return .error e
  | .ok t => return .ok (min count (rd t (a % 4096) 4))

/-- What the wait of a slot says (R333). -/
def slotWait (d : Die) (w : List Word) : Waits := waitOne d (bitOf (atD 0 w 0) 30) (fld (atD 0 w 0) 27 16) (atD 0 w 1)

/-- SLOT_START: the next slot of the running phase at or after its due edge, once the slot before it has ended and its wait holds; frames
without room stretch it (R323, R327, R328, R333). (DEDUCED, log 20) -/
def slotStart (p : Fin 32) : W Unit := do
  let s ← getS
  let d := dieOf p
  let x := s.port p
  match x.running with
  | none => return
  | some ph =>
    if x.st ≠ .up ∨ x.changing ∨ !x.waiting.isEmpty ∨ schedBeat s d < ph.start + ph.next then return
    if ph.failed then
      if ph.epoch = 0 ∨ epochSt (s.die d) ph.epoch ≠ .open_ then dropPhase p ph.uid
      return
    if tableLen s p ph.table ≤ ph.next then return
    let w := slotOf s p ph.table ph.next
    let ph' := { ph with next := ph.next + 1 }
    if !slValid w then
      let lag ← noteLag p ph
      nextSlot p { ph' with lag, ends := none }
      return
    match slotWait (s.die d) w with
    | .wait => return
    | .epoch =>
      let lag ← noteLag p ph
      let seq ← sendSlotAbort p ph ph.next w
      nextSlot p { ph'.started s p 0 lag with firstSeq := some (ph.firstSeq.getD seq), lastSeq := some seq }
      failPhase d ph.uid sEPOCH
    | .hold =>
      match ← slotCount p w with
      | .error e => failPhase d ph.uid e
      | .ok n =>
        let lag ← noteLag p ph
        let (st, last) ← if n = 0 then do
            let seq ← sendFrame p { slotHdr w d tEMPTY ph.table ph.next 0 ph.epoch with op := 0, last := true, token := slToken w } []
            pure (sOK, some seq)
          else sendSlot p ph ph.next w n n 0 none
        let sent := { ph.started s p n lag with
          firstSeq := if last.isNone then ph.firstSeq else some (ph.firstSeq.getD x.txSeq)
          lastSeq := if last.isNone then ph.lastSeq else last }
        if st = sOK then nextSlot p { sent with next := ph.next + 1 }
        else
          modP p fun x => { x with running := some sent, waiting := x.waiting.filter fun b => !slotData b }
          failPhase d ph.uid st

/-- SLOT_START (R327). -/
def execSlotStart (p : Fin 32) (s : State) : Host.Outcome State Fault Refusal := W.within fabScope s (slotStart p)

/-- Can the lag of a slot of a phase exceed SLACK × 64 always-on cycles: the slot that started last was so late, or the next one, if its
table has one, has not started and its lag has reached SLACK beats, of which the cycles within the beat may be any (R331)?
(DESIGN CHOICE, log 5) -/
def watchdogDue (s : State) (p : Fin 32) (ph : PhaseRun) (waits : Bool) : Bool :=
  decide (ph.slack * 64 < ph.lag) || (waits && decide (ph.next < tableLen s p ph.table) && decide (ph.slack ≤ lateBeats s p ph))

/-- PHASE_WATCHDOG: the lag of a slot exceeds SLACK × 64 always-on cycles; during a retry episode the decision waits for
its end (R331, R332). -/
def phaseWatchdog (p : Fin 32) : W Unit := do
  let s ← getS
  let x := s.port p
  let due := (x.running.toList.filter (watchdogDue s p · true)) ++ x.draining.filter (watchdogDue s p · false)
  if x.episode.isSome then
    let mark := fun (ph : PhaseRun) => if due.contains ph then { ph with deferred := true } else ph
    modP p fun x => { x with running := x.running.map mark, draining := x.draining.map mark }
  else due.forM (fireWatchdog p)

/-- PHASE_WATCHDOG (R331). -/
def execPhaseWatchdog (p : Fin 32) (s : State) : Host.Outcome State Fault Refusal := W.within fabScope s (phaseWatchdog p)

/-! ## DCOPY (R335, R345, R348) -/

/-- The fabric engine accepts a command of an opcode when none of that opcode runs (R345). -/
def oneOf (ops : List Nat) (s : State) (d : Fin 8) (_ : Words) : Bool :=
  (startedOf s d 6).all fun c => !ops.contains (cOp c.words)

/-- The tiles of a DCOPY, in order, until one cannot be read or delivered. -/
def dcopyTiles (d dst : Fin 8) (src dstTile op : Nat) : Nat → Nat → W Byte
  | 0, _ => return sOK
  | k + 1, i => do
    match ← readTile (partOf (← getS) d) d ((src + i) * 4096) with
    | .error e => return e
    | .ok t =>
      let s ← getS
      let check := nget crcZeroTile s.mem.checks (keyOf d ((src + i) * 4096) / 4096)
      let (st, sat) ← deliverTile dst ((dstTile + i) * 4096) op check t
      bump (fabA dst + 0x18) sat
      if st ≠ sOK then return st
      bump (fabA d + 0x08) 1
      dcopyTiles d dst src dstTile op k (i + 1)

/-- The work of a DCOPY. -/
def dcopyWork (d : Fin 8) (_ : Nat) (ws : Words) : W Res := do
  let s ← getS
  let dst : Fin 8 := ⟨fld (cw ws 5) 26 24 % 8, by omega⟩
  if !diePresent s dst then return { status := sABSENT }
  let st ← dcopyTiles d dst (cw ws 6).toNat (cw ws 7).toNat (fld (cw ws 5) 21 20) (fld (cw ws 8) 19 0) 0
  if st = sOK ∧ bitOf (cw ws 5) 12 then signalTok dst (fld (cw ws 5) 11 0)
  return { status := st }

/-- DCOPY (R348). -/
def execDcopy (d : Fin 8) (s : State) : Host.Outcome State Fault Refusal :=
  W.within fabScope s (startHead d 6 0x02 (oneOf [0x02]) (dcopyWork d))

end Sys2Proof.Machine
end

