-- ==== Sys2Proof/Machine/Collect.lean ====
section
/-! DEFINITION. Epoch commands, gradient reduction and re-sharding: 12_collectives_and_expert_traffic.md. -/

namespace Sys2Proof.Machine

/-! ## Epochs (R354) -/

/-- Is an epoch open on a die as a reduction epoch? -/
def isRed (x : Die) (e : Nat) : Bool := (epochSlot x e).any fun s => s.red != 0

/-- The abort list of an EPOCH open. -/
def abortList (d : Fin 8) (ws : Words) : W (Except Byte (List Word)) := do
  match ← readSpan (partOf (← getS) d) d (lineA (fld (cw ws 7) 26 0)) (4 * fld (cw ws 6) 8 0) with
  | .error e => return .error e
  | .ok b => return .ok (wordsOf b)

/-- Put an epoch into the first free slot. -/
def fillSlot (e : EpSlot) : List (Option EpSlot) → List (Option EpSlot)
  | [] => []
  | none :: r => some e :: r
  | some x :: r => some x :: fillSlot e r

/-- Set the slots of a die from a list. -/
def slotsOf (l : List (Option EpSlot)) : Vector (Option EpSlot) 16 := Vector.ofFn fun i => atD none l i

/-- The work of an EPOCH open. -/
def epochOpenWork (d : Fin 8) (ws : Words) : W Byte := do
  let x := fld (cw ws 5) 15 0
  let die ← getD d
  match epochSt die x with
  | .open_ => return sSTATE
  | .closed => return sSTATE
  | st =>
    match ← abortList d ws with
    | .error e => return e
    | .ok l =>
      if st = .aborted then
        l.forM fun w => markTok d (fld w 11 0)
        return sEPOCH
      if l.any fun w => fld w 31 12 != 0 then
        redFail d x sPARAM
        abortEpoch d x 0 d.val
        return sPARAM
      if die.slots.toList.all (·.isSome) then return sSTATE
      let e : EpSlot := { red := fld (cw ws 5) 30 30, number := x, buckets := fld (cw ws 6) 31 16, abortTokens := l.map fun w => fld w 11 0 }
      modD d fun y => { y with epochs := nset .idle y.epochs x .open_, slots := slotsOf (fillSlot e y.slots.toList) }
      return sOK

/-- Does a command of the epoch run on the die? -/
def epochBusy (s : State) (d : Fin 8) (x : Nat) : Bool :=
  (s.die d).started.any fun c => cClass c.words == 6 && cOp c.words != 0x10 && startedEpoch c == x

/-- The work of an EPOCH close. -/
def epochCloseWork (d : Fin 8) (ws : Words) : W Byte := do
  let x := fld (cw ws 5) 15 0
  let s ← getS
  let die := s.die d
  match epochSt die x with
  | .aborted => return sEPOCH
  | .open_ =>
    let short := (epochSlot die x).any fun e => e.red != 0 && decide (e.committed.length < e.buckets)
    if epochBusy s d x || short then return sSTATE
    modD d fun y => { y with epochs := nset .idle y.epochs x .closed }
    modSlot d x fun _ => none
    return sOK
  | _ => return sSTATE

/-- An EPOCH, RESHARD or reduction command that fails is recorded (R386). -/
def withRecord (d : Fin 8) (epoch : Nat) (st : Byte) : W Unit := if failing st then redFail d epoch st else pure ()

/-- An EPOCH command's work, recorded. -/
def epochWork (close : Bool) (d : Fin 8) (_ : Nat) (ws : Words) : W Res := do
  let st ← if close then epochCloseWork d ws else epochOpenWork d ws
  withRecord d (fld (cw ws 5) 15 0) st
  return { status := st }

/-- EPOCH_OPEN (R354). -/
def execEpochOpen (d : Fin 8) (s : State) : Host.Outcome State Fault Refusal :=
  W.within fabScope s (startHead d 6 0x10 (fun _ _ ws => !bitOf (cw ws 5) 31) (epochWork false d))
/-- EPOCH_CLOSE (R354). -/
def execEpochClose (d : Fin 8) (s : State) : Host.Outcome State Fault Refusal :=
  W.within fabScope s (startHead d 6 0x10 (fun _ _ ws => bitOf (cw ws 5) 31) (epochWork true d))

/-- ABORT_NOTICE: a notice on its way to the die arrives (R355, R356). (DEDUCED, log 47) -/
def abortNotice (d : Fin 8) (epoch : Half) : W Unit := do
  let s ← getS
  match s.fab.notices.find? fun n => n.1 == d.val && n.2.2 == epoch.toNat with
  | none => return
  | some n =>
    modS fun s => { s with fab := { s.fab with notices := s.fab.notices.erase n } }
    abortEpoch d epoch.toNat 2 n.2.1

/-- ABORT_NOTICE (R355). -/
def execAbortNotice (d : Fin 8) (epoch : Half) (s : State) : Host.Outcome State Fault Refusal :=
  W.within fabScope s (abortNotice d epoch)

/-! ## Reduction (R359 to R371) -/

/-- What R370 refuses before a reduction command reads anything. -/
def redRefused (x : Die) (ws : Words) (op : Nat) : Option Byte :=
  let e := fld (cw ws 5) 15 0
  let b := fld (cw ws 5) 31 20
  match epochSt x e, epochSlot x e with
  | .aborted, _ => some sEPOCH
  | .open_, some sl =>
    if sl.red = 0 ∨ sl.buckets ≤ b then some sSTATE
    else
      let q := nget false sl.quantised b
      let c := nget false sl.committed b
      if (op = 0x12 ∧ (q ∨ c)) ∨ (op = 0x13 ∧ (!q ∨ c)) then some sSTATE else none
  | _, _ => some sSTATE

/-- 32 FP32 values of a block, as read (R33, R34). -/
def blockVals (bs : List Byte) : Cnt (List Dy) := (wordsOf bs).mapM fun w => readCode .fp32 w.toNat

/-- The exponent byte of a block (R360). -/
def expByte (xs : List Dy) : Nat :=
  let a := dyAmax xs
  if dyIsZero a then 0 else (dyLog2 a + 127).toNat

/-- A piece of work on a reduction command's counters. -/
def counted {α : Type} (c : Ctr) (m : Cnt α) : α × Ctr := m.run c

/-- Exponent bytes tile by tile (R360): the status, the bytes, and the counters. -/
def rscanGo (p : Nat) (d : Fin 8) : Nat → Nat → Ctr → List Byte → W (Byte × List Byte × Ctr)
  | 0, _, c, out => return (sOK, out, c)
  | n + 1, t, c, out => do
    match ← readTile p d (t * 4096) with
    | .error e => return (e, out, c)
    | .ok b =>
      let (es, c) := counted c ((chunks 128 b).mapM fun k => do return b8 (expByte (← blockVals k)))
      rscanGo p d n (t + 1) c (out ++ es)

/-- The work of RSCAN. -/
def rscanWork (d : Fin 8) (_ : Nat) (ws : Words) : W Res := do
  let s ← getS
  let e := fld (cw ws 5) 15 0
  match redRefused (s.die d) ws 0x11 with
  | some st => withRecord d e st; return { status := st }
  | none =>
    let p := partOf s d
    let (st, out, ctr) ← rscanGo p d (fld (cw ws 9) 31 16) (cw ws 6).toNat {} []
    let a := lineA (fld (cw ws 8) 26 0)
    -- a failure keeps only the whole tiles completed before it (R115)
    let keep := if st = sOK then out else out.take ((a + out.length) / 4096 * 4096 - a)
    let wr ← writeSpan p d a keep
    let st := if st = sOK then wr else st
    withRecord d e st
    return { status := st, ctr }

/-- A reduction command starts when none of the three runs (R381). -/
def redFree : Accept := oneOf [0x11, 0x12, 0x13]

/-- RSCAN (R360). -/
def execRscan (d : Fin 8) (s : State) : Host.Outcome State Fault Refusal :=
  W.within fabScope s (startHead d 6 0x11 redFree (rscanWork d))

/-- One block quantised to 32 INT32 words (R363). -/
def quantBlock (agreed h : Nat) (xs : List Dy) : Cnt (List Byte) := do
  if agreed = 0 then return zeros 128
  let k : Int := 30 - h - ((agreed : Int) - 127)
  let qs ← xs.mapM fun x => roundTo .int32 .rne 0 (dyShift x k)
  return bytesOf (qs.map w32)

/-- Blocks quantised in order: the blocks done, newest first, whether an agreed byte was found too small, the status. -/
def rquantGo (p : Nat) (d : Fin 8) (agree h : Nat) : Nat → Nat → Nat → Ctr → List (List Byte) → W (Byte × Bool × List (List Byte) × Ctr)
  | 0, _, _, c, out => return (sOK, false, out, c)
  | n + 1, src, t, c, out => do
    match ← readTile p d ((src + t) * 4096) with
    | .error e => return (e, false, out, c)
    | .ok b =>
      match ← readSpan p d (agree + 32 * t) 32 with
      | .error e => return (e, false, out, c)
      | .ok ag =>
        let step := fun (acc : Option (List (List Byte)) × List (List Byte) × Ctr) (i : Nat) =>
          match acc.1 with
          | none => acc
          | some _ =>
            let (xs, c1) := counted acc.2.2 (blockVals (sub b (128 * i) 128))
            let a := (atD 0 ag i).toNat
            if a < expByte xs then (none, acc.2.1, c1)
            else
              let (q, c2) := counted c1 (quantBlock a h xs)
              (some [], q :: acc.2.1, c2)
        let (ok, out, c) := (List.range 32).foldl step (some [], out, c)
        if ok.isNone then return (sCHECK, true, out, c)
        rquantGo p d agree h n src (t + 1) c out

/-- The sampled blocks of a shard of `nb` blocks that starts at block `b0` (R366). -/
def sampledOf (b0 nb off rate : Nat) : List Nat :=
  ((List.range nb).map (b0 + ·)).filter fun b => (b + off) % 2 ^ rate == 0

/-- Tiles of a check segment (R366). -/
def segTiles (shard rate : Nat) : Nat := cdiv (cdiv (32 * shard) (2 ^ rate)) 32

/-- The tiles an RQUANT writes, each with the number of blocks it awaits, in completion order (R363, R366). -/
def rquantPlan (ws : Words) (blocks : List (List Byte)) : List (Nat × Nat × List Byte) :=
  let nt := fld (cw ws 9) 31 16
  let shard := max 1 (fld (cw ws 11) 31 16)
  let rate := fld (cw ws 5) 19 16
  let off := fld (cw ws 11) 11 0
  let seg := segTiles shard rate
  let blk := blocks.toArray
  let bytes : List Nat → List Byte := fun l => l.flatMap fun b => blk.getD b []
  let data := (List.range nt).map fun t => (32 * (t + 1), ((cw ws 7).toNat + t) * 4096, bytes ((List.range 32).map (32 * t + ·)))
  let segs := (List.range (nt / shard)).flatMap fun sh =>
    let l := sampledOf (32 * shard * sh) (32 * shard) off rate
    (List.range seg).map fun j =>
      let mine := (l.drop (32 * j)).take 32
      let need := match mine.getLast? with | some b => b + 1 | none => 32 * shard * (sh + 1)
      (need, ((cw ws 10).toNat + seg * sh + j) * 4096, padTo 4096 (bytes mine))
  (data ++ segs).mergeSort fun x y => decide (x.1 ≤ y.1)

/-- The work of RQUANT. -/
def rquantWork (d : Fin 8) (_ : Nat) (ws : Words) : W Res := do
  let s ← getS
  let e := fld (cw ws 5) 15 0
  match redRefused (s.die d) ws 0x12 with
  | some st => withRecord d e st; return { status := st }
  | none =>
    let p := partOf s d
    let (st, low, out, ctr) ← rquantGo p d (lineA (fld (cw ws 8) 26 0)) (fld (cw ws 9) 15 11) (fld (cw ws 9) 31 16) (cw ws 6).toNat 0 {} []
    let blocks := out.reverse
    let plan := (rquantPlan ws blocks).filter fun x => decide (x.1 ≤ blocks.length)
    let wr ← putPieces p d (plan.map (·.2))
    let st := if st = sOK then wr else st
    withRecord d e st
    if low then setFlags (redA d) 8
    if ctr.ufz != 0 then setFlags (redA d) 2
    return { status := st, ctr }

/-- RQUANT (R363). -/
def execRquant (d : Fin 8) (s : State) : Host.Outcome State Fault Refusal :=
  W.within fabScope s (startHead d 6 0x12 redFree (rquantWork d))

/-- The blocks `l` of a tile that differ from the check segment's, or from zero where the agreed byte is 0 (R368). -/
def mismatches (l : List Nat) (main seg agreed : List Byte) : Nat :=
  l.zipIdx.countP fun (b, i) =>
    let m := sub main (128 * b) 128
    m != sub seg (128 * i) 128 || ((atD 0 agreed b) == 0 && !allZero m)

/-- Pass 1 of RDEQ over the tiles from `t` on: only tiles that hold a sampled block are read. The status, the blocks compared and those
that differed (R368). -/
def rdeqCompare (p : Nat) (d : Fin 8) (ws : Words) : Nat → Nat → Nat → Nat → W (Byte × Nat × Nat)
  | 0, _, i, bad => return (sOK, i, bad)
  | n + 1, t, i, bad => do
    let l := sampledOf (32 * t) 32 (fld (cw ws 11) 11 0) (fld (cw ws 5) 19 16)
    if l.isEmpty then rdeqCompare p d ws n (t + 1) i bad
    else match ← readTile p d (((cw ws 6).toNat + t) * 4096) with
    | .error e => return (e, i, bad)
    | .ok main => match ← readSpan p d (lineA (fld (cw ws 8) 26 0) + 32 * t) 32 with
      | .error e => return (e, i, bad)
      | .ok agreed => match ← readSpan p d ((cw ws 10).toNat * 4096 + 128 * i) (128 * l.length) with
        | .error e => return (e, i, bad)
        | .ok seg => rdeqCompare p d ws n (t + 1) (i + l.length) (bad + mismatches (l.map (· - 32 * t)) main seg agreed)

/-- The exact value of a summed word (R369). -/
def sumVal (agreed h : Nat) (w : Word) : Dy :=
  if agreed = 0 then dyZero else dyShift (dyInt w.toInt) ((agreed : Int) - 127 + h - 30)

/-- Eight touched bits to a byte, the lowest block in bit 0 (R288). -/
def packBits (bs : List Bool) : List Byte :=
  (List.range (cdiv bs.length 8)).map fun i => b8 ((List.range 8).foldl (fun n j => n + 2 ^ j * b2n (atD false bs (8 * i + j))) 0)

/-- The work of RDEQ: pass 1 compares the sampled blocks, and a difference completes it with CHECK; pass 2 converts and writes the shard
(R368, R369). -/
def rdeqWork (d : Fin 8) (_ : Nat) (ws : Words) : W Res := do
  let s ← getS
  let die := s.die d
  let e := fld (cw ws 5) 15 0
  let fail : Byte → Ctr → W Res := fun st c => do withRecord d e st; return { status := st, ctr := c }
  match redRefused die ws 0x13, ctxOf die (fld (cw ws 9) 9 0) with
  | some st, _ => fail st {}
  | none, none => fail sPARAM {}
  | none, some cx =>
    let p := partOf s d
    let n := fld (cw ws 9) 31 16
    let h := fld (cw ws 9) 15 11
    let (st, sampled, bad) ← rdeqCompare p d ws n 0 0 0
    bump (redA d + 0xC) sampled
    if 0 < bad then
      let r ← fail sCHECK {}
      bump (redA d + 0x10) bad
      setFlags (redA d) 4
      return r
    if st ≠ sOK then return (← fail st {})
    match ← readTiles p d (cw ws 6).toNat n with
    | .error st => fail st {}
    | .ok main =>
    match ← readSpan p d (lineA (fld (cw ws 8) 26 0)) (32 * n) with
    | .error st => fail st {}
    | .ok agreed =>
      let dc := descOf s d (cRecipe ws) ((List.range 4).map fun i => cw ws (12 + i))
      let vals := (wordsOf main).zipIdx.map fun (w, i) => (sumVal (atD 0 agreed (i / 32)).toNat h w, dyZero, i)
      let ((codes, _, ts), ctr) := counted {} (convRowT dc.conv vals)
      let st ← writeSpan p d (rd cx.static 28 4 * 4096 + 128 * (cw ws 7).toNat) (packCodes dc.conv.fmt codes)
      let st ← if st ≠ sOK ∨ (rd cx.static 0 4).testBit 6 then pure st
        else writeSpan p d (rd cx.static 44 4 * 4096 + (cw ws 7).toNat / 8) (packBits (agreed.map (· != 0)))
      if ctr.ovf != 0 then setFlags (redA d) 1
      if st = sOK then return { status := st, ctr, feed := feedOf die dc.hist ts }
      fail st ctr

/-- RDEQ (R369). -/
def execRdeq (d : Fin 8) (s : State) : Host.Outcome State Fault Refusal :=
  W.within fabScope s (startHead d 6 0x13 redFree (rdeqWork d))

/-! ## Re-sharding (R378) -/

/-- The work of RESHARD. -/
def reshardWork (d : Fin 8) (uid : Nat) (ws : Words) : W Res := do
  let s ← getS
  let die := s.die d
  let e := fld (cw ws 7) 15 0
  let st := if epochSt die e = .aborted then sEPOCH
    else if epochSt die e ≠ .open_ ∨ isRed die e ∨ epochSt die (fld (cw ws 8) 15 0) ≠ .closed then sSTATE else sOK
  if st = sOK then armPhase d uid ws
  else
    withRecord d e st
    return { status := st }

/-- RESHARD (R378). -/
def execReshard (d : Fin 8) (s : State) : Host.Outcome State Fault Refusal :=
  W.within fabScope s (startHead d 6 0x14 phaseFree (reshardWork d))

end Sys2Proof.Machine
end

