-- ==== Sys2Proof/Machine/Access.lean ====
section
/-! DEFINITION. Reading and writing registers: access codes (R10), computed views, coarsened readings (R440, R441), W1C
flags and their miss counters (R407), region entries (R120, R122, R246), tokens (R99), clocks (R460), event rings (R411). -/

namespace Sys2Proof.Machine

/-- Is there no packet-visible schedule on a die: Empty, Loaded or Stopped? -/
def quietDie (d : Die) : Bool := d.seq.st == .empty || d.seq.st == .loaded || d.seq.st == .stopped
/-- Is every die of the module Empty, Loaded or Stopped? -/
def allQuiet (s : State) : Bool := allDies.all fun d => quietDie (s.die d)
/-- Is a master a tenant master of a partition (R431)? -/
def isTenant (s : State) (m : Fin 5) (p : Nat) : Bool := (s.sec.tenant.toList.getD p 0).testBit m.val
/-- The owner: the master that holds the lease (R401). -/
def ownerOf (c : Ctl) : Option (Fin 5) := match c.lease with | .free => none | .owned m => some m | .pending m _ => some m

/-- Does a master read a partition's values coarsened: a protected one's, unless it is a tenant master that holds the lease (R432, R440)?
(DEDUCED, log 45) -/
def coarsened (s : State) (m : Fin 5) (p : Nat) : Bool := isProt s p && !(isTenant s m p && ownerOf s.ctl == some m)

/-! ## Computed views -/

/-- STATE codes of SEQ_STATUS (R98). -/
def schedCode : Sched → Nat
  | .empty => 0 | .loaded => 1 | .armed => 2 | .running => 3 | .stopping => 4 | .stopped => 5 | .halted => 6
/-- Codes of R97. -/
def engCode : EngSt → Nat | .run => 0 | .idle => 1 | .nap => 2 | .waking => 3
/-- Codes of R453. -/
def pwCode : Pw → Nat | .run => 0 | .idle => 1 | .nap => 2 | .deep => 3 | .off => 4
/-- Codes of R350. -/
def portCode : PortSt → Nat | .disabled => 0 | .down => 1 | .training => 2 | .up => 3
/-- Codes of R385. -/
def epochCode : EpSt → Nat | .idle => 0 | .open_ => 1 | .closed => 2 | .aborted => 3

/-- Bits of a word kept. -/
def keep (w : Word) (mask : Nat) : Nat := w.toNat &&& mask
/-- The sum of `f i * 2^(k i)` over a range. -/
def packWord (n k : Nat) (f : Nat → Nat) : Nat := (List.range n).foldl (fun a i => a + f i * 2 ^ (k * i)) 0
/-- The word of a set of numbered bits, 32 to a word. -/
def bitWord (f : Nat → Bool) (w : Nat) : Nat := packWord 32 1 fun i => b2n (f (32 * w + i))

/-- SEQ_ (R97, R98). While a control command waits, or its completion is held for log space, SEQ_PC shows that command's own index; after a
STOP it shows the next one. (DEDUCED, log 28) -/
def viewSeq (s : State) (d : Fin 8) (o : Nat) : Option Nat :=
  let die := s.die d
  let q := die.seq
  if o = 0 then
    some (keep (rget s (seqStatusA d)) 0xE0 + schedCode q.st + 2 ^ 15 * b2n q.haltValid + 2 ^ 16 * q.haltStatus.toNat + 2 ^ 24 * q.haltClass)
  else if o = 4 then some q.pc
  else if o = 8 then some (if q.ran then shownBeat (schedBeat s d) else 0)
  else if o = 0xC then some q.logWr.toNat
  else if o = 0x10 then some q.logRd.toNat
  else if o = 0x14 then some q.overruns.toNat
  else if o = 0x18 then some q.logStalls.toNat
  else if o = 0x1C then some (packWord 16 2 fun i => engCode (die.eng.toList.getD i {}).st)
  else if o = 0x20 then some (engCode (die.eng.toList.getD 16 {}).st)
  else if within o 0x100 0x190 then
    some (((die.qsum.toList.getD ((o - 0x100) / 16) (Vector.replicate 4 0)).toList.getD (o / 4 % 4) 0).toNat)
  else if within o 0x200 0x400 then
    let m := die.summ.toList.getD ((o - 0x200) / 32) {}
    some (atD 0 [m.max, m.min, m.sum, m.sat, m.scrub, m.flags, m.status.setWidth 32, m.cmd] (o / 4 % 8)).toNat
  else none

/-- TOK_ (R99). -/
def viewTok (s : State) (d : Fin 8) (o : Nat) : Nat :=
  let die := s.die d
  if o < 0x4000 then (nget 0 die.tokens (o / 4)).toNat else bitWord (nget false die.marks) ((o - 0x4000) / 4)

/-- The bank bits of ME_STATUS (R153). -/
def bankBits (s : State) (d : Fin 8) (m : Nat) : Nat :=
  let cs := startedOf s d m
  let me := fun b => b2n (cs.any fun c => meBankOf c.words == some b)
  let ve := fun b => b2n (cs.any fun c => veBankOf c.words == some b)
  4 * me 0 + 8 * me 1 + 16 * ve 0 + 32 * ve 1
where
  meBankOf (ws : Words) : Option Nat := if 1 ≤ cOp ws ∧ cOp ws ≤ 4 then some (fld (cw ws 12) 18 18) else none
  veBankOf (ws : Words) : Option Nat := if 0x40 ≤ cOp ws ∧ cOp ws ≤ 0x48 ∧ fld (cw ws 5) 31 30 < 2 then some (fld (cw ws 5) 31 30) else none

/-- VE_TABLE_VALID and the histogram store (R183). -/
def viewVe (s : State) (d : Fin 8) (o : Nat) : Option Nat :=
  let die := s.die d
  if o < 0x800 then
    if o % 0x200 = 0x18 then
      some (bitWord (nget false (die.mv.toList.getD (o / 0x200) {}).valid) 0)
    else none
  else
    let n := (o - 0x100000) / 0x200
    let b := o % 0x200
    some (if b < 272 then leNat (nrun 0 die.hist (n * 272 + b) 4) else 0)

/-- FRG_ (R221, R222). -/
def viewFrg (s : State) (d : Fin 8) (o : Nat) : Option Nat :=
  if o < 0x8000 then
    let e := o / 0x1000
    let x := o % 0x1000
    if x = 0 then
      let v := rget s (regA d bFRG o)
      some (v.toNat + 2048 * b2n (fld v 3 2 ≠ 0))
    else if x = 8 then
      some (bitWord (fun st => (startedOf s d 4).any fun c => fld (cw c.words 5) 26 24 == e && fld (cw c.words 5) 23 20 == st) 0)
    else if x = 0xC then some (((s.die d).ahead.toList.getD e []).length)
    else none
  else none

/-- The context window of GEK_ (R304). -/
def viewGek (s : State) (d : Fin 8) (o : Nat) : Option Nat :=
  if 0x10000 ≤ o then
    let b := o % 0x100
    match ctxOf (s.die d) ((o - 0x10000) / 0x100) with
    | some c => some (if b < 192 then rd (c.static ++ c.step) b 4 else 0)
    | none => some 0
  else none

/-- The port whose FAB_LAG or FAB_LAG_MAX an address is, and the phase whose next slot may be the current one there (R329). -/
def waitingLag (s : State) (a : Nat) : Option (Fin 32 × PhaseRun) :=
  let p : Fin 32 := ⟨(4 * regUnit a + regOff a / 0x400) % 32, Nat.mod_lt _ (by decide)⟩
  if regUnit a < 8 ∧ regBlk a = bFAB ∧ regOff a < 0x1000 ∧ (regOff a % 0x400 = 0x20 ∨ regOff a % 0x400 = 0x24) then
    (waitingSlot s p).map fun ph => (p, ph)
  else none

/-- FAB_ (R349 to R351, R385). -/
def viewFab (s : State) (d : Fin 8) (o : Nat) : Option Nat :=
  let die := s.die d
  if o < 0x1000 then
    let p : Fin 32 := ⟨(4 * d.val + o / 0x400) % 32, Nat.mod_lt _ (by decide)⟩
    let x := o % 0x400
    let port := s.port p
    if x = 0 then some (keep (rget s (portA p)) 0xFFFFC + 2 ^ 24 * portCode port.st + 2 ^ 20 * port.width)
    else if x = 8 then some (min port.txSeq (2 ^ 64 - 1) % 2 ^ 32)
    else if x = 0xC then some (min port.txSeq (2 ^ 64 - 1) / 2 ^ 32)
    else if within x 0x40 0x60 then some (keep (rget s (laneA p ((x - 0x40) / 4))) 0xFFFF00FF + 2 ^ 8 * min 255 (port.corrected.toList.getD ((x - 0x40) / 4) 0 / 2 ^ 16))
    else none
  else if o = 0x8000 then some s.fab.mode
  else if o = 0x8118 then some ((die.slots.toList.filter (·.isSome)).length)
  else if within o 0x8140 0x8180 then
    some (match (die.slots.toList.getD ((o - 0x8140) / 4) none) with
      | some e => 2 ^ 31 + 2 ^ 30 * e.red + e.number
      | none => 0)
  else if within o 0xA000 0xE000 then
    some (packWord 16 2 fun i => epochCode (epochSt die (16 * ((o - 0xA000) / 4) + i)))
  else if 0xE000 ≤ o then
    some (match (die.slots.toList.getD ((o - 0xE000) / 0x200) none) with
      | some e => bitWord (nget false e.committed) (o % 0x200 / 4)
      | none => 0)
  else none

/-- The key of region entry `i` of a SEC_ window word, by unit and offset (R123, R246). -/
def regionOf (u o : Nat) (i : Nat) : Option Nat :=
  let at_ := fun base t => some (t * 2 ^ 32 + 2 * ((o - base) / 4) + i)
  if u < 8 ∧ within o 0x2000 0x3A00 then at_ 0x2000 u
  else if u < 8 ∧ within o 0x10000 0x28000 then at_ 0x10000 (8 + u)
  else if within o 0x100000 0x180000 then at_ 0x100000 16
  else if within o 0x180000 0x200000 then at_ 0x180000 17
  else if within o 0x200000 0x320000 then at_ 0x200000 18
  else if within o 0x320000 0x440000 then at_ 0x320000 19
  else none

/-- A word of a region table. -/
def viewRegion (s : State) (u o : Nat) : Option Nat :=
  match regionOf u o 0, regionOf u o 1 with
  | some a, some b => some ((regionEntry s a).toNat + 2 ^ 16 * (regionEntry s b).toNat)
  | _, _ => none

/-- Partitions whose PROTECTED bit, or whose key, is set, as a mask. -/
def keyedMask (s : State) : Nat := packWord 8 1 fun p => b2n (isKeyed s p)

/-- SEC_ of a die (R450). -/
def viewSecDie (s : State) (d : Fin 8) (o : Nat) : Option Nat :=
  if o = 0 then
    let p := partOf s d
    some (16 * p + 4 * b2n (isProt s p) + 2 * b2n (isKeyed s p) + b2n (s.sec.keysIn.toList.getD d.val false))
  else viewRegion s d.val o

/-- The lifecycle (R442): 0 Open, 1 Sealed, 2 Service, 3 Retired. -/
def lifecycle (s : State) : Nat :=
  if s.sec.fuseRetired then 3 else if !s.sec.fuseSealed then 0 else if s.sec.service then 2 else 1

/-- SEC_ of the hub side (R448, R449). -/
def viewSecHub (s : State) (o : Nat) : Option Nat :=
  let c := s.sec
  if o = 0 then
    some (keep (rget s (regA uHub bSEC 0)) 0x7F + 2 ^ 8 * b2n c.mirrorOk + 2 ^ 9 * b2n c.rotB + 2 ^ 16 * lifecycle s + 2 ^ 18 * c.debug)
  else if o = 4 then some (c.parts + 2 ^ 8 * c.prot + 2 ^ 16 * keyedMask s)
  else if o = 8 then some c.layoutGen
  else if within o 0x20 0x40 then some (c.keygen.toList.getD ((o - 0x20) / 4) 0)
  else if within o 0x40 0x60 then some (c.svn.toList.getD ((o - 0x40) / 4) 0)
  else if o = 0x60 then some (2 ^ 8 * c.bootFail + c.bootFallback)
  else if within o 0x80 0xA0 then some (c.tenant.toList.getD ((o - 0x80) / 4) 0)
  else if within o 0x100 0x200 then some (rd (c.mr.toList.getD ((o - 0x100) / 0x20) []) (o % 0x20) 4)
  else viewRegion s uHub o

/-- Does a supply warning stand (R467)? -/
def warned (s : State) : Bool := s.pwr.warnInput || !s.pwr.warnRail.isEmpty


/-- MBX_ (R415, R416). -/
def viewMbx (s : State) (o : Nat) : Option Nat :=
  let c := s.ctl
  if o = 8 then
    some (match c.lease with
      | .free => 0
      | .owned m => 2 ^ 15 + 2 ^ 12 * m.val
      | .pending m t => 2 ^ 15 + 2 ^ 12 * m.val + 2 ^ 11 + 2 ^ 8 * t.val)
  else if o = 0xC then some (if (ownerOf c).isSome then c.leaseId.toNat else 0)
  else if o = 0x10 then some (if (ownerOf c).isSome then c.leaseLeft else 0)
  else if within o 0x1000 0x2000 then some (leNat (nrun 0 c.req (o - 0x1000) 4))
  else if within o 0x2000 0x3000 then some (leNat (nrun 0 c.rsp (o - 0x2000) 4))
  else none

/-- EVT_ (R412). -/
def viewEvt (s : State) (o : Nat) : Option Nat :=
  if o = 0x200 then some s.hold.length
  else if o % 0x40 = 0 then
    let r := o / 0x40
    some (keep (rget s (ringA r)) 4 + 2 * b2n (ringN s r != 0) + b2n (rget s (ringA r + 0x14) != rget s (ringA r + 0x18)))
  else none

/-- PWR_ and CLK_ of the hub side (R479 to R481). -/
def viewHub (s : State) (b o : Nat) : Option Nat :=
  if b = bPWR then
    if o = 0 then
      some (keep (rget s (regA uHub bPWR 0)) 0xF01E + 32 * b2n (warned s) + 64 * b2n (s.pwr.held.any fun d => (s.dies.toList.map (·.pw)).getD d .off == .run) + 128 * b2n (s.pwr.hub[0] == .deep) + 256 * b2n (s.pwr.hub[1] == .deep))
    else none
  else if o = 4 then some (s.clk.beat % 2 ^ 32)
  else if o = 8 then some (s.clk.beat / 2 ^ 32)
  else if o = 0x18 then some s.clk.module
  else none

/-- PWR_ of a die (R482): PWR_DIE_STATUS holds its reset value until the boot is done, and shows the die's state from then on.
(DEDUCED, log 38) -/
def viewPwrDie (s : State) (d : Fin 8) (o : Nat) : Option Nat :=
  let die := s.die d
  if o = 0 then some ((if s.sec.fwUp then 32 * pwCode die.pw else 0) + keep (rget s (regA d bPWR 0)) 0x18)
  else if darkDie die ∧ (o = 4 ∨ o = 8) then some 0 else none

/-- The number of the channel whose generator an address belongs to (R272, R277). -/
def tgChan (a : Nat) : Option Nat :=
  let a := canon a
  let b := regBlk a
  let o := regOff a
  if regUnit a < 8 then
    if b = bCEL ∧ within (o % 0x8000) 0x4000 0x5000 then some (32 * (2 * regUnit a + o / 0x8000) + (o % 0x8000 - 0x4000) / 0x80)
    else if b = bLFT ∧ 0x4000 ≤ o % 0x10000 then some (512 + 16 * (o / 0x10000) + (o % 0x10000 - 0x4000) / 0x80)
    else if b = bATC ∧ 0x4000 ≤ o % 0x10000 then some (544 + 6 * (o / 0x10000) + (o % 0x10000 - 0x4000) / 0x80)
    else none
  else none

/-- The computed view of a register, where it is not the register file's own word. -/
def viewOf (s : State) (a : Nat) : Option Nat :=
  let u := regUnit a
  let b := regBlk a
  let o := regOff a
  if h : u < 8 then
    let d : Fin 8 := ⟨u, h⟩
    if b = bSEQ then viewSeq s d o
    else if b = bTOK then some (viewTok s d o)
    else if b = bME then
      (if o < 0x800 ∧ o % 0x200 = 0 then some ((rget s a).toNat + bankBits s d (o / 0x200)) else none)
    else if b = bVE then viewVe s d o
    else if b = bFRG then viewFrg s d o
    else if b = bGEK then viewGek s d o
    else if b = bFAB then viewFab s d o
    else if b = bSEC then viewSecDie s d o
    else if b = bPWR then viewPwrDie s d o
    else if o % 0x80 = 0xC ∧ (tgChan a).isSome then some (max 1 (rget s a).toNat)
    else none
  else if b = bSEC then viewSecHub s o
  else if b = bMBX then viewMbx s o
  else if b = bEVT then viewEvt s o
  else if b = bPWR ∨ b = bCLK then viewHub s b o
  else none

/-! ## Readings that timing or measurement leaves open (R95) -/

/-- Beats in a whole 1 ms window, and in a whole 100 ms one. -/
def beatsMs : Nat := 611
/-- Beats in 100 ms. -/
def beats100 : Nat := 61036

/-- How many values a register's reading may take, where it is open; none where its value is known. Input power is at most 4,800 W (R29).
(DESIGN CHOICE, log 6 and 25 and 39) -/
def openRange (s : State) (a : Nat) : Option Nat :=
  let u := regUnit a
  let b := regBlk a
  let o := regOff a
  let marked := decide (rget s a ≠ 0)
  let when_ := fun (c : Bool) (n : Nat) => if c then some n else none
  if h : u < 8 then
    let d : Fin 8 := ⟨u, h⟩
    if b = bME ∧ o < 0x800 then when_ (marked && (o % 0x200 == 0x14 || o % 0x200 == 0x18 || o % 0x200 == 0x1C)) (2 ^ 32)
    else if b = bVE ∧ o < 0x800 then when_ (marked && (o % 0x200 == 8 || o % 0x200 == 0xC)) (2 ^ 32)
    else if b = bFRG then
      if o < 0x8000 then
        let x := o % 0x1000
        let slots := (((s.die d).runs.filter fun r => r.engine == o / 0x1000 && r.ended.isNone).map (·.slots)).sum
        when_ (x == 0xC && slots != 0) (min 1024 slots + 1)
      else none
    else if b = bMOV then when_ (marked && o == 0x81C) (2 ^ 32)
    else if b = bCEL then
      if o % 0x8000 = 0x24 then when_ ((s.die d).pw != .off) 256 else when_ (marked && o % 0x8000 == 0x18) (2 ^ 32)
    else if b = bLFT ∨ b = bATC then
      if o % 0x10000 = 0x24 then when_ (s.pwr.hub.toList.getD (o / 0x10000) .off != .off) 256
      else when_ (marked && o % 0x10000 == 0x18) (2 ^ 32)
    else if b = bGEK then when_ (marked && o < 0x2000 && o % 0x1000 == 0x14) (2 ^ 32)
    else if b = bPWR ∧ o = 8 then when_ (!darkDie (s.die d) && decide (beatsMs ≤ (s.die d).up)) (2 ^ 16)
    else if b = bPWR ∧ o = 0xC then when_ ((s.die d).pw != .off && decide (beatsMs ≤ s.clk.up)) 4801
    else none
  else if b = bPWR ∧ (o = 4 ∨ o = 8) then when_ (decide (beatsMs ≤ s.clk.up)) (if o = 8 then 4801 else 2 ^ 32)
  else none

/-- HOT of a hub's tiers: the temperature of their hottest package is measured, while the hub has power (R277).
(DESIGN CHOICE, log 39) -/
def hubHot (s : State) (a : Nat) : Bool :=
  (regBlk a == bLFT || regBlk a == bATC) && regOff a % 0x10000 == 0 && s.pwr.hub.toList.getD (regOff a / 0x10000) .off != .off

/-- The exact value of a register; of the lag of a slot that waits, as FAB_LAG and FAB_LAG_MAX take it now. -/
def readReg (a : Nat) : W Word := do
  let s ← getS
  match openRange s a with
  | some n => do return w32 ((← freeVal) % n)
  | none =>
    let v := match viewOf s a with | some n => w32 n | none => rget s a
    if hubHot s a then
      let k ← freeVal
      return v ||| w32 (32 * (k % 2))
    else if let some (p, ph) := waitingLag s a then
      noteWaiting p ph
      getReg a
    else
      match regInfo a with
      | some i => return v &&& ~~~ w32 i.wo
      | none => return v

/-! ## Coarsened readings (R440, R441) -/

/-- How a register of a protected partition's die reads to a non-tenant master. -/
inductive Coarse where
  | exact
  /-- Rounded down to a multiple of 2^16. -/
  | count
  /-- Rounded down to a multiple of 1,024. -/
  | beats
  | zero
  /-- LAST_OPCODE reads zero. -/
  | noOpcode
  deriving DecidableEq, Repr

/-- The kind of a die's register by block and offset (R440). (DEDUCED, log 45) -/
def coarseOf (b o : Nat) : Coarse :=
  if b = bSEQ then
    if o = 4 ∨ 0x100 ≤ o then .zero else if o = 8 then .beats else if o = 0x14 ∨ o = 0x18 then .count else .exact
  else if b = bTOK then (if o < 0x4000 then .zero else .exact)
  else if b = bME then
    if o < 0x800 then
      if o % 0x200 = 0 then .noOpcode else if o % 0x200 = 0x14 then .beats else .count
    else if o = 0x804 then .zero else if o = 0x810 then .count else .exact
  else if b = bVE then
    if 0x800 ≤ o then .zero
    else if o % 0x200 = 0 then .noOpcode else if o % 0x200 = 8 then .beats
    else if o % 0x200 = 0x10 ∨ o % 0x200 = 0x14 then .zero else if o % 0x200 = 0x18 then .exact else .count
  else if b = bFRG then
    if o < 0x8000 then
      let x := o % 0x1000
      if x = 0 then .noOpcode else if x = 4 ∨ x = 0x10 then .count else if 0x400 ≤ x then .zero else .exact
    else if o = 0x8000 ∨ o = 0x8100 then .noOpcode
    else if o = 0x800C ∨ o = 0x810C then .beats
    else if o = 0x9000 then .zero else .count
  else if b = bMOV then
    if o = 0 then .noOpcode else if o < 0x800 then .count
    else if o = 0x804 ∨ o = 0x808 then .zero else if 0x818 ≤ o then .count else .exact
  else if b = bCEL then
    let x := o % 0x8000
    if x < 0x4000 then
      if x = 4 ∨ x = 8 then .zero else if x = 0x18 ∨ x = 0x1C ∨ x = 0x20 then .count else .exact
    else
      let g := x % 0x80
      if g = 0x24 ∨ g = 0x38 then .count else if g = 0x34 then .zero else .exact
  else if b = bGEK then
    if 0x10000 ≤ o then .zero
    else if o % 0x1000 = 0 then .noOpcode else if o % 0x1000 = 0x14 then .beats else if o % 0x1000 = 0x1C then .zero else .count
  else if b = bFAB then
    if o < 0x1000 then
      let x := o % 0x400
      if x = 8 ∨ x = 0x10 ∨ x = 0x14 ∨ x = 0x20 ∨ x = 0x24 then .count else if x = 0x30 then .zero else .exact
    else if within o 0x8004 0x8018 then .count
    else if o = 0x8018 then .zero
    else if o = 0x8104 ∨ o = 0x8108 ∨ o = 0x810C ∨ o = 0x8114 then .count
    else .exact
  else if b = bPWR then (if o = 4 then .zero else .exact)
  else if b = bCLK then (if o = 0 then .zero else if o = 0xC then .beats else .count)
  else .exact

/-- A free temperature that is a multiple of 5, in two's complement. -/
def coarseTemp (bits : Nat) : W Nat := do
  let k ← freeVal
  let t := signedOf bits k
  return ((t - t % 5) % (2 ^ bits : Nat)).toNat

/-- A value read by a master, coarsened where R440 says so. -/
def coarsen (k : Coarse) (v : Word) : Word :=
  match k with
  | .exact => v
  | .count => w32 (v.toNat / 65536 * 65536)
  | .beats => w32 (v.toNat / 1024 * 1024)
  | .zero => 0
  | .noOpcode => v &&& 0xFF00FFFF#32

/-- Does a master read power and temperature coarsened: some protected partition has it as no tenant (R441)?
(DESIGN CHOICE, log 39; DEDUCED, log 45) -/
def readsCoarse (s : State) (m : Fin 5) : Bool := (List.range s.sec.parts).any (coarsened s m)

/-- A register that holds a temperature: its bits, and the beats for which its sensor has read. -/
def tempReg (s : State) (a : Nat) : Option (Nat × Nat) :=
  let b := regBlk a
  let o := regOff a
  if h : regUnit a < 8 then
    if b = bPWR ∧ o = 8 then some (16, min (s.die ⟨regUnit a, h⟩).up s.clk.up)
    else if (b = bCEL ∧ o % 0x8000 = 0x24) ∨ ((b = bLFT ∨ b = bATC) ∧ o % 0x10000 = 0x24) then some (8, s.clk.up)
    else none
  else none

/-- A register as a master reads it. A coarsened temperature that is measured is its mean over a whole 100 ms window (R441), 0 before the
first has closed. (DESIGN CHOICE, log 25 and 39) -/
def readAs (m : Fin 5) (a : Nat) : W Word := do
  let s ← getS
  match (tempReg s a).filter fun _ => readsCoarse s m && (openRange s a).isSome with
  | some (bits, up) => if up < beats100 then return 0 else return w32 (← coarseTemp bits)
  | none =>
    let v ← readReg a
    if h : regUnit a < 8 then
      if regBlk a ≠ bLFT ∧ regBlk a ≠ bATC ∧ coarsened s m (partOf s ⟨regUnit a, h⟩) then
        return coarsen (coarseOf (regBlk a) (regOff a)) v
      else return v
    else return v

/-- A register read by a master: an RC register is cleared to its reset value where the reader is the owner (R10, R405). -/
def readBy (m : Fin 5) (a : Nat) : W Word := do
  let v ← readAs m a
  let s ← getS
  match regInfo a with
  | some i => if i.rc ∧ ownerOf s.ctl = some m then setReg a i.reset
  | none => pure ()
  return v

/-! ## Flags and miss counters (R407) -/

/-- Bits that hold a W1C flag, in a register. -/
def w1cMask (a : Nat) : Nat := match regInfo a with | some i => i.w1c | none => 0

/-- Clear W1C bits; those that the hardware sets in the same cycle stay set, and their miss counters rise. -/
def clearFlags (a value hwSet : Nat) : W Unit := do
  let m := w1cMask a
  let clear := value &&& m
  let hw := hwSet &&& m
  modS (rclr · a clear)
  if hw ≠ 0 then setFlags a hw
  (List.range 32).forM fun b =>
    if (clear &&& hw).testBit b then
      modS fun s => { s with miss := nset 0 s.miss (canon a * 32 + b) (min 255 (nget 0 s.miss (canon a * 32 + b) + 1)) }
    else pure ()

/-! ## Writes (R400) -/

/-- Would a write of a region entry be refused, and how (R120, R122, R246, R432)? An entry of the loft or the attic is the module's, and
asks that every die be Empty, Loaded or Stopped. (DESIGN CHOICE, log 57) -/
def judgeEntry (s : State) (m : Fin 5) (k v : Nat) : Option Byte :=
  let own := regionOwner s k
  let allowed := match own with | some p => 3 * 2 ^ (2 * p) | none => 0
  let t := k / 2 ^ 32
  let dies := if h : t < 8 then [(⟨t, h⟩ : Fin 8)] else if h : t - 8 < 8 then [(⟨t - 8, h⟩ : Fin 8)] else allDies
  if v &&& allowed ≠ v then some sAUTH
  else if own.any fun p => isProt s p && !isTenant s m p then some sAUTH
  else if dies.all fun d => quietDie (s.die d) then none else some sSTATE

/-- Write a region entry. -/
def putEntry (k v : Nat) : W Unit :=
  modS fun s => { s with regions := nset (regionReset s k) s.regions k (BitVec.ofNat 16 v) }

/-- The bounds of the hub A reserve as tile numbers. -/
def resLo : Nat := 0x10000000
/-- One past the last tile of the hub A reserve. -/
def resHi : Nat := resLo + 32 * gib / 4096

/-- Would a ring of SIZE `z` at tile `base` lie in the hub A reserve, aligned to its size (R411)? -/
def ringPlaced (base z : Nat) : Bool :=
  decide (resLo * 4096 ≤ base * 4096 ∧ base * 4096 + 32 * 2 ^ z ≤ resHi * 4096) && decide (base * 4096 % (32 * 2 ^ z) = 0)

/-- Would a write of an event ring register be refused, and how (R411, R412)? -/
def judgeEvt (s : State) (r x v : Nat) : Option Byte :=
  let z := fld (rget s (ringA r + 8)) 4 0
  let nz := v % 32
  if x = 4 ∨ x = 0xC then (if z ≠ 0 then some sSTATE else none)
  else if x = 0x10 then
    if 4 < v % 8 then some sPARAM else if z ≠ 0 then some sSTATE else none
  else if x = 8 then
    if nz ≠ 0 ∧ (nz < 8 ∨ 16 < nz) then some sPARAM
    else if nz = 0 ∨ nz = z then none
    else if z ≠ 0 then some sSTATE
    else if ringPlaced (rget s (ringA r + 4)).toNat nz then none else some sPARAM
  else if x = 0x18 then
    let used := (rget s (ringA r + 0x14) - w32 v).toNat
    if z ≠ 0 then (if 2 ^ z < used then some sPARAM else none)
    else if used ≤ ringUsed s r then none else some sPARAM
  else none

/-- Is an address a generator's, and of which channel (R272)? The channel's size in 1 KiB units, its dies. -/
def tgOf (a : Nat) : Option (Nat × List (Fin 8)) :=
  (tgChan a).map fun n =>
    if n < 512 then (1572864, [⟨n / 64 % 8, by omega⟩]) else if n < 544 then (33554432, allDies) else (201326592, allDies)

/-- Does a channel belong to a Sealed partition (R271)? -/
def sealedChannel (s : State) (dies : List (Fin 8)) : Bool :=
  dies.any fun d => isProt s (partOf s d) && isKeyed s (partOf s d)

/-- Would a write of CEL_TG_CTRL be refused, and how (R271 to R273)? (DESIGN CHOICE, log 25) -/
def judgeTg (s : State) (a v : Nat) : Option Byte :=
  match tgOf a with
  | none => none
  | some (size, dies) =>
    let base := a / 0x80 * 0x80
    if a % 0x80 ≠ 0 then none
    else if 6 < nfld v 27 24 ∨ nfld v 23 22 = 3 ∨ nfld v 13 12 = 3 ∨ nfld v 11 6 = 0 then some sPARAM
    else if v % 2 = 0 then none
    else
      let lo := fld (rget s (base + 4)) 27 0
      let hi := fld (rget s (base + 8)) 27 0
      if hi ≤ lo ∨ size < hi then some sPARAM
      else if dies.any fun d => isProt s (partOf s d) then some sAUTH
      else if s.fab.mode = 0 ∨ !dies.all fun d => quietDie (s.die d) then some sSTATE
      else if bitOf (rget s base) 2 then some sBUSY else none

/-- Would a word of a REG_WRITE be refused, and how (R400)? Of the two entries of a region word AUTH comes first (R395). -/
def judgeWord (s : State) (m : Fin 5) (a v : Nat) : Option Byte :=
  let u := regUnit a
  let b := regBlk a
  let o := regOff a
  if regInfo a = none then some sPARAM
  else if h : u < 8 then
    let d : Fin 8 := ⟨u, h⟩
    if b = bTOK then (if (s.die d).seq.st = .loaded ∨ (s.die d).seq.st = .stopped then none else some sSTATE)
    else if b = bSEC then judgeRegion s m u o v
    else judgeTg s a v
  else if b = bSEC then judgeRegion s m u o v
  else if b = bCLK ∧ (o = 0xC ∨ o = 0x10) then
    if o = 0xC ∧ v % 2 ^ 20 ≠ 0 then some sPARAM else if allQuiet s then none else some sSTATE
  else if b = bEVT ∧ o < 0x200 then judgeEvt s (o / 0x40) (o % 0x40) v
  else none
where
  judgeRegion (s : State) (m : Fin 5) (u o v : Nat) : Option Byte :=
    match regionOf u o 0, regionOf u o 1 with
    | some a, some b =>
      let x := judgeEntry s m a (v % 65536)
      let y := judgeEntry s m b (v / 65536 % 65536)
      if x = some sAUTH ∨ y = some sAUTH then some sAUTH else x.or y
    | _, _ => none

/-- The start of a generator's run: it takes its configuration, its counters clear, BUSY rises (R272). -/
def tgBegin (base : Nat) : W Unit := do
  let s ← getS
  let run : GenRun := {
    ctrl := rget s base, base := fld (rget s (base + 4)) 27 0, limit := fld (rget s (base + 8)) 27 0
    count := (rget s (base + 0x10)).toNat, inject := (rget s (base + 0x1C)).toNat + 2 ^ 32 * fld (rget s (base + 0x20)) 1 0 }
  modS fun s => { s with tiers := { s.tiers with runs := nset {} s.tiers.runs ((tgChan base).getD 0) run } }
  [0x24, 0x28, 0x2C, 0x30, 0x34, 0x38, 0x3C, 0x40].forM fun o => if (regInfo (base + o)).isSome then setReg (base + o) 0 else pure ()
  setFlags base 4

/-- The effect of a word whose register is more than a word of the register file; `false` where it is none of these. A token that a master
writes to 0xFFFF_FFFF does not set TOK_SAT, which an increment sets (R72, R98). (DESIGN CHOICE, log 52) -/
def writeSpecial (a v : Nat) : W Bool := do
  let u := regUnit a
  let b := regBlk a
  let o := regOff a
  if h : u < 8 then
    let d : Fin 8 := ⟨u, h⟩
    if b = bSEQ ∧ o = 0x10 then
      modSeq d fun q => { q with logRd := w32 v }
      return true
    else if b = bTOK then
      if o < 0x4000 then modD d fun x => { x with tokens := nset 0 x.tokens (o / 4) (w32 v) }
      else
        (List.range 32).forM fun i => modD d fun x => { x with marks := nset false x.marks (32 * ((o - 0x4000) / 4) + i) (v.testBit i) }
      return true
    else if b = bSEC then regionWord u o v
    else if (tgOf a).isSome ∧ a % 0x80 = 0 then
      setReg a (((← getReg a).toNat &&& 0xF000000F) + (v &&& 0x0FFFFFF0))
      let tell := fun b => modS fun s => { s with tiers := { s.tiers with stopping := nset false s.tiers.stopping ((tgChan a).getD 0) b } }
      if v % 2 = 1 then
        tgBegin a
        tell false
      if v.testBit 1 ∧ bitOf (← getReg a) 2 then tell true
      return true
    else return false
  else if b = bSEC then regionWord u o v
  else if b = bCLK ∧ o = 0x10 then
    setReg a v
    setFlags (regA uHub bCLK 0) 0x20
    return true
  else if b = bMBX ∧ o = 4 then
    if v % 2 = 1 then
      if bitOf (← getReg (regA uHub bMBX 0)) 0 then setFlags (regA uHub bMBX 0) 8
      else modS fun s => { s with ctl := { s.ctl with submitted := true } }
    return true
  else if b = bMBX ∧ within o 0x1000 0x2000 then
    modS fun s => { s with ctl := { s.ctl with req := nsetRun 0 s.ctl.req (o - 0x1000) (natLE 4 v) } }
    return true
  else if b = bEVT ∧ o % 0x40 = 8 ∧ o < 0x200 then
    let off := fld (← getReg a) 4 0
    setReg a (v % 32)
    if off = 0 ∧ v % 32 ≠ 0 then setReg (a + 0x10) (← getReg (a + 0xC)).toNat
    return true
  else return false
where
  regionWord (u o v : Nat) : W Bool := do
    match regionOf u o 0, regionOf u o 1 with
    | some x, some y =>
      putEntry x (v % 65536)
      putEntry y (v / 65536 % 65536)
      return true
    | _, _ => return false

/-- A port, or a die's reduction status, records its next failure once a master has cleared the flags that name it, and the hardware has set
none of them in that cycle (R350, R386). (DEDUCED, log 53) -/
def rearm (a v hw : Nat) : W Unit := do
  if h : regUnit a < 8 then
    let d : Fin 8 := ⟨regUnit a, h⟩
    let now := (← getReg a).toNat ||| hw
    if regBlk a = bFAB then
      if regOff a < 0x1000 ∧ regOff a % 0x400 = 0 then
        if v &&& 0x48 ≠ 0 ∧ now &&& 0x48 = 0 then modP ⟨(4 * d.val + regOff a / 0x400) % 32, Nat.mod_lt _ (by decide)⟩ fun x => { x with failed := false }
      else if regOff a = 0x8100 then
        if v &&& 0x1C ≠ 0 ∧ now &&& 0x1C = 0 then modD d fun x => { x with redFailed := false }

/-- A word written under its register's access code (R10). -/
def writeWord (a v : Nat) : W Unit := do
  match regInfo a with
  | none => return
  | some i =>
    if ← writeSpecial a v then return
    if i.rw ≠ 0 then setReg a (((← getReg a).toNat &&& (0xFFFFFFFF - i.rw)) + (v &&& i.rw))
    if i.w1c ≠ 0 then
      clearFlags a v 0
      rearm a v 0

/-- Words written in ascending address order, each judged on what the earlier ones leave: all of them or none (R400). -/
def writeWordsGo (m : Fin 5) : Nat → List Word → W (Option Byte)
  | _, [] => return none
  | a, v :: r => do
    match judgeWord (← getS) m a v.toNat with
    | some e => return some e
    | none =>
      writeWord a v.toNat
      writeWordsGo m (a + 4) r

/-- A register write: nothing is written where a word is refused. -/
def writeWords (m : Fin 5) (a : Nat) (vs : List Word) : W (Option Byte) := do
  let w ← get
  match ← writeWordsGo m a vs with
  | some e =>
    set w
    return some e
  | none => return none

/-- May a master write a register without the lease (R388, R406)? (DEDUCED, log 26) -/
def consumerWrite (s : State) (m : Fin 5) (a : Nat) : Bool :=
  let o := regOff a
  if regUnit a < 8 then regBlk a == bSEQ && o == 0x10 && m == 2
  else if regUnit a = uHub then
    (regBlk a == bEVT && decide (o < 0x200) && o % 0x40 == 0x18 && fld (rget s (a - 8)) 2 0 == m.val)
      || (regBlk a == bMBX && (o == 0x18 || o == 0x1C) && m == 3)
  else false

end Sys2Proof.Machine
end

