-- ==== Sys2Proof/WellFormed.lean ====
section
/-! DEFINITION. What the outside can send at all: a packet's payload fits its LENGTH field (R390), a frame is at most a full
frame (R317), and a physical outcome names parts that exist. -/

namespace Sys2Proof

/-- A payload of at most 4,060 bytes (R390). -/
def Pkt.wf (q : Pkt) : Bool := decide (q.payload.length ≤ 4060)

/-- A frame of at most 4,164 bytes (R317), with the error counts of at most eight lanes. -/
def frameWf (frame : List Byte) (errs : List LaneErrs) : Bool :=
  decide (frame.length ≤ 4164) && decide (errs.length ≤ 8) && errs.all fun e => decide (e.bad ≤ 64)

end Sys2Proof
end

