-- ==== Sys2Proof/Machine/Control.lean ====
section
/-! DEFINITION. The control firmware: ports, packets, the order of checks, replies, the lease, ACCEPTED actions and event
rings: 13_control_plane_and_ownership.md R387 to R416. -/

namespace Sys2Proof

/-- A packet's payload field. -/
def Pkt.at (q : Pkt) (off len : Nat) : Nat := Machine.rd q.payload off len
/-- Is a payload of a length? -/
def Pkt.long (q : Pkt) (n : Nat) : Bool := q.payload.length == n
/-- The master of a packet. -/
def Pkt.from (q : Pkt) : Fin 5 := q.hdr.port
/-- PART of a packet. -/
def Pkt.part (q : Pkt) : Nat := q.hdr.part.toNat

/-- Does a packet name one partition (step 2)? -/
def Pkt.one (q : Pkt) : Bool := q.part != 0xFF

end Sys2Proof

namespace Sys2Proof.Machine

/-! ## Answers and opcodes -/

/-- A reply's status and payload. -/
abbrev Ans := Byte × List Byte

/-- A refusal where a condition holds. -/
def refuseIf (c : Bool) (st : Byte) : Option Ans := if c then some (st, []) else none
/-- The first refusal of a list. -/
def firstOf : List (Option Ans) → Option Ans
  | [] => none
  | some a :: _ => some a
  | none :: r => firstOf r

/-- An opcode as the control firmware serves it (R395, R397). -/
structure Op where
  code : Nat
  /-- The Lease column, and the packets that need none all the same (R388, R406, R447). -/
  lease : Bool := true
  free : State → Pkt → Bool := fun _ _ => false
  /-- Step 2: LENGTH, reserved fields and field values. -/
  ok : State → Pkt → Bool
  /-- Steps 5 to 9: the first refusal. -/
  rest : State → Pkt → Option Ans := fun _ _ => none
  /-- The payload that a refusal with STATE carries (R392, R397). -/
  onState : State → List Byte := fun _ => []
  /-- The effect and the reply; none where the reply waits (R342). -/
  act : Pkt → W (Option Ans)
  /-- What a refusal by the opcode's own rule records beside the reply (R434, R444). -/
  turned : Pkt → Byte → W Unit := fun _ _ => pure ()

/-- An answer without payload. -/
def answer (st : Byte) : W (Option Ans) := return some (st, [])
/-- The dies a packet's PART names: a partition's, or every die for the module. -/
def partDies (s : State) (q : Pkt) : List (Fin 8) := if q.part = 0xFF then allDies else diesOf s q.part
/-- The partitions a packet's PART names. -/
def partsOf (s : State) (q : Pkt) : List Nat := if q.part = 0xFF then List.range s.sec.parts else [q.part]

/-- Step 5: a protected partition among these refuses a master that is not a tenant (R432). -/
def guard (s : State) (m : Fin 5) (ps : List Nat) : Option Ans := refuseIf (ps.any fun p => coarsened s m p) sAUTH
/-- Step 6: PART names a partition that the module has, and its dies are there. (DESIGN CHOICE, log 25) -/
def partThere (s : State) (q : Pkt) : Option Ans :=
  refuseIf (q.part ≠ 0xFF && (decide (s.sec.parts ≤ q.part) || (diesOf s q.part).any fun d => (s.die d).absent)) sABSENT
/-- Is a die there for a master: not held in reset, and not in Deep or Off for the debug probe (R422, R443)? -/
def dieThere (s : State) (m : Fin 5) (d : Fin 8) : Bool := !(s.die d).absent && !(m == 4 && darkDie (s.die d))
/-- Step 7: the dies stand in one of these schedule states. -/
def diesIn (s : State) (ds : List (Fin 8)) (l : List Sched) : Option Ans :=
  refuseIf (!ds.all fun d => l.contains (s.die d).seq.st) sSTATE
/-- The schedule states in which nothing is armed or running. -/
def atRest : List Sched := [.empty, .loaded, .stopped]

/-! ## Conditions of the whole module -/

/-- Opcodes that R446 names as changing keys, partitions, lifecycle or power state. -/
def keyOps : List Nat := [0x100, 0x103, 0x505, 0x506, 0x50A, 0x50B, 0x800]
/-- Actions during which R446 answers BUSY to them. -/
def keyActions : List Nat := [0x505, 0x506, 0x507, 0x508, 0x50A, 0x50B, 0x800]
/-- Does an ACCEPTED action of one of these opcodes run? (DESIGN CHOICE, log 24) -/
def acting (s : State) (ops : List Nat) : Bool := s.ctl.actions.any fun a => ops.contains a.opcode.toNat
/-- Is a packet PWR_SET with HUBS and target Run (R453, R473)? -/
def wakesAll (code : Nat) (q : Pkt) : Bool := code == 0x100 && q.at 1 1 == 0x80

/-! ## The debug probe (R389, R443, R445) -/

/-- What a lifecycle and a debug level open to the debug probe. No command shifts a scan chain or drives the RoT's debug port, and the
spec gives the DBG_ block no register, so an access to one is refused with PARAM (R399). -/
structure ProbeRow where
  reachable : Bool
  /-- Packets whose Lease column reads No. -/
  reads : Bool
  /-- Every packet, as owner. -/
  packets : Bool
  dieScan : Bool
  dbgBlock : Bool
  /-- The RoT debug port, halt and step. -/
  rotPort : Bool
  deriving DecidableEq, Repr

/-- The row of the table of combined states: lifecycle 0 Open, 1 Sealed, 2 Service, 3 Retired; level 0 None, 1 Observe, 2 Control (R445). -/
def probeRow (l level : Nat) : ProbeRow :=
  let control := decide (level = 2 ∧ l ≠ 1)
  { reachable := !(l == 1 && level == 2), reads := level != 0, packets := control, dieScan := control, dbgBlock := control, rotPort := control && l == 0 }

/-! ## Ports (R388, R389, R419, R422) -/

/-- Does a datagram reach a management port: the port's address is set and is the datagram's destination, UDP port 7,420, in one piece
(R387, R388)? -/
def reaches (s : State) (m : Nat) (n : Datagram) : Bool :=
  let a := rget s (regA uHub bMBX (0x18 + 4 * m))
  a != 0 && n.dst == a && n.dstPort == 7420 && !n.fragmented

/-- Does a port take a unit at all? (DEDUCED, log 48) -/
def answers (s : State) (m : Fin 5) (n : Datagram := {}) : Bool :=
  !s.sec.noControl &&
  (if s.sec.recovery then m == 3
   else s.sec.fwUp && match m with
     | 0 => reaches s 0 n
     | 1 => reaches s 1 n
     | 2 => !s.sec.bootFail.testBit 4
     | 4 => (probeRow (lifecycle s) s.sec.debug).reads
     | _ => true)

/-! ## The order of checks (R395) -/

/-- Steps 2 to 4, and what the debug level refuses the probe at step 5. -/
def Op.entry (op : Op) (s : State) (q : Pkt) : Option Ans :=
  let h := q.hdr
  let m := h.port
  let badHdr := h.version != 1 || (h.flags &&& 0xFB#8) != 0 || h.status != 0 || h.resv != 0 || (decide (7 < h.part.toNat) && h.part != 0xFF)
  let owner := ownerOf s.ctl == some m && h.lease == s.ctl.leaseId
  if badHdr || !op.ok s q then some (sPARAM, [])
  else if h.master.toNat ≠ m.val then some (sAUTH, [])
  else if op.lease && !s.sec.recovery && !owner && !op.free s q then some (sOWNER, [])
  else if m = 4 ∧ op.lease ∧ !(probeRow (lifecycle s) s.sec.debug).packets then some (sAUTH, [])
  else none

/-- Steps 2 to 9: the opcode's own rules, and what holds for every opcode at steps 7 and 9. -/
def Op.refusal (op : Op) (s : State) (q : Pkt) : Option Ans :=
  if let some a := op.entry s q then some a
  else if s.ctl.quiesced && op.lease && !wakesAll op.code q then
    -- QUIESCE refuses later state-changing packets at step 7 (R473), after what steps 5 and 6 refuse.
    match op.rest s q with
    | some (st, pl) => if st = sAUTH ∨ st = sABSENT then some (st, pl) else some (sSTATE, op.onState s)
    | none => some (sSTATE, op.onState s)
  else
    match op.rest s q with
    | some a => some a
    | none => refuseIf (keyOps.contains op.code && acting s keyActions) sBUSY

/-! ## Replies (R392, R393, R396, R414, R415) -/

/-- The bytes of a packet (R390, R391). -/
def unitBytes (opcode : Half) (h : Hdr) (flags : Byte) (status : Half) (payload : List Byte) : List Byte :=
  let b := natLE 2 0x464C ++ [h.version, flags] ++ natLE 2 opcode.toNat ++ natLE 2 status.toNat ++ natLE 4 h.seq.toNat
    ++ [h.master, h.part] ++ natLE 2 payload.length ++ natLE 4 h.lease.toNat ++ natLE 12 h.resv.toNat ++ payload
  b ++ natLE 4 (crc32c b).toNat

/-- The bytes of a reply. -/
def Reply.bytes (r : Reply) : List Byte := unitBytes r.opcode { r.hdr with version := 1, resv := 0 } 1 r.status r.payload

/-- Is a status a refusal, as MBX_REFUSED counts them (R415)? -/
def refused (st : Nat) : Bool := st != 0 && st != 1 && st != 0x0E

/-- The mailbox interrupt of the hub cores (R414). -/
def mbxInterrupt : W Unit := modS fun s => { s with ctl := { s.ctl with mbxIrqs := s.ctl.mbxIrqs + 1 } }

/-- A reply goes to a master; the operating system's stands in MBX_RSP before REQ_BUSY clears, RSP_READY sets and the mailbox interrupt is
raised. -/
def sendReply (m : Fin 5) (r : Reply) : W Unit := do
  bump (regA uHub bMBX (0x20 + 4 * m.val)) 1
  if refused r.status.toNat then bump (regA uHub bMBX (0x60 + 4 * m.val)) 1
  if m = 2 then
    modS fun s => { s with ctl := { s.ctl with rsp := nsetRun 0 s.ctl.rsp 0 r.bytes } }
    setField (regA uHub bMBX 0) 1 0 2
    mbxInterrupt

/-- The reply to a packet, stored for a RETRY (R393). -/
def reply (code : Nat) (q : Pkt) (a : Ans) : W Unit := do
  let m := q.from
  let r : Reply := { opcode := BitVec.ofNat 16 code, hdr := q.hdr, status := a.1.setWidth 16, payload := a.2 }
  modS fun s => { s with ctl := { s.ctl with replies := s.ctl.replies.set m (some r) } }
  sendReply m r
  if a.1 = sAUTH then
    bump (regA uHub bSEC 0x68) 1
    setFlags (regA uHub bSEC 0) 2

/-- Always-on cycles of a lease (R401). -/
def leaseCycles : Nat := 78125000
/-- The lease runs from its full length again. -/
def restartLease : W Unit := modS fun s => { s with ctl := { s.ctl with leaseLeft := leaseCycles } }

/-- What follows an action's own effect: the lease of the owner restarts with a packet that is not refused and carries the
right LEASE (R401), and an ACCEPTED action is kept (R396). -/
def settle (code : Nat) (q : Pkt) (st : Byte) : W Unit := do
  let s ← getS
  if !refused st.toNat ∧ ownerOf s.ctl = some q.from ∧ q.hdr.lease = s.ctl.leaseId then restartLease
  if st = sACCEPTED then
    modS fun s => { s with ctl := { s.ctl with
      actions := s.ctl.actions ++ [{ master := q.from, opcode := BitVec.ofNat 16 code, seq := q.hdr.seq, part := q.hdr.part, payload := q.payload, beat := s.clk.beat }]
      accepted := s.ctl.accepted.set q.from (((q.hdr.seq, none) :: s.ctl.accepted[q.from]).take 16) } }

/-- A packet of an opcode acted on, or refused (R395). In boot recovery the boot ROM acts on PING and SEC_FW_WRITE alone
and answers every other packet with STATE (R422). -/
def serve (op : Op) (q : Pkt) : W Unit := do
  let s ← getS
  let rom := op.code == 0 || op.code == 0x50D
  if s.sec.recovery && !rom then reply op.code q (sSTATE, op.onState s)
  else
    match op.refusal s q with
    | some a =>
      if (op.entry s q).isNone then op.turned q a.1
      reply op.code q a
    | none =>
      match ← op.act q with
      | none => return
      | some a =>
        settle op.code q a.1
        reply op.code q a

/-- A packet with RETRY (R393, step 1): the stored reply again, or PARAM. -/
def retry (code : Nat) (q : Pkt) : W Unit := do
  match (← getS).ctl.replies[q.from] with
  | some r =>
    if r.hdr.seq = q.hdr.seq then
      let r := { r with hdr := { r.hdr with net := q.hdr.net } }
      modS fun s => { s with ctl := { s.ctl with replies := s.ctl.replies.set q.from (some r) } }
      sendReply q.from r
    else reply code q (sPARAM, [])
  | none => reply code q (sPARAM, [])

/-- A packet at the head of the order of R394. Reserved opcodes are refused with PARAM, by the boot ROM with STATE (R397, R422). -/
def takePkt (code : Nat) (op : Option Op) (q : Pkt) : W Unit := do
  if q.hdr.flags.toNat.testBit 2 then retry code q
  else
    match op with
    | some op => serve op q
    | none => reply code q (if (← getS).sec.recovery then sSTATE else sPARAM, [])

/-- The state as a packet stands before the control firmware: the operating system's stands in MBX_REQ and raises REQ_BUSY
until its reply (R414). -/
def arrive (code : Nat) (q : Pkt) (s : State) : State :=
  if q.from = 2 then
    let b := unitBytes (BitVec.ofNat 16 code) q.hdr q.hdr.flags q.hdr.status q.payload
    ror { s with ctl := { s.ctl with req := nsetRun 0 s.ctl.req 0 b } } (regA uHub bMBX 0) 1
  else s

/-- The beat in which the packet arrived that is being taken (R67). -/
def arrivalBeat (s : State) : Nat := s.ctl.arrived.getD s.clk.beat

/-- Does a port's queue hold its 8 packets (R394)? -/
def queueFull (c : Ctl) (m : Fin 5) : Bool := decide (8 ≤ c.queue.countP fun x => x.pkt.from == m)

/-- Does a packet that arrives have to wait: behind one being acted on, or for the takeover from a RoT that has stopped (R394, R419)? -/
def queues (s : State) : Bool := s.ctl.winPkt.isSome || s.sec.rotStopped

/-- A packet is taken at once, or waits; at a full queue it receives BUSY (R394). -/
def receive (code : Nat) (op : Option Op) (q : Pkt) : W Unit := do
  let s ← getS
  if !queues s then takePkt code op q
  else if queueFull s.ctl q.from then reply code q (sBUSY, [])
  else modS fun s => { s with ctl := { s.ctl with queue := s.ctl.queue ++ [⟨BitVec.ofNat 16 code, q, s.clk.beat⟩] } }

/-- A packet arrives on its port. A SUBMIT while REQ_BUSY is 1 is ignored with OVERRUN_SEEN (R414). -/
def packet (op : Op) (q : Pkt) : W Unit := do
  let s ← getS
  let m := q.from
  if m = 2 ∧ s.sec.fwUp ∧ bitOf (rget s (regA uHub bMBX 0)) 0 then setFlags (regA uHub bMBX 0) 8
  else if !answers s m q.hdr.net || !q.wf then return
  else
    modS (arrive op.code q)
    receive op.code (some op) q

/-- The step of a packet row. -/
def packetStep (scope : State → State → State) (op : Op) (q : Pkt) (s : State) : Host.Outcome State Fault Refusal :=
  W.within scope s (packet op q)

/-! ## Units that are no packet, and full queues (R391, R394, R414) -/

/-- Is a unit of bytes a packet (R391)? -/
def unitOk (b : List Byte) : Bool :=
  let n := rd b 14 2
  decide (36 ≤ b.length) && rd b 0 2 == 0x464C && decide (n ≤ 4060) && b.length == 36 + n && crc32c (b.take (32 + n)) == rdW b (32 + n)

/-- The packet that a unit spells, and its opcode. -/
def unitPkt (m : Fin 5) (b : List Byte) : Nat × Pkt :=
  (rd b 4 2, {
    hdr := { port := m, version := b8 (rd b 2 1), flags := b8 (rd b 3 1), status := BitVec.ofNat 16 (rd b 6 2), seq := rdW b 8, master := b8 (rd b 12 1), part := b8 (rd b 13 1), lease := rdW b 16, resv := BitVec.ofNat 96 (rd b 20 12) }
    payload := sub b 32 (rd b 14 2) })

/-- The unit that stands in MBX_REQ from offset 0, as long as its LENGTH says. -/
def reqUnit (c : Ctl) : List Byte := nrun 0 c.req 0 (min 4096 (36 + leNat (nrun 0 c.req 14 2)))

/-- A unit is discarded: it is counted, and for the mailbox REQ_BUSY clears, BAD_SEEN sets and the mailbox interrupt is raised
(R391, R414). -/
def discard (m : Fin 5) : W Unit := do
  bump (regA uHub bMBX (0x40 + 4 * m.val)) 1
  if m = 2 then
    rclrW 1
    setFlags (regA uHub bMBX 0) 0x10
    mbxInterrupt
where
  rclrW (mask : Nat) : W Unit := modS (rclr · (regA uHub bMBX 0) mask)

/-- PORT_QUEUE_FULL: a packet that meets a full queue receives BUSY and is not queued; master 2's queue never fills (R394, R414). -/
def portQueueFull (code : Nat) (q : Pkt) : W Unit := do
  let s ← getS
  if q.from ≠ 2 ∧ answers s q.from q.hdr.net ∧ q.wf ∧ queueFull s.ctl q.from then reply code q (sBUSY, [])

/-- PORT_QUEUE_FULL (R394). -/
def execPortQueueFull (opcode : Half) (q : Pkt) (s : State) : Host.Outcome State Fault Refusal :=
  W.within readScope s (portQueueFull opcode.toNat q)

/-! ## Ownership (R401 to R404) -/

/-- Milliseconds left in the lease. -/
def leaseMs (c : Ctl) : Nat := c.leaseLeft * 2 / 78125
/-- The word of a control event. -/
def evCtl : Nat := whereW uHub bMBX 0

/-- PING: module number, revision, owner, target, lease left, lease ID. -/
def opPing : Op where
  code := 0x0000
  lease := false
  ok := fun _ q => q.long 0
  act := fun _ => do
    let s ← getS
    let o := match ownerOf s.ctl with | some m => m.val | none => 0xFF
    let t := match s.ctl.lease with | .pending _ t => t.val | _ => 0xFF
    return some (sOK, natLE 2 (s.clk.module % 4096) ++ natLE 4 (rget s (regA uHub bMBX 0x14)).toNat ++ [b8 o, b8 t]
      ++ natLE 4 (if o = 0xFF then 0 else leaseMs s.ctl) ++ natLE 4 (if o = 0xFF then 0 else s.ctl.leaseId.toNat))

/-- PING (R397). -/
def execPing (q : Pkt) (s : State) : Host.Outcome State Fault Refusal := packetStep readScope opPing q s

/-- May a master claim the lease (R402)? -/
def mayClaim (c : Ctl) (m : Fin 5) : Bool :=
  match c.lease with
  | .free => true
  | .owned o => o == m
  | .pending o t => o == m || t == m

/-- CLAIM: a grant to a new owner takes the next lease ID; the owner's own CLAIM restarts its lease (R402).
(DEDUCED, log 26) -/
def opClaim : Op where
  code := 0x0001
  lease := false
  ok := fun _ q => q.long 0
  rest := fun s q =>
    if mayClaim s.ctl q.from then none
    else some (sBUSY, match ownerOf s.ctl with | some o => [b8 o.val] | none => [])
  act := fun q => do
    let c := (← getS).ctl
    if ownerOf c ≠ some q.from then
      modS fun s => { s with ctl := { s.ctl with lease := .owned q.from, leaseId := c.nextLease, nextLease := satAdd c.nextLease 1 } }
      raise 0 1 sOK evCtl ([b8 q.from.val, 0, 0, 0] ++ natLE 4 c.nextLease.toNat)
    restartLease
    return some (sOK, natLE 4 (← getS).ctl.leaseId.toNat ++ natLE 4 2000)

/-- CLAIM (R402). -/
def execClaim (q : Pkt) (s : State) : Host.Outcome State Fault Refusal := packetStep readScope opClaim q s

/-- HEARTBEAT restarts the lease (R403). -/
def opHeartbeat : Op where
  code := 0x0002
  ok := fun _ q => q.long 0
  act := fun _ => do
    restartLease
    return some (sOK, natLE 4 (leaseMs (← getS).ctl))

/-- HEARTBEAT (R403). -/
def execHeartbeat (q : Pkt) (s : State) : Host.Outcome State Fault Refusal := packetStep readScope opHeartbeat q s

/-- HANDOVER offers the lease to a target other than the sender (R401). -/
def opHandover : Op where
  code := 0x0003
  ok := fun _ q => q.long 1 && decide (q.at 0 1 < 5)
  rest := fun _ q => refuseIf (q.at 0 1 == q.from.val) sSTATE
  act := fun q => do
    modS fun s => { s with ctl := { s.ctl with lease := .pending q.from ⟨q.at 0 1 % 5, Nat.mod_lt _ (by decide)⟩ } }
    raise 0 2 sOK evCtl [b8 q.from.val, b8 (q.at 0 1)]
    answer sOK

/-- HANDOVER (R401). -/
def execHandover (q : Pkt) (s : State) : Host.Outcome State Fault Refusal := packetStep readScope opHandover q s

/-- The lease becomes FREE. -/
def freeLease : W Unit := modS fun s => { s with ctl := { s.ctl with lease := .free, leaseId := 0, leaseLeft := 0 } }

/-- RELEASE frees the lease (R401). -/
def opRelease : Op where
  code := 0x0004
  ok := fun _ q => q.long 0
  act := fun q => do
    freeLease
    raise 0 3 sOK evCtl [b8 q.from.val]
    answer sOK

/-- RELEASE (R401). -/
def execRelease (q : Pkt) (s : State) : Host.Outcome State Fault Refusal := packetStep readScope opRelease q s

/-- The lease reaches 0: it ends in the beat in which no more than a beat's cycles are left of it, and at that beat's end at the latest
(R401, R403, R404). (DESIGN CHOICE, log 5) -/
def leaseEnded : W Unit := do
  let c := (← getS).ctl
  match ownerOf c with
  | none => return
  | some m =>
    if 64 < c.leaseLeft then return
    freeLease
    raise 0 4 sOK evCtl ([b8 m.val, 0, 0, 0] ++ natLE 4 c.leaseId.toNat)
    if m = 2 then setFlags (regA uHub bMBX 0) 4

/-- LEASE_ENDED (R403). -/
def execLeaseEnded (s : State) : Host.Outcome State Fault Refusal := W.within readScope s leaseEnded

/-! ## Final statuses (R396) -/

/-- The status of an ACCEPTED packet among the last 16 of a master. -/
def acceptedOf (c : Ctl) (m : Fin 5) (seq : Word) : Option (Option Byte) := (c.accepted[m].find? fun x => x.1 == seq).map (·.2)

/-- PKT_STATUS: the final status, or ACCEPTED while the action runs. -/
def opPktStatus : Op where
  code := 0x0005
  lease := false
  ok := fun s q => q.long 4 && (acceptedOf s.ctl q.from (rdW q.payload 0)).isSome
  act := fun q => do
    let st := ((acceptedOf (← getS).ctl q.from (rdW q.payload 0)).join).getD sACCEPTED
    return some (sOK, [st, 0])

/-- PKT_STATUS (R396). -/
def execPktStatus (q : Pkt) (s : State) : Host.Outcome State Fault Refusal := packetStep readScope opPktStatus q s

/-- The k-th ACCEPTED action ends with a status: PACKET_DONE, and the status kept for its master (R396, R409).
(DESIGN CHOICE, log 44) -/
def actionDone (k : Nat) (a : Action) (st : Byte) : W Unit := do
  modS fun s =>
    let l := s.ctl.accepted[a.master]
    let i := l.findIdx fun x => x.1 == a.seq && x.2.isNone
    { s with ctl := { s.ctl with
      actions := s.ctl.actions.eraseIdx k
      accepted := s.ctl.accepted.set a.master (l.set i (a.seq, some st)) } }
  raise 0 5 st evCtl ([b8 a.master.val, 0] ++ natLE 2 a.opcode.toNat ++ natLE 4 a.seq.toNat)

/-! ## Event rings (R410, R411) -/

/-- The EVENTS_LOST entry of a ring, written before anything else that waits for it (R409, R411). (DESIGN CHOICE, log 14) -/
def writeLost (r : Nat) (n : Nat) : W Unit := do
  ringWrite r (mkEvent (← getS) (← freeVal) 0 6 sOK (whereW uHub bEVT r) ([b8 r, 0, 0, 0] ++ natLE 4 n))
  modS fun s => { s with lost := nset 0 s.lost r 0 }

/-- The event interrupt of the hub cores: some ring of consumer 2 is PENDING (R412, R414). -/
def eventInterrupt (s : State) : Bool :=
  (List.range 8).any fun r => fld (rget s (ringA r + 0x10)) 2 0 == 2 && rget s (ringA r + 0x14) != rget s (ringA r + 0x18)

/-- The rings an event waits for once its wait for any ring ends. (DESIGN CHOICE, log 14) -/
def settledRings (s : State) (h : Held) : List Nat :=
  if h.rings.isEmpty then (List.range 8).filter fun x => decide (0 < ringN s x) && ringRoutes s x h.ev.area else h.rings

/-- EVENT_WRITE: a ring with room takes what has waited for it longest (R411). (DESIGN CHOICE, log 14) -/
def eventWrite (r : Nat) : W Unit := do
  let s ← getS
  if !ringsUp s ∨ ringN s r = 0 ∨ ringN s r ≤ ringUsed s r ∨ reserveBusy s (ringSlot s r) 32 then return
  let n := nget 0 s.lost r
  if n ≠ 0 then writeLost r n
  else
    let i := s.hold.findIdx (waitsFor s r)
    match s.hold[i]? with
    | none => return
    | some h =>
      ringWrite r h.ev
      let rings := (settledRings s h).filter (· != r)
      modS fun s => { s with hold := if rings.isEmpty then s.hold.eraseIdx i else s.hold.set i { h with rings, written := true } }

/-- EVENT_WRITE (R411). -/
def execEventWrite (ring : Fin 8) (s : State) : Host.Outcome State Fault Refusal := W.within readScope s (eventWrite ring)

end Sys2Proof.Machine
end

