-- ==== Sys2Proof/Machine/Frog.lean ====
section
/-! DEFINITION. The frog engines: 08_frog_newt_and_sorter.md R207 to R222. -/

namespace Sys2Proof.Machine

/-- COUNT. -/
def fCount (ws : Words) : Nat := fld (cw ws 5) 19 0
/-- FILL. -/
def fFill (ws : Words) : Bool := bitOf (cw ws 6) 31
/-- RA_DEPTH. -/
def fDepth (ws : Words) : Nat := fld (cw ws 6) 26 17
/-- ROW_BYTES. -/
def fRow (ws : Words) : Nat := fld (cw ws 6) 16 0
/-- EXPERTS and TOPK of DISPATCH. -/
def fExperts (ws : Words) : Nat := fld (cw ws 13) 15 5
/-- TOPK of DISPATCH. -/
def fTopk (ws : Words) : Nat := fld (cw ws 13) 4 0
/-- IDX_BASE as an address. -/
def fIdxA (ws : Words) : Nat := fld (cw ws 14) 21 0 * 4096
/-- CNT_LINE or MAP_LINE as an address. -/
def fLineA (ws : Words) : Nat := lineA (fld (cw ws 15) 26 0)
/-- The address of the source row with an index (R209). -/
def fSrc (ws : Words) (i : Nat) : Nat :=
  (tileA (cw ws 7) + (if cOp ws = 4 then 0 else fld (cw ws 13) 31 16) + i * (cw ws 11).toNat) % 2 ^ 64
/-- The address of the destination row with an index (R209). -/
def fDst (ws : Words) (i : Nat) : Nat :=
  (tileA (cw ws 9) + (if cOp ws = 4 then 0 else fld (cw ws 13) 15 0) + i * (cw ws 12).toNat) % 2 ^ 64
/-- The null index (R209). -/
def nullIdx : Nat := 0xFFFFFFFF

/-- A stream holds one command at a time (R207). -/
def frogFree (s : State) (d : Fin 8) (ws : Words) : Bool :=
  (startedOf s d 4).all fun c => fEngine c.words != fEngine ws || fStream c.words != fStream ws

/-- A row of a stream: its source, where its bytes go, constant bytes with their addresses and whether the write bounds
hold for them, and entries that found no slot. -/
structure FrogRow where
  src : Option Nat := none
  dsts : List Nat := []
  consts : List (Nat × List Byte × Bool) := []
  ovf : Nat := 0
  deriving DecidableEq, Repr

/-- The index list as far as it could be read, and the status of what failed. -/
structure IdxList where
  words : Array Word
  st : Byte
  deriving DecidableEq, Repr

/-- Entry `i` of an index list. -/
def IdxList.at (l : IdxList) (i : Nat) : Except Byte Nat :=
  match l.words[i]? with
  | some w => .ok w.toNat
  | none => .error l.st

/-- Row `r` of GATHER, STRIDED or SCATTER (R208, R209, R216). -/
def plainRow (ws : Words) (l : IdxList) (r : Nat) : Except Byte FrogRow :=
  match cOp ws with
  | 2 =>
    if fFill ws then
      let pat := natLE 4 (cw ws 7).toNat
      .ok { consts := [(fDst ws r, (List.range (fRow ws)).map fun i => atD 0 pat (i % 4), true)] }
    else .ok { src := some (fSrc ws r), dsts := [fDst ws r] }
  | 1 => (l.at r).map fun i =>
    if i = nullIdx then { consts := [(fDst ws r, zeros (fRow ws), true)] } else { src := some (fSrc ws i), dsts := [fDst ws r] }
  | _ => (l.at r).map fun i => if i = nullIdx then {} else { src := some (fSrc ws r), dsts := [fDst ws i] }

/-- The fill and want counts of DISPATCH. -/
structure Fills where
  fill : NMap Nat := []
  want : NMap Nat := []
  deriving DecidableEq, Repr

/-- The routing entries of one token from choice `j` on (R217). -/
def tokenGo (ws : Words) (t : Nat) : Nat → List Nat → Fills → FrogRow → FrogRow × Fills
  | _, [], f, row => (row, f)
  | j, e :: r, f, row =>
    let at_ := fLineA ws + 4 * (t * fTopk ws + j)
    if e = nullIdx then tokenGo ws t (j + 1) r f { row with consts := row.consts ++ [(at_, natLE 4 nullIdx, false)] }
    else
      let f := { f with want := nset 0 f.want e (nget 0 f.want e + 1) }
      let n := nget 0 f.fill e
      let cap := fld (cw ws 13) 31 16
      if n < cap then
        let slot := e * cap + n
        tokenGo ws t (j + 1) r { f with fill := nset 0 f.fill e (n + 1) }
          { row with dsts := row.dsts ++ [fDst ws slot], consts := row.consts ++ [(at_, natLE 4 slot, false)] }
      else tokenGo ws t (j + 1) r f { row with consts := row.consts ++ [(at_, natLE 4 nullIdx, false)], ovf := row.ovf + 1 }

/-- The rows of DISPATCH from token `t` on, the last of them the count array (R217). -/
def dispatchRows (ws : Words) (l : IdxList) : Nat → Nat → Fills → List (Except Byte FrogRow)
  | 0, _, f =>
    let at_ := cdiv (fLineA ws + 4 * (fCount ws * fTopk ws)) 4096 * 4096
    [.ok { consts := [(at_, (List.range (fExperts ws)).flatMap fun e => natLE 4 (nget 0 f.fill e) ++ natLE 4 (nget 0 f.want e), false)] }]
  | n + 1, t, f =>
    match (List.range (fTopk ws)).mapM fun j => l.at (t * fTopk ws + j) with
    | .error e => [.error e]
    | .ok es =>
      if es.any fun e => e != nullIdx && decide (fExperts ws ≤ e) then [.error sRANGE]
      else
        let (row, f) := tokenGo ws t 0 es f (if es.all (· == nullIdx) then {} else { src := some (fSrc ws t) })
        .ok (if row.dsts.isEmpty then { row with src := none } else row) :: dispatchRows ws l n (t + 1) f

/-- The rows of a command over `n` live rows. -/
def frogRows (ws : Words) (l : IdxList) (n : Nat) : List (Except Byte FrogRow) :=
  if cOp ws = 4 then dispatchRows ws l n 0 {} else (List.range n).map (plainRow ws l)

/-! ## The check of a row (R210) -/

/-- The tiles that a run of bytes touches. -/
def tilesOf (a len : Nat) : List Nat := (List.range (tileCount a len)).map (· + a / 4096)
/-- May every tile of a run be accessed? -/
def permitRun (s : State) (p : Nat) (d : Fin 8) (a len : Nat) (write : Bool) : Bool :=
  (tilesOf a len).all fun t => permitted s p d (t * 4096) write
/-- Does a run lie within a bound, in tiles? -/
def inBound (a len lo hi : Nat) : Bool := decide (lo ≤ a / 4096) && decide ((a + len - 1) / 4096 < hi)

/-- Is a read of a row legal? -/
def srcLegal (s : State) (p : Nat) (d : Fin 8) (ws : Words) (a len : Nat) : Bool :=
  inBound a len (cw ws 7).toNat (cw ws 8).toNat && permitRun s p d a len false
/-- Is a write of a row legal? -/
def dstLegal (s : State) (p : Nat) (d : Fin 8) (ws : Words) (a len : Nat) : Bool :=
  inBound a len (cw ws 9).toNat (cw ws 10).toNat && permitRun s p d a len true

/-- Is a whole row legal? -/
def rowLegal (s : State) (p : Nat) (d : Fin 8) (ws : Words) (r : FrogRow) : Bool :=
  (r.src.all fun a => srcLegal s p d ws a (fRow ws)) && (r.dsts.all fun a => dstLegal s p d ws a (fRow ws))
    && r.consts.all fun (a, b, bound) => if bound then dstLegal s p d ws a b.length else permitRun s p d a b.length true

/-! ## Running the rows (R209, R210, R215) -/

/-- A held tile: its number and bytes. -/
abbrev HeldTile := Option (Nat × List Byte)

/-- The tiles of a row read through the held tile: the bytes, what is held then, the accesses made. -/
def rowTiles (p : Nat) (d : Fin 8) : List Nat → HeldTile → List Byte → Nat → W (Except Byte (List Byte) × HeldTile × Nat)
  | [], h, acc, n => return (.ok acc, h, n)
  | t :: r, h, acc, n => do
    match h with
    | some (k, b) =>
      if k = t then rowTiles p d r h (acc ++ b) n
      else
        match ← readTile p d (t * 4096) with
        | .error e => return (.error e, none, n + 1)
        | .ok b => rowTiles p d r (some (t, b)) (acc ++ b) (n + 1)
    | none =>
      match ← readTile p d (t * 4096) with
      | .error e => return (.error e, none, n + 1)
      | .ok b => rowTiles p d r (some (t, b)) (acc ++ b) (n + 1)

/-- What one completed row writes, the entries of it that found no slot, and the accesses it consumed. -/
structure RowOut where
  puts : List (Nat × List Byte)
  ovf : Nat
  used : Nat := 0
  deriving DecidableEq, Repr

/-- The rows in ascending order until one fails: what the completed ones write, the accesses that the failing one made, the status. -/
def runRows (p : Nat) (d : Fin 8) (ws : Words) : List (Except Byte FrogRow) → HeldTile → List RowOut → W (List RowOut × Nat × Byte)
  | [], _, acc => return (acc, 0, sOK)
  | .error e :: _, _, acc => return (acc, 0, e)
  | .ok row :: r, h, acc => do
    if !rowLegal (← getS) p d ws row then return (acc, 0, sRANGE)
    let consts := row.consts.map fun (a, b, _) => (a, b)
    match row.src with
    | none => runRows p d ws r h (acc ++ [⟨consts, row.ovf, 0⟩])
    | some a =>
      match ← rowTiles p d (tilesOf a (fRow ws)) h [] 0 with
      | (.error e, _, n) => return (acc, n, e)
      | (.ok b, h, n) =>
        let bytes := sub b (a % 4096) (fRow ws)
        runRows p d ws r h (acc ++ [⟨row.dsts.map (fun x => (x, bytes)) ++ consts, row.ovf, n⟩])

/-! ## Writing (R215): one write of each destination tile, whole where every byte of it is written -/

/-- The bytes that completed rows leave, by address; the higher row wins. -/
def overlay (rows : List RowOut) : NMap (Option Byte) :=
  rows.foldl (fun m r => r.puts.foldl (fun m (a, b) => nsetRun none m a (b.map some)) m) []

/-- The destination tiles of rows in the order in which rows first reach them, with the bytes that the rows leave in them. -/
def rowTilesOut (rows : List RowOut) : List (Nat × List (Option Byte)) :=
  let m := overlay rows
  (rows.flatMap fun r => r.puts.flatMap fun (a, b) => tilesOf a b.length).eraseDups.map fun t => (t, nrun none m (t * 4096) 4096)

/-- Is every byte of a destination tile written, so that it is written whole (R215)? -/
def wholeTile (t : Nat × List (Option Byte)) : Bool := t.2.all (·.isSome)

/-- Can a tile be written: the status of its old bytes where a part of them stays (R114), of its channel (R271) and of the code word that
its check word shares (R245). -/
def judgeTile (d : Fin 8) (t : Nat × List (Option Byte)) : W Byte := do
  let a := t.1 * 4096
  match storeOf a with
  | none => return sRANGE
  | some (st, off) =>
    if tileBusy (← getS) d st off then return sBUSY
    if !wholeTile t then
      match ← oldTile 3 d a with
      | .error e => return e
      | .ok _ => pure ()
    tendCheck d st a off

/-- The first tile that cannot be written, with its status; those before it. -/
def judgeTiles (d : Fin 8) : List (Nat × List (Option Byte)) → List (Nat × Bool) → W (Option (Nat × Byte) × List (Nat × Bool))
  | [], done => return (none, done)
  | t :: r, done => do
    if done.contains (t.1, wholeTile t) then judgeTiles d r done
    else
      let st ← judgeTile d t
      if st ≠ sOK then return (some (t.1, st), done)
      judgeTiles d r ((t.1, wholeTile t) :: done)

/-- The runs of the bytes that a tile's write holds, with their addresses from `a` on. -/
def someRuns : Nat → List (Option Byte) → List (Nat × List Byte)
  | _, [] => []
  | a, none :: r => someRuns (a + 1) r
  | a, some b :: r =>
    match someRuns (a + 1) r with
    | [] => [(a, [b])]
    | (x, bs) :: l => if x = a + 1 then (a, b :: bs) :: l else (a, [b]) :: (x, bs) :: l

/-- One destination tile written, whole or as one merge, in which bytes between the rows are not written (R247): the status. The old bytes
of a merge have been judged. -/
def putTile (p : Nat) (d : Fin 8) (t : Nat × List (Option Byte)) (judged : Bool) : W Byte := do
  let a := t.1 * 4096
  if wholeTile t then
    let bs := t.2.map (·.getD 0)
    writeTile p d a bs (crc32c bs)
  else
    let ps := someRuns a t.2
    if ps.isEmpty then return sOK
    if judged then mergePut d a ps else mergeRuns p d a ps

/-- The completed rows written; a tile that cannot be written ends the command at the first row that reaches it (R114, R215): rows are
judged in ascending order, and a row behind the failing one is not attempted. What it answers: the rows kept, the merges, the
status. (DEDUCED, log 16) -/
def flushRows (p : Nat) (d : Fin 8) : Nat → List RowOut → Byte → List (Nat × Bool) → W (List RowOut × Nat × Byte)
  | 0, _, st, _ => return ([], 0, st)
  | f + 1, rows, st, done => do
    let tiles := rowTilesOut rows
    match ← judgeTiles d tiles done with
    | (some (t, e), done) => flushRows p d f (rows.takeWhile fun r => r.puts.all fun (a, b) => !(tilesOf a b.length).contains t) e done
    | (none, _) =>
      freshChecks d ((tiles.filter wholeTile).map (·.1))
      tiles.forM fun t => do let _ ← putTile p d t true
      return (rows, (tiles.filter fun t => !wholeTile t).length, st)

/-! ## Counters and status (R214, R221, R222) -/

/-- FRG_STATUS after the work of a frog command failed (R222). CHECK_SEEN is set for every read that a command consumes: of a source tile,
of the index list, of the count word and of the old bytes of a merge. (DESIGN CHOICE, log 57) -/
def frogFail (d : Fin 8) (ws : Words) (st : Byte) : W Unit :=
  frogFlag d ws (if st = sRANGE then 8 else if st = sCHECK ∨ st = sUNCORR then 4 else 0)

/-- The accesses of rows in order, by tile: a tile that the stream would hold needs none (R209). -/
def accessSeq (ws : Words) (rows : List (Except Byte FrogRow)) : List Nat :=
  (rows.flatMap fun r => match r with
    | .ok x => x.src.toList.flatMap fun a => tilesOf a (fRow ws)
    | .error _ => []).foldr (fun t l => if l.head? = some t then l else t :: l) []

/-- The accesses behind the consumed ones that run-ahead can come to, with their places: one of a live row while fewer than RA_DEPTH legal
accesses stand unconsumed before it; one behind the live rows only before the count word is read, when nothing has been consumed
(R211, R212). -/
def reachGo (bar : Nat → Bool) (depth used live : Nat) : Nat → Nat → Nat → List Nat → List (Nat × Nat)
  | _, _, _, [] => []
  | i, all, since, t :: r =>
    let leg := b2n (!bar t)
    if i < used then reachGo bar depth used live (i + 1) (all + leg) since r
    else if i < live ∧ since < depth ∨ live ≤ i ∧ all < depth then (i, t) :: reachGo bar depth used live (i + 1) (all + leg) (since + leg) r
    else []

/-- The longest beginning of what run-ahead can reach in which no more than `room` accesses take a slot. -/
def withRoom (bar : Nat → Bool) : Nat → List (Nat × Nat) → List (Nat × Nat)
  | _, [] => []
  | room, x :: r =>
    if bar x.2 then x :: withRoom bar room r
    else match room with
      | 0 => []
      | n + 1 => x :: withRoom bar n r

/-- The run-ahead of a command (R211 to R214): `used` accesses of its sequence were consumed, the last of them failing where `fails`; `live`
of the sequence belong to live rows, and `bar` says which are not issued. It follows the sequence in order, and how far it came is timing:
a free place within its reach (R95). Every access before that place was issued, or met and not issued; those behind the consumed ones stay in
the buffer until the command completes. How many of the consumed ones it had not reached in time is free too, but none where it came past the
live rows, which it does before anything is consumed (R212), and all with RA_DEPTH 0. (DESIGN CHOICE, log 6; DEDUCED, log 16) -/
def runAhead (d : Fin 8) (uid : Nat) (ws : Words) (used live : Nat) (fails : Bool) (bar : Nat → Bool) (seq : List Nat) : W Unit := do
  let e : Fin 8 := ⟨fEngine ws % 8, by omega⟩
  let st := fStream ws
  let depth := fDepth ws
  let die ← getD d
  let open_ := withRoom bar (1024 - die.ahead[e].length) (if depth = 0 then [] else reachGo bar depth used live 0 0 0 seq)
  let k ← freeVal
  let came := open_.take (k % (open_.length + 1))
  let left := came.filter fun x => !bar x.2
  let k ← freeVal
  let base := if depth = 0 then used else if came.any fun x => decide (live ≤ x.1) then 0 else k % (used + 1)
  let k ← freeVal
  let dropped := fails && decide (base < used) && (decide (base = 0) || decide (k % 2 = 0))
  let slots := min depth (seq.filter (!bar ·)).length
  let now := die.runs.filter fun r => r.engine == e.val && r.ended.isNone
  let peak := slots + (now.map (·.slots)).sum
  modD d fun x => { x with
    ahead := x.ahead.set e (x.ahead[e] ++ left.map fun t => ⟨st, t.1 - used + 1, t.2⟩)
    runs := x.runs.map (fun r => if r.engine = e.val ∧ r.ended.isNone then { r with peak := max r.peak peak } else r)
      ++ [{ uid, engine := e.val, stream := st, used, base, dropped, met := (came.filter fun x => bar x.2).length, left := left.length, slots, peak }] }

/-- The live count: COUNT, or the smaller of it and the word at CNT_LINE (R212). -/
def liveCount (p : Nat) (d : Fin 8) (ws : Words) : W (Nat × Byte) := do
  if !bitOf (cw ws 6) 30 then return (fCount ws, sOK)
  match ← readTile p d (fLineA ws) with
  | .error e => return (0, e)
  | .ok b => return (min (fCount ws) (rd b (fLineA ws % 4096) 4), sOK)

/-- Is an access of run-ahead one that is never issued (R211)? -/
def barred (s : State) (p : Nat) (d : Fin 8) (ws : Words) (t : Nat) : Bool := !srcLegal s p d ws (t * 4096) 4096

/-- The rows up to COUNT as run-ahead sees them, behind the live ones too: the index list as it can be read ahead without a fault
(R211, R212). -/
def aheadRows (s : State) (p : Nat) (d : Fin 8) (ws : Words) : List (Except Byte FrogRow) :=
  let n := fCount ws
  let (ib, ist) := if cOp ws = 2 then ([], sOK) else (spanUntil p d (fIdxA ws) (4 * n * (if cOp ws = 4 then fTopk ws else 1)) { s }).1
  frogRows ws ⟨(wordsOf ib).toArray, ist⟩ n

/-- The work of a FROG command. (DEDUCED, log 16) -/
def frogWork (d : Fin 8) (uid : Nat) (ws : Words) : W Res := do
  let s ← getS
  let p := partOf s d
  let a := frogA d (fEngine ws)
  setField a 23 16 (cOp ws)
  let (n, st0) ← liveCount p d ws
  let (ib, ist) ← if cOp ws = 2 then pure ([], sOK) else spanUntil p d (fIdxA ws) (4 * n * (if cOp ws = 4 then fTopk ws else 1))
  let rows := if st0 ≠ sOK then [] else frogRows ws ⟨(wordsOf ib).toArray, ist⟩ n
  let (done, last, st) ← runRows p d ws rows none []
  let (kept, merges, st) ← flushRows p d (done.length + 1) done (if st0 ≠ sOK then st0 else st) []
  let ovf := (kept.map (·.ovf)).foldl (· + ·) 0
  bump (a + 0x10) merges
  bump (regA d bFRG 0x9000) ovf
  if 0 < ovf then setFlags a 2
  let whole := decide (kept.length = done.length)
  let used := ((done.take (kept.length + 1)).map (·.used)).foldl (· + ·) 0 + (if whole then last else 0)
  runAhead d uid ws used (accessSeq ws rows).length (whole && decide (0 < last) && st != sRANGE) (barred s p d ws) (accessSeq ws (aheadRows s p d ws))
  if st ≠ sOK then frogFail d ws st
  return { status := st }

/-- GATHER (R208). -/
def execGather (d : Fin 8) (s : State) : Host.Outcome State Fault Refusal :=
  W.within fabScope s (startHead d 4 0x01 frogFree (frogWork d))
/-- STRIDED (R208). -/
def execStrided (d : Fin 8) (s : State) : Host.Outcome State Fault Refusal :=
  W.within fabScope s (startHead d 4 0x02 frogFree (frogWork d))
/-- SCATTER (R208). -/
def execScatter (d : Fin 8) (s : State) : Host.Outcome State Fault Refusal :=
  W.within fabScope s (startHead d 4 0x03 frogFree (frogWork d))
/-- DISPATCH (R217). -/
def execDispatch (d : Fin 8) (s : State) : Host.Outcome State Fault Refusal :=
  W.within fabScope s (startHead d 4 0x04 frogFree (frogWork d))

end Sys2Proof.Machine
end

