-- ==== Sys2Proof/Machine/Gecko.lean ====
section
/-! DEFINITION. The Gecko update units: 10_gecko_update_units.md. -/

namespace Sys2Proof.Machine

/-! ## Contexts (R282 to R285) -/

/-- A context's static fields, formats resolved under a recipe (R283, R293). -/
structure GCtx where
  rule : Nat
  bcEn : Bool
  blockSteps : Bool
  touchAll : Bool
  wcopy : Bool
  nesterov : Bool
  br : Nat
  bc : Nat
  mom : Fmt × Bool
  wc : Fmt × Bool
  tid : Nat
  elem0 : Nat
  rowLen : Nat
  nblk : Nat
  step : Nat
  /-- The static bytes, for the bases. -/
  bytes : List Byte
  /-- The per-step record. -/
  record : List Byte
  deriving DecidableEq, Repr

/-- The fields of a context under a recipe. -/
def gctx (recipe : Nat) (c : Context) : GCtx :=
  let f := rd c.static 0 4
  let fm : Nat → Nat → Fmt × Bool := fun kind code =>
    if code = 15 then (recipeFmts recipe kind).headD (.fp32, false)
    else
      let x := (fmtOfCode code).getD .fp32
      (x, (recipeFmts recipe kind).any fun y => y.1 == x && y.2)
  { rule := f % 16, bcEn := f.testBit 4, blockSteps := f.testBit 5, touchAll := f.testBit 6, wcopy := f.testBit 7
    nesterov := f.testBit 8, br := 32 * nfld f 15 12, bc := 32 * nfld f 19 16, mom := fm 4 (nfld f 23 20), wc := fm 0 (nfld f 27 24)
    tid := rd c.static 4 4, elem0 := rd c.static 8 8, rowLen := rd c.static 16 4, nblk := rd c.static 20 4
    step := rd c.static 72 4, bytes := c.static, record := c.step }

/-- An array's base address, by the offset of its base field. -/
def GCtx.base (g : GCtx) (off : Nat) : Nat := rd g.bytes off 4 * 4096
/-- A field of the per-step record. -/
def GCtx.par (g : GCtx) (off : Nat) : Word := fclean (rdW g.record off)

/-- Does a word hold a NaN, an infinity, or a negative value? -/
def fneglt0 (w : Word) : Bool := decide ((fval w).m < 0)

/-- Does a per-step record meet R285? -/
def stepRecordOk (r : List Byte) : Bool :=
  (List.range 10).all (fun i => !fspecial (rdW r (4 + 4 * i)))
    && !fneglt0 (rdW r 24) && !fneglt0 (rdW r 32) && !fneglt0 (rdW r 40)
    && decide (rd r 44 4 < 2) && allZero (sub r 48 16)

/-- What every UPDATE command does as it starts. -/
def gekStart (d : Fin 8) (ws : Words) : W Unit := [0, 1].forM fun u => setField (gekA d u) 23 16 (cOp ws)

/-- An UPDATE command starts when both units are free (R280). -/
def gekFree (s : State) (d : Fin 8) (_ : Words) : Bool := (startedOf s d 8).isEmpty

/-! ## Arrays -/

/-- Address and length of block `b` of an FP32 array. -/
def aF32 (g : GCtx) (off b : Nat) : Nat × Nat := (g.base off + 128 * b, 128)
/-- Address and length of block `b` of a packed array. -/
def aElem (g : GCtx) (off : Nat) (f : Fmt) (b : Nat) : Nat × Nat := (g.base off + packBytes f 32 * b, packBytes f 32)
/-- Address and length of the scale of block `b` of a packed array (R283: first tile after the elements). -/
def aScale (g : GCtx) (off : Nat) (f : Fmt) (b : Nat) : Nat × Nat :=
  (g.base off + cdiv (packBytes f (32 * g.nblk)) 4096 * 4096 + b, 1)
/-- A packed array's block with its scale. -/
def aPacked (g : GCtx) (off : Nat) (f : Fmt × Bool) (b : Nat) : List (Nat × Nat) :=
  aElem g off f.1 b :: (if f.2 then [aScale g off f.1 b] else [])

/-- Does the rule write master weights, read a gradient, hold a first and a second moment (R291)? -/
def GCtx.hasW (g : GCtx) : Bool := g.rule != 5
/-- Reads a gradient. -/
def GCtx.hasG (g : GCtx) : Bool := g.rule != 6
/-- Holds a first moment. -/
def GCtx.hasM1 (g : GCtx) : Bool := g.rule != 6
/-- Holds a second moment. -/
def GCtx.hasM2 (g : GCtx) : Bool := g.rule == 1
/-- Writes a weight copy. -/
def GCtx.hasWC (g : GCtx) : Bool := g.wcopy && g.rule != 5

/-- The runs that a block's update reads (R291). -/
def blockReads (g : GCtx) (b : Nat) : List (Nat × Nat) :=
  (if g.hasG then [aF32 g 28 b] else [aF32 g 52 b]) ++ (if g.hasW then [aF32 g 24 b] else [])
    ++ (if g.hasM1 then aPacked g 32 g.mom b else []) ++ (if g.hasM2 then aPacked g 36 g.mom b else [])
    ++ (if g.blockSteps then [(g.base 48 + 4 * b, 4)] else [])

/-- The runs that a block's update writes (R291). -/
def blockWrites (g : GCtx) (b : Nat) : List (Nat × Nat) :=
  (if g.hasW then [aF32 g 24 b] else []) ++ (if g.hasWC then aPacked g 40 g.wc b else [])
    ++ (if g.hasM1 then aPacked g 32 g.mom b else []) ++ (if g.hasM2 then aPacked g 36 g.mom b else [])
    ++ (if g.blockSteps then [(g.base 48 + 4 * b, 4)] else [])

/-- The unit that holds the master tile of a block (R280). -/
def unitOf (g : GCtx) (b : Nat) : Nat :=
  (if g.hasW then (aF32 g 24 b).1 else (aElem g 32 g.mom.1 b).1) / 4096 % 2

/-- The pieces of a run that a unit writes, one for each tile: a whole tile with a new check word (R112), or a partial
write, which is a merge at the tier's controller (R247). (DEDUCED, log 16) -/
def patchPieces (p : Nat) (d : Fin 8) : List (Nat × List Byte) → W Byte
  | [] => return sOK
  | (a, b) :: r => do
    let st ← if b.length = 4096 then writeTile p d a b (crc32c b) else mergeTile p d a b
    if st ≠ sOK then return st
    patchPieces p d r

/-- A run of bytes rewritten. -/
def patch (d : Fin 8) (a : Nat) (bs : List Byte) : W Byte := do
  patchPieces (partOf (← getS) d) d (cutTiles (bs.length / 4096 + 2) a bs)

/-- Runs rewritten in order. -/
def patchAll (d : Fin 8) : List (Nat × List Byte) → W Byte
  | [] => return sOK
  | (a, b) :: r => do
    let st ← patch d a b
    if st ≠ sOK then return st
    patchAll d r

/-- Runs read for a unit in order, or the status of the first that fails. -/
def greads (d : Fin 8) : List (Nat × Nat) → W (Except Byte (List (List Byte)))
  | [] => return .ok []
  | r :: rest => do
    match ← readSpan (partOf (← getS) d) d r.1 r.2 with
    | .error e => return .error e
    | .ok b =>
      match ← greads d rest with
      | .error e => return .error e
      | .ok l => return .ok (b :: l)

/-- The next of the runs read, where the update has it. -/
def takeRun (used : Bool) (l : List (List Byte)) : List Byte × List (List Byte) := if used then (l.headD [], l.tail) else ([], l)

/-- The first failing status of tiles that partial writes merge into. -/
def mergeFails (d : Fin 8) : List Nat → W Byte
  | [] => return sOK
  | t :: r => do
    if !permitted (← getS) (partOf (← getS) d) d (t * 4096) true then return sRANGE
    match ← oldTile 3 d (t * 4096) with
    | .error e => return e
    | .ok _ => mergeFails d r

/-- The first failing status of runs read, or written, in order. -/
def firstFail (d : Fin 8) (write : Bool) : List (Nat × Nat) → W Byte
  | [] => return sOK
  | r :: rest => do
    let st ← if write then mergeFails d ((List.range (tileCount r.1 r.2)).map (r.1 / 4096 + ·))
      else do
        match ← readSpan (partOf (← getS) d) d r.1 r.2 with
        | .error e => pure e
        | .ok _ => pure sOK
    if st ≠ sOK then return st
    firstFail d write rest

/-! ## The rules (R290 to R293) -/

/-- pow(beta, t) of R290, from bit `i - 1` down. -/
def powGo (beta : Word) (t : Nat) : Nat → Word → Cnt Word
  | 0, r => return r
  | i + 1, r => do
    let r ← fmul r r
    let r ← if t.testBit i then fmul r beta else pure r
    powGo beta t i r

/-- 1 / round(1 - pow(beta, t)) (R290). -/
def invCorr (beta : Word) (t : Nat) : Cnt Word := do
  let p ← powGo beta t 32 f1
  fdiv f1 (← fsub f1 p)

/-- ibc1 and ibc2 as the rule uses them (R290); the second is formed for ADAMW alone. (DESIGN CHOICE, log 57) -/
def corrections (g : GCtx) (t : Nat) : Cnt (Word × Word) := do
  if !g.bcEn then return (f1, f1)
  let a ← invCorr (g.par 8) t
  let b ← if g.rule = 1 then invCorr (g.par 16) t else pure f1
  return (a, b)

/-- round(clip * g). -/
def clipG (g : GCtx) (x : Word) : Cnt Word := fmul (g.par 32) x
/-- fma(beta1, m, round(c1 * g)). -/
def moment1 (g : GCtx) (m x : Word) : Cnt Word := do ffma (g.par 8) m (← fmul (g.par 12) x)
/-- fma(-eta, fma(wd, w, d), w). -/
def newW (g : GCtx) (w d : Word) : Cnt Word := do ffma (fneg (g.par 4)) (← ffma (g.par 28) w d) w
/-- sign() of R292. -/
def fsign (x : Word) : Word := if fzero x then 0 else if (lval x).m < 0 then fm1 else f1

/-- One element under a rule: new w, m and v (R292). `x` is the gradient, or the direction of APPLY_DIR. -/
def ruleElem (g : GCtx) (ibc : Word × Word) (x w m v : Word) : Cnt (Word × Word × Word) := do
  match g.rule with
  | 1 =>
    let x ← clipG g x
    let m ← moment1 g m x
    let v ← ffma (g.par 16) v (← fmul (g.par 20) (← fmul x x))
    let den ← fadd (← fsqrt (← fmul v ibc.2)) (g.par 24)
    let d ← fdiv (← fmul m ibc.1) den
    return (← newW g w d, m, v)
  | 2 =>
    let x ← clipG g x
    let d := fsign (← moment1 g m x)
    let m' ← ffma (g.par 16) m (← fmul (g.par 20) x)
    return (← newW g w d, m', v)
  | 3 =>
    let x ← clipG g x
    let m ← moment1 g m x
    let d ← if g.nesterov then do fmul (← moment1 g m x) ibc.1 else fmul m ibc.1
    return (← newW g w d, m, v)
  | 5 =>
    let x ← clipG g x
    return (w, ← moment1 g m x, v)
  | _ => return (← newW g w x, m, v)

/-- Elements read as FP32 (R34, R49). -/
def loadBlock (f : Fmt) (bs scale : List Byte) : Cnt (List Word) := do
  let s ← if scale.isEmpty then pure 0 else readScale (rd scale 0 1)
  (unpackCodes f 32 bs).mapM fun c => readEl f (!scale.isEmpty) c s

/-- What the conversion of a Gecko array uses (R293). -/
def gconv (s : State) (d : Fin 8) (recipe kind : Nat) (f : Fmt × Bool) (tid : Nat) : Conv :=
  { scale := fval f1, bound := dyZero, fmt := f.1, bs := f.2, mode := recipeRound recipe kind
    seed := (recipeOf s d recipe).seed, tid := w32 tid }

/-- One block of 32 values converted: its element bytes and its scale byte. -/
def storeBlock (c : Conv) (i0 : Nat) (vs : List Word) : Cnt (List Byte × List Byte) := do
  let (codes, scales) ← convRow c (vs.zipIdx.map fun (v, i) => (lval v, (i0 + i) % 2 ^ 64))
  return (packCodes c.fmt codes, scales.map b8)

/-- A packed array's new block as runs to write. -/
def packedRuns (g : GCtx) (off : Nat) (f : Fmt × Bool) (b : Nat) (out : List Byte × List Byte) : List (Nat × List Byte) :=
  ((aElem g off f.1 b).1, out.1) :: (if f.2 then [((aScale g off f.1 b).1, out.2)] else [])

/-- The conversions of a GAPPLY: master weights, weight copy, first and second moment (R293). -/
structure GConvs where
  w : Conv
  wc : Conv
  m1 : Conv
  m2 : Conv
  deriving DecidableEq, Repr

/-- The conversions of a context under a recipe. -/
def gconvs (s : State) (d : Fin 8) (recipe : Nat) (g : GCtx) : GConvs :=
  { w := gconv s d recipe 5 (.fp32, false) g.tid, wc := gconv s d recipe 0 g.wc g.tid
    m1 := gconv s d recipe 4 g.mom (g.tid + 1), m2 := gconv s d recipe 4 g.mom (g.tid + 2) }

/-- The runs that a block writes, from its new values. -/
def blockRuns (g : GCtx) (k : GConvs) (b : Nat) (w m v : List Word) : Cnt (List (Nat × List Byte)) := do
  let i0 := g.elem0 + 32 * b
  let rw ← if g.hasW then do pure [((aF32 g 24 b).1, (← storeBlock k.w i0 w).1)] else pure []
  let rc ← if g.hasWC then do pure (packedRuns g 40 g.wc b (← storeBlock k.wc i0 w)) else pure []
  let r1 ← if g.hasM1 then do pure (packedRuns g 32 g.mom b (← storeBlock k.m1 i0 m)) else pure []
  let r2 ← if g.hasM2 then do pure (packedRuns g 36 g.mom b (← storeBlock k.m2 i0 v)) else pure []
  return rw ++ rc ++ r1 ++ r2

/-- A conversion's counts added to a command's, and whether it counted an overflow (R305). -/
def apart {α : Type} (p : Cnt α) : Cnt (α × Bool) := do
  let (x, c) := p.run {}
  modify (·.add c)
  return (x, c.ovf != 0)

/-- The counters of the two units. -/
abbrev Ctr2 := Ctr × Ctr
/-- A counter pair with one unit's changed. -/
def onUnit (u : Nat) (c : Ctr2) (f : Ctr → Ctr) : Ctr2 := if u = 0 then (f c.1, c.2) else (c.1, f c.2)

/-- What a block's update has read: the gradient or direction, the weights, the first and the second moment with their scales, the block's
own step. -/
structure BlockIn where
  x : List Byte
  w : List Byte
  m : List Byte × List Byte
  v : List Byte × List Byte
  bs : List Byte
  deriving DecidableEq, Repr

/-- The bytes that `blockReads` names, by what they are; the rest of the list. -/
def blockIn (g : GCtx) (l : List (List Byte)) : BlockIn × List (List Byte) :=
  let (x, l) := takeRun true l
  let (w, l) := takeRun g.hasW l
  let (m, l) := takeRun g.hasM1 l
  let (ms, l) := takeRun (g.hasM1 && g.mom.2) l
  let (v, l) := takeRun g.hasM2 l
  let (vs, l) := takeRun (g.hasM2 && g.mom.2) l
  let (bs, l) := takeRun g.blockSteps l
  (⟨x, w, (m, ms), (v, vs), bs⟩, l)

/-- The blocks of a list, read one after the other. -/
def blocksIn (g : GCtx) : Nat → List (List Byte) → List BlockIn × List (List Byte)
  | 0, l => ([], l)
  | n + 1, l =>
    let (b, l) := blockIn g l
    let (bs, l) := blocksIn g n l
    (b :: bs, l)

/-- A touched block updated (R289 to R293): the counters so far in, the counters after, and the status of what could not be read or
written. -/
def updateBlock (d : Fin 8) (g : GCtx) (k : GConvs) (ibc : Word × Word) (b : Nat) (c : Ctr2) : W (Ctr2 × Byte) := do
  let u := unitOf g b
  match ← greads d (blockReads g b) with
  | .error e => return (c, e)
  | .ok l =>
  let ⟨x, w, m, v, bs⟩ := (blockIn g l).1
  let t := min 0xFFFFFFFF (rd bs 0 4 + 1)
  let work : Cnt (List (Nat × List Byte) × Bool) := do
    let xs ← loadBlock .fp32 x []
    let wv ← if g.hasW then loadBlock .fp32 w [] else pure (List.replicate 32 0)
    let mv ← if g.hasM1 then loadBlock g.mom.1 m.1 m.2 else pure (List.replicate 32 0)
    let vv ← if g.hasM2 then loadBlock g.mom.1 v.1 v.2 else pure (List.replicate 32 0)
    let ibc ← if g.blockSteps then corrections g t else pure ibc
    let out ← (List.range 32).mapM fun i => ruleElem g ibc (atD 0 xs i) (atD 0 wv i) (atD 0 mv i) (atD 0 vv i)
    apart (blockRuns g k b (out.map (·.1)) (out.map (·.2.1)) (out.map (·.2.2)))
  let ((runs, ovf), cu) := work.run (if u = 0 then c.1 else c.2)
  let runs := runs ++ (if g.blockSteps then [(g.base 48 + 4 * b, natLE 4 t)] else [])
  let st ← patchAll d runs
  if ovf then setFlags (gekA d u) 1
  bump (gekA d u + 8) 1
  return (onUnit u c fun _ => cu, st)

/-! ## Preconditioner blocks (R294, R295) -/

/-- The 128 × 128 FP32 slot of a preconditioner block. -/
def pslot (g : GCtx) (off idx : Nat) : Nat × Nat := (g.base off + 16 * 4096 * idx, 65536)

/-- The 32-element blocks of preconditioner block `idx`, row by row. -/
def pblocks (g : GCtx) (idx : Nat) : List Nat :=
  let per := g.rowLen / max 1 g.bc
  let i := idx / max 1 per
  let j := idx % max 1 per
  (List.range g.br).flatMap fun r => (List.range (g.bc / 32)).map fun c => ((i * g.br + r) * g.rowLen + j * g.bc) / 32 + c

/-- Preconditioner blocks of the shard. -/
def pcount (g : GCtx) : Nat := 32 * g.nblk / max 1 (g.br * g.bc)

/-- A matrix as rows of words. -/
abbrev Mat := Array (Array Word)
/-- An entry. -/
def mget (m : Mat) (i j : Nat) : Word := (m.getD i #[]).getD j 0
/-- The used part of a slot: n rows and columns of a 128-column FP32 matrix. -/
def slotMat (bs : List Byte) (n : Nat) : Cnt Mat := do
  let rows ← (chunks 512 bs).take n |>.mapM fun r => (wordsOf (r.take (4 * n))).mapM fun w => readX .fp32 w.toNat
  return (rows.map (·.toArray)).toArray
/-- A fold of fused multiply-adds in ascending order (R295). -/
def foldFma (n : Nat) (acc : Word) (a b : Nat → Word) : Cnt Word :=
  (List.range n).foldlM (fun acc k => ffma (a k) (b k) acc) acc
/-- An n × m matrix from its entries. -/
def mkMat (n m : Nat) (f : Nat → Nat → Cnt Word) : Cnt Mat := do
  let rows ← (List.range n).mapM fun i => do return (← (List.range m).mapM (f i)).toArray
  return rows.toArray
/-- A matrix written back into the used part of a slot's bytes. -/
def matSlot (old : List Byte) (n : Nat) (m : Mat) : List Byte :=
  (List.range 128).flatMap fun i =>
    if i < n then bytesOf ((List.range n).map (mget m i)) ++ sub old (512 * i + 4 * n) (512 - 4 * n) else sub old (512 * i) 512

/-- Does the record update the statistics? -/
def GCtx.statEn (g : GCtx) : Bool := (rd g.record 44 4).testBit 0

/-- The runs a preconditioner block reads. -/
def pReads (g : GCtx) (idx : Nat) : List (Nat × Nat) :=
  (pblocks g idx).flatMap (blockReads g) ++ [pslot g 56 idx, pslot g 60 idx] ++ (if g.statEn then [pslot g 64 idx, pslot g 68 idx] else [])
/-- The runs it writes. -/
def pWrites (g : GCtx) (idx : Nat) : List (Nat × Nat) :=
  (pblocks g idx).flatMap (blockWrites g) ++ (if g.statEn then [pslot g 64 idx, pslot g 68 idx] else [])

/-- Rows of a preconditioner block from its 32-element blocks. -/
def rowsOf (g : GCtx) (vs : List (List Word)) : Mat :=
  ((List.range g.br).map fun r => (((vs.drop (r * (g.bc / 32))).take (g.bc / 32)).flatMap id).toArray).toArray

/-- The new statistics of one side (R295). -/
def newStats (g : GCtx) (n k : Nat) (old : Mat) (gr : Nat → Nat → Word) : Cnt Mat :=
  mkMat n n fun i j => do
    let a0 ← fmul (g.par 36) (mget old i j)
    (List.range k).foldlM (fun acc x => do ffma (← fmul (g.par 40) (gr i x)) (gr j x) acc) a0

/-- One preconditioner block updated, as `updateBlock` updates a block. -/
def updatePblock (d : Fin 8) (g : GCtx) (k : GConvs) (ibc : Word × Word) (idx : Nat) (c : Ctr2) : W (Ctr2 × Byte) := do
  let bl := pblocks g idx
  let u := unitOf g (bl.headD 0)
  match ← greads d (pReads g idx) with
  | .error e => return (c, e)
  | .ok l =>
  let (ins, l) := blocksIn g bl.length l
  let (lr, l) := takeRun true l
  let (rr, l) := takeRun true l
  let (sl, l) := takeRun g.statEn l
  let (sr, _) := takeRun g.statEn l
  let work : Cnt (List (Nat × List Byte) × Bool) := do
    let gm := rowsOf g (← ins.mapM fun b => do (← loadBlock .fp32 b.x []).mapM (clipG g))
    let wm := rowsOf g (← ins.mapM fun b => loadBlock .fp32 b.w [])
    let mm := rowsOf g (← ins.mapM fun b => loadBlock g.mom.1 b.m.1 b.m.2)
    let m ← mkMat g.br g.bc fun i j => moment1 g (mget mm i j) (mget gm i j)
    let x ← mkMat g.br g.bc fun i j => fmul (mget m i j) ibc.1
    let l ← slotMat lr g.br
    let r ← slotMat rr g.bc
    let y ← mkMat g.br g.bc fun i j => foldFma g.br 0 (mget l i) fun a => mget x a j
    let dm ← mkMat g.br g.bc fun i j => foldFma g.bc 0 (mget y i) fun a => mget r a j
    let w ← mkMat g.br g.bc fun i j => newW g (mget wm i j) (mget dm i j)
    let stats ← if g.statEn then do
        let a ← newStats g g.br g.bc (← slotMat sl g.br) (mget gm)
        let b ← newStats g g.bc g.br (← slotMat sr g.bc) (fun i j => mget gm j i)
        pure [((pslot g 64 idx).1, matSlot sl g.br a), ((pslot g 68 idx).1, matSlot sr g.bc b)]
      else pure []
    let per := g.bc / 32
    let runs ← bl.zipIdx.mapM fun (b, n) =>
      let cut : Mat → List Word := fun mt => (List.range 32).map fun e => mget mt (n / max 1 per) (n % max 1 per * 32 + e)
      apart (blockRuns g k b (cut w) (cut m) [])
    return ((runs.map (·.1)).flatten ++ stats, runs.any (·.2))
  let ((runs, ovf), cu) := work.run (if u = 0 then c.1 else c.2)
  let st ← patchAll d runs
  if ovf then setFlags (gekA d u) 1
  bump (gekA d u + 8) bl.length
  bump (gekA d u + 0x10) 1
  timed (gekA d u + 0x14)
  return (onUnit u c fun _ => cu, st)

/-- Blocks updated in order until one cannot be: nothing of that one's update is kept. What is answered: the counters, and the block that
failed with its status (R300). -/
def updateAll (update : Nat → Ctr2 → W (Ctr2 × Byte)) : List Nat → Ctr2 → W (Ctr2 × Option (Nat × Byte))
  | [], c => return (c, none)
  | b :: r, c => do
    let ((c', st), w) := update b c (← get)
    if st ≠ sOK then return (c, some (b, st))
    set w
    updateAll update r c'

/-! ## GAPPLY (R287 to R293, R300) -/

/-- The touched blocks of a shard, or the status of a bitmap that cannot be read (R288, R289). -/
def touchedBlocks (d : Fin 8) (g : GCtx) : W (Except Byte (List Nat)) := do
  if g.touchAll then return .ok (List.range g.nblk)
  match ← readSpan (partOf (← getS) d) d (g.base 44) (cdiv g.nblk 8) with
  | .error e => return .error e
  | .ok bm =>
    let bits := bm.toArray
    return .ok ((List.range g.nblk).filter fun b => (bits.getD (b / 8) 0).toNat.testBit (b % 8))

/-- The units' counts of defined results at the end of a GAPPLY or GPREP. -/
def gekCount (d : Fin 8) (c : Ctr2) : W Unit :=
  [(0, c.1), (1, c.2)].forM fun (u, x) => do
    bump (gekA d u + 0x1C) x.dom.toNat
    if x.dom != 0 then setFlags (gekA d u) 2

/-- The blocks of a shard updated. Where one of them cannot be read or written both units stop: which of the others had been written by then
is a free part of them, and the command's status is that of the block at which they stopped (R300). (DESIGN CHOICE, log 15) -/
def applyBlocks (d : Fin 8) (reads writes : Nat → List (Nat × Nat)) (update : Nat → Ctr2 → W (Ctr2 × Byte)) (units : List Nat) (c : Ctr2) :
    W (Ctr2 × Byte) := do
  let ((done, stop), w) := updateAll update units c (← get)
  match stop with
  | none =>
    set w
    return (done, sOK)
  | some first =>
    let (c, stop) ← updateAll update (← freePart (units.filter (· != first.1))) c
    let (b, st) := stop.getD first
    if (← firstFail d false (reads b)) = sOK then
      let _ ← firstFail d true (writes b)
    return (c, st)

/-- The work of GAPPLY. With BLOCK_STEPS 0 the bias corrections are formed once, whether a block is touched or not, and count for unit 0.
(DESIGN CHOICE, log 15 and 57) -/
def gapplyWork (d : Fin 8) (_ : Nat) (ws : Words) : W Res := do
  gekStart d ws
  let s ← getS
  let ctx := fld (cw ws 5) 9 0
  match ctxOf (s.die d) ctx with
  | none => gekFail d ctx sPARAM; return { status := sPARAM }
  | some cx =>
    let g := gctx (cRecipe ws) cx
    if rd cx.step 0 4 ≠ g.step then
      gekFail d ctx sSTEP
      return { status := sSTEP }
    match ← touchedBlocks d g with
    | .error e => gekFail d ctx e; return { status := e }
    | .ok bl =>
      let (ibc, c0) := (if g.blockSteps then pure (f1, f1) else corrections g g.step).run {}
      let k := gconvs (← getS) d (cRecipe ws) g
      let (c, st) ←
        if g.rule == 4 then applyBlocks d (pReads g) (pWrites g) (updatePblock d g k ibc) (List.range (pcount g)) (c0, {})
        else applyBlocks d (blockReads g) (blockWrites g) (updateBlock d g k ibc) bl (c0, {})
      [0, 1].forM fun u => bump (gekA d u + 0xC) ((List.range g.nblk).countP fun b => unitOf g b == u && !bl.contains b)
      gekCount d c
      if st ≠ sOK then gekFail d ctx st
      return { status := st, ctr := c.1.add c.2 }

/-- GAPPLY (R287). -/
def execGapply (d : Fin 8) (s : State) : Host.Outcome State Fault Refusal :=
  W.within fabScope s (startHead d 8 0x01 gekFree (gapplyWork d))

/-! ## GPARAM (R286) and GPREP (R297) -/

/-- A record with the words of a mask replaced. -/
def maskWords (mask : Nat) (old new : List Byte) : List Byte :=
  (List.range 16).flatMap fun i => if mask.testBit i then sub new (4 * i) 4 else sub old (4 * i) 4

/-- The records a GPARAM makes of contexts `c`, `c + 1`, …; the context that fails it and the status. -/
def gparamGo (x : Die) (mask : Nat) : Nat → List (List Byte) → Except (Nat × Byte) (List (Nat × List Byte))
  | _, [] => .ok []
  | c, r :: rest =>
    match ctxOf x c with
    | none => .error (c, sPARAM)
    | some cx =>
      let n := maskWords mask cx.step r
      if !stepRecordOk n then .error (c, sPARAM)
      else match gparamGo x mask (c + 1) rest with
        | .error e => .error e
        | .ok l => .ok ((c, n) :: l)

/-- The work of GPARAM. -/
def gparamWork (d : Fin 8) (_ : Nat) (ws : Words) : W Res := do
  gekStart d ws
  let s ← getS
  let ctx := fld (cw ws 5) 9 0
  match ← readSpan (partOf s d) d (lineA (fld (cw ws 6) 26 0)) (64 * fld (cw ws 5) 20 10) with
  | .error e => gekFail d ctx e; return { status := e }
  | .ok bs =>
    match gparamGo (s.die d) (fld (cw ws 7) 15 0) ctx (chunks 64 bs) with
    | .error (c, e) => gekFail d c e; return { status := e }
    | .ok l =>
      l.forM fun (c, r) => modCtx d c fun x => { x with step := r }
      return {}

/-- GPARAM (R286). -/
def execGparam (d : Fin 8) (s : State) : Host.Outcome State Fault Refusal :=
  W.within fabScope s (startHead d 8 0x02 gekFree (gparamWork d))

/-- The starting pair M0, X0 of one statistics matrix (R297), each as the 64 KiB of its 16 tiles. -/
def gprepBlock (n : Nat) (p4 : Bool) (eps : Word) (bs : List Byte) : Cnt (List Byte × List Byte) := do
  let sm ← slotMat bs n
  let a ← mkMat n n fun i k => if i = k then fadd (mget sm i k) eps else pure (mget sm i k)
  let qs ← (List.range n).mapM fun k => foldFma n 0 (fun i => mget a i k) (fun i => mget a i k)
  let q ← qs.foldlM (fun acc x => fadd acc x) 0
  let r ← if fzero q then do cntDom 1; pure (0 : Word) else do fdiv f1 (← fsqrt q)
  let m0 ← mkMat n n fun i k => fmul (mget a i k) r
  let h ← fsqrt r
  let x ← if p4 then fsqrt h else pure h
  let full : (Nat → Nat → Word) → List Byte := fun f =>
    (List.range 128).flatMap fun i => bytesOf ((List.range 128).map fun k => if i < n ∧ k < n then f i k else 0)
  return (full (mget m0), full fun i k => if i = k then x else 0)

/-- Preconditioner blocks of a GPREP in order, with their place in the output; the first failure ends them. -/
def gprepGo (d : Fin 8) (g : GCtx) (off n : Nat) (p4 : Bool) (eps : Word) (out : Nat) : Nat → Nat → Ctr2 → List (Nat × List Byte) → W (Byte × Ctr2 × List (Nat × List Byte))
  | 0, _, c, acc => return (sOK, c, acc)
  | k + 1, i, c, acc => do
    match ← readSpan (partOf (← getS) d) d (pslot g off i).1 65536 with
    | .error e => return (e, c, acc)
    | .ok bs =>
      let u := unitOf g ((pblocks g i).headD 0)
      let ((m0, x0), cu) := (gprepBlock n p4 eps bs).run (if u = 0 then c.1 else c.2)
      bump (gekA d u + 0x10) 1
      timed (gekA d u + 0x14)
      gprepGo d g off n p4 eps (out + 32) k (i + 1) (onUnit u c fun _ => cu) (acc ++ [(out * 4096, m0 ++ x0)])

/-- Output blocks written in order until one fails. -/
def writeRuns (p : Nat) (d : Fin 8) : List (Nat × List Byte) → W Byte
  | [] => return sOK
  | (a, b) :: r => do
    let st ← writeSpan p d a b
    if st ≠ sOK then return st
    writeRuns p d r

/-- The work of GPREP. (DESIGN CHOICE, log 15) -/
def gprepWork (d : Fin 8) (_ : Nat) (ws : Words) : W Res := do
  gekStart d ws
  let s ← getS
  let ctx := fld (cw ws 5) 9 0
  match ctxOf (s.die d) ctx with
  | none => gekFail d ctx sPARAM; return { status := sPARAM }
  | some cx =>
    let g := gctx (cRecipe ws) cx
    let right := bitOf (cw ws 9) 1
    let (st, c, runs) ← gprepGo d g (if right then 68 else 64) (if right then g.bc else g.br) (bitOf (cw ws 9) 0) (fclean (cw ws 11))
      (fld (cw ws 10) 21 0) (fld (cw ws 5) 20 10) (cw ws 8).toNat ({}, {}) []
    let runs ← if st = sOK then pure runs else freePart runs
    let wr ← writeRuns (partOf s d) d runs
    let st := if st = sOK then wr else st
    gekCount d c
    if st ≠ sOK then gekFail d ctx st
    return { status := st, ctr := c.1.add c.2 }

/-- GPREP (R297). -/
def execGprep (d : Fin 8) (s : State) : Host.Outcome State Fault Refusal :=
  W.within fabScope s (startHead d 8 0x03 gekFree (gprepWork d))

end Sys2Proof.Machine
end

