-- ==== Sys2Proof/Machine/Matrix.lean ====
section
/-! DEFINITION. The matrix engines: 05_matrix_engines.md. -/

namespace Sys2Proof.Machine

/-- ME_ of engine `m` (R152). -/
def meA (d : Fin 8) (m : Nat) : Nat := regA d bME (0x200 * m)

/-- The queue of an ME and its VE. -/
def meQueue (m : Fin 4) : Fin 9 := ⟨m.val, by omega⟩

/-- Bank `b` of an ME. -/
def MeVe.bank (x : MeVe) (b : Nat) : NMap Word := if b = 0 then x.bank0 else x.bank1
/-- A bank replaced. -/
def MeVe.setBank (x : MeVe) (b : Nat) (v : NMap Word) : MeVe := if b = 0 then { x with bank0 := v } else { x with bank1 := v }
/-- Change an ME and VE. -/
def modMv (d : Fin 8) (m : Fin 4) (f : MeVe → MeVe) : W Unit := modD d fun x => { x with mv := x.mv.set m (f x.mv[m]) }

/-! ## The interlock (R134, R141) -/

/-- The bank that a VE command reads, if it reads one (R134, R180). -/
def veBank (ws : Words) : Option Nat :=
  let op := cOp ws
  if 0x40 ≤ op ∧ op ≤ 0x48 ∧ fld (cw ws 5) 31 30 < 2 then some (fld (cw ws 5) 31 30) else none
/-- The bank that a product command names. -/
def meBank (ws : Words) : Option Nat :=
  let op := cOp ws
  if 1 ≤ op ∧ op ≤ 4 then some (fld (cw ws 12) 18 18) else none

/-- A product starts when no earlier VE command that reads its bank is unfinished and no GBCLEAR is (R134, R141). Beside a
running product, which has not failed, the ME accepts one more. -/
def productFree (s : State) (d : Fin 8) (ws : Words) : Bool :=
  let cs := startedOf s d (cClass ws)
  let ps := cs.filter fun c => isProduct c.words
  (cs.all fun c => cOp c.words != 5 && (veBank c.words).all fun b => some b != meBank ws)
    && decide (ps.length ≤ 1) && ps.all fun c => !failing c.status

/-- A GBCLEAR starts when no product of its queue is unfinished (R141). -/
def clearFree (s : State) (d : Fin 8) (ws : Words) : Bool :=
  (startedOf s d (cClass ws)).all fun c => decide (5 < cOp c.words)

/-! ## Operands (R129 to R131) -/

/-- A stored matrix: its values, each times its block scale. -/
abbrev Vals := Array (Array Dy)
/-- A value of a matrix. -/
def vget (m : Vals) (i j : Nat) : Dy := (m.getD i #[]).getD j dyZero

/-- One panel row of at most 128 elements, with its four scale bytes when block-scaled. -/
def panelRow (f : Fmt) (n : Nat) (bytes scales : List Byte) : Cnt (List Dy) := do
  let codes := unpackCodes f n bytes
  if scales.isEmpty then codes.mapM (readCode f)
  else do
    let ss ← ((scales.take (cdiv n 32)).mapM fun b => readScale b.toNat)
    (codes.zipIdx).mapM fun (c, i) => do return dyShift (← readCode f c) (atD 0 ss (i / 32))

/-- An operand as a command names it. -/
structure Operand where
  base : Nat
  pstride : Nat
  scale : Nat
  spstride : Nat
  fmt : Fmt
  bs : Bool
  rows : Nat
  cols : Nat
  deriving DecidableEq, Repr

/-- The panels of an operand: per stored row the values of its panels, the number of rows read whole in every panel, the first
failure. -/
def loadPanels (p : Nat) (d : Fin 8) (o : Operand) : Nat → Nat → Ctr → List (List (List Dy)) → Nat → W (List (List (List Dy)) × Nat × Byte × Ctr)
  | 0, _, c, acc, good => return (acc, good, sOK, c)
  | k + 1, q, c, acc, good => do
    let rb := 16 * fmtBits o.fmt
    let n := min 128 (o.cols - 128 * q)
    let (eb, st) ← spanUntil p d (o.base + q * o.pstride * 4096) (o.rows * rb)
    let (sb, st2) ← if o.bs then spanUntil p d (o.scale + q * o.spstride * 128) (o.rows * 4) else pure ([], sOK)
    let good := min good (min (eb.length / rb) (if o.bs then sb.length / 4 else o.rows))
    let rows := chunks rb eb
    let srows := chunks 4 sb
    let work : Cnt (List (List Dy)) := (rows.zipIdx).mapM fun (r, i) => panelRow o.fmt n r (atD [] srows i)
    let (vs, c) := work.run c
    let acc := acc ++ [vs]
    let whole := if k = 0 then good else 0
    if st ≠ sOK then return (acc, whole, st, c)
    if st2 ≠ sOK then return (acc, whole, st2, c)
    loadPanels p d o k (q + 1) c acc good

/-- An operand read: its stored matrix, the leading rows that were read whole, the first failure, the counters. -/
def loadOperand (p : Nat) (d : Fin 8) (o : Operand) (c : Ctr) : W (Vals × Nat × Byte × Ctr) := do
  let (ps, good, st, c) ← loadPanels p d o (cdiv o.cols 128) 0 c [] o.rows
  let pa := ps.map (·.toArray)
  let m : Vals := ((List.range (if st = sOK then o.rows else good)).map fun r => (pa.flatMap fun q => q.getD r []).toArray).toArray
  return (m, good, st, c)

/-- The streamed operand of a command (R130, R149): stored M × K, or K × M with ORIENT 1. -/
def streamed (ws : Words) : Operand :=
  let m := fld (cw ws 11) 11 0
  let k := fld (cw ws 11) 31 16
  let o := bitOf (cw ws 12) 23
  { base := fld (cw ws 5) 21 0 * 4096, pstride := fld (cw ws 9) 31 16, scale := fld (cw ws 7) 26 0 * 128, spstride := fld (cw ws 10) 31 16
    fmt := (fmtOfCode (fld (cw ws 12) 31 28)).getD .fp32, bs := bitOf (cw ws 12) 21, rows := if o then k else m, cols := if o then m else k }
/-- The stationary operand of a command (R130, R149): stored N × K, or K × N with ORIENT 1. -/
def stationary (ws : Words) : Operand :=
  let n := fld (cw ws 12) 9 0
  let k := fld (cw ws 11) 31 16
  let o := bitOf (cw ws 12) 22
  { base := fld (cw ws 6) 21 0 * 4096, pstride := fld (cw ws 9) 15 0, scale := fld (cw ws 8) 26 0 * 128, spstride := fld (cw ws 10) 15 0
    fmt := (fmtOfCode (fld (cw ws 12) 27 24)).getD .fp32, bs := bitOf (cw ws 12) 20, rows := if o then k else n, cols := if o then n else k }

/-! ## The accumulation (R135, R147) -/

/-- One slice added to an accumulator: the products of the slice, zero ones left out. -/
def addSlice (acc : Word) (terms : List Dy) : Cnt Word :=
  match terms with
  | [] => return acc
  | t :: r => do
    let e := r.foldl (fun e p => max e (dyLog2 p)) (dyLog2 t)
    let w : Int := terms.foldl (fun w p => let n : Int := roundMag p (e - 70) .rtz 0; if p.m < 0 then w - n else w + n) 0
    return w32 (← roundTo .fp32 .rne 0 (dyAdd (fval acc) ⟨w, e - 70⟩))

/-- The slices of one element in ascending order, from slice `j` on. -/
def slicesGo (depth : Nat) (a b : Nat → Dy) : Nat → Nat → Word → Cnt Word
  | 0, _, acc => return acc
  | n + 1, j, acc => do
    let terms := (List.range (min 128 (depth - 128 * j))).filterMap fun i =>
      let p := dyMul (a (128 * j + i)) (b (128 * j + i))
      if dyIsZero p then none else some p
    slicesGo depth a b n (j + 1) (← addSlice acc terms)

/-- One element of a product: every pass over every slice (R135, R147). -/
def element (depth : Nat) (passes : List ((Nat → Dy) × (Nat → Dy))) (start : Word) : Cnt Word :=
  passes.foldlM (fun acc p => slicesGo depth p.1 p.2 (cdiv depth 128) 0 acc) start

/-- Piece `i` (1 to 3) of a value's split (R54). -/
def piece (i : Nat) (x : Dy) : Dy :=
  let p1 := truncBf16 x
  let p2 := truncBf16 (dySub x p1)
  if i = 1 then p1 else if i = 2 then p2 else truncBf16 (dySub (dySub x p1) p2)

/-- The passes of a SPLIT: pieces of A and of B (R55). -/
def splitPasses (pieces : Nat) : List (Nat × Nat) :=
  if pieces = 2 then [(2, 1), (1, 2), (1, 1)] else [(3, 1), (2, 2), (1, 3), (2, 1), (1, 2), (1, 1)]

/-- Every value of a matrix changed. -/
def mapVals (f : Dy → Dy) (m : Vals) : Vals := m.map fun r => r.map f

/-- The passes of a command over its matrices: A by (row, index), B by (index, column). -/
def passesOf (ws : Words) (sm wm : Vals) : List ((Nat → Nat → Dy) × (Nat → Nat → Dy)) :=
  let a : Vals → Nat → Nat → Dy := fun v m k => if bitOf (cw ws 12) 23 then vget v k m else vget v m k
  let b : Vals → Nat → Nat → Dy := fun v k n => if bitOf (cw ws 12) 22 then vget v k n else vget v n k
  if cOp ws = 4 then
    let ps := (List.range 4).map fun i => (mapVals (piece i) sm, mapVals (piece i) wm)
    (splitPasses (fld (cw ws 12) 17 16)).map fun (i, j) =>
      (a (atD (#[], #[]) ps i).1, b (atD (#[], #[]) ps j).2)
  else [(a sm, b wm)]

/-- The rows 0 to `rows - 1` of a product, from starting values. -/
def productRows (ws : Words) (sm wm : Vals) (rows : Nat) (start : Nat → Nat → Word) : Cnt (List (List Word)) :=
  let n := fld (cw ws 12) 9 0
  let k := fld (cw ws 11) 31 16
  let ps := passesOf ws sm wm
  (List.range rows).mapM fun i => (List.range n).mapM fun j =>
    element k (ps.map fun p => (p.1 i, fun x => p.2 x j)) (start i j)

/-- A bank with rows of values put over its columns from 0 on; the bank's other elements keep their values.
(DESIGN CHOICE, log 52) -/
def putRows (b : NMap Word) (rows : List (List Word)) : NMap Word :=
  (rows.zipIdx).foldl (fun b (r, i) => nsetRun 0 b (512 * i) r) b

/-- What every product command does as it starts (R152, R153). -/
def meStart (d : Fin 8) (m : Fin 4) (ws : Words) : W Unit := do
  setField (meA d m) 23 16 (cOp ws)
  timed (meA d m + 0x14)
  timed (meA d m + 0x18)
  timed (meA d m + 0x1C)

/-- A product that failed: its bank reads +0 (R151, R153). -/
def meFail (d : Fin 8) (m : Fin 4) (ws : Words) (st : Byte) (c : Ctr) : W Res := do
  modMv d m fun x => x.setBank (fld (cw ws 12) 18 18) []
  setFlags (meA d m) (2 + b2n (c.ovf != 0))
  return { status := st, ctr := c }

/-- Both operands read: the matrices, the output rows that depend on nothing that failed, the status. A special encoding counts
once in a command, however many passes stream it; where both operands fail, the stationary one's status is the command's. With ORIENT 1 a
streamed operand that fails leaves no row, so that a WGRAD then writes no tile (R151). (DESIGN CHOICE, log 52 and 57) -/
def loadBoth (p : Nat) (d : Fin 8) (ws : Words) : W (Vals × Vals × Nat × Byte × Ctr) := do
  let so := streamed ws
  let (sm, good, st, c) ← loadOperand p d so {}
  let (wm, _, st2, c) ← loadOperand p d (stationary ws) c
  let rows := if st2 ≠ sOK then 0 else if st = sOK then fld (cw ws 11) 11 0 else if bitOf (cw ws 12) 23 then 0 else good
  return (sm, wm, rows, if st2 ≠ sOK then st2 else st, c)

/-- The work of MATMUL, DGRAD and SPLIT (R135, R142, R147). A failing product counts no overflow of the slices before the failure.
(DESIGN CHOICE, log 52) -/
def productWork (d : Fin 8) (m : Fin 4) (_ : Nat) (ws : Words) : W Res := do
  meStart d m ws
  let (sm, wm, rows, st, c) ← loadBoth (partOf (← getS) d) d ws
  if st ≠ sOK then meFail d m ws st c
  else
    let b := fld (cw ws 12) 18 18
    let bank := ((← getD d).mv[m]).bank b
    let cont := bitOf (cw ws 12) 19
    let (out, c) := (productRows ws sm wm rows fun i j => if cont then nget 0 bank (512 * i + j) else 0).run c
    modMv d m fun x => x.setBank b (putRows (x.bank b) out)
    if c.ovf != 0 then setFlags (meA d m) 1
    return { ctr := c }

/-- MATMUL (R135). -/
def execMatmul (d : Fin 8) (m : Fin 4) (s : State) : Host.Outcome State Fault Refusal :=
  W.within fabScope s (startHead d (meQueue m) 0x01 productFree (productWork d m))
/-- DGRAD (R142). -/
def execDgrad (d : Fin 8) (m : Fin 4) (s : State) : Host.Outcome State Fault Refusal :=
  W.within fabScope s (startHead d (meQueue m) 0x02 productFree (productWork d m))
/-- SPLIT (R147). -/
def execSplit (d : Fin 8) (m : Fin 4) (s : State) : Host.Outcome State Fault Refusal :=
  W.within fabScope s (startHead d (meQueue m) 0x04 productFree (productWork d m))

/-! ## The wide gradient buffer (R143 to R146) -/

/-- The local address of a buffer row (R144). -/
def wgbRow (g : Nat) : Nat := 0x300000000 + 2048 * g

/-- The tiles of the buffer with new values over the first columns of a run of rows. -/
def wgbTiles (g0 : Nat) (old : List Byte) (rows : List (List Word)) : List (Nat × List Byte) :=
  let news := (rows.zipIdx).map fun (r, i) => (g0 + i, bytesOf r)
  let h0 := g0 / 2
  (chunks 4096 old).zipIdx.map fun (t, i) =>
    let h := h0 + i
    let row : Nat → List Byte := fun g =>
      let o := sub t (2048 * (g % 2)) 2048
      match news.find? (·.1 == g) with
      | some x => x.2 ++ o.drop x.2.length
      | none => o
    (0x300000000 + 4096 * h, row (2 * h) ++ row (2 * h + 1))

/-- The work of WGRAD (R143, R151): the bank is left holding the touched tiles as they are written back, G_ROW being even (R150). (DESIGN CHOICE, log 15) -/
def wgradWork (d : Fin 8) (m : Fin 4) (_ : Nat) (ws : Words) : W Res := do
  meStart d m ws
  let p := partOf (← getS) d
  let rows := fld (cw ws 11) 11 0
  let g0 := fld (cw ws 13) 17 0
  match ← readTiles p d (wgbRow g0 / 4096) (tileCount (wgbRow g0) (2048 * rows)) with
  | .error e => meFail d m ws e {}
  | .ok old =>
    let (sm, wm, good, st, c) ← loadBoth p d ws
    let cont := bitOf (cw ws 12) 19
    let n := fld (cw ws 12) 9 0
    let start : Cnt (List (Array Word)) := if cont then
        ((chunks 2048 (old.drop (2048 * (g0 % 2)))).take good).mapM fun r => do
          return (← ((wordsOf r).take n).mapM fun w => readX .fp32 w.toNat).toArray
      else pure []
    let (olds, c) := start.run c
    let olds := olds.toArray
    let (out, c) := (productRows ws sm wm good fun i j => (olds.getD i #[]).getD j 0).run c
    let tiles := wgbTiles g0 old out
    if st ≠ sOK then
      let k ← freeVal
      let whole := tiles.take ((good + g0 % 2) / 2)
      let _ ← putPieces p d (whole.take (k % (whole.length + 1)))
      meFail d m ws st c
    else
      let wr ← putPieces p d tiles
      if wr ≠ sOK then meFail d m ws wr c
      else
        let b := fld (cw ws 12) 18 18
        modMv d m fun x => x.setBank b (putRows (x.bank b) (tiles.flatMap fun t => (chunks 2048 t.2).map wordsOf))
        if c.ovf != 0 then setFlags (meA d m) 1
        return { ctr := c }

/-- WGRAD (R143). -/
def execWgrad (d : Fin 8) (m : Fin 4) (s : State) : Host.Outcome State Fault Refusal :=
  W.within fabScope s (startHead d (meQueue m) 0x03 productFree (wgradWork d m))

/-- The work of GBCLEAR (R146). -/
def gbclearWork (d : Fin 8) (_ : Nat) (ws : Words) : W Res := do
  let st ← writeSpan (partOf (← getS) d) d (wgbRow (fld (cw ws 13) 17 0)) (zeros (2048 * fld (cw ws 14) 18 0))
  return { status := st }

/-- GBCLEAR (R146). -/
def execGbclear (d : Fin 8) (m : Fin 4) (s : State) : Host.Outcome State Fault Refusal :=
  W.within fabScope s (startHead d (meQueue m) 0x05 clearFree (gbclearWork d))

end Sys2Proof.Machine
end

