-- ==== Sys2Proof/Machine/Vector.lean ====
section
/-! DEFINITION. The vector engines: 06_vector_engines.md. -/

namespace Sys2Proof.Machine

/-- VE_ of engine `m` (R183). -/
def veA (d : Fin 8) (m : Nat) : Nat := regA d bVE (0x200 * m)

/-! ## Function tables (R162 to R165) -/

/-- The words of a table slot. -/
def tableWords (x : MeVe) (slot : Nat) : Array Word := (wordsOf (nrun 0 x.tables (slot * 4096) 4096)).toArray
/-- A word of a table. -/
def tw (t : Array Word) (i : Nat) : Word := t.getD i 0
/-- MODE of a table. -/
def tMode (t : Array Word) : Nat := fld (tw t 0) 7 0
/-- E_LO of a table. -/
def tElo (t : Array Word) : Int := signedOf 8 (fld (tw t 0) 15 8)

/-- y = fma(fma(C2, u, C1), u, C0) on segment `i` (R163). -/
def poly (t : Array Word) (i : Nat) (u : Dy) : Cnt Word := do
  let y ← fround (dyAdd (dyMul (fval (tw t (10 + 3 * i))) u) (fval (tw t (9 + 3 * i))))
  fround (dyAdd (dyMul (fval y) u) (fval (tw t (8 + 3 * i))))

/-- Segment and offset of a magnitude, octaves 0 to `top` (R163). -/
def segment (elo : Int) (top : Nat) (x : Word) : Cnt (Nat × Dy) := do
  let a := dyAbs (lval x)
  let e := dyLog2 a
  let o := e - elo
  let k := fld x 22 20
  if o < 0 then return (0, fval (← fround (dySub a (dyPow2 elo))))
  else if o ≤ top then return (8 * o.toNat + k, dySub a ⟨(8 + k : Nat), e - 3⟩)
  else return (8 * top + 7, fval (← fround (dySub a ⟨15, elo + top - 3⟩)))

/-- A table evaluated (R163, R157). -/
def tableEval (t : Array Word) (x : Word) : Cnt Word := do
  match tMode t with
  | 0 =>
    if fzero x then return fclean (tw t 1)
    let (i, u) ← segment (tElo t) 15 x
    poly t (i + if (lval x).m < 0 then 128 else 0) u
  | 1 =>
    if (lval x).m ≤ 0 then do cntDom 1; return 0xC3000000
    else do
      let (i, u) ← segment (tElo t) 31 x
      poly t i u
  | _ =>
    let v := lval x
    let n := dyFloor v
    if 128 ≤ n then do cntOvf 1; return fBig
    else if n < -126 then return 0
    else do
      let f := dySub v (dyInt n)
      let i := (dyFloor (dyShift f 8)).toNat
      let y ← poly t i (dySub f ⟨i, -8⟩)
      fround (dyShift (fval y) n)

/-- Does a table meet R164? -/
def tableOk (bs : List Byte) : Bool :=
  let ws := (wordsOf bs).toArray
  let mode := tMode ws
  let elo := tElo ws
  decide (mode ≤ 2) && decide (fld (tw ws 0) 31 16 = 0) && allZero (sub bs 8 24) && allZero (sub bs 3104 992)
    && !fspecial (tw ws 1) && (mode == 0 || tw ws 1 == 0)
    && ((List.range 768).all fun i => !fspecial (tw ws (8 + i)))
    && (if mode = 0 then decide (-126 ≤ elo ∧ elo ≤ 112) else if mode = 1 then decide (-126 ≤ elo ∧ elo ≤ 96) else decide (elo = 0))

/-- A table put into a slot. -/
def MeVe.loadTable (x : MeVe) (slot : Nat) (bs : List Byte) : MeVe :=
  { x with tables := nsetRun 0 x.tables (slot * 4096) (padTo 4096 bs), valid := nset false x.valid slot true }

/-! ## Operand fields (R180) -/

/-- M. -/
def vM (ws : Words) : Nat := fld (cw ws 5) 27 16
/-- N. -/
def vN (ws : Words) : Nat := fld (cw ws 5) 15 0
/-- SRC. -/
def vSrc (ws : Words) : Nat := fld (cw ws 5) 31 30
/-- SIDE_OP. -/
def vSideOp (ws : Words) : Nat := fld (cw ws 6) 22 21
/-- ROW_OP. -/
def vRowOp (ws : Words) : Nat := fld (cw ws 6) 20 18
/-- SUM_EN. -/
def vSumEn (ws : Words) : Bool := bitOf (cw ws 6) 16
/-- NO_OUT. -/
def vNoOut (ws : Words) : Bool := bitOf (cw ws 6) 0
/-- SIDE_BASE as an address. -/
def vSideA (ws : Words) : Nat := fld (cw ws 8) 21 0 * 4096
/-- ROW_BASE as an address. -/
def vRowA (ws : Words) : Nat := fld (cw ws 10) 21 0 * 4096
/-- OUT_BASE as an address. -/
def vOutA (ws : Words) : Nat := fld (cw ws 9) 21 0 * 4096
/-- ALPHA. -/
def vAlpha (ws : Words) : Word := cw ws 11
/-- SIDE_FMT. -/
def vSideFmt (ws : Words) : Fmt := (fmtOfCode (fld (cw ws 6) 7 4)).getD .fp32
/-- Does the command read a side tensor? -/
def vHasSide (ws : Words) : Bool := cOp ws == 0x41 || (cOp ws == 0x40 && vSideOp ws != 0)
/-- Does the command read records at SIDE_BASE? -/
def vHasRecs (ws : Words) : Bool := decide (0x44 ≤ cOp ws ∧ cOp ws ≤ 0x48)
/-- Is the command a normalisation? -/
def vNorm (ws : Words) : Bool := cOp ws == 0x42 || cOp ws == 0x43

/-- Bytes of a row-major tensor with its scale array, in whole tiles of elements (R171). -/
def tensorTiles (f : Fmt) (bs : Bool) (n : Nat) : Nat := cdiv (packBytes f n) 4096 + (if bs then cdiv (n / 32) 4096 else 0)

/-- The vector area (R180). -/
def vArea (ws : Words) : Nat :=
  if vHasSide ws then vSideA ws + 4096 * tensorTiles (vSideFmt ws) (bitOf (cw ws 6) 2) (vM ws * vN ws)
  else if vHasRecs ws then vSideA ws + cdiv (16 * vM ws) 4096 * 4096
  else vSideA ws

/-! ## Reading (R158, R171) -/

/-- Elements that a number of packed bytes holds whole. -/
def elemsIn (f : Fmt) (n : Nat) : Nat :=
  match fmtBits f with | 6 => n / 3 * 4 | 4 => 2 * n | b => n / (b / 8)

/-- Rows read so far, of how many, what failed, and the counters. -/
structure Loaded where
  rows : List (List Word) := []
  good : Nat
  st : Byte := 0
  ctr : Ctr
  deriving DecidableEq, Repr

/-- A row-major tensor in the store rooms as FP32 rows, up to the first row that depends on a failed tile. -/
def loadTensor (p : Nat) (d : Fin 8) (a : Nat) (f : Fmt) (bs : Bool) (m n : Nat) (c : Ctr) : W Loaded := do
  let nb := packBytes f (m * n)
  let (eb, st) ← spanUntil p d a nb
  let (sb, st2) ← if bs then spanUntil p d (a + cdiv nb 4096 * 4096) (m * n / 32) else pure ([], sOK)
  let rows := elemsIn f eb.length / max 1 n
  let srows := if bs then 32 * sb.length / max 1 n else m
  let good := min m (min rows srows)
  let work : Cnt (List Word) := do
    let ss ← (sb.take (good * n / 32)).mapM fun b => readScale b.toNat
    let sa := ss.toArray
    (unpackCodes f (good * n) eb).zipIdx.mapM fun (x, i) => readEl f bs x (sa.getD (i / 32) 0)
  let (vals, c) := work.run c
  let rs := (List.range good).map fun i => (vals.drop (i * n)).take n
  return { rows := rs, good, st := if st ≠ sOK ∧ rows ≤ srows then st else if st2 ≠ sOK then st2 else st, ctr := c }

/-- FP32 values that every row needs, or that rows of `per` values need. -/
def loadF32 (p : Nat) (d : Fin 8) (a m per : Nat) (c : Ctr) : W Loaded := loadTensor p d a .fp32 false m per c

/-! ## Row reductions (R157, R161) -/

/-- A reduction: its operation on two elements that take part, and on one beside the identity of an absent or masked column. -/
structure Red (α : Type) where
  two : α → α → Cnt α
  one : α → Cnt α

/-- A reduction's operation on entries that may be the identity. -/
def Red.op {α : Type} (f : Red α) : Option α → Option α → Cnt (Option α)
  | some a, some b => do return some (← f.two a b)
  | some a, none => do return some (← f.one a)
  | none, some b => do return some (← f.one b)
  | none, none => return none

/-- One level of the tree. -/
def pairUp {α : Type} (f : Red α) : List (Option α) → Cnt (List (Option α))
  | a :: b :: r => do return (← f.op a b) :: (← pairUp f r)
  | [x] => do return [← f.op x none]
  | [] => return []

/-- The levels of the tree; what is left of a chunk is one entry. -/
def treeGo {α : Type} (f : Red α) : Nat → List (Option α) → Cnt (Option α)
  | 0, l => return (l.headD none)
  | n + 1, l => do treeGo f n (← pairUp f l)

/-- A row reduced: 512-column chunks by the tree, then the chunks in ascending order; none for no elements. -/
def rowReduce {α : Type} (f : Red α) (l : List (Option α)) : Cnt (Option α) := do
  let cs ← (List.range (cdiv l.length 512)).mapM fun i => treeGo f 9 ((l.drop (512 * i)).take 512)
  match cs with
  | [] => return none
  | c :: r => r.foldlM f.op c

/-- Addition of R156 on exact entries; beside the identity +0 it rounds as well. -/
def addD (a b : Dy) : Cnt Dy := do return lval (← fround (dyAdd a b))
/-- The sum. -/
def sumRed : Red Dy := { two := addD, one := fun a => addD a dyZero }
/-- An exact choice between two entries, which the identity never wins. -/
def pickRed {α : Type} (first : α → α → Bool) : Red α :=
  { two := fun a b => return if first a b then a else b, one := fun a => return a }
/-- The maximum. -/
def maxRed : Red Dy := pickRed fun a b => !dyLt a b
/-- The minimum. -/
def minRed : Red Dy := pickRed fun a b => !dyLt b a

/-- A row's sum, maximum and minimum over its present elements. -/
def sumRow (l : List (Option Dy)) : Cnt Dy := do return (← rowReduce sumRed l).getD dyZero
/-- Maximum; M_NONE over no elements. -/
def maxRow (l : List (Option Dy)) : Cnt Dy := do return (← rowReduce maxRed l).getD (lval mNone)
/-- Minimum; the largest finite value over no elements. -/
def minRow (l : List (Option Dy)) : Cnt Dy := do return (← rowReduce minRed l).getD (lval fBig)

/-- The row output of ROW_OP (R161). -/
def rowOut (op : Nat) (xs : List (Option Word)) : Cnt Word := do
  let l := xs.map fun x => x.map lval
  match op with
  | 1 => fround (← sumRow l)
  | 2 => fround (← maxRow l)
  | 3 => fround (← minRow l)
  | 4 =>
    let r ← rowReduce (pickRed fun (a b : Dy × Nat) => !dyLt a.1 b.1) (l.zipIdx.map fun (x, i) => x.map fun v => (v, i))
    match r with
    | some (_, i) => fround (dyInt i)
    | none => return fm1
  | _ =>
    let sq ← l.mapM fun x => match x with
      | some v => do return some (lval (← fround (dyMul v v)))
      | none => return none
    fround (← sumRow sq)

/-! ## One row of each operation -/

/-- What a row gives: its values, its record, its row output, its part of the summary and the conditions it met. -/
structure RowRes where
  out : List Word := []
  record : List Word := []
  rowv : List Word := []
  summ : Dy × Dy × Dy := (dyZero, dyZero, dyZero)
  isLazy : Bool := false
  zero : Bool := false
  deriving DecidableEq, Repr

/-- Masked positions dropped. -/
def present {α : Type} (live : List Bool) (xs : List α) : List (Option α) :=
  List.zipWith (fun x (l : Bool) => if l then some x else none) xs live

/-- The values of a row with its masked elements +0. -/
def blankMasked (live : List Bool) (xs : List Word) : List Word := List.zipWith (fun x (l : Bool) => if l then x else 0) xs live

/-- EPI and BWD (R159, R179); `al` is ALPHA as read. -/
def epiRow (ws : Words) (al : Word) (ex : Word → Cnt Word) (live : List Bool) (a side : List Word) : Cnt RowRes := do
  let n := a.length
  let sd := side.toArray
  let av := a.toArray
  let x3 ← (List.range n).mapM fun i => do
    let s := sd.getD i 0
    let v := av.getD i 0
    if cOp ws = 0x41 then fmul v (← ex s)
    else
      let x1 ← if vSideOp ws = 1 then ffma al v s else fmul al v
      let x2 ← if bitOf (cw ws 6) 23 then ex x1 else pure x1
      if vSideOp ws = 2 then fmul x2 s else pure x2
  let out := blankMasked live x3
  let rowv ← if vRowOp ws = 0 then pure [] else do pure [← rowOut (vRowOp ws) (present live out)]
  return { out, rowv }

/-- NORM_LN and NORM_RMS (R167); `eps` is EPS as read. A masked element enters the sums as +0 (R160); the divisor stays N, and its
normalised value is written like the others. (DESIGN CHOICE, log 57) -/
def normRow (ws : Words) (eps : Word) (live : List Bool) (a gamma : List Word) : Cnt RowRes := do
  let all : List Word → List (Option Dy) := fun l => (present live l).map fun x => x.map lval
  let n ← fround (dyInt a.length)
  let ln := cOp ws == 0x42
  let mean ← if ln then do fdiv (← fround (← sumRow (all a))) n else pure 0
  let dv ← if ln then a.mapM fun x => fsub x mean else pure a
  let sq ← dv.mapM fun x => fmul x x
  let var ← fdiv (← fround (← sumRow (all sq))) n
  let rstd ← frsqrt (← fadd var eps)
  let ga := gamma.toArray
  let out ← dv.zipIdx.mapM fun (x, i) => do fmul (← fmul x rstd) (ga.getD i 0)
  return { out, record := [mean, rstd, 0, 0] }

/-- The differences round(x - m) of a row's unmasked scores; none where the old maximum is M_NONE. -/
def diffs (m : Word) (xs : List (Option Word)) : Cnt (List (Option Word)) :=
  xs.mapM fun x => match x with
    | some v => if m == mNone then return none else do return some (← fsub v m)
    | none => return none

/-- SMX_MAX, SMX_EXP and SMX_LAZY (R168 to R170); `al` is ALPHA as read. -/
def smxRow (ws : Words) (al : Word) (ex : Word → Cnt Word) (live : List Bool) (a r0 : List Word) : Cnt RowRes := do
  let op := cOp ws
  let mo := atD 0 r0 0
  let lo := atD 0 r0 1
  let ro := atD 0 r0 2
  let xs ← (present live a).mapM fun x => match x with
    | some v => do return some (← fmul al v)
    | none => return none
  let dv ← if op ≠ 0x44 ∨ vSumEn ws then diffs mo xs else pure []
  let big := (dv.filterMap id).foldl (fun (b : Option Word) v => match b with | some w => some (fmax w v) | none => some v) none
  let out ← if op = 0x44 then pure [] else dv.mapM fun x => match x with
    | some v => ex v
    | none => return 0
  let lblk ← if op = 0x44 then pure 0 else do fround (← sumRow ((present live out).map fun x => x.map lval))
  let rcd ← if op = 0x45 then do
      pure [mo, ← fadd (← fmul lo ro) lblk, ro, 0]
    else do
      let mb ← fround (← maxRow (xs.map fun x => x.map lval))
      let m := fmax mo mb
      let r ← if mo == mNone then pure 0 else do ex (← fsub mo m)
      let l ← if op = 0x44 then pure lo else do fmul (← fadd lo lblk) r
      pure [m, l, r, 0]
  let above := dv.any fun x => x.any fun v => flt 0x42800000 v
  return { out, record := rcd
           summ := (lval (big.getD mNone), lval (atD 0 rcd 0), lval lblk)
           isLazy := op == 0x46 && (above || (mo == mNone && live.any id)) }

/-- ACC_SCALE (R169). -/
def scaleRow (a r0 : List Word) : Cnt RowRes := do
  let r := atD 0 r0 2
  return { out := ← a.mapM fun v => fmul v r, summ := (lval r, lval r, lval r) }

/-- SMX_FINAL (R169). -/
def finalRow (ex : Word → Cnt Word) (a r0 : List Word) : Cnt RowRes := do
  let m := atD 0 r0 0
  let l := atD 0 r0 1
  let out ← a.mapM fun v => fdiv v l
  let lse ← fadd m (← ex l)
  return { out, record := [m, l, atD 0 r0 2, lse], zero := fzero l }

/-- Does an opcode read its ALPHA word as an FP32 value (R180)? -/
def vHasAlpha (ws : Words) : Bool := cOp ws == 0x40 || decide (0x42 ≤ cOp ws ∧ cOp ws ≤ 0x46)

/-- One row of a command. -/
def veRow (ws : Words) (al : Word) (ex : Word → Cnt Word) (live : List Bool) (a side gamma r0 : List Word) : Cnt RowRes :=
  match cOp ws with
  | 0x40 => epiRow ws al ex live a side
  | 0x41 => epiRow ws al ex live a side
  | 0x42 => normRow ws al live a gamma
  | 0x43 => normRow ws al live a gamma
  | 0x47 => scaleRow a r0
  | 0x48 => finalRow ex a r0
  | _ => smxRow ws al ex live a r0

/-! ## Outputs (R171, R182) -/

/-- A tensor's tiles: all of them padded, or after a failure only those that the bytes so far fill. -/
def areaTiles (full : Bool) (base : Nat) (bs : List Byte) : List (Nat × List Byte) :=
  let t := if full then chunks 4096 (padTiles bs) else (chunks 4096 bs).filter fun c => c.length == 4096
  t.zipIdx.map fun (c, i) => (base + 4096 * i, c)

/-- The tiles of the element output and its scales; `rows` of `m` are there. -/
def outTiles (full : Bool) (base : Nat) (panel : Bool) (f : Fmt) (bs : Bool) (m n : Nat) (codes scales : List (List Nat)) : List (Nat × List Byte) :=
  if !panel then
    let esz := cdiv (packBytes f (m * n)) 4096 * 4096
    areaTiles full base (packCodes f codes.flatten)
      ++ (if bs then areaTiles full (base + esz) (scales.flatten.map b8) else [])
  else
    let np := cdiv n 128
    let pt := cdiv (m * 16 * fmtBits f) 4096 * 4096
    let els := (List.range np).flatMap fun q =>
      areaTiles full (base + q * pt) (codes.flatMap fun r => packCodes f (((r.drop (128 * q)) ++ List.replicate 128 0).take (min 128 (n - 128 * q)) ++ List.replicate (128 - min 128 (n - 128 * q)) 0))
    let sps := cdiv (4 * m) 128 * 128
    let area := (List.range np).flatMap fun q => padTo sps (scales.flatMap fun r => padTo 4 (((r.drop (4 * q)).take 4).map b8))
    let lineOk : Nat → Bool := fun l => full || decide (min m (l * 128 % sps / 4 + 32) ≤ codes.length)
    let sct := ((chunks 4096 area).zipIdx.filter fun (_, i) => (List.range 32).all fun l => decide (np * sps ≤ (32 * i + l) * 128) || lineOk (32 * i + l)).map
      fun (c, i) => (base + np * pt + 4096 * i, padTo 4096 c)
    els ++ (if bs then sct else [])

/-! ## A command (R159 to R176) -/

/-- The VE runs its commands one at a time in queue order (R165, R173). -/
def vtFree (s : State) (d : Fin 8) (ws : Words) : Bool :=
  (startedOf s d (cClass ws)).all fun c => decide (cOp c.words < 0x40)

/-- A VE command starts when the one before it has completed and, where it reads a bank, no earlier product that names the bank
is unfinished (R134, R173). -/
def veFree (s : State) (d : Fin 8) (ws : Words) : Bool :=
  vtFree s d ws && (startedOf s d (cClass ws)).all fun c => (meBank c.words).all fun b => some b != veBank ws

/-- A VE command that fails (R184). -/
def veFail (d : Fin 8) (m : Fin 4) (st : Byte) (c : Ctr) : W Res := do
  setFlags (veA d m) 2
  return { status := st, ctr := c }

/-- The table that a command names, where it names one: its slot, and the mode it must have (R165, R169). -/
def veTable (ws : Words) : Option (Nat × Option Nat) :=
  match cOp ws with
  | 0x40 => if bitOf (cw ws 6) 23 then some (fld (cw ws 6) 31 28, none) else none
  | 0x41 => some (fld (cw ws 6) 27 24, none)
  | 0x44 => some (fld (cw ws 6) 31 28, some 2)
  | 0x45 => some (fld (cw ws 6) 31 28, some 2)
  | 0x46 => some (fld (cw ws 6) 31 28, some 2)
  | 0x48 => some (fld (cw ws 6) 31 28, some 1)
  | _ => none

/-- The status of the table a command names. -/
def tableStatus (x : MeVe) (ws : Words) : Byte :=
  match veTable ws with
  | none => sOK
  | some (slot, mode) =>
    if !nget false x.valid slot then sABSENT
    else if mode.any fun m => m != tMode (tableWords x slot) then sPARAM else sOK

/-- What counts as masked in a row (R160). -/
def liveRow (x : MeVe) (ws : Words) (m : Nat) : List Bool :=
  (List.range (vN ws)).map fun n =>
    !bitOf (cw ws 6) 17 || decide (((x.col0 + n : Nat) : Int) ≤ ((x.row0 + m : Nat) : Int) + signedOf 32 x.maskOff)

/-- The summary of a command (R174, R175), its own sums and roundings counted. -/
def summaryOf (rows : List RowRes) (summ : List (Dy × Dy × Dy)) (empty : Bool) (idx : Nat) : Cnt Summary := do
  let mx := summ.foldl (fun a x => if dyLt a x.1 then x.1 else a) ((summ.head?.map (·.1)).getD dyZero)
  let mn := summ.foldl (fun a x => if dyLt x.2.1 a then x.2.1 else a) ((summ.head?.map (·.2.1)).getD dyZero)
  let sm ← summ.foldlM (fun a x => addD a x.2.2) dyZero
  let isLazy := rows.any (·.isLazy)
  let mx ← fround mx
  let mn ← fround mn
  let sm ← fround sm
  let c ← get
  let flags := b2n isLazy + 2 * b2n (c.dom != 0) + 4 * b2n (c.ovf != 0) + 8 * b2n (c.ufz != 0) + 16 * b2n (c.sat != 0)
    + 32 * b2n (c.scrub != 0) + 64 * b2n empty + 128 * b2n (rows.any (·.zero))
  return { max := mx, min := mn, sum := sm, sat := c.sat, scrub := c.scrub, flags := w32 flags
           status := if isLazy then sLAZYMAX else sOK, cmd := w32 idx }

/-- The failing part of what a command reads that leaves the fewest rows, the first of such: the rows that depend on nothing failed, and
the status (R182). (DESIGN CHOICE, log 57) -/
def firstBad (m : Nat) (ls : List Loaded) : Nat × Byte :=
  ls.foldl (fun b l => if l.st ≠ sOK ∧ (b.2 = sOK ∨ l.good < b.1) then (min m l.good, l.st) else b) (m, sOK)

/-- Store-room or bank source rows. -/
def veSource (p : Nat) (d : Fin 8) (x : MeVe) (ws : Words) : W Loaded := do
  if vSrc ws < 2 then
    return { rows := (List.range (vM ws)).map fun i => nrun 0 (x.bank (vSrc ws)) (512 * i) (vN ws), good := vM ws, ctr := {} }
  else loadTensor p d (fld (cw ws 7) 21 0 * 4096) ((fmtOfCode (fld (cw ws 6) 11 8)).getD .fp32) (bitOf (cw ws 6) 3) (vM ws) (vN ws) {}

/-- The work of the row commands EPI to SMX_FINAL. `idx` is the command's index. ALPHA, the bias and gamma count a special encoding
once in a command, however many rows use it, and an element of the source once, however many passes of NORM_LN or NORM_RMS read it (R34).
Where a write fails with RANGE, the records, the row output and the tiles before it are written, in this order, and nothing after it (R182).
Of a command that fails, the counters of R56, VE_DOMAIN and OVF_SEEN show the rows before the failed input, or every row where it was a
write that failed; a failed SMX_LAZY counts in no VE_LAZYMAX and sets no LAZYMAX_SEEN. (DESIGN CHOICE, log 15 and 52) -/
def veWork (d : Fin 8) (m : Fin 4) (idx : Nat) (ws : Words) : W Res := do
  setField (veA d m) 23 16 (cOp ws)
  timed (veA d m + 8)
  timed (veA d m + 0xC)
  timed (meA d m + 0x1C)
  let s ← getS
  let p := partOf s d
  let x := (s.die d).mv[m]
  if tableStatus x ws ≠ sOK then veFail d m (tableStatus x ws) {}
  else
    let none_ : Ctr → Loaded := fun c => { good := vM ws, ctr := c }
    let src ← veSource p d x ws
    let side ← if vHasSide ws then loadTensor p d (vSideA ws) (vSideFmt ws) (bitOf (cw ws 6) 2) (vM ws) (vN ws) src.ctr else pure (none_ src.ctr)
    let recs ← if vHasRecs ws then loadF32 p d (vSideA ws) (vM ws) 4 side.ctr else pure (none_ side.ctr)
    let dc := descOf s d (cRecipe ws) ((List.range 4).map fun i => cw ws (12 + i))
    let bias ← if dc.bias ∧ !vNoOut ws then loadF32 p d (vArea ws) 1 (vN ws) recs.ctr else pure { good := 1, ctr := recs.ctr }
    let gamma ← if vNorm ws then loadF32 p d (vArea ws + (if dc.bias then cdiv (4 * vN ws) 4096 * 4096 else 0)) 1 (vN ws) bias.ctr
      else pure { good := 1, ctr := bias.ctr }
    let all := fun (l : Loaded) => if l.st ≠ sOK then { l with good := 0 } else l
    let (upto, st) := firstBad (vM ws) [src, side, recs, all bias, all gamma]
    let upto := if cOp ws = 0x47 ∧ st ≠ sOK then 0 else upto
    let ex : Word → Cnt Word := match veTable ws with
      | some (slot, _) => tableEval (tableWords x slot)
      | none => pure
    let lives := (List.range upto).map (liveRow x ws)
    let biasA := ((bias.rows.headD []).map lval).toArray
    let rowLen := if x.rowLen = 0 then vN ws else x.rowLen
    let work : Cnt (List RowRes × List (List Nat × List Nat × List Dy)) := do
      let al ← if vHasAlpha ws then readX .fp32 (vAlpha ws).toNat else pure 0
      let rs ← (List.range upto).mapM fun i =>
        veRow ws al ex (atD [] lives i) (atD [] src.rows i) (atD [] side.rows i) (gamma.rows.headD []) (atD [] recs.rows i)
      let conv : RowRes × Nat → Cnt (List Nat × List Nat × List Dy) := fun (r, i) =>
        convRowT dc.conv (r.out.zipIdx.map fun (v, n) =>
          (lval v, biasA.getD n dyZero, ((x.row0 + i) * rowLen + x.col0 + n) % 2 ^ 64))
      let cv ← if vNoOut ws then pure [] else rs.zipIdx.mapM conv
      return (rs, cv)
    let ((rs, cv), c) := work.run gamma.ctr
    let full := st = sOK
    let plan := (if rs.any (!·.record.isEmpty) then areaTiles full (vRowA ws) (bytesOf (rs.flatMap (·.record))) else [])
      ++ (if vRowOp ws ≠ 0 ∧ cOp ws ≤ 0x41 then areaTiles full (vRowA ws) (bytesOf (rs.flatMap (·.rowv))) else [])
      ++ (if vNoOut ws then [] else
        outTiles full (vOutA ws) (bitOf (cw ws 6) 1) dc.conv.fmt dc.conv.bs (vM ws) (vN ws) (cv.map (·.1)) (cv.map (·.2.1)))
    let plan ← if full then pure plan else freePart plan
    let wr ← putPieces p d plan
    bump (veA d m + 0x14) c.dom.toNat
    if c.dom != 0 then setFlags (veA d m) 8
    let st := if full then wr else st
    let perRow := cOp ws ≤ 0x43 ∨ cOp ws = 0x48
    let summW : Cnt Summary := do
      let summ ← if perRow then (List.range upto).mapM fun i => do
          let live := atD [] lives i
          let ts := if vNoOut ws then ((atD {} rs i).out.map lval) else (atD ([], [], []) cv i).2.2
          let l := present live ts
          return (← maxRow l, ← minRow l, ← sumRow l)
        else pure (rs.map (·.summ))
      summaryOf rs summ (lives.any fun l => !l.any id) idx
    let (sm, c2) := summW.run c
    let c := if vSumEn ws ∧ st = sOK then c2 else c
    if c.ovf != 0 then setFlags (veA d m) 1
    if st ≠ sOK then veFail d m st c
    else
      if cOp ws = 0x47 then
        modMv d m fun y => y.setBank (vSrc ws) (putRows (y.bank (vSrc ws)) (rs.map (·.out)))
      if rs.any (·.isLazy) then
        bump (veA d m + 0x10) 1
        setFlags (veA d m) 4
      return { ctr := c, summ := if vSumEn ws then some (fld (cw ws 6) 15 12, sm) else none
               feed := if vNoOut ws then none else feedOf (s.die d) dc.hist (cv.flatMap (·.2.2)) }

/-- A VE row command of an opcode. Its index in the summary is that of the command at the queue's head. -/
def veCommand (op : Nat) (d : Fin 8) (m : Fin 4) (s : State) : Host.Outcome State Fault Refusal :=
  let idx := ((((s.die d).queues[meQueue m]).head?).map (·.idx)).getD 0
  W.within fabScope s (startHead d (meQueue m) op veFree fun _ ws => veWork d m idx ws)

/-- EPI (R159). -/
def execEpi (d : Fin 8) (m : Fin 4) (s : State) : Host.Outcome State Fault Refusal := veCommand 0x40 d m s
/-- BWD (R166). -/
def execBwd (d : Fin 8) (m : Fin 4) (s : State) : Host.Outcome State Fault Refusal := veCommand 0x41 d m s
/-- NORM_LN (R167). -/
def execNormLn (d : Fin 8) (m : Fin 4) (s : State) : Host.Outcome State Fault Refusal := veCommand 0x42 d m s
/-- NORM_RMS (R167). -/
def execNormRms (d : Fin 8) (m : Fin 4) (s : State) : Host.Outcome State Fault Refusal := veCommand 0x43 d m s
/-- SMX_MAX (R169). -/
def execSmxMax (d : Fin 8) (m : Fin 4) (s : State) : Host.Outcome State Fault Refusal := veCommand 0x44 d m s
/-- SMX_EXP (R169). -/
def execSmxExp (d : Fin 8) (m : Fin 4) (s : State) : Host.Outcome State Fault Refusal := veCommand 0x45 d m s
/-- SMX_LAZY (R170). -/
def execSmxLazy (d : Fin 8) (m : Fin 4) (s : State) : Host.Outcome State Fault Refusal := veCommand 0x46 d m s
/-- ACC_SCALE (R169). -/
def execAccScale (d : Fin 8) (m : Fin 4) (s : State) : Host.Outcome State Fault Refusal := veCommand 0x47 d m s
/-- SMX_FINAL (R169). -/
def execSmxFinal (d : Fin 8) (m : Fin 4) (s : State) : Host.Outcome State Fault Refusal := veCommand 0x48 d m s

/-- The work of SETPOS (R180). -/
def setposWork (d : Fin 8) (m : Fin 4) (_ : Nat) (ws : Words) : W Res := do
  setField (veA d m) 23 16 (cOp ws)
  modMv d m fun x => { x with
    row0 := (cw ws 5).toNat + 2 ^ 32 * fld (cw ws 6) 7 0, col0 := (cw ws 7).toNat, rowLen := (cw ws 8).toNat, maskOff := (cw ws 9).toNat }
  return {}

/-- SETPOS (R180). -/
def execSetpos (d : Fin 8) (m : Fin 4) (s : State) : Host.Outcome State Fault Refusal :=
  W.within fabScope s (startHead d (meQueue m) 0x49 veFree (setposWork d m))

/-- The work of VTLOAD (R164, R165). -/
def vtloadWork (d : Fin 8) (m : Fin 4) (_ : Nat) (ws : Words) : W Res := do
  setField (veA d m) 23 16 (cOp ws)
  match ← readTile (partOf (← getS) d) d (fld (cw ws 7) 21 0 * 4096) with
  | .error e => veFail d m e {}
  | .ok t =>
    if tableOk t then
      modMv d m fun x => x.loadTable (fld (cw ws 6) 31 28) t
      return {}
    else veFail d m sPARAM {}

/-- VTLOAD (R165). -/
def execVtload (d : Fin 8) (m : Fin 4) (s : State) : Host.Outcome State Fault Refusal :=
  W.within fabScope s (startHead d (meQueue m) 0x4A vtFree (vtloadWork d m))

/-- The bins of a run of records zeroed (R178); a run that passes record 4,095 clears nothing there. (DESIGN CHOICE, log 52) -/
def clearBins (x : Die) (r n : Nat) : Die :=
  { x with hist := x.hist.filter fun p => !(within (p.1 / 272) r (r + n) && decide (16 ≤ p.1 % 272)) }

/-- The work of HCLEAR (R178). -/
def hclearWork (d : Fin 8) (m : Fin 4) (_ : Nat) (ws : Words) : W Res := do
  setField (veA d m) 23 16 (cOp ws)
  modD d fun x => clearBins x (fld (vAlpha ws) 11 0) (vN ws)
  return {}

/-- HCLEAR (R178). -/
def execHclear (d : Fin 8) (m : Fin 4) (s : State) : Host.Outcome State Fault Refusal :=
  W.within fabScope s (startHead d (meQueue m) 0x4B veFree (hclearWork d m))

/-- The work of HDUMP (R178); records past 4,095 are zero. (DESIGN CHOICE, log 52) -/
def hdumpWork (d : Fin 8) (m : Fin 4) (_ : Nat) (ws : Words) : W Res := do
  setField (veA d m) 23 16 (cOp ws)
  let s ← getS
  let x := s.die d
  let r := fld (vAlpha ws) 11 0
  let tiles := (List.range (cdiv (vN ws) 15)).map fun i =>
    (vOutA ws + 4096 * i, padTo 4096 (histBytes x (r + 15 * i) 0 (272 * min 15 (vN ws - 15 * i))))
  let st ← putPieces (partOf s d) d tiles
  if st ≠ sOK then veFail d m st {} else return {}

/-- HDUMP (R178). -/
def execHdump (d : Fin 8) (m : Fin 4) (s : State) : Host.Outcome State Fault Refusal :=
  W.within fabScope s (startHead d (meQueue m) 0x4C veFree (hdumpWork d m))

end Sys2Proof.Machine
end

