-- ==== Sys2Proof/Machine/Mover.lean ====
section
/-! DEFINITION. The mover: 09_cellar_loft_and_attic.md R261 to R270. -/

namespace Sys2Proof.Machine

/-- MOV_ (R278). -/
def movA (d : Fin 8) (off : Nat) : Nat := regA d bMOV off

/-- The mover runs one command at a time. -/
def movFree (s : State) (d : Fin 8) (_ : Words) : Bool := (startedOf s d 5).isEmpty

/-- What a mover command leaves in MOV_STATUS (R279). -/
def movEnd (d : Fin 8) (st : Byte) (c : Ctr) : W Res := do
  if st = sCHECK ∨ st = sUNCORR ∨ st = sRANGE then setFlags (movA d 0) 2
  return { status := st, ctr := c }

/-! ## COPY (R262, R267) -/

/-- The source and destination of each row, panel by panel (R262). -/
def copyRows (ws : Words) : List (Nat × Nat) :=
  let src := tileA (cw ws 5) + fld (cw ws 7) 31 16
  let dst := tileA (cw ws 6) + fld (cw ws 7) 15 0
  (List.range (fld (cw ws 9) 31 20)).flatMap fun q => (List.range (fld (cw ws 9) 19 0)).map fun r =>
    ((src + q * (cw ws 12).toNat + r * (cw ws 10).toNat) % 2 ^ 64, (dst + q * (cw ws 13).toNat + r * (cw ws 11).toNat) % 2 ^ 64)

/-- A source tile, read once in a command. -/
def cached (p : Nat) (d : Fin 8) (t : Nat) (cache : NMap (List Byte)) : W (Except Byte (List Byte) × NMap (List Byte)) := do
  let b := nget [] cache t
  if !b.isEmpty then return (.ok b, cache)
  match ← readTile p d (t * 4096) with
  | .error e => return (.error e, cache)
  | .ok b => return (.ok b, nset [] cache t b)

/-- The pieces of one row from `done` bytes on, one per source tile: where they go and their bytes. On a failure, its
status and the bytes done. -/
def rowPieces (p : Nat) (d : Fin 8) (src dst len : Nat) :
    Nat → Nat → List (Nat × List Byte) → NMap (List Byte) → W (List (Nat × List Byte) × NMap (List Byte) × Option (Byte × Nat))
  | 0, _, acc, cache => return (acc, cache, none)
  | f + 1, done, acc, cache => do
    if len ≤ done then return (acc, cache, none)
    let a := src + done
    let n := min (4096 - a % 4096) (len - done)
    if !permitRun (← getS) p d (dst + done) n true then return (acc, cache, some (sRANGE, done))
    match ← cached p d (a / 4096) cache with
    | (.error e, cache) => return (acc, cache, some (e, done))
    | (.ok b, cache) => rowPieces p d src dst len f (done + n) (acc ++ [(dst + done, sub b (a % 4096) n)]) cache

/-- All rows until one fails: the pieces, the source tiles, and with a failure its status and the destination bytes that
its row and the later ones still owe. -/
def copyPieces (p : Nat) (d : Fin 8) (len : Nat) : List (Nat × Nat) → List (Nat × List Byte) → NMap (List Byte) →
    W (List (Nat × List Byte) × NMap (List Byte) × Byte × List (Nat × Nat))
  | [], acc, cache => return (acc, cache, sOK, [])
  | (s, t) :: r, acc, cache => do
    match ← rowPieces p d s t len (len / 4096 + 2) 0 acc cache with
    | (acc, cache, none) => copyPieces p d len r acc cache
    | (acc, cache, some (e, done)) => return (acc, cache, e, (t + done, len - done) :: r.map fun x => (x.2, len))

/-- The destination tiles of pieces in the order in which they are complete. -/
def doneOrder (pieces : List (Nat × List Byte)) : List Nat :=
  ((pieces.reverse.flatMap fun (a, b) => (tilesOf a b.length).reverse).eraseDups).reverse

/-- Destination tiles written in order until one fails: how many, how many of them external merges, the status. -/
def putInOrder (p : Nat) (d : Fin 8) : List (Nat × List (Option Byte)) → Nat → Nat → W (Nat × Nat × Byte)
  | [], n, m => return (n, m, sOK)
  | t :: r, n, m => do
    let st ← putTile p d t false
    if st ≠ sOK then return (n, m, st)
    let ext := !wholeTile t && (storeOf (t.1 * 4096)).any fun x => x.1.isExt
    putInOrder p d r (n + 1) (m + b2n ext)

/-- The work of COPY. (DESIGN CHOICE, log 18) -/
def copyWork (d : Fin 8) (_ : Nat) (ws : Words) : W Res := do
  setField (movA d 0) 23 16 (cOp ws)
  let p := partOf (← getS) d
  let (pieces, cache, st, owed) ← copyPieces p d (fld (cw ws 8) 23 0) (copyRows ws) [] []
  let m := overlay [{ puts := pieces, ovf := 0 }]
  let tiles := ((doneOrder pieces).filter fun t => owed.all fun (a, n) => decide ((t + 1) * 4096 ≤ a ∨ a + n ≤ t * 4096)).map
    fun t => (t, nrun none m (t * 4096) 4096)
  freshChecks d ((tiles.filter wholeTile).map (·.1))
  let (n, ext, wst) ← putInOrder p d tiles 0 0
  bump (movA d 8) cache.length
  bump (movA d 0xC) n
  bump (movA d 0x20) ext
  movEnd d (if wst ≠ sOK then wst else st) {}

/-- COPY (R262). -/
def execCopy (d : Fin 8) (s : State) : Host.Outcome State Fault Refusal :=
  W.within fabScope s (startHead d 5 0x01 movFree (copyWork d))

/-! ## CONVERT (R263, R268) -/

/-- Whole tiles written in order until one fails: how many, and the status. -/
def putTilesGo (p : Nat) (d : Fin 8) : List (Nat × List Byte) → Nat → W (Nat × Byte)
  | [], n => return (n, sOK)
  | (a, b) :: r, n => do
    let st ← writeTile p d a b (crc32c b)
    if st ≠ sOK then return (n, st)
    putTilesGo p d r (n + 1)

/-- A run of whole tiles written: how many, and the status. -/
def putTiles (p : Nat) (d : Fin 8) (ts : List (Nat × List Byte)) (n : Nat) : W (Nat × Byte) := do
  freshChecks d (ts.map (·.1 / 4096))
  putTilesGo p d ts n

/-- The elements read as FP32 up to the first failed tile: the values, the status, the counters and the tiles read. -/
def loadElems (p : Nat) (d : Fin 8) (a : Nat) (f : Fmt) (bs : Bool) (total : Nat) : W (List Word × Byte × Ctr × Nat) := do
  let nb := packBytes f total
  let (eb, st) ← spanUntil p d a nb
  let (sb, st2) ← if bs then spanUntil p d (a + cdiv nb 4096 * 4096) (total / 32) else pure ([], sOK)
  let ne := min total (elemsIn f eb.length)
  let ns := if bs then 32 * sb.length else total
  let good := min ne ns
  let work : Cnt (List Word) := do
    let ss := (← (sb.take (cdiv good 32)).mapM fun b => readScale b.toNat).toArray
    (unpackCodes f good eb).zipIdx.mapM fun (x, i) => readEl f bs x (ss.getD (i / 32) 0)
  let (vals, c) := work.run {}
  return (vals, if st ≠ sOK ∧ ne ≤ ns then st else if st2 ≠ sOK then st2 else st, c, cdiv eb.length 4096 + cdiv sb.length 4096)

/-- The work of CONVERT. -/
def convertWork (d : Fin 8) (_ : Nat) (ws : Words) : W Res := do
  setField (movA d 0) 23 16 (cOp ws)
  let s ← getS
  let p := partOf s d
  let rows := fld (cw ws 7) 19 0
  let n := fld (cw ws 8) 23 0
  let srcBs := bitOf (cw ws 7) 27
  let dc := descOf s d (cRecipe ws) ((List.range 4).map fun i => cw ws (12 + i))
  let (vals, st, c, tin) ← loadElems p d (tileA (cw ws 5)) ((fmtOfCode (fld (cw ws 7) 31 28)).getD .fp32) srcBs (rows * n)
  let full := st = sOK
  let vals := if full then vals else vals.take (vals.length / 32 * 32)
  let rowLen := if (cw ws 11).toNat = 0 then n else (cw ws 11).toNat
  let elem0 := (cw ws 9).toNat + 2 ^ 32 * fld (cw ws 10) 15 0
  let work : Cnt (List (List Nat × List Nat × List Dy)) :=
    (List.range (cdiv vals.length n)).mapM fun r =>
      convRowT dc.conv (((vals.drop (r * n)).take n).zipIdx.map fun (v, k) => (lval v, dyZero, (elem0 + r * rowLen + k) % 2 ^ 64))
  let (cv, c) := work.run c
  let plan := outTiles full (tileA (cw ws 6)) false dc.conv.fmt dc.conv.bs rows n (cv.map (·.1)) (cv.map (·.2.1))
  let (tout, wst) ← putTiles p d plan 0
  let st := if wst ≠ sOK then wst else st
  bump (movA d 8) tin
  bump (movA d 0xC) tout
  if c.ovf != 0 then setFlags (movA d 0) 1
  return { ← movEnd d st c with feed := if st = sOK then feedOf (s.die d) dc.hist (cv.flatMap (·.2.2)) else none }

/-- CONVERT (R263). -/
def execConvert (d : Fin 8) (s : State) : Host.Outcome State Fault Refusal :=
  W.within fabScope s (startHead d 5 0x02 movFree (convertWork d))

/-! ## PACK and UNPACK (R264, R265) -/

/-- The element layout of a packed format by MODE: exponent bits, mantissa bits, bytes per element. -/
def packShape (mode : Nat) : Nat × Nat × Nat := match mode with | 1 => (8, 7, 2) | 2 => (4, 3, 1) | _ => (5, 2, 1)
/-- The MODE of a format: BF16, E4M3 or E5M2. -/
def packMode (f : Fmt) : Nat := match f with | .bf16 => 1 | .e4m3 => 2 | _ => 3

/-- The low `n` bits of a number, lowest first. -/
def bitsLE : Nat → Nat → List Bool
  | 0, _ => []
  | n + 1, v => decide (v % 2 = 1) :: bitsLE n (v / 2)
/-- The number that bits spell, lowest first. -/
def bitsNat : List Bool → Nat
  | [] => 0
  | b :: r => b2n b + 2 * bitsNat r
/-- A bit stream as bytes, padded with zero bits. -/
def bitBytes : Nat → List Bool → List Byte
  | 0, _ => []
  | f + 1, l => if l.isEmpty then [] else b8 (bitsNat (l.take 8)) :: bitBytes f (l.drop 8)
/-- A bit stream filled from bit 0 of its first byte upward. -/
def streamBytes (l : List Bool) : List Byte := bitBytes (l.length / 8 + 1) l
/-- The bits of bytes. -/
def byteBits (bs : List Byte) : List Bool := bs.flatMap fun b => bitsLE 8 b.toNat

/-- The elements of a tile. -/
def elemsOf (size : Nat) (bs : List Byte) : List Nat := (chunks size bs).map leNat

/-- The record of a tile (R264): its MODE and bytes. -/
def packTile (mode : Nat) (t : List Byte) : Nat × List Byte :=
  let (eb, mb, size) := packShape mode
  let es := elemsOf size t
  let expo : Nat → Nat := fun e => e / 2 ^ mb % 2 ^ eb
  let plane1 := streamBytes ((blocks32 (es.length / 32 + 1) es).flatMap fun g =>
    let xs := g.map expo
    let base := xs.foldl min (xs.headD 0)
    let span := xs.foldl max 0 - base
    let width := if span = 0 then 0 else span.log2 + 1
    bitsLE eb base ++ bitsLE 4 width ++ xs.flatMap fun x => bitsLE width (x - base))
  let plane2 := streamBytes (es.flatMap fun e => bitsLE (mb + 1) (e % 2 ^ mb + 2 ^ mb * (e / 2 ^ (mb + eb) % 2)))
  let r := plane1 ++ plane2
  if 4096 ≤ r.length then (0, t) else (mode, r)

/-- The exponent plane read back: the exponent fields and the bits used; none where a WIDTH exceeds EB. -/
def unpackExp (eb : Nat) : Nat → List Bool → Option (List Nat × Nat)
  | 0, _ => some ([], 0)
  | g + 1, l =>
    let base := bitsNat (l.take eb)
    let width := bitsNat ((l.drop eb).take 4)
    if eb < width then none
    else
      let l := l.drop (eb + 4)
      let xs := (List.range 32).map fun i => (base + bitsNat ((l.drop (i * width)).take width)) % 2 ^ eb
      (unpackExp eb g (l.drop (32 * width))).map fun (ys, n) => (xs ++ ys, n + eb + 4 + 32 * width)

/-- The tile that a record spells (R265). -/
def unpackTile (mode : Nat) (r : List Byte) : Option (List Byte) :=
  if mode = 0 then some r
  else
    let (eb, mb, size) := packShape mode
    let n := 4096 / size
    (unpackExp eb (n / 32) (byteBits r)).map fun (xs, used) =>
      let l := byteBits (r.drop (cdiv used 8))
      (xs.zipIdx).flatMap fun (x, i) =>
        let sm := bitsNat ((l.drop (i * (mb + 1))).take (mb + 1))
        natLE size (sm % 2 ^ mb + 2 ^ mb * x + 2 ^ (mb + eb) * (sm / 2 ^ mb))

/-- The directory entry of a record (R265). -/
def dirEntry (t : List Byte) (mode len : Nat) : List Byte := natLE 4 (crc32c t).toNat ++ natLE 2 len ++ [b8 mode, 0]

/-- The unit in which a record is written and read: a store-room line, or an external code word. -/
def slotUnit (a : Nat) : Nat := if (storeOf a).any fun x => x.1.isExt then 64 else 128

/-- A record put at the start of its slot; the slot's check word is then no valid one: which, is open.
(DESIGN CHOICE, log 18) -/
def writeSlot (p : Nat) (d : Fin 8) (a : Nat) (bs : List Byte) : W Byte := do
  let s ← getS
  match storeOf a with
  | none => return sRANGE
  | some (st, off) =>
    if !permitted s p d a true then return sRANGE
    if tileBusy s d st off then return sBUSY
    let e ← putCheck d st a off (w32 (← freeVal))
    if e ≠ sOK then return e
    emit (.put (keyOf d a) bs)
    return sOK

/-- A record read from its slot under the memory's codes alone. -/
def readSlot (p : Nat) (d : Fin 8) (a len : Nat) : W (Except Byte (List Byte)) := do
  let s ← getS
  match storeOf a with
  | none => return .error sRANGE
  | some (st, off) =>
    if !permitted s p d a false then return .error sRANGE
    if genBusy s d st off then return .error sBUSY
    match ← readBytes d a (cdiv len (slotUnit a) * slotUnit a) with
    | .error e => return .error e
    | .ok b => return .ok (b.take len)

/-- The tiles of a PACK from `i` on until one fails: the directory entries so far and the status. MOV_PACK_UNITS counts the units of its
records, not those of the directory, and MOV_EXT_MERGES none of the slots that it writes in part (R278). (DESIGN CHOICE, log 57) -/
def packGo (p : Nat) (d : Fin 8) (ws : Words) : Nat → Nat → List Byte → W (List Byte × Byte)
  | 0, _, dir => return (dir, sOK)
  | n + 1, i, dir => do
    match ← readTile p d (tileA (cw ws 5) + 4096 * i) with
    | .error e => return (dir, e)
    | .ok t =>
      bump (movA d 8) 1
      let (mode, r) := packTile (packMode ((fmtOfCode (fld (cw ws 7) 31 28)).getD .bf16)) t
      let a := tileA (cw ws 6) + 4096 * i
      let bs := padTo (cdiv r.length (slotUnit a) * slotUnit a) r
      let st ← writeSlot p d a bs
      if st ≠ sOK then return (dir, st)
      bump (movA d 0xC) 1
      bump (movA d 0x10) 1
      bump (movA d 0x14) (bs.length / 64)
      if mode = 0 then bump (movA d 0x18) 1
      packGo p d ws n (i + 1) (dir ++ dirEntry t mode r.length)

/-- The work of PACK. Its directory tiles count in neither MOV_TILES_IN nor MOV_TILES_OUT (R278). (DESIGN CHOICE, log 18 and 57) -/
def packWork (d : Fin 8) (_ : Nat) (ws : Words) : W Res := do
  setField (movA d 0) 23 16 (cOp ws)
  let p := partOf (← getS) d
  let (dir, st) ← packGo p d ws (fld (cw ws 7) 19 0) 0 []
  let (_, wst) ← putTiles p d (areaTiles (st = sOK) (tileA (cw ws 8)) dir) 0
  movEnd d (if st ≠ sOK then st else wst) {}

/-- PACK (R264). -/
def execPack (d : Fin 8) (s : State) : Host.Outcome State Fault Refusal :=
  W.within fabScope s (startHead d 5 0x03 movFree (packWork d))

/-- Is a directory entry malformed (R265)? -/
def badEntry (e : List Byte) : Bool :=
  let len := rd e 4 2
  let mode := rd e 6 1
  decide (3 < mode) || len == 0 || decide (4096 < len) || (mode == 0 && len != 4096)

/-- The tile of one directory entry and its record: the tile, or the status. -/
def unpackOne (p : Nat) (d : Fin 8) (e : List Byte) (slot : Nat) : W (Except Byte (List Byte)) := do
  if badEntry e then return .error sCHECK
  match ← readSlot p d slot (rd e 4 2) with
  | .error st => return .error st
  | .ok r =>
    match unpackTile (rd e 6 1) r with
    | none => return .error sCHECK
    | some t => return if crc32c t = rdW e 0 then .ok t else .error sCHECK

/-- The tiles of an UNPACK from `i` on until one fails. -/
def unpackTiles (p : Nat) (d : Fin 8) (ws : Words) : Nat → Nat → NMap (List Byte) → W Byte
  | 0, _, _ => return sOK
  | n + 1, i, cache => do
    match ← cached p d ((tileA (cw ws 8) + 8 * i) / 4096) cache with
    | (.error e, _) => return e
    | (.ok b, cache) =>
      match ← unpackOne p d (sub b (8 * i % 4096) 8) (tileA (cw ws 5) + 4096 * i) with
      | .error e => return e
      | .ok t =>
        bump (movA d 8) 1
        let st ← writeTile p d (tileA (cw ws 6) + 4096 * i) t (crc32c t)
        if st ≠ sOK then return st
        bump (movA d 0xC) 1
        unpackTiles p d ws n (i + 1) cache

/-- The work of UNPACK. -/
def unpackWork (d : Fin 8) (_ : Nat) (ws : Words) : W Res := do
  setField (movA d 0) 23 16 (cOp ws)
  let st ← unpackTiles (partOf (← getS) d) d ws (fld (cw ws 7) 19 0) 0 []
  movEnd d st {}

/-- UNPACK (R265). -/
def execUnpack (d : Fin 8) (s : State) : Host.Outcome State Fault Refusal :=
  W.within fabScope s (startHead d 5 0x04 movFree (unpackWork d))

end Sys2Proof.Machine
end

