-- ==== Sys2Proof/Machine/NewtSorter.lean ====
section
/-! DEFINITION. The newt engine and the sorter: 08_frog_newt_and_sorter.md R223 to R239. -/

namespace Sys2Proof.Machine

/-- Each AUX engine runs one command at a time (R223). -/
def auxFree (s : State) (d : Fin 8) (ws : Words) : Bool :=
  (startedOf s d 7).all fun c => (cOp c.words == 1) != (cOp ws == 1)

/-- What an AUX command that has done its work leaves in its status register at `a` (R239). -/
def auxEnd (a : Nat) (seen : Bool) (st : Byte) (c : Ctr) : W Res := do
  if seen then setFlags a 1
  if st = sCHECK ∨ st = sUNCORR ∨ st = sRANGE then setFlags a 2
  return { status := st, ctr := c }

/-! ## The newt engine (R224 to R230) -/

/-- One axis of a convolution (R225). -/
structure Axis where
  len : Nat
  flt : Nat
  dil : Nat
  stride : Nat
  pad : Nat
  deriving DecidableEq, Repr

/-- The reach of the filter beyond its first tap. -/
def Axis.reach (x : Axis) : Nat := x.dil * (x.flt - 1)
/-- All padding of an axis. -/
def Axis.padding (x : Axis) : Nat := if x.pad = 0 then 0 else x.reach
/-- The padding before the input. -/
def Axis.before (x : Axis) : Nat := match x.pad with | 0 => 0 | 1 => x.reach / 2 | _ => x.reach
/-- The output length (R225). -/
def Axis.out (x : Axis) : Int := ((x.len + x.padding : Nat) - (x.reach : Int) - 1).fdiv x.stride + 1
/-- The input position that tap `f` of output `o` reads; none is padding (R226). -/
def Axis.tap (x : Axis) (o f : Nat) : Option Nat :=
  let i := o * x.stride + x.dil * f
  if x.before ≤ i ∧ i - x.before < x.len then some (i - x.before) else none
/-- The input positions that any output reads, ascending. -/
def Axis.used (x : Axis) : List Nat :=
  (List.range x.len).filter fun i => (List.range x.flt).any fun f =>
    let j := i + x.before
    decide (x.dil * f ≤ j) && decide ((j - x.dil * f) % x.stride = 0) && decide (((j - x.dil * f) / x.stride : Nat) < x.out)

/-- A convolution as its command names it (R229). -/
structure ConvShape where
  h : Axis
  w : Axis
  groups : Nat
  cin : Nat
  cout : Nat
  deriving DecidableEq, Repr

/-- The shape of a command. -/
def shapeOf (ws : Words) : ConvShape :=
  let w5 := cw ws 5
  let w6 := cw ws 6
  let w7 := cw ws 7
  let pad := fld w5 29 28
  let stride := 2 ^ fld w5 27 26
  let dil := 1 + fld w5 25 25
  { h := ⟨fld w6 11 0, fld w5 5 0, dil, stride, pad⟩, w := ⟨fld w6 31 12, fld w5 13 8, dil, stride, pad⟩
    groups := fld w7 31 20 + 1, cin := fld w7 19 10, cout := fld w7 9 0 }

/-- Terms of one output element (R227). -/
def ConvShape.kg (x : ConvShape) : Nat := x.cin * x.h.flt * x.w.flt
/-- Input channels. -/
def ConvShape.chans (x : ConvShape) : Nat := x.groups * x.cin
/-- Output channels. -/
def ConvShape.outs (x : ConvShape) : Nat := x.groups * x.cout
/-- Output positions. -/
def ConvShape.places (x : ConvShape) : Nat := x.h.out.toNat * x.w.out.toNat
/-- The input position (h, w) as a row-major number (R228). -/
def ConvShape.place (x : ConvShape) (h w : Nat) : Nat := h * x.w.len + w
/-- The input position that a tap of an output position reads. -/
def ConvShape.tap (x : ConvShape) (o fh fw : Nat) : Option Nat :=
  match x.h.tap (o / x.w.out.toNat) fh, x.w.tap (o % x.w.out.toNat) fw with
  | some h, some w => some (x.place h w)
  | _, _ => none

/-- The input elements an output position reads all lie below `good`. -/
def ConvShape.ready (x : ConvShape) (good o : Nat) : Bool :=
  (List.range x.h.flt).all fun fh => (List.range x.w.flt).all fun fw =>
    (x.tap o fh fw).all fun q => decide ((q + 1) * x.chans ≤ good)

/-- A rising list without its repeats. -/
def dedup : List Nat → List Nat
  | a :: b :: r => if a = b then dedup (b :: r) else a :: dedup (b :: r)
  | l => l

/-- Tiles read in order into a map; the first failure ends the reading and is answered with its tile. -/
def readSome (p : Nat) (d : Fin 8) : List Nat → NMap (List Byte) → W (NMap (List Byte) × Option (Nat × Byte))
  | [], m => return (m, none)
  | t :: r, m => do
    match ← readTile p d (t * 4096) with
    | .error e => return (m, some (t, e))
    | .ok b => readSome p d r (m ++ [(t, b)])

/-- The input elements that some output reads, as values; those below the answered number could be read. Elements that
no output reads are not read (R226): they stand as +0 and count nothing. (DEDUCED, log 17) -/
def loadInput (p : Nat) (d : Fin 8) (x : ConvShape) (f : Fmt) (a : Nat) (c : Ctr) : W (Array Dy × Nat × Byte × Ctr) := do
  let places := x.h.used.flatMap fun h => x.w.used.map (x.place h)
  let ch := x.chans
  let total := x.h.len * x.w.len * ch
  let tiles := dedup (places.flatMap fun q =>
    let lo := q * ch * fmtBits f / 8
    let hi := ((q + 1) * ch * fmtBits f - 1) / 8
    (List.range (hi / 4096 + 1 - lo / 4096)).map (· + lo / 4096))
  let (m, bad) ← readSome p d (tiles.map (· + a / 4096)) []
  let bytes := (List.range (cdiv (packBytes f total) 4096)).flatMap fun i => nget (zeros 4096) m (a / 4096 + i)
  let good := match bad with
    | some (t, _) => elemsIn f ((t - a / 4096) * 4096)
    | none => total
  let usedA := (places.foldl (fun (v : Array Bool) q => v.set! q true) (Array.replicate (x.h.len * x.w.len) false))
  let work : Cnt (List Dy) := (unpackCodes f total bytes).zipIdx.mapM fun (code, i) =>
    if usedA.getD (i / ch) false && decide (i < good) then readCode f code else pure dyZero
  let (vs, c) := work.run c
  return (vs.toArray, good, (bad.map (·.2)).getD sOK, c)

/-- One output element: channel `oc` at position `o` (R227). -/
def ConvShape.element (x : ConvShape) (inp filt : Array Dy) (o oc : Nat) : Cnt Word :=
  let g := oc / x.cout
  let a : Nat → Dy := fun k =>
    let ci := k / (x.h.flt * x.w.flt)
    match x.tap o (k / x.w.flt % x.h.flt) (k % x.w.flt) with
    | some q => inp.getD (q * x.chans + g * x.cin + ci) dyZero
    | none => dyZero
  Machine.element x.kg [(a, fun k => filt.getD (oc * x.kg + k) dyZero)] 0

/-- The work of NCONV. (DESIGN CHOICE, log 15; DEDUCED, log 17) -/
def nconvWork (d : Fin 8) (_ : Nat) (ws : Words) : W Res := do
  let st0 := regA d bFRG 0x8000
  setField st0 23 16 (cOp ws)
  auxBusy d 0
  let s ← getS
  let p := partOf s d
  let x := shapeOf ws
  if x.h.out ≤ 0 ∨ x.w.out ≤ 0 then return { status := sEMPTY }
  let inF := (fmtOfCode (fld (cw ws 5) 23 20)).getD .fp32
  let wF := (fmtOfCode (fld (cw ws 5) 19 16)).getD .fp32
  let dc := descOf s d (cRecipe ws) ((List.range 4).map fun i => cw ws (12 + i))
  let fa := fld (cw ws 9) 21 0 * 4096
  let nf := x.outs * x.kg
  let (fb, fst) ← spanUntil p d fa (packBytes wF nf)
  let (bb, bst) ← if fst = sOK ∧ dc.bias then spanUntil p d (fa + cdiv (packBytes wF nf) 4096 * 4096) (4 * x.outs) else pure ([], sOK)
  if fst ≠ sOK ∨ bst ≠ sOK then auxEnd st0 false (if fst ≠ sOK then fst else bst) {}
  else
    let fw : Cnt (List Dy × List Dy) := do
      return (← (unpackCodes wF nf fb).mapM (readCode wF), ← (wordsOf bb).mapM fun w => readCode .fp32 w.toNat)
    let ((fl, bl), c) := fw.run {}
    let (inp, good, ist, c) ← loadInput p d x inF (fld (cw ws 8) 21 0 * 4096) c
    let fl := fl.toArray
    let bl := bl.toArray
    let upto := ((List.range x.places).takeWhile (x.ready good)).length
    let work : Cnt (List (List Nat × List Nat × List Dy)) := (List.range upto).mapM fun o => do
      let vs ← (List.range x.outs).mapM fun oc => x.element inp fl o oc
      convRowT dc.conv (vs.zipIdx.map fun (v, oc) => (fval v, bl.getD oc dyZero, o * x.outs + oc))
    let (rows, c) := work.run c
    let full := ist = sOK
    let plan := outTiles full (fld (cw ws 10) 21 0 * 4096) (bitOf (cw ws 5) 24) dc.conv.fmt dc.conv.bs x.places x.outs
      (rows.map (·.1)) (rows.map (·.2.1))
    let plan ← if full then pure plan else freePart plan
    let wr ← putPieces p d plan
    let st := if full then wr else ist
    return { ← auxEnd st0 (c.ovf != 0 || c.ufz != 0) st c with
      feed := if st = sOK then feedOf (s.die d) dc.hist (rows.flatMap (·.2.2)) else none }

/-- NCONV (R224). -/
def execNconv (d : Fin 8) (s : State) : Host.Outcome State Fault Refusal :=
  W.within fabScope s (startHead d 7 0x01 auxFree (nconvWork d))

/-! ## The sorter (R232 to R236) -/

/-- A key with its position: its value for comparing, and the word that stands for it in the output. -/
structure Key where
  val : Dy
  pos : Nat
  word : Word
  deriving DecidableEq, Repr

/-- Does a key come before another (R232)? Keys of equal value whose given positions are equal too keep their column order.
(DESIGN CHOICE, log 57) -/
def keyBefore (asc : Bool) (a b : Key) : Bool :=
  if dyLt a.val b.val then asc else if dyLt b.val a.val then !asc else decide (a.pos ≤ b.pos)

/-- A key put into a ranked list. -/
def insertKey (asc : Bool) (k : Key) : List Key → List Key
  | [] => [k]
  | x :: r => if keyBefore asc k x then k :: x :: r else x :: insertKey asc k r

/-- The keys in order. -/
def rank (asc : Bool) (ks : List Key) : List Key := ks.foldr (insertKey asc) []

/-- Rows of 32-bit words, with the rows that could be read. -/
def loadWords (p : Nat) (d : Fin 8) (a m n : Nat) (c : Ctr) : W Loaded := do
  let (b, st) ← spanUntil p d a (4 * m * n)
  let w := wordsOf b
  let good := min m (w.length / max 1 n)
  return { rows := (List.range good).map fun i => (w.drop (i * n)).take n, good, st, ctr := c }

/-- The work of TOPK and SORT. (DESIGN CHOICE, log 15; DEDUCED, log 17) -/
def sortWork (d : Fin 8) (_ : Nat) (ws : Words) : W Res := do
  let st0 := regA d bFRG 0x8100
  setField st0 23 16 (cOp ws)
  auxBusy d 1
  let p := partOf (← getS) d
  let w5 := cw ws 5
  let uidx := bitOf w5 27
  let asc := bitOf w5 26
  let n := fld w5 16 0
  let m := fld (cw ws 6) 31 16
  let k := if cOp ws = 0x10 then fld (cw ws 6) 6 0 else n
  let keyA := fld (cw ws 7) 21 0 * 4096
  let keys ← if uidx then loadWords p d keyA m n {} else
    loadTensor p d keyA ((fmtOfCode (fld w5 31 28)).getD .fp32) (bitOf w5 23) m n {}
  let pos ← if bitOf w5 25 then loadWords p d (fld (cw ws 8) 21 0 * 4096) m n keys.ctr
    else pure { rows := List.replicate m ((List.range n).map w32), good := m, ctr := keys.ctr }
  let (upto, st) := firstBad m [keys, pos]
  let ranked := (List.range upto).map fun i =>
    (rank asc (List.zipWith (fun v (q : Word) => ⟨if uidx then dyInt v.toNat else lval v, q.toNat, v⟩) (atD [] keys.rows i) (atD [] pos.rows i))).take k
  let full := st = sOK
  let plan := (if bitOf w5 24 then areaTiles full (fld (cw ws 9) 21 0 * 4096) (bytesOf (ranked.flatMap fun r => r.map (·.word))) else [])
    ++ areaTiles full (fld (cw ws 10) 21 0 * 4096) (bytesOf (ranked.flatMap fun r => r.map fun x => w32 x.pos))
  let plan ← if full then pure plan else freePart plan
  let wr ← putPieces p d plan
  bump (regA d bFRG 0x8108) upto
  auxEnd st0 (keys.ctr.scrub != 0 || keys.ctr.ovf != 0) (if full then wr else st) keys.ctr

/-- TOPK (R233). -/
def execTopk (d : Fin 8) (s : State) : Host.Outcome State Fault Refusal :=
  W.within fabScope s (startHead d 7 0x10 auxFree (sortWork d))
/-- SORT (R233). -/
def execSort (d : Fin 8) (s : State) : Host.Outcome State Fault Refusal :=
  W.within fabScope s (startHead d 7 0x11 auxFree (sortWork d))

end Sys2Proof.Machine
end

