-- ==== Sys2Proof/Machine/Window.lean ====
section
/-! DEFINITION. The global window: routing, WREQ and WRSP frames, WCOPY and packets to other modules:
11_chivary_fabric.md R341 to R347, 13_control_plane_and_ownership.md R398. -/

namespace Sys2Proof.Machine

/-! ## Global addresses and routes (R342, R343) -/

/-- Is an address global? -/
def isGlobal (a : Nat) : Bool := a.testBit 63
/-- The module, die and local address of a global address. -/
def gModule (a : Nat) : Nat := nfld a 62 51
/-- The die of a global address. -/
def gDie (a : Nat) : Fin 8 := ⟨nfld a 50 48 % 8, by omega⟩
/-- The offset of a global address. -/
def gLocal (a : Nat) : Nat := nfld a 47 0

/-- The geometry that routing uses: the owner's map, or the whole numbering while there is none. (DESIGN CHOICE, log 22) -/
def geometry (s : State) : MMap := s.fab.ownerMap.getD { z := 4, ra := 8, rb := 8, mods := [], groups := [] }

/-- The direction of dimension order from one module towards another: the shorter way round, positive on a tie. -/
def orderDir (g : MMap) (here dst : Nat) : Option Nat :=
  match (List.range 5).find? fun k => coord here k != coord dst k with
  | none => none
  | some k =>
    let n := dimSize g k
    let fwd := (coord dst k + n - coord here k) % n
    some (2 * k + (if 2 * fwd ≤ n then 0 else 1))

/-- Is a module absent on a route: the owner's map does not list it as PRESENT? -/
def absentOn (s : State) (m : Nat) : Bool := s.fab.ownerMap.any fun g => !g.has m

/-- The direction a frame leaves a module in: dimension order, or the DETOUR of an absent next module. `true` where the
next module was absent; none where there is no way. -/
def routeDir (s : State) (here dst : Nat) : Option (Nat × Bool) :=
  let g := geometry s
  match orderDir g here dst with
  | none => none
  | some dir =>
    let next := neighbour g here dir
    if absentOn s next then
      match g.find next with
      | some e => if e.detour ≤ 9 ∧ !absentOn s (neighbour g here e.detour) then some (e.detour, true) else none
      | none => none
    else some (dir, false)

/-- Does a route reach its end meeting at most one absent module (R343)? -/
def routeOk (s : State) : Nat → Nat → Nat → Bool → Bool
  | 0, _, _, _ => false
  | k + 1, here, dst, met =>
    if here = dst then true
    else
      match routeDir s here dst with
      | none => false
      | some (dir, absent) => if absent && met then false else routeOk s k (neighbour (geometry s) here dir) dst (met || absent)

/-- The port a window frame leaves by: port index tag mod the direction's port count. (DESIGN CHOICE, log 22) -/
def routePort (s : State) (dst tag : Nat) : Option (Fin 32) :=
  if routeOk s 64 s.clk.module dst false then
    (routeDir s s.clk.module dst).map fun x =>
      let (first, n) := dirPorts x.1
      ⟨(first + tag % n) % 32, Nat.mod_lt _ (by decide)⟩
  else none

/-- Send a window frame on its way; on a port that is not UP it is lost. `false` where no route exists.
(DESIGN CHOICE, log 23) -/
def sendWindow (h : FHdr) (tile : List Byte) : W (Option (Fin 32)) := do
  let s ← getS
  match routePort s h.dstModule h.w16 with
  | none => return none
  | some p =>
    if (s.port p).st = .up then
      let _ ← sendFrame p h tile
    return some p

/-! ## Memory that is there (R19) -/

/-- The number of a channel: cellar pseudo-channels 0 to 511 by stack, loft channels 512 to 543, attic channels 544 to 555. -/
def chanOf (d : Fin 8) (st : Store) (off : Nat) : Nat :=
  match st with
  | .cellar => (2 * d.val + off / 4096 % 2) * 32 + channelOf st off
  | .loft h => 512 + 16 * h + channelOf st off
  | .attic h => 544 + 6 * h + channelOf st off
  | _ => 1000

/-- A cellar stack counts as ABSENT with one of its pseudo-channels (R252, R484). (DEDUCED, log 27) -/
def stackAbsent (s : State) (k : Nat) : Bool := (nrun 0 s.tiers.chan (32 * k) 32).contains 2

/-- Does a local address lie on a stack or a channel that is ABSENT (R19, R484)? -/
def addrAbsent (s : State) (d : Fin 8) (a : Nat) : Bool :=
  match storeOf a with
  | none => false
  | some (st, off) => if st = .cellar then stackAbsent s (2 * d.val + off / 4096 % 2) else nget 0 s.tiers.chan (chanOf d st off) == 2

/-- Is the memory at a local address there: its die not in Deep or Off, its hub in Run, its stack or channel not ABSENT (R19, R251, R252,
R445, R452, R484)? (DESIGN CHOICE, log 25) -/
def memPresent (s : State) (d : Fin 8) (a : Nat) : Bool :=
  match storeOf a with
  | none => true
  | some (st, _) =>
    !addrAbsent s d a &&
    match st with
    | .loft h => s.pwr.hub.toList.getD h .off == .run
    | .attic h => s.pwr.hub.toList.getD h .off == .run
    | _ => !darkDie (s.die d)

/-- Does a run of bytes touch an ABSENT stack or channel? Sixteen tiles on end hold one of every channel that serves them (R241, R242). -/
def runAbsent (s : State) (d : Fin 8) (a len : Nat) : Bool :=
  let n := tileCount a len
  (List.range (min n 16)).any fun i => addrAbsent s d ((a / 4096 + i) * 4096) || addrAbsent s d ((a / 4096 + (n - 1 - i)) * 4096)

/-- Is a run of hub A's reserve there (R19)? -/
def reserveThere (s : State) (a len : Nat) : Bool := memPresent s 0 a && !runAbsent s 0 a len

/-! ## The target (R342) -/

/-- A window access at its target die for the partition of the requesting die: the tile read with its check word, or the
status of a write. (DESIGN CHOICE, log 23) -/
def serveWindow (req : Nat) (dst : Fin 8) (a : Nat) (check : Word) (tile : List Byte) : W (Byte × Word × List Byte) := do
  let s ← getS
  bump (fabA dst + 0xC) 1
  if s.fab.mode = 0 then return (sSTATE, 0, [])
  if !diePresent s dst then return (sABSENT, 0, [])
  if isProt s (partOf s dst) then return (sAUTH, 0, [])
  if !memPresent s dst a then return (sABSENT, 0, [])
  laneAccess dst a
  if tile.isEmpty then
    match ← readTile req dst a with
    | .error e => return (e, 0, [])
    | .ok bs => return (sOK, nget crcZeroTile (← getS).mem.checks (keyOf dst a / 4096), bs)
  else if crc32c tile != check then return (sCHECK, 0, [])
  else return (← writeTile req dst a tile check, 0, [])

/-- The partition of a requesting die, by this module's own partition count. -/
def partOfDie (s : State) (d : Nat) : Nat := partOf s ⟨d % 8, by omega⟩

/-! ## Requests of a die -/

/-- Requests outstanding on a die (R344). -/
def outstanding (s : State) (d : Fin 8) : Nat :=
  ((s.die d).win.map (·.waiting.length)).getD 0 + b2n (s.ctl.winPkt.any fun w => w.die == d.val)

/-- A request for one tile of another module, or of this one. The status, the check word and the tile where it is done at
once; none while the WRSP is awaited. An offset beyond the 44 bits of a local map goes to no other module: RANGE (R103, R342). (DESIGN CHOICE, log 23) -/
def askWindow (d : Fin 8) (tag a : Nat) (check : Word) (tile : List Byte) : W (Option (Byte × Word × List Byte)) := do
  let s ← getS
  if gModule a ≠ s.clk.module ∧ 2 ^ 44 ≤ gLocal a then return some (sRANGE, 0, [])
  if gModule a = s.clk.module then
    let r ← serveWindow (partOf s d) (gDie a) (gLocal a) check tile
    bump (fabA d + 0xC) 1
    return some r
  else
    match ← sendWindow { type := tWREQ, last := true, srcModule := s.clk.module, srcDie := d.val, dstModule := gModule a, dstDie := (gDie a).val, dstTile := gLocal a / 4096, w16 := tag, check } tile with
    | none => return some (sABSENT, 0, [])
    | some _ => return none

/-! ## WCOPY (R345 to R347) -/

/-- DIR of a WCOPY: local to global. -/
def wOut (ws : Words) : Bool := bitOf (cw ws 5) 0
/-- The global address of tile `i`. -/
def wGlobal (ws : Words) (i : Nat) : Nat := (cw ws 8).toNat * 2 ^ 32 + (cw ws 7).toNat + 4096 * i
/-- The local address of tile `i`. -/
def wLocal (ws : Words) (i : Nat) : Nat := ((cw ws 6).toNat + i) % 2 ^ 32 * 4096
/-- TILES. -/
def wTiles (ws : Words) : Nat := fld (cw ws 9) 19 0

/-- One tile asked for: its failure, or `true` where it is done. -/
def wcopyAsk (d : Fin 8) (ws : Words) (i : Nat) : W (Except Byte Bool) := do
  let s ← getS
  let p := partOf s d
  if wOut ws then
    match ← readTile p d (wLocal ws i) with
    | .error e => return .error e
    | .ok tile =>
      let check := nget crcZeroTile (← getS).mem.checks (keyOf d (wLocal ws i) / 4096)
      match ← askWindow d i (wGlobal ws i) check tile with
      | none => return .ok false
      | some (st, _, _) => return if st = sOK then .ok true else .error st
  else
    match ← askWindow d i (wGlobal ws i) 0 [] with
    | none => return .ok false
    | some (st, check, tile) =>
      if st ≠ sOK then return .error st
      let st ← writeTile p d (wLocal ws i) tile check
      return if st = sOK then .ok true else .error st

/-- Ask for tiles while any remain and fewer than 64 requests are outstanding (R344). -/
def wcopyGo (d : Fin 8) (ws : Words) : Nat → W Byte
  | 0 => return sOK
  | k + 1 => do
    let s ← getS
    match (s.die d).win with
    | none => return sOK
    | some w =>
      if wTiles ws ≤ w.next ∨ 64 ≤ outstanding s d then return sOK
      modD d fun x => { x with win := some { w with next := w.next + 1 } }
      match ← wcopyAsk d ws w.next with
      | .error e => return e
      | .ok done =>
        if !done then modD d fun x => { x with win := x.win.map fun y => { y with waiting := y.waiting ++ [w.next] } }
        wcopyGo d ws k

/-- The window copy of a die goes on; it ends with a failure, or once every tile is done. -/
def wcopyOn (d : Fin 8) (uid : Nat) (ws : Words) : W Byte := do
  let st ← wcopyGo d ws (wTiles ws)
  let s ← getS
  if st ≠ sOK then
    modD d fun x => { x with win := none }
    failStarted d uid st
  else if (s.die d).win.any fun w => wTiles ws ≤ w.next && w.waiting.isEmpty then
    modD d fun x => { x with win := none }
    modStarted d uid fun c => { c with busy := false }
  return st

/-- The work of a WCOPY (R341, R342). -/
def wcopyWork (d : Fin 8) (uid : Nat) (ws : Words) : W Res := do
  let s ← getS
  if s.fab.mode = 0 then return { status := sSTATE }
  if isProt s (partOf s d) then return { status := sAUTH }
  modD d fun x => { x with win := some { uid, next := 0 } }
  let st ← wcopyOn d uid ws
  return { status := st, busy := (← getD d).win.isSome }

/-- WCOPY (R342). -/
def execWcopy (d : Fin 8) (s : State) : Host.Outcome State Fault Refusal :=
  W.within fabScope s (startHead d 6 0x03 (oneOf [0x03]) (wcopyWork d))

/-! ## Packets to another module (R398) -/

/-- The requesting die of a packet: the first die of PART. (DESIGN CHOICE, log 23) -/
def askerOf (s : State) (q : Pkt) : Fin 8 := ((partDies s q).head?).getD 0
/-- The request tag of a packet: its address's tile number, with bit 31 set. (DESIGN CHOICE, log 23) -/
def pktTag (q : Pkt) : Nat := 2 ^ 31 + q.at 0 8 / 4096 % 2 ^ 31

/-- Bytes of a tile replaced. -/
def spliceBytes (tile : List Byte) (off : Nat) (bs : List Byte) : List Byte := tile.take off ++ bs ++ tile.drop (off + bs.length)

/-- What follows the tile that a packet's read brought: the reply, or the tile sent back with the packet's bytes. -/
def windowRead (code : Nat) (q : Pkt) (d : Fin 8) (check : Word) (tile : List Byte) : W (Option Ans) := do
  let a := q.at 0 8
  if crc32c tile != check then return some (sCHECK, [])
  if code = 0x202 then return some (sOK, sub tile (a % 4096) (q.at 10 2))
  let new := spliceBytes tile (a % 4096) (q.payload.drop 16)
  match ← askWindow d (pktTag q) a (crc32c new) new with
  | some (st, _, _) => return some (st, [])
  | none =>
    modS fun s => { s with ctl := { s.ctl with winPkt := some { opcode := BitVec.ofNat 16 code, pkt := q, die := d.val, tag := pktTag q, wrote := true } } }
    return none

/-- A MEM_READ or MEM_WRITE with a global address: the tile is read, and for a write merged and written back.
(DESIGN CHOICE, log 23) -/
def windowPkt (code : Nat) (q : Pkt) : W (Option Ans) := do
  let d := askerOf (← getS) q
  match ← askWindow d (pktTag q) (q.at 0 8) 0 [] with
  | some (st, check, tile) => if st = sOK then windowRead code q d check tile else return some (st, [])
  | none =>
    modS fun s => { s with ctl := { s.ctl with winPkt := some { opcode := BitVec.ofNat 16 code, pkt := q, die := d.val, tag := pktTag q } } }
    return none

/-- The reply that a window access has held back. -/
def endWindowPkt (w : WinPkt) (a : Option Ans) : W Unit := do
  match a with
  | none => return
  | some a =>
    modS fun s => { s with ctl := { s.ctl with winPkt := none } }
    settle w.opcode.toNat w.pkt a.1
    reply w.opcode.toNat w.pkt a

/-- Does no RoT act on what a packet waits for: the active one has stopped (R419)? -/
def unheeded (s : State) : Bool := s.sec.rotStopped || s.sec.noControl

/-! ## WREQ and WRSP frames -/

/-- A WREQ answered with a WRSP of a status. -/
def answerWreq (h : FHdr) (d : Fin 8) (st : Byte) (check : Word) (bs : List Byte) : W Unit := do
  let s ← getS
  let _ ← sendWindow { type := tWRSP, last := true, status := st, srcModule := s.clk.module, srcDie := d.val, dstModule := h.srcModule, dstDie := h.srcDie, dstTile := h.dstTile, w16 := h.w16, check } bs

/-- A window frame for another module goes on its way (R343), in NORMAL to no other module (R313, R341). A request with no way on is
answered, another frame dropped. (DESIGN CHOICE, log 23) -/
def forwardWindow (p : Fin 32) (h : FHdr) (tile : List Byte) : W Unit := do
  if (← getS).fab.mode = 0 then
    if h.type = tWREQ then answerWreq h (dieOf p) sSTATE 0 []
    return
  match ← sendWindow h tile with
  | some out => if dieOf out ≠ dieOf p then bump (fabA (dieOf p) + 0x10) 1
  | none => if h.type = tWREQ then answerWreq h (dieOf p) sABSENT 0 []

/-- A WREQ at its target is answered with a WRSP. -/
def wreqFrame (p : Fin 32) (h : FHdr) (tile : List Byte) : W Unit := do
  let s ← getS
  if h.dstModule ≠ s.clk.module then forwardWindow p h tile
  else
    if h.dst ≠ dieOf p then bump (fabA (dieOf p) + 0x10) 1
    let (st, check, bs) ← serveWindow (partOfDie s h.srcDie) h.dst (h.dstTile * 4096) h.check tile
    answerWreq h h.dst st check bs

/-- WREQ (R342). -/
def execWreq (p : Fin 32) (frame : List Byte) (errs : List LaneErrs) (s : State) : Host.Outcome State Fault Refusal :=
  W.within fabScope s (onFrame p tWREQ frame errs (wreqFrame p))

/-- The command of a die's window copy. -/
def wcopyCmd (s : State) (d : Fin 8) (uid : Nat) : Option Words := ((s.die d).started.find? (·.uid == uid)).map (·.words)

/-- An answer to a request of a window copy: a tile read is written where it belongs (R112, R342). -/
def wcopyAnswer (d : Fin 8) (w : WinRun) (h : FHdr) (tile : List Byte) : W Unit := do
  match wcopyCmd (← getS) d w.uid with
  | none => return
  | some ws =>
    modD d fun x => { x with win := some { w with waiting := w.waiting.filter (· != h.w16) } }
    bump (fabA d + 0xC) 1
    let st ← if h.status ≠ sOK then pure h.status
      else if wOut ws then pure sOK
      else if crc32c tile != h.check then pure sCHECK
      else writeTile (partOf (← getS) d) d (wLocal ws h.w16) tile h.check
    if st = sOK then
      let _ ← wcopyOn d w.uid ws
    else
      modD d fun x => { x with win := none }
      failStarted d w.uid st

/-- A WRSP at its requester. -/
def wrspFrame (p : Fin 32) (h : FHdr) (tile : List Byte) : W Unit := do
  let s ← getS
  if h.dstModule ≠ s.clk.module then forwardWindow p h tile
  else
    let d := h.dst
    if d ≠ dieOf p then bump (fabA (dieOf p) + 0x10) 1
    match (s.die d).win, s.ctl.winPkt with
    | some w, x =>
      if w.waiting.contains h.w16 then wcopyAnswer d w h tile
      else packetAnswer d h tile x
    | none, x => packetAnswer d h tile x
where
  packetAnswer (d : Fin 8) (h : FHdr) (tile : List Byte) (x : Option WinPkt) : W Unit := do
    match x with
    | none => return
    | some w =>
      if w.die ≠ d.val ∨ w.tag ≠ h.w16 then return
      bump (fabA d + 0xC) 1
      if unheeded (← getS) then return
      if h.status ≠ sOK ∨ w.wrote then endWindowPkt w (some (h.status, []))
      else endWindowPkt w (← windowRead w.opcode.toNat w.pkt d h.check tile)

/-- WINDOW_TIMEOUT: a request of a die has no WRSP within 10 ms; its WCOPY, or the packet, ends with TIMEOUT (R344). -/
def windowTimeout (d : Fin 8) : W Unit := do
  let s ← getS
  match (s.die d).win with
  | some w =>
    if !w.waiting.isEmpty then
      modD d fun x => { x with win := none }
      failStarted d w.uid sTIMEOUT
  | none =>
    match s.ctl.winPkt with
    | some w => if w.die = d.val ∧ !unheeded s then endWindowPkt w (some (sTIMEOUT, []))
    | none => return

end Sys2Proof.Machine
end

