-- ==== Sys2Proof/Machine/Service.lean ====
section
/-! DEFINITION. Register, memory, region, event and Gecko packets: 13_control_plane_and_ownership.md R397 to R407, R411 to
R413, with the rows of R10, R89, R99, R120, R122, R286. -/

namespace Sys2Proof.Machine

/-! ## Registers (R399, R400, R405) -/

/-- The register words a packet names. -/
def regWords (q : Pkt) : List Nat := (List.range (q.at 4 4)).map fun i => q.at 0 4 + 4 * i
/-- The words a REG_WRITE carries. -/
def writeVals (q : Pkt) : List Word := wordsOf (q.payload.drop 8)

/-- Are register words all there for a master: no die in reset, none dark for the probe? (DESIGN CHOICE, log 25) -/
def regsThere (s : State) (m : Fin 5) (as : List Nat) : Bool :=
  as.all fun a => if h : regUnit a < 8 then dieThere s m ⟨regUnit a, h⟩ else true

/-- The partitions of the dies whose own blocks a list of registers touches; LFT_ and ATC_ are the hubs' (R277). -/
def regParts (s : State) (as : List Nat) : List Nat :=
  as.filterMap fun a => if h : regUnit a < 8 then (if regBlk a = bLFT ∨ regBlk a = bATC then none else some (partOf s ⟨regUnit a, h⟩)) else none

/-- REG_READ: consecutive words. -/
def opRegRead : Op where
  code := 0x0200
  lease := false
  ok := fun _ q => q.long 8 && within (q.at 4 4) 1 1016 && (regWords q).all fun a => (regInfo a).isSome
  rest := fun s q => refuseIf (!regsThere s q.from (regWords q)) sABSENT
  act := fun q => do
    let ws ← (regWords q).mapM (readBy q.from)
    return some (sOK, bytesOf ws)

/-- REG_READ (R399). -/
def execRegRead (q : Pkt) (s : State) : Host.Outcome State Fault Refusal := packetStep readScope opRegRead q s

/-- RC_REGISTER_READ: a REG_READ of one RC register; the owner's clears it (R10, R405). -/
def execRcRegisterRead (q : Hdr) (addr : Word) (s : State) : Host.Outcome State Fault Refusal :=
  W.within readScope s (if (regInfo addr.toNat).any (·.rc) then packet opRegRead ⟨q, natLE 4 addr.toNat ++ natLE 4 1⟩ else pure ())

/-- The refusal of the words of a REG_WRITE, judged in order each against what the words before it leave (R400). -/
def wordsRefusal (s : State) (q : Pkt) : Option Byte := ((writeWords q.from (q.at 0 4) (writeVals q)).run { s }).1

/-- REG_WRITE: all of its words or none; what refuses a word stands at its own step of R395. The table of R432 refuses no word that R406 lets
its consumer write, of any die. (DEDUCED, log 26) -/
def opRegWrite : Op where
  code := 0x0201
  free := fun s q => (regWords q).all fun a => consumerWrite s q.from a
  ok := fun s q => within (q.at 4 4) 1 1014 && q.long (8 + 4 * q.at 4 4) && ((regWords q).all fun a => (regInfo a).isSome)
    && wordsRefusal s q != some sPARAM
  rest := fun s q => firstOf [
    guard s q.from (regParts s ((regWords q).filter fun a => !consumerWrite s q.from a)),
    refuseIf (wordsRefusal s q == some sAUTH) sAUTH,
    refuseIf (!regsThere s q.from (regWords q)) sABSENT,
    (wordsRefusal s q).map fun st => (st, [])]
  act := fun q => do
    let _ ← writeWords q.from (q.at 0 4) (writeVals q)
    answer sOK

/-- The REG_WRITE packet of one word. -/
def oneWord (q : Hdr) (a v : Nat) : Pkt := ⟨q, natLE 4 a ++ natLE 4 1 ++ natLE 4 v⟩
/-- The work of a row that writes one register, where the address is one of the row's. -/
def writeRow (c : Bool) (q : Hdr) (a v : Nat) : W Unit := if c then packet opRegWrite (oneWord q a v) else pure ()

/-- W1C_CLEAR: a write of 1 to W1C flags, while the hardware sets `hwSet` in the same cycle (R407). Through the mapping
only the flags of MBX_STATUS can be cleared (R413). -/
def w1cClear (via : Via) (a v hw : Nat) : W Unit := do
  if w1cMask a = 0 then return
  match via with
  | .packet q => packet { opRegWrite with act := fun _ => do
      clearFlags a v hw
      rearm a v (hw &&& w1cMask a)
      answer sOK } (oneWord q a v)
  | .mapped => if a = regA uHub bMBX 0 then clearFlags a v hw
  let more := hw &&& w1cMask a
  if more ≠ 0 then setFlags a more

/-- W1C_CLEAR (R407). -/
def execW1cClear (via : Via) (addr value hwSet : Word) (s : State) : Host.Outcome State Fault Refusal :=
  W.within wideScope s (w1cClear via addr.toNat value.toNat hwSet.toNat)

/-- TOKEN_WRITE (R99). -/
def execTokenWrite (q : Hdr) (addr value : Word) (s : State) : Host.Outcome State Fault Refusal :=
  W.within wideScope s (writeRow (regBlk addr.toNat == bTOK && decide (regUnit addr.toNat < 8)) q addr.toNat value.toNat)

/-- SEQ_LOG_RD_WRITE (R89, R406). -/
def execSeqLogRdWrite (q : Hdr) (d : Fin 8) (value : Word) (s : State) : Host.Outcome State Fault Refusal :=
  W.within wideScope s (writeRow true q (regA d bSEQ 0x10) value.toNat)

/-- EVT_SIZE_WRITE (R411). -/
def execEvtSizeWrite (q : Hdr) (ring : Fin 8) (value : Word) (s : State) : Host.Outcome State Fault Refusal :=
  W.within wideScope s (writeRow true q (ringA ring + 8) value.toNat)

/-- EVT_RD_WRITE: in a packet, or through the mapping for a ring whose consumer is master 2 (R406, R411 to R413). -/
def evtRdWrite (via : Via) (r : Nat) (v : Nat) : W Unit := do
  let s ← getS
  match via with
  | .packet q => writeRow true q (ringA r + 0x18) v
  | .mapped =>
    if fld (rget s (ringA r + 0x10)) 2 0 = 2 ∧ judgeEvt s r 0x18 v = none then setReg (ringA r + 0x18) v

/-- EVT_RD_WRITE (R412). -/
def execEvtRdWrite (via : Via) (ring : Fin 8) (value : Word) (s : State) : Host.Outcome State Fault Refusal :=
  W.within wideScope s (evtRdWrite via ring value.toNat)

/-- REGION_ENTRY_WRITE (R120, R122, R246). -/
def execRegionEntryWrite (q : Hdr) (addr value : Word) (s : State) : Host.Outcome State Fault Refusal :=
  W.within wideScope s (writeRow (regBlk addr.toNat == bSEC && (regionOf (regUnit addr.toNat) (regOff addr.toNat) 0).isSome) q addr.toNat value.toNat)

/-- CLK_LOAD: a write of CLK_LOAD_HI arms the load (R460). -/
def execClkLoad (q : Hdr) (hi : Word) (s : State) : Host.Outcome State Fault Refusal :=
  W.within wideScope s (writeRow true q (regA uHub bCLK 0x10) hi.toNat)

/-! ## Memory (R398) -/

/-- Is the memory at a local address there for a master, its die in no reset (R19, R445)? -/
def memThere (s : State) (m : Fin 5) (d : Fin 8) (a : Nat) : Bool := dieThere s m d && memPresent s d a

/-- The partition that owns the memory at a local address. -/
def memOwner (s : State) (d : Fin 8) (a : Nat) : Option Nat :=
  match storeOf a with
  | none => none
  | some (st, off) => (sliceOf s d st off).2.2

/-- The die of a memory packet. -/
def memDie (q : Pkt) : Fin 8 := ⟨q.at 8 2 % 8, by omega⟩

/-- Step 2 of a memory packet: a count of 1 to 4,032 bytes within one tile, a die of the module, or a global address with
byte 8 zero. (DEDUCED, log 26) -/
def memOk (q : Pkt) : Bool :=
  let a := q.at 0 8
  let n := q.at 10 2
  within n 1 4033 && decide (a % 4096 + n ≤ 4096) && (if isGlobal a then q.at 8 2 == 0 else decide (q.at 8 2 < 8))

/-- Is an address of an operating system reserve barred to a master's reads while a partition is protected (R432)? -/
def foreignReserve (s : State) (m : Fin 5) (a : Nat) : Bool := inReserve a && s.sec.prot != 0 && m != 2

/-- Steps 5 and 6 of a memory packet, and step 7 of a global one. (DEDUCED, log 26) -/
def memRest (s : State) (q : Pkt) (write : Bool) : List (Option Ans) :=
  let a := q.at 0 8
  let m := q.from
  let own := if q.part = 0xFF then [] else [q.part]
  if isGlobal a then
    let here := gModule a == s.clk.module
    [refuseIf (isProt s (partOf s (askerOf s q)) || own.any (isProt s) || (here && isProt s (partOf s (gDie a)))) sAUTH,
      refuseIf (!write && foreignReserve s m (gLocal a)) sAUTH, partThere s q,
      refuseIf (here && !(diePresent s (gDie a) && memPresent s (gDie a) (gLocal a))) sABSENT,
      refuseIf (s.fab.mode == 0) sSTATE, refuseIf (decide (64 ≤ outstanding s (askerOf s q))) sBUSY]
  else
    [guard s m (own ++ (memOwner s (memDie q) a).toList),
      refuseIf (!write && foreignReserve s m a) sAUTH,
      partThere s q, refuseIf (!memThere s m (memDie q) a) sABSENT]

/-- A local read: the whole tile verified but in the reserve and in check areas, where the tier's codes alone decide
(R244). -/
def localRead (q : Pkt) : W Ans := do
  let s ← getS
  let a := q.at 0 8
  let n := q.at 10 2
  let d := memDie q
  match storeOf a with
  | none => return (sRANGE, [])
  | some (st, off) =>
    if q.part ≠ 0xFF ∧ !permitted s q.part d a false then return (sRANGE, [])
    laneAccess d a
    if inReserve a || inCheckArea s d st off then
      if genBusy s d st off then return (sBUSY, [])
      match ← readBytes d a n with
      | .error e => return (e, [])
      | .ok b => return (sOK, b)
    match ← oldTile 0 d a with
    | .error e => return (e, [])
    | .ok t => return (sOK, sub t (a % 4096) n)

/-- MEM_READ: bytes of one tile. -/
def opMemRead : Op where
  code := 0x0202
  ok := fun _ q => q.long 12 && memOk q
  rest := fun s q => firstOf (memRest s q false)
  act := fun q => do
    if isGlobal (q.at 0 8) then windowPkt 0x202 q else return some (← localRead q)

/-- MEM_READ (R398). -/
def execMemRead (q : Pkt) (s : State) : Host.Outcome State Fault Refusal := packetStep fabricScope opMemRead q s
where
  /-- What also sends a frame to another module. -/
  fabricScope (s t : State) : State := { fabScope s t with ctl := t.ctl }

/-- A local write: a merge into one tile, never into a check area or the reserve. -/
def localWrite (q : Pkt) : W Byte := do
  let s ← getS
  let a := q.at 0 8
  let d := memDie q
  match storeOf a with
  | none => return sRANGE
  | some (st, off) =>
    if inCheckArea s d st off || inReserve a then return sRANGE
    laneAccess d a
    mergeTile q.part d a (q.payload.drop 16)

/-- MEM_WRITE: bytes merged into one tile. -/
def opMemWrite : Op where
  code := 0x0203
  ok := fun _ q => q.long (16 + q.at 10 2) && memOk q && q.one && q.at 12 4 == 0
  rest := fun s q => firstOf (memRest s q true ++ [if isGlobal (q.at 0 8) then none else diesIn s [memDie q] atRest])
  act := fun q => do
    if isGlobal (q.at 0 8) then windowPkt 0x203 q else answer (← localWrite q)

/-- MEM_WRITE (R398). -/
def execMemWrite (q : Pkt) (s : State) : Host.Outcome State Fault Refusal := packetStep execMemRead.fabricScope opMemWrite q s

/-! ## Region entries (R120, R122, R246) -/

/-- The entries of a region table, by its code, and its units. -/
def tableSize (t : Nat) : Nat × Nat := atD (0, 0) [(3328, 8), (49152, 8), (262144, 2), (589824, 2)] t
/-- The key of an entry of a region table. -/
def tableKey (t u i : Nat) : Nat := (atD 0 [0, 8, 16, 18] t + u) * 2 ^ 32 + i
/-- The entries a REGION_SET names, with their values. -/
def regionPairs (q : Pkt) : List (Nat × Nat) :=
  (List.range (q.at 8 4)).map fun i => (tableKey (q.at 0 1) (q.at 1 1) (q.at 4 4 + i), q.at (12 + 2 * i) 2)

/-- REGION_SET: a run of entries of one table; AUTH before STATE. -/
def opRegionSet : Op where
  code := 0x0204
  ok := fun _ q =>
    let (n, units) := tableSize (q.at 0 1)
    within (q.at 8 4) 1 2025 && q.long (12 + 2 * q.at 8 4) && q.at 2 2 == 0 && decide (q.at 1 1 < units) && decide (q.at 4 4 + q.at 8 4 ≤ n)
  rest := fun s q =>
    let js := (regionPairs q).filterMap fun x => judgeEntry s q.from x.1 x.2
    firstOf [guard s q.from (if q.part = 0xFF then [] else [q.part]), refuseIf (js.contains sAUTH) sAUTH, partThere s q
      , refuseIf (decide (q.at 0 1 < 2) && !dieThere s q.from ⟨q.at 1 1 % 8, by omega⟩) sABSENT, refuseIf (!js.isEmpty) sSTATE]
  act := fun q => do
    (regionPairs q).forM fun x => putEntry x.1 x.2
    answer sOK

/-- REGION_SET (R122). -/
def execRegionSet (q : Pkt) (s : State) : Host.Outcome State Fault Refusal := packetStep wideScope opRegionSet q s

/-! ## Events and flags (R397, R407) -/

/-- The 32 bytes of a ring's entry as a master reads them: an event of a protected partition's unit coarsened (R440). -/
def entryFor (s : State) (m : Fin 5) (e : List Byte) : List Byte :=
  let u := rd e 7 1 / 16
  if h : u < 8 then
    if coarsened s m (partOf s ⟨u, h⟩) then e.take 8 ++ natLE 8 (rd e 8 8 / 1024 * 1024) ++ zeros 16 else e
  else e

/-- The addresses of the entries that an EVT_READ names. -/
def ringEntries (s : State) (q : Pkt) : List Nat :=
  let r := q.at 0 4
  (List.range (q.at 8 4)).map fun i => (rget s (ringA r + 4)).toNat * 4096 + 32 * ((q.at 4 4 + i) % max (ringN s r) 1)

/-- EVT_READ: entries of an enabled ring that is there (R19). (DEDUCED, log 26) -/
def opEvtRead : Op where
  code := 0x0600
  lease := false
  ok := fun _ q => q.long 12 && decide (q.at 0 4 < 8) && within (q.at 8 4) 1 127
  rest := fun s q => refuseIf (ringN s (q.at 0 4) == 0 || (ringEntries s q).any fun a => !memPresent s 0 a) sABSENT
  act := fun q => do
    let s ← getS
    let as := ringEntries s q
    if as.any fun a => reserveBusy s a 32 then return some (sBUSY, [])
    let es ← as.mapM fun a => readBytes 0 a 32
    match es.mapM id with
    | .error e => return some (e, [])
    | .ok bs => return some (sOK, bs.flatMap (entryFor s q.from))

/-- EVT_READ (R397). -/
def execEvtRead (q : Pkt) (s : State) : Host.Outcome State Fault Refusal := packetStep readScope opEvtRead q s

/-- FLAG_MISS: the miss counters of a register's W1C bits; the owner's clears them (R405, R407). (DESIGN CHOICE, log 25) -/
def opFlagMiss : Op where
  code := 0x0601
  lease := false
  ok := fun _ q => q.long 4 && (regInfo (q.at 0 4)).isSome
  rest := fun s q => firstOf [refuseIf (!regsThere s q.from [q.at 0 4]) sABSENT, refuseIf (w1cMask (q.at 0 4) == 0) sSTATE]
  act := fun q => do
    let s ← getS
    let base := canon (q.at 0 4) * 32
    let bs := nrun 0 s.miss base 32
    if ownerOf s.ctl = some q.from then modS fun s => { s with miss := nclear s.miss base 32 }
    return some (sOK, bs.map b8)

/-- FLAG_MISS (R407). -/
def execFlagMiss (q : Pkt) (s : State) : Host.Outcome State Fault Refusal := packetStep readScope opFlagMiss q s

/-! ## Gecko contexts (R286) -/

/-- The die of a Gecko packet. -/
def gekDie (q : Pkt) : Fin 8 := ⟨q.at 0 2 % 8, by omega⟩
/-- The records of a GEK_STEP, with their contexts. -/
def gekRecords (q : Pkt) : List (Nat × List Byte) := (chunks 64 (q.payload.drop 8)).zipIdx.map fun x => (q.at 2 2 + x.2, x.1)
/-- Does a die of the named partition hold the packet's subject (step 2)? -/
def dieInPart (s : State) (q : Pkt) (d : Fin 8) : Bool := q.part == 0xFF || partOf s d == q.part

/-- GEK_STEP: whole per-step records, all or none (R286). (DEDUCED, log 26) -/
def opGekStep : Op where
  code := 0x0700
  ok := fun s q =>
    decide (q.at 0 2 < 8) && within (q.at 4 4) 1 64 && q.long (8 + 64 * q.at 4 4) && decide (q.at 2 2 + q.at 4 4 ≤ 1024)
      && dieInPart s q (gekDie q) && (gekRecords q).all fun x => stepRecordOk x.2
  rest := fun s q => firstOf [
    guard s q.from [partOf s (gekDie q)],
    refuseIf (!dieThere s q.from (gekDie q) || (gekRecords q).any fun x => (ctxOf (s.die (gekDie q)) x.1).isNone) sABSENT,
    diesIn s (diesOf s (partOf s (gekDie q))) atRest]
  act := fun q => do
    (gekRecords q).forM fun x => modCtx (gekDie q) x.1 fun c => { c with step := x.2 }
    answer sOK

/-- GEK_STEP (R286). -/
def execGekStep (q : Pkt) (s : State) : Host.Outcome State Fault Refusal := packetStep wideScope opGekStep q s

/-- GEK_READ: one context, which a non-tenant master of a protected partition reads as zeros (R397, R440).
(DEDUCED, log 26) -/
def opGekRead : Op where
  code := 0x0701
  lease := false
  ok := fun s q => q.long 4 && decide (q.at 0 2 < 8) && decide (q.at 2 2 < 1024) && dieInPart s q (gekDie q)
  rest := fun s q => refuseIf (!dieThere s q.from (gekDie q) || (ctxOf (s.die (gekDie q)) (q.at 2 2)).isNone) sABSENT
  act := fun q => do
    let s ← getS
    match ctxOf (s.die (gekDie q)) (q.at 2 2) with
    | none => answer sABSENT
    | some c => return some (sOK, if coarsened s q.from (partOf s (gekDie q)) then zeros 192 else padTo 192 (c.static ++ c.step))

/-- GEK_READ (R397). -/
def execGekRead (q : Pkt) (s : State) : Host.Outcome State Fault Refusal := packetStep readScope opGekRead q s

end Sys2Proof.Machine
end

