-- ==== Sys2Proof/Machine/Checks.lean ====
section
/-! DEFINITION. What the module checks of every command of an image when it loads it: R12, R21, R31, R40, R48, R59, R71,
R84, R104, R150, R181, R219, R230, R236, R269, R285, R303, R347 and R383. -/

namespace Sys2Proof.Machine

/-- What a command's checks look up in its image: the die and the module, the partition count, the histogram records and
contexts the image gives the die, and how many tables each of the die's ports has. -/
structure Against where
  d : Fin 8
  me : Nat
  parts : Nat
  hist : List Nat
  ctxs : List (Nat × Context)
  tables : List Nat
  deriving DecidableEq, Repr

/-! ## Fields -/

/-- Do operand words 5 to 15 hold no bit outside these masks (R12)? -/
def onlyBits (ws : Words) (masks : List Nat) : Bool :=
  (List.range 11).all fun i => (cw ws (5 + i)).toNat &&& (0xFFFFFFFF - atD 0 masks i) == 0

/-- The common header (R59, R70, R71), the opcode apart. -/
def headerOk (ws : Words) : Bool :=
  ws.length == 16 && fld (cw ws 0) 31 28 == 0 && fld (cw ws 1) 15 12 == 0 && fld (cw ws 4) 31 19 == 0 && fld (cw ws 4) 15 12 == 0
    && (cWaitAEn ws || (cWaitA ws == 0 && cThreshA ws == 0)) && (cWaitBEn ws || (cWaitB ws == 0 && cThreshB ws == 0))
    && (cSignalEn ws || cSignal ws == 0) && (cClass ws != 15 || cOp ws == 0 || cBudget ws == 0)

/-! ## Memory that a command names (R21, R103, R104, R244) -/

/-- Memories that lie next to one another count as one stretch of addresses. -/
def zone : Store → Nat
  | .front => 0 | .tier t => 1 + t | .wgb => 5 | .cellar => 6 | .loft _ => 7 | .attic _ => 8

/-- The stretch that holds a whole run of bytes, none where an address of it is reserved. -/
def zoneOf (a n : Nat) : Option Nat :=
  match storeOf a, storeOf (a + n - 1) with
  | some (x, _), some (y, _) => if zone x = zone y then some (zone x) else none
  | _, _ => none

/-- Does a run lie within one store of the store rooms? -/
def inRoom (a n : Nat) : Bool := n == 0 || (zoneOf a n).any fun z => decide (z < 5)
/-- Does a run lie within one store or memory level? -/
def inLevel (a n : Nat) : Bool := n == 0 || (zoneOf a n).isSome
/-- Does a run lie so, outside the wide gradient buffer, which only the commands that R144 names reach? -/
def inPlain (a n : Nat) : Bool := n == 0 || (zoneOf a n).any (· != 5)

/-- Does a run of bytes touch the half-open range from `b` on, `n` long? -/
def meets (a la b lb : Nat) : Bool := decide (0 < la ∧ 0 < lb ∧ a < b + lb ∧ b < a + la)

/-- The operating system reserve (R21). -/
def touchesReserve (a n : Nat) : Bool :=
  meets a n 0x10000000000 (32 * gib) || meets a n 0x18000000000 (32 * gib)

/-- The check areas of a die's map under a partition count (R243, R244). -/
def checkAreas (parts : Nat) : List (Nat × Nat) :=
  let slices := fun (start base size : Nat) => (List.range parts).map fun p =>
    (start + base + (p + 1) * (size / parts) - size / parts / 1024, size / parts / 1024)
  [(0x1000000000 + 96 * gib - 96 * gib / 1024, 96 * gib / 1024)]
    ++ slices 0x10000000000 (32 * gib) (480 * gib) ++ slices 0x18000000000 (32 * gib) (480 * gib)
    ++ slices 0x40000000000 0 (1152 * gib) ++ slices 0x52000000000 0 (1152 * gib)

/-- Does a run touch a check area? -/
def touchesCheck (parts a n : Nat) : Bool := (checkAreas parts).any fun r => meets a n r.1 r.2

/-- Is a run outside every check area and the reserve? -/
def inData (parts a n : Nat) : Bool := !touchesCheck parts a n && !touchesReserve a n

/-! ## Conversion descriptors (R31, R38, R40, R48) -/

/-- A FORMAT code that R39 reserves. -/
def fmtReserved (code : Nat) : Bool := within code 0xA 0xF

/-- The recipe's formats for a kind hold a format. -/
def recipeHas (recipe kind : Nat) (f : Fmt) : Bool := (recipeFmts recipe kind).any fun x => x.1 == f

/-- Does the descriptor in words 12 to 15 meet R40, outside the reduction path? -/
def descOk (c : Against) (ws : Words) : Bool :=
  let w := cw ws 15
  let f := fld w 3 0
  let kind := fld w 10 8
  let r := cRecipe ws
  let explicit := (fmtOfCode f).any fun x => x != .int32 && recipeHas r kind x && !(bitOf w 6 && x == .fp32)
  !fspecial (cw ws 12) && !fspecial (cw ws 13) && !bitOf (cw ws 13) 31 && fld w 15 12 == 0 && fld w 31 28 == 0 && kind != 7
    && (if f = 15 then !bitOf w 6 && !(recipeFmts r kind).isEmpty else explicit)
    && (fld w 5 4 != 3 || !(recipeFmts r kind).isEmpty)
    && (!bitOf w 7 || c.hist.contains (fld w 27 16))

/-- Output format and block scaling of the descriptor in words 12 to 15. -/
def descFmt (ws : Words) : Fmt × Bool := fmtFor (cRecipe ws) (fld (cw ws 15) 10 8) (fld (cw ws 15) 3 0) (bitOf (cw ws 15) 6)
/-- BIAS_EN of the descriptor in words 12 to 15. -/
def descBias (ws : Words) : Bool := bitOf (cw ws 15) 11
/-- The masks of descriptor words 12 to 15. -/
def descMask : List Nat := [0xFFFFFFFF, 0xFFFFFFFF, 0xFFFFFFFF, 0x0FFF0FFF]

/-! ## Control commands (R81, R84) -/

/-- A BRANCH or CALL, its target apart. -/
def branchOk (ws : Words) : Bool :=
  let w := cw ws 5
  let cond := fld w 11 8
  let f := fld w 7 4
  onlyBits ws [0xFFF, 0xFFFFFFFF, 0x3FFFFF] && decide (cond ≤ 6) && decide (f ≤ 6)
    && (f ≥ 3 || !fspecial (cw ws 6)) && (cond != 0 || (fld w 7 0 == 0 && cw ws 6 == 0)) && (cond < 5 || f ≥ 3)

/-- A control command. -/
def controlOk (n : Nat) (ws : Words) : Bool :=
  match cOp ws with
  | 1 => onlyBits ws [0xFFFFFFFF, 0xFFFF]
  | 2 => branchOk ws && decide (fld (cw ws 7) 21 0 < n)
  | 3 => branchOk ws && decide (fld (cw ws 7) 21 0 < n)
  | 6 => onlyBits ws [0x1FFFF]
  | 7 => onlyBits ws [0x1FFFF, 1]
  | o => (o == 0 || o == 4 || o == 5) && onlyBits ws []

/-! ## Matrix engines (R127, R129, R131, R149, R150) -/

/-- The 6-bit and 8-bit floats. -/
def isF8 (f : Fmt) : Bool := f == .e4m3 || f == .e5m2 || f == .e3m2 || f == .e2m3
/-- BF16 and FP16. -/
def isF16 (f : Fmt) : Bool := f == .bf16 || f == .fp16
/-- Does the meeting-format table list a pair outside SPLIT (R127)? -/
def pairMeets (s w : Fmt) : Bool :=
  if isF8 s || s == .int8 then isF8 w || w == .e2m1 || w == .int8 || isF16 w
  else isF16 s && (isF16 w || w == .int8 || isF8 w || w == .e2m1)

/-- Do an operand, its panels and its scale panels meet R150? -/
def operandOk (o : Operand) : Bool :=
  let np := cdiv o.cols 128
  let pb := o.rows * 16 * fmtBits o.fmt
  let sb := 4 * o.rows
  let el := if np ≤ 1 then pb else (np - 1) * o.pstride * 4096 + pb
  let sl := if np ≤ 1 then sb else (np - 1) * o.spstride * 128 + sb
  (np ≤ 1 || decide (pb ≤ o.pstride * 4096)) && inRoom o.base el
    && (!o.bs || (decide (o.cols % 32 = 0) && (np ≤ 1 || decide (sb ≤ o.spstride * 128)) && inRoom o.scale sl))

/-- An ME command. -/
def meOk (ws : Words) : Bool :=
  let op := cOp ws
  let w := cw ws 12
  let g := fld (cw ws 13) 17 0
  if op = 5 then
    let n := fld (cw ws 14) 18 0
    onlyBits ws [0, 0, 0, 0, 0, 0, 0, 0, 0x3FFFF, 0x7FFFF] && within n 1 262145 && decide (g % 2 = 0 ∧ g + n ≤ 262144)
  else
    let split := op == 4
    let scale := if split then 0 else 0x7FFFFFF
    let m := fld (cw ws 11) 11 0
    onlyBits ws [0x3FFFFF, 0x3FFFFF, scale, scale, 0xFFFFFFFF, if split then 0 else 0xFFFFFFFF, 0xFFFF0FFF,
        if split then 0xFFCF03FF else 0xFFFC03FF, if op = 3 then 0x3FFFF else 0]
      && within m 1 2049 && within (fld w 9 0) 1 513 && within (fld (cw ws 11) 31 16) 1 65536
      && (match fmtOfCode (fld w 31 28), fmtOfCode (fld w 27 24) with
        | some a, some b => if split then a == .fp32 && b == .fp32 && (fld w 17 16 == 2 || fld w 17 16 == 3) else pairMeets a b
        | _, _ => false)
      && operandOk (streamed ws) && operandOk (stationary ws)
      && (op != 3 || decide (g % 2 = 0 ∧ g + m ≤ 262144))

/-! ## Vector engines (R31, R171, R180, R181) -/

/-- May a store-room format code stand at VE input (R31, R158)? -/
def veInput (code : Nat) : Bool := (fmtOfCode code).any fun f => f != .e2m1 && f != .int32

/-- The bits of word 6 that a row command uses; MASK_EN is used by EPI, BWD, NORM_LN, NORM_RMS, SMX_MAX, SMX_EXP and SMX_LAZY (R180).
(DESIGN CHOICE, log 57) -/
def veWord6 (op : Nat) : Nat :=
  let sum := 0x1F000
  let src := 0xF08
  let side := 0xF4
  match op with
  | 0x40 => 0xF0000000 + 0x800000 + 0x600000 + 0x1C0000 + 0x20000 + sum + src + side + 3
  | 0x41 => 0x0F000000 + 0x1C0000 + 0x20000 + sum + src + side + 3
  | 0x42 => 0x20000 + sum + src + 3
  | 0x43 => 0x20000 + sum + src + 3
  | 0x44 => 0xF0000000 + 0x20000 + sum + src + 1
  | 0x45 => 0xF0000000 + 0x20000 + sum + src + 3
  | 0x46 => 0xF0000000 + 0x20000 + sum + src + 3
  | 0x47 => sum + 1
  | _ => 0xF0000000 + sum + src + 3

/-- The operand masks of a VE command (R180). -/
def veMasks (op : Nat) : List Nat :=
  let t := 0x3FFFFF
  match op with
  | 0x49 => [0xFFFFFFFF, 0xFF, 0xFFFFFFFF, 0xFFFFFFFF, 0xFFFFFFFF]
  | 0x4A => [0, 0xF0000000, t]
  | 0x4B => [0xFFFF, 0, 0, 0, 0, 0, 0xFFF]
  | 0x4C => [0xFFFF, 0, 0, 0, t, 0, 0xFFF]
  | 0x44 => [0xCFFFFFFF, veWord6 op, t, t, 0, t, 0xFFFFFFFF]
  | 0x47 => [0xCFFFFFFF, veWord6 op, 0, t]
  | _ => [0xCFFFFFFF, veWord6 op, t, t, t, t, if op = 0x41 ∨ op = 0x48 then 0 else 0xFFFFFFFF] ++ descMask

/-- The length of a VE element output with its scales (R171). -/
def outLen (panel : Bool) (f : Fmt) (bs : Bool) (m n : Nat) : Nat :=
  if panel then
    let np := cdiv n 128
    np * (cdiv (m * 16 * fmtBits f) 4096 * 4096) + (if bs then np * (cdiv (4 * m) 128 * 128) else 0)
  else if bs then cdiv (packBytes f (m * n)) 4096 * 4096 + m * n / 32 else packBytes f (m * n)

/-- A row-major tensor of a store room: its row length under block scaling, and where it lies. -/
def tensorOk (a : Nat) (f : Fmt) (bs : Bool) (m n : Nat) : Bool :=
  (!bs || decide (n % 32 = 0)) && inRoom a (outLen false f bs m n)

/-- The element output of a VE or NCONV command: its descriptor, its row length and where it lies. -/
def outputOk (c : Against) (ws : Words) (a : Nat) (panel : Bool) (m n : Nat) : Bool :=
  let (f, bs) := descFmt ws
  descOk c ws && (!bs || decide (n % 32 = 0)) && inRoom a (outLen panel f bs m n)

/-- A VE row command, EPI to SMX_FINAL. -/
def veRowOk (c : Against) (ws : Words) : Bool :=
  let op := cOp ws
  let m := vM ws
  let n := vN ws
  let w6 := cw ws 6
  let recs := vHasRecs ws
  let wr := vNorm ws || (recs && op != 0x47)
  let bias := if descBias ws then 4 * n else 0
  let vec := if vNorm ws then cdiv bias 4096 * 4096 + 4 * n else if vNoOut ws then 0 else bias
  let group := match fmtBits (descFmt ws).1 with | 6 => 4 | 4 => 2 | _ => 1
  decide (vSrc ws < 3) && decide (vSideOp ws < 3) && decide (vRowOp ws < 6) && within m 1 2049
    && within n 1 (if vSrc ws < 2 then 513 else 65536)
    && !fmtReserved (fld w6 11 8) && !fmtReserved (fld w6 7 4) && !fmtReserved (fld (cw ws 15) 3 0) && fld (cw ws 15) 10 8 != 7
    && (vSrc ws != 2 || (veInput (fld w6 11 8) && tensorOk (fld (cw ws 7) 21 0 * 4096) ((fmtOfCode (fld w6 11 8)).getD .fp32) (bitOf w6 3) m n))
    && (!vHasSide ws || (veInput (fld w6 7 4) && tensorOk (vSideA ws) (vSideFmt ws) (bitOf w6 2) m n))
    && (!recs || inRoom (vSideA ws) (16 * m)) && (!wr || inRoom (vRowA ws) (16 * m))
    && !(recs && wr && meets (vSideA ws) (16 * m) (vRowA ws) (16 * m))
    && (vRowOp ws == 0 || inRoom (vRowA ws) (4 * m))
    && inRoom (vArea ws) vec
    && (vNoOut ws || (outputOk c ws (vOutA ws) (bitOf w6 1) m n && (bitOf w6 1 || decide (n % group = 0))))
    && (op != 0x47 || (decide (vSrc ws < 2) && vNoOut ws)) && (op != 0x44 || vNoOut ws) && (op != 0x46 || vSumEn ws)

/-- A VE command. -/
def veOk (c : Against) (ws : Words) : Bool :=
  let op := cOp ws
  within op 0x40 0x4D && onlyBits ws (veMasks op) &&
  match op with
  | 0x49 => true
  | 0x4A => inRoom (fld (cw ws 7) 21 0 * 4096) 4096
  | 0x4B => decide (1 ≤ vN ws)
  | 0x4C => decide (1 ≤ vN ws) && inRoom (vOutA ws) (cdiv (vN ws) 15 * 4096)
  | _ => veRowOk c ws

/-! ## Frog engines (R218, R219) -/

/-- Do the rows `first` to `last` of a FROG side lie below its limit? -/
def rowsBelow (base off stride last len limit : Nat) : Bool := decide (base * 4096 + off + last * stride + len ≤ limit * 4096)

/-- A bound names no reserved address and none of the wide gradient buffer. -/
def boundOk (lo hi : Nat) : Bool := decide (lo < hi) && (zoneOf (lo * 4096) ((hi - lo) * 4096)).any (· != 5)

/-- A FROG command. The rows of a DISPATCH's destination are all its EXPERTS × CAP slots, also those that no row of its COUNT can reach (R219).
(DESIGN CHOICE, log 57) -/
def frogOk (ws : Words) : Bool :=
  let op := cOp ws
  let disp := op == 4
  let fill := fFill ws
  let n := fCount ws
  let len := fRow ws
  let w13 := cw ws 13
  let sb := (cw ws 7).toNat
  let sl := (cw ws 8).toNat
  let db := (cw ws 9).toNat
  let dl := (cw ws 10).toNat
  let so := if disp then 0 else fld w13 31 16
  let do_ := if disp then 0 else fld w13 15 0
  let ss := (cw ws 11).toNat
  let ds := (cw ws 12).toNat
  let idx := if op = 2 then 0 else 4 * n * (if disp then fTopk ws else 1)
  let full := 0xFFFFFFFF
  within op 1 5
    && onlyBits ws [0x07FFFFFF, if op = 2 then 0xC7FFFFFF else if disp then 0x07FFFFFF else 0x47FFFFFF, full, full, full, full, full, full, full,
      if op = 2 then 0 else 0x3FFFFF, 0x7FFFFFF]
    && decide (1 ≤ n) && within len 1 65537 && decide (fDepth ws ≤ 512) && !(bitOf (cw ws 6) 30 && (disp || fill))
    && (if fill then sl == 0 else boundOk sb sl) && boundOk db dl && (fill || !meets sb (sl - sb) db (dl - db))
    && (!disp || (decide (1 ≤ fld w13 31 16) && within (fExperts ws) 1 2048 && within (fTopk ws) 1 17))
    && (!bitOf (cw ws 6) 30 || inRoom (fLineA ws) 4)
    && inRoom (fIdxA ws) idx
    && (!disp || inRoom (fLineA ws) (cdiv (fLineA ws + idx) 4096 * 4096 + 8 * fExperts ws - fLineA ws))
    && (op == 1 || fill || rowsBelow sb so ss (n - 1) len sl)
    && (op == 3 || rowsBelow db do_ ds (if disp then fExperts ws * fld w13 31 16 - 1 else n - 1) len dl)

/-! ## Newt engine and sorter (R228 to R230, R235, R236) -/

/-- An NCONV. What lies between the filter's last byte and the tile of its biases counts towards the 1 MiB of the filter buffer (R230).
(DESIGN CHOICE, log 57) -/
def nconvOk (c : Against) (ws : Words) : Bool :=
  let w5 := cw ws 5
  let w6 := cw ws 6
  let x := shapeOf ws
  let one := fld w5 31 30 == 1
  match fmtOfCode (fld w5 23 20), fmtOfCode (fld w5 19 16) with
  | some fi, some fw =>
    let fb := cdiv (packBytes fw (x.outs * x.kg)) 4096 * 4096
    let filt := if descBias ws then fb + 4 * x.outs else packBytes fw (x.outs * x.kg)
    let window := if one then x.w.reach + 1 else (x.h.reach + 1) * x.w.len
    onlyBits ws ([0xFFFF3F3F, 0xFFFFFFFF, 0xFFFFFFFF, 0x3FFFFF, 0x3FFFFF, 0x3FFFFF, 0] ++ descMask)
      && (one || fld w5 31 30 == 2) && fld w5 29 28 != 3 && fld w5 27 26 != 3
      && decide (1 ≤ fld w5 13 8) && decide (1 ≤ fld w5 5 0) && decide (1 ≤ fld w6 31 12) && decide (1 ≤ fld w6 11 0)
      && (!one || (fld w5 5 0 == 1 && fld w6 11 0 == 1)) && decide (1 ≤ x.cin) && decide (1 ≤ x.cout)
      && (decide (x.cin ≤ 16) || decide (x.cout ≤ 16)) && decide (x.kg ≤ 65535) && decide (filt ≤ 2 ^ 20)
      && decide (packBytes fi (window * x.chans) ≤ 2 ^ 18)
      && pairMeets fi fw && !(fi == .int8 && fw == .int8)
      && inRoom (fld (cw ws 8) 21 0 * 4096) (packBytes fi (x.h.len * x.w.len * x.chans)) && inRoom (fld (cw ws 9) 21 0 * 4096) filt
      && (if x.h.out ≤ 0 ∨ x.w.out ≤ 0 then descOk c ws && (!(descFmt ws).2 || decide (x.outs % 32 = 0)) else outputOk c ws (fld (cw ws 10) 21 0 * 4096) (bitOf w5 24) x.places x.outs)
  | _, _ => false

/-- A TOPK or SORT. -/
def sortOk (ws : Words) : Bool :=
  let w5 := cw ws 5
  let uns := bitOf w5 27
  let n := fld w5 16 0
  let m := fld (cw ws 6) 31 16
  let k := fld (cw ws 6) 6 0
  let top := cOp ws == 0x10
  let ko := if top then k else n
  let at_ := fun (i : Nat) => fld (cw ws i) 21 0 * 4096
  let code := fld w5 31 28
  match fmtOfCode code with
  | none => false
  | some f =>
    let fmtOk := if uns then code == 0 else f == .fp32 || f == .bf16 || f == .fp16 || f == .e4m3 || f == .e5m2 || f == .int8
    let keys := (at_ 7, outLen false f (bitOf w5 23) m n)
    let ins := keys :: (if bitOf w5 25 then [(at_ 8, 4 * m * n)] else [])
    let outs := (at_ 10, 4 * m * ko) :: (if bitOf w5 24 then [(at_ 9, 4 * m * ko)] else [])
    let t := 0x3FFFFF
    onlyBits ws [0xFF81FFFF, 0xFFFF007F, t, if bitOf w5 25 then t else 0, if bitOf w5 24 then t else 0, t]
      && fmtOk && within n 1 65537 && decide (1 ≤ m) && (if top then within k 1 65 && decide (k ≤ n) else k == 0)
      && (!bitOf w5 23 || (!uns && decide (n % 32 = 0))) && (!(f == .int8 && bitOf w5 23) || cRecipe ws == 5)
      && (ins ++ outs).all (fun r => inRoom r.1 r.2)
      && ins.all fun i => outs.all fun o => !meets i.1 i.2 o.1 o.2

/-! ## Mover (R262 to R269) -/

/-- Do runs of bytes of two lists, sorted by their start, share a byte? `er` and `ew` end what has begun of each. -/
def sweep : List (Nat × Nat × Bool) → Nat → Nat → Bool
  | [], _, _ => false
  | (a, n, w) :: r, er, ew =>
    if w then decide (a < er) || sweep r er (max ew (a + n)) else decide (a < ew) || sweep r (max er (a + n)) ew

/-- Does some byte lie both in a read run and in a written run? -/
def clash (rs ws : List (Nat × Nat)) : Bool :=
  sweep (((rs.map fun x => (x.1, x.2, false)) ++ ws.map fun x => (x.1, x.2, true)).mergeSort fun a b => decide (a.1 ≤ b.1)) 0 0

/-- The runs that a mover command reads and those it writes. -/
def moverRuns (ws : Words) : List (Nat × Nat) × List (Nat × Nat) :=
  let src := tileA (cw ws 5)
  let dst := tileA (cw ws 6)
  match cOp ws with
  | 1 =>
    let len := fld (cw ws 8) 23 0
    let rows := copyRows ws
    (rows.map fun r => (r.1, len), rows.map fun r => (r.2, len))
  | 2 =>
    let rows := fld (cw ws 7) 19 0
    let n := fld (cw ws 8) 23 0
    let (f, bs) := descFmt ws
    ([(src, outLen false ((fmtOfCode (fld (cw ws 7) 31 28)).getD .fp32) (bitOf (cw ws 7) 27) rows n)], [(dst, outLen false f bs rows n)])
  | 3 =>
    let t := fld (cw ws 7) 19 0
    ([(src, 4096 * t)], [(dst, 4096 * t), (tileA (cw ws 8), 8 * t)])
  | _ =>
    let t := fld (cw ws 7) 19 0
    ([(src, 4096 * t), (tileA (cw ws 8), 8 * t)], [(dst, 4096 * t)])

/-- A mover command, where its bytes lie apart. A CONVERT of rows of no elements (ROW_ELEMS 0) is refused. (DESIGN CHOICE, log 57) -/
def moverFields (c : Against) (ws : Words) : Bool :=
  let full := 0xFFFFFFFF
  match cOp ws with
  | 1 =>
    onlyBits ws [full, full, full, 0xFFFFFF, full, full, full, full, full] && decide (1 ≤ fld (cw ws 8) 23 0)
      && decide (1 ≤ fld (cw ws 9) 31 20) && decide (1 ≤ fld (cw ws 9) 19 0)
  | 2 =>
    let n := fld (cw ws 8) 23 0
    onlyBits ws ([full, full, 0xF80FFFFF, 0xFFFFFF, full, 0xFFFF, full] ++ descMask) && decide (1 ≤ fld (cw ws 7) 19 0) && decide (1 ≤ n)
      && (fmtOfCode (fld (cw ws 7) 31 28)).any (fun f => f != .int32) && (!bitOf (cw ws 7) 27 || decide (n % 32 = 0))
      && descOk c ws && !descBias ws && (!(descFmt ws).2 || decide (n % 32 = 0))
  | o =>
    let fb := fld (cw ws 9) 31 16
    (o == 3 || o == 4) && onlyBits ws [full, full, 0xF00FFFFF, full, 0xFFFF0000] && decide (1 ≤ fld (cw ws 7) 19 0)
      && (fmtOfCode (fld (cw ws 7) 31 28)).any (fun f => f == .bf16 || f == .e4m3 || f == .e5m2) && (fb == 0 || decide (cBudget ws ≤ fb))

/-- A mover command. -/
def moverOk (c : Against) (ws : Words) : Bool :=
  moverFields c ws &&
    (let (rs, wr) := moverRuns ws
     (rs ++ wr).all (fun r => inLevel r.1 r.2 && inData c.parts r.1 r.2) && !clash rs wr)

/-! ## Gecko units (R283, R285, R291, R303) -/

/-- A context's array as R283 and R291 give it: the offset of its base field, and its bytes. -/
def packedLen (f : Fmt × Bool) (n : Nat) : Nat :=
  if f.2 then cdiv (packBytes f.1 (32 * n)) 4096 * 4096 + n else packBytes f.1 (32 * n)

/-- Preconditioner blocks of a shard. -/
def GCtx.pcount (g : GCtx) : Nat := 32 * g.nblk / max 1 (g.br * g.bc)

/-- The arrays a context's rule uses: base field offset and length; one whose format a recipe decides has none yet. -/
def ctxArrays (g : GCtx) (mom wc : Option (Fmt × Bool)) : List (Nat × Option Nat) :=
  let n := g.nblk
  let mo := mom.map (packedLen · n)
  let pre := if g.rule = 4 then [56, 60, 64, 68].map fun o => (o, some (65536 * g.pcount)) else []
  (if g.hasW then [(24, some (128 * n))] else []) ++ (if g.hasG then [(28, some (128 * n))] else [])
    ++ (if g.hasM1 then [(32, mo)] else []) ++ (if g.hasM2 then [(36, mo)] else [])
    ++ (if g.hasWC then [(40, wc.map (packedLen · n))] else []) ++ (if g.touchAll then [] else [(44, some (cdiv n 8))])
    ++ (if g.blockSteps then [(48, some (4 * n))] else []) ++ (if g.rule = 6 then [(52, some (128 * n))] else []) ++ pre

/-- Arrays lie in the cellar window outside its check area, and no two overlap (R285). -/
def arraysOk (g : GCtx) (arrays : List (Nat × Option Nat)) : Bool :=
  let runs := arrays.filterMap fun x => x.2.map fun n => (g.base x.1, n)
  runs.all (fun r => decide (0x1000000000 ≤ r.1 ∧ r.1 + r.2 ≤ 0x1000000000 + 96 * gib - 96 * gib / 1024))
    && decide (runs.Pairwise fun a b => meets a.1 a.2 b.1 b.2 = false)

/-- A format code as a context may name it whatever the recipe: resolved, or none for "from recipe" (R31, R40). -/
def ctxFmt (kind code : Nat) : Option (Option (Fmt × Bool)) :=
  if code = 15 then some none
  else match fmtOfCode code with
    | none => none
    | some f => match ((List.range 8).flatMap fun r => recipeFmts r kind).find? fun x => x.1 == f with
      | some x => some (some x)
      | none => none

/-- A format code of an array that the context's rule does not use: 0, or one that R40 allows for the kind.
(DESIGN CHOICE, log 56) -/
def spareFmtOk (kind code : Nat) : Bool := code == 0 || (ctxFmt kind code).isSome

/-- Does a context meet R285? -/
def contextOk (c : Context) : Bool :=
  let g := gctx 0 c
  let f := rd c.static 0 4
  let flags := fun (bit : Nat) (rules : List Nat) => !f.testBit bit || rules.contains g.rule
  let mom := if g.hasM1 then ctxFmt 4 (nfld f 23 20) else some none
  let wc := if g.hasWC then ctxFmt 0 (nfld f 27 24) else some none
  (g.hasM1 || spareFmtOk 4 (nfld f 23 20)) && (g.hasWC || spareFmtOk 0 (nfld f 27 24))
    && decide (nfld f 15 12 ≤ 4) && decide (nfld f 19 16 ≤ 4)
    && within g.rule 1 7 && nfld f 31 28 == 0 && nfld f 11 9 == 0 && allZero (sub c.static 76 52)
    && flags 4 [1, 3, 4] && flags 5 [1, 2, 3, 5, 6] && flags 7 [1, 2, 3, 4, 6] && flags 8 [3]
    && decide (g.elem0 % 32 = 0) && decide (g.rowLen % 32 = 0) && decide (1 ≤ g.nblk)
    && (g.rule != 4 || (g.touchAll && within (nfld f 15 12) 1 5 && within (nfld f 19 16) 1 5 && decide (0 < g.rowLen)
      && decide (g.elem0 % (g.rowLen * g.br) = 0) && decide (32 * g.nblk % (g.rowLen * g.br) = 0) && decide (g.rowLen % g.bc = 0)))
    && stepRecordOk c.step
    && (match mom, wc with
      | some m, some w =>
        let l := ctxArrays g m w
        arraysOk g l && ([24, 28, 32, 36, 40, 44, 48, 52, 56, 60, 64, 68].all fun o => l.any (·.1 == o) || rd c.static o 4 == 0)
      | _, _ => false)

/-- A context that the image gives the die. -/
def Against.ctx (c : Against) (n : Nat) : Option Context := (c.ctxs.find? fun x => x.1 == n).map (·.2)

/-- Do a GAPPLY's recipe and its context agree (R285)? -/
def gapplyOk (recipe : Nat) (x : Context) : Bool :=
  let g := gctx recipe x
  let f := rd x.static 0 4
  let has := fun (used : Bool) (kind code : Nat) =>
    !used || (if code = 15 then !(recipeFmts recipe kind).isEmpty else (fmtOfCode code).any (recipeHas recipe kind))
  has g.hasM1 4 (nfld f 23 20) && has g.hasWC 0 (nfld f 27 24) && arraysOk g (ctxArrays g (some g.mom) (some g.wc))

/-- An UPDATE command. -/
def updateOk (c : Against) (ws : Words) : Bool :=
  let n := fld (cw ws 5) 20 10
  let k := fld (cw ws 5) 9 0
  match cOp ws with
  | 1 => onlyBits ws [0x3FF] && (c.ctx k).any (gapplyOk (cRecipe ws))
  | 2 => onlyBits ws [0x1FFFFF, 0x7FFFFFF, 0xFFFF] && within n 1 1025 && ((List.range n).all fun i => (c.ctx (k + i)).isSome)
      && inRoom (lineA (fld (cw ws 6) 26 0)) (64 * n)
  | 3 => onlyBits ws [0x1FFFFF, 0, 0, 0xFFFFFFFF, 3, 0x3FFFFF, 0xFFFFFFFF] && within n 1 1025
      && !fspecial (cw ws 11) && !fneglt0 (cw ws 11)
      && (c.ctx k).any (fun x => (gctx 0 x).rule == 4 && decide ((cw ws 8).toNat + n ≤ (gctx 0 x).pcount))
      && inRoom (fld (cw ws 10) 21 0 * 4096) (131072 * n)
  | _ => false

/-! ## Fabric engine (R346, R347, R382, R383) -/

/-- The fields of a PHASE or RESHARD. -/
def phaseOk (c : Against) (ws : Words) : Bool :=
  let ports := fld (cw ws 5) 7 4
  ports != 0 && ((List.range 4).all fun j => !ports.testBit j || decide (fld (cw ws 5) 2 0 < atD 0 c.tables j)) && decide (7 ≤ fld (cw ws 7) 31 16)

/-- May a collective read or write a run: in the store rooms, the wide gradient buffer or the cellar's data (R383)? -/
def redRun (c : Against) (tile tiles : Nat) : Bool :=
  (zoneOf (tile * 4096) (tiles * 4096)).any (fun z => decide (z < 7)) && inData c.parts (tile * 4096) (tiles * 4096)

/-- The tiles of the check segments of an RQUANT, one segment for each shard, or of an RDEQ, this shard's (R366). -/
def checkTiles (ws : Words) : Nat :=
  let tiles := fld (cw ws 9) 31 16
  let rate := fld (cw ws 5) 19 16
  let s := fld (cw ws 11) 31 16
  if cOp ws = 0x12 then tiles / max 1 s * segTiles s rate else segTiles tiles rate

/-- A collective command but RESHARD; an epoch's number runs from 1 (R352). -/
def collectiveOk (c : Against) (ws : Words) : Bool :=
  let full := 0xFFFFFFFF
  let w5 := cw ws 5
  let rate := fld w5 19 16
  let tiles := fld (cw ws 9) 31 16
  let head := fld (cw ws 9) 15 11
  let sample := decide (rate ≤ 12) && decide (fld (cw ws 11) 11 0 < 2 ^ rate)
  let agree := lineA (fld (cw ws 8) 26 0)
  let src := (cw ws 6).toNat
  let epoch := decide (1 ≤ fld w5 15 0)
  match cOp ws with
  | 0x10 =>
    let w6 := cw ws 6
    let close := bitOf w5 31
    let bk := fld w6 31 16
    onlyBits ws [0xC000FFFF, 0xFFFF01FF, 0x7FFFFFF] && epoch
      && (if close then !bitOf w5 30 && w6 == 0 && cw ws 7 == 0
        else (if bitOf w5 30 then within bk 1 4097 else bk == 0) && decide (fld w6 8 0 ≤ 256) && inRoom (lineA (fld (cw ws 7) 26 0)) (4 * fld w6 8 0))
  | 0x11 =>
    onlyBits ws [0xFFF0FFFF, full, 0, 0x7FFFFFF, 0xFFFF0000] && epoch && decide (1 ≤ tiles) && decide (tiles % 4 = 0)
      && redRun c src tiles && inRoom agree (32 * tiles)
  | 0x12 =>
    let s := fld (cw ws 11) 31 16
    onlyBits ws [full, full, full, 0x7FFFFFF, 0xFFFFF800, full, 0xFFFF0FFF] && epoch && decide (1 ≤ tiles) && decide (tiles % 4 = 0)
      && decide (1 ≤ s) && decide (s % 4 = 0) && within head 2 17 && sample && redRun c src tiles && redRun c (cw ws 7).toNat tiles
      && redRun c (cw ws 10).toNat (checkTiles ws) && inRoom agree (32 * tiles)
  | 0x13 =>
    let w := cw ws 15
    let blk := (cw ws 7).toNat
    onlyBits ws ([full, full, full, 0x7FFFFFF, 0xFFFFFBFF, full, 0xFFF] ++ descMask) && epoch && decide (1 ≤ tiles) && decide (tiles % 4 = 0)
      && within head 2 17 && sample && decide (blk % 128 = 0)
      && (c.ctx (fld (cw ws 9) 9 0)).any (fun x => rd x.static 28 4 != 0 && decide (blk + 32 * tiles ≤ rd x.static 20 4))
      && redRun c src tiles && redRun c (cw ws 10).toNat (checkTiles ws) && inRoom agree (32 * tiles)
      && descOk c ws && fld w 3 0 == 0 && (fld w 5 4 == 0 || fld w 5 4 == 3) && fld w 10 8 == 3 && !descBias ws
  | _ => false

/-- A FABRIC command. Where a DCOPY puts its tiles is no matter of the load, but for the reserve and what is ABSENT (R347). -/
def fabricOk (c : Against) (ws : Words) : Bool :=
  let full := 0xFFFFFFFF
  match cOp ws with
  | 1 => onlyBits ws [0xF7, full, full] && phaseOk c ws
  | 2 =>
    let w := cw ws 5
    let n := fld (cw ws 8) 19 0
    onlyBits ws [0x07301FFF, full, full, 0xFFFFF] && fld w 26 24 != c.d.val && fld w 21 20 != 3 && decide (1 ≤ n)
      && inPlain (tileA (cw ws 6)) (4096 * n)
  | 3 =>
    let n := fld (cw ws 9) 19 0
    onlyBits ws [1, full, 0xFFFFF000, full, 0xFFFFF] && bitOf (cw ws 8) 31 && decide (1 ≤ n)
      && inPlain (wGlobal ws 0 % 2 ^ 48) (4096 * n) && inPlain (tileA (cw ws 6)) (4096 * n)
      && !(wGlobal ws 0 / 2 ^ 51 % 4096 == c.me && touchesReserve (wGlobal ws 0 % 2 ^ 48) (4096 * n))
  | 0x14 => onlyBits ws [0xF7, full, full, 0xFFFF] && phaseOk c ws && decide (1 ≤ fld (cw ws 7) 15 0) && decide (1 ≤ fld (cw ws 8) 15 0) && fld (cw ws 7) 15 0 != fld (cw ws 8) 15 0
  | _ => collectiveOk c ws

/-! ## Every command -/

/-- The runs of bytes beyond the store rooms that a command of a die may name, each on its die (R21, R484). -/
def cmdRuns (d : Fin 8) (ws : Words) : List (Fin 8 × Nat × Nat) :=
  let tiles := fun (t n : Nat) => (d, t * 4096, n * 4096)
  let w := fun i => (cw ws i).toNat
  match cClass ws with
  | 4 => (if fFill ws then [] else [tiles (w 7) (w 8 - w 7)]) ++ [tiles (w 9) (w 10 - w 9)]
  | 5 => ((moverRuns ws).1 ++ (moverRuns ws).2).map (d, ·)
  | 6 =>
    match cOp ws with
    | 2 => [tiles (w 6) (fld (cw ws 8) 19 0), (⟨fld (cw ws 5) 26 24 % 8, by omega⟩, w 7 * 4096, fld (cw ws 8) 19 0 * 4096)]
    | 3 => [tiles (w 6) (fld (cw ws 9) 19 0)]
    | 0x11 => [tiles (w 6) (fld (cw ws 9) 31 16)]
    | 0x12 => [tiles (w 6) (fld (cw ws 9) 31 16), tiles (w 7) (fld (cw ws 9) 31 16), tiles (w 10) (checkTiles ws)]
    | 0x13 => [tiles (w 6) (fld (cw ws 9) 31 16), tiles (w 10) (checkTiles ws)]
    | _ => []
  | _ => []

/-- A command of a space of `n` commands. (DEDUCED, log 27) -/
def commandOk (c : Against) (n : Nat) (ws : Words) : Bool :=
  headerOk ws && (cmdRuns c.d ws).all (fun r => !touchesReserve r.2.1 r.2.2) &&
  match cClass ws with
  | 4 => frogOk ws
  | 5 => within (cOp ws) 1 5 && moverOk c ws
  | 6 => fabricOk c ws
  | 7 => if cOp ws = 1 then nconvOk c ws else (cOp ws == 0x10 || cOp ws == 0x11) && sortOk ws
  | 8 => updateOk c ws
  | 15 => controlOk n ws
  | k => decide (k < 4) && (if cOp ws < 0x40 then within (cOp ws) 1 6 && meOk ws else veOk c ws)

end Sys2Proof.Machine
end

