-- ==== Sys2Proof/Machine/Packets.lean ====
section
/-! DEFINITION. Packets that start, stop and unload schedules, seed recipes, set ports and the fabric mode:
03_schedules_queues_and_tokens.md R66 to R69, 11_chivary_fabric.md R309 and R341, 16_bringup_errors_and_recovery.md R490. -/

namespace Sys2Proof.Machine

/-! ## Arming (R67) -/

/-- Is a register of a die one of the counters that clear when the die enters Armed: R221, R238, R278, R304, R349, R351, R385? -/
def armClears (b o : Nat) : Bool :=
  if b = bFRG then
    if o < 0x8000 then o % 0x1000 == 4 || o % 0x1000 == 0x10 || decide (0x400 ≤ o % 0x1000) else o != 0x8000 && o != 0x8100
  else if b = bMOV then o != 0 && decide (o < 0x800)
  else if b = bGEK then decide (o < 0x2000) && o % 0x1000 != 0
  else if b = bFAB then
    if o < 0x1000 then within (o % 0x400) 0x10 0x34 else within o 0x8004 0x801C || within o 0x8104 0x8118
  else false

/-- The counters of a die's blocks clear; of FAB_LANE only its two counts (R349). (DEDUCED, log 28) -/
def clearCounters (d : Fin 8) (regs : NMap Word) : NMap Word :=
  (regs.filter fun x => !(regUnit x.1 == d.val && armClears (regBlk x.1) (regOff x.1))).map fun x =>
    if regUnit x.1 = d.val ∧ regBlk x.1 = bFAB ∧ regOff x.1 < 0x1000 ∧ within (regOff x.1 % 0x400) 0x40 0x60 then (x.1, x.2 &&& 0xFF#32) else x

/-- A die enters Armed: tokens, marks, sums, slots, log indices, epochs and placements start afresh (R67, R98, R176, R180, R353).
(DEDUCED, log 28) -/
def armDie (beat : Nat) (d : Die) : Die :=
  { d with
    tokens := [], marks := []
    qsum := Vector.replicate 9 (Vector.replicate 4 0), summ := Vector.replicate 16 {}
    epochs := [], slots := Vector.replicate 16 none
    mv := d.mv.map fun x => { x with row0 := 0, col0 := 0, rowLen := 0, maskOff := 0 }
    seq := { d.seq with
      st := .armed, startBeat := beat, haltClass := 0, haltStatus := 0, haltValid := false
      logWr := 0, logRd := 0, overruns := 0, logStalls := 0
      pc := 0, window := 0, stack := [], fetching := false, stopped := false, ran := false
      ctlClock := none, ctlHeld := false, ctlTiming := 0, ctlTaken := false, overrun := [], halted := [] } }

/-- Is INIT_DONE of a die's store rooms set (R118, R124)? -/
def storesReady (s : State) (d : Fin 8) : Bool := bitOf (rget s (regA d bMOV 0x800)) 3

/-- A SCHED_LOAD of a partition runs: it holds the partition's dies, so that no other packet moves their schedule state (R66, R395). -/
def loading (s : State) (p : Nat) : Bool := s.ctl.actions.any fun a => a.opcode == 0x300 && a.part.toNat == p

/-- SCHED_START: the dies of a partition are armed for a start beat at least 16 beats after the one in which the packet arrived, also where
it waited in the queue (R67); a die that is on its way out of Run counts as not in Run (R454). (DEDUCED, log 28) -/
def opSchedStart : Op where
  code := 0x0302
  ok := fun _ q => q.long 8 && q.one
  rest := fun s q =>
    let ds := diesOf s q.part
    let ck := rget s (regA uHub bCLK 0)
    let bad := !(ds.all fun d => (s.die d).seq.st == .loaded || (s.die d).seq.st == .stopped)
      || decide (q.at 0 8 < arrivalBeat s + 16) || s.fab.mode != 0 || !bitOf ck 2 || bitOf ck 5 || !(ds.all (storesReady s))
    firstOf [
      guard s q.from [q.part], partThere s q,
      if bad then some (sSTATE, natLE 8 s.clk.beat) else none,
      refuseIf (!ds.all fun d => (s.die d).pw == .run && (s.die d).target.isNone) sPOWER,
      refuseIf (warned s) sPOWER, refuseIf (loading s q.part) sBUSY]
  onState := fun s => natLE 8 s.clk.beat
  act := fun q => do
    let s ← getS
    (diesOf s q.part).forM fun d => do
      modD d (armDie (q.at 0 8))
      modS fun s => { s with
        regs := clearCounters d s.regs
        ports := Vector.ofFn fun p => if dieOf p = d then { s.ports[p] with corrected := Vector.replicate 8 0 } else s.ports[p]
        pwr := { s.pwr with belowFloor := s.pwr.belowFloor.filter (· != d.val) } }
    return some (sOK, natLE 8 s.clk.beat)

/-- SCHED_START (R67). -/
def execSchedStart (q : Pkt) (s : State) : Host.Outcome State Fault Refusal := packetStep wideScope opSchedStart q s

/-! ## Stopping and unloading (R66, R69, R490) -/

/-- A stop packet on one die: Armed goes to Stopped at once; Running or Halted goes to Stopping, queued commands go, every
open epoch aborts and the phases of epoch 0 end with EPOCH. (DEDUCED, log 28) -/
def stopOne (d : Fin 8) : W Unit := do
  let die ← getD d
  if die.seq.st = .armed then modSeq d fun q => { q with st := .stopped }
  else
    modD d fun x => { x with queues := Vector.replicate 9 [], seq := { x.seq with st := .stopping, fetching := false } }
    abortOpen d
    endFree d none sEPOCH

/-- SCHED_STOP. -/
def opSchedStop : Op where
  code := 0x0303
  ok := fun _ q => q.long 0 && q.one
  rest := fun s q => firstOf [partThere s q, diesIn s (diesOf s q.part) [.armed, .running, .halted]]
  act := fun q => do
    (diesOf (← getS) q.part).forM stopOne
    answer sOK

/-- SCHED_STOP (R69). -/
def execSchedStop (q : Pkt) (s : State) : Host.Outcome State Fault Refusal := packetStep wideScope opSchedStop q s

/-- A die without an image: Empty, with no valid table slot and no context (R66, R165, R282). (DEDUCED, log 28) -/
def emptyDie (d : Die) : Die :=
  { d with
    ctx := [], mv := d.mv.map fun x => { x with valid := [] }
    seq := { d.seq with st := .empty, space := [], logBase := 0, logN := 0, idleHold := 0, napHold := 0, fetching := false, stopped := false } }

/-- What a partition's image brought goes (R66). (DEDUCED, log 28) -/
def dropImage (p : Nat) : W Unit := do
  let s ← getS
  (diesOf s p).forM fun d => do
    modD d emptyDie
    (portsOf d).forM fun x => modP x fun y => { y with tables := [] }
  if h : p < 8 then
    modS fun s => { s with images := s.images.set p {}, fab := { s.fab with imageMaps := s.fab.imageMaps.set p none } }

/-- SCHED_UNLOAD. -/
def opSchedUnload : Op where
  code := 0x0301
  ok := fun _ q => q.long 0 && q.one
  rest := fun s q => firstOf [partThere s q, diesIn s (diesOf s q.part) [.loaded, .stopped], refuseIf (loading s q.part) sBUSY]
  act := fun q => do
    dropImage q.part
    answer sOK

/-- SCHED_UNLOAD (R66). -/
def execSchedUnload (q : Pkt) (s : State) : Host.Outcome State Fault Refusal := packetStep wideScope opSchedUnload q s

/-! ## Status and seeds (R397) -/

/-- SCHED_STATUS: four registers of each die, coarsened as any reading (R440). (DEDUCED, log 45) -/
def opSchedStatus : Op where
  code := 0x0304
  lease := false
  ok := fun _ q => q.long 0
  rest := fun s q => firstOf [partThere s q, refuseIf (!(partDies s q).all (dieThere s q.from)) sABSENT]
  act := fun q => do
    let ds := partDies (← getS) q
    let ws ← (ds.flatMap fun d => [0x00, 0x04, 0x08, 0x14].map (regA d.val bSEQ)).mapM (readAs q.from)
    return some (sOK, bytesOf ws)

/-- SCHED_STATUS (R397). -/
def execSchedStatus (q : Pkt) (s : State) : Host.Outcome State Fault Refusal := packetStep readScope opSchedStatus q s

/-- Does a partition hold an image? -/
def hasImage (s : State) (p : Nat) : Bool := (s.images.toList.getD p {}).bytes != []
/-- Change a partition's image. -/
def modImage (p : Nat) (f : Image → Image) : W Unit :=
  if h : p < 8 then modS fun s => { s with images := s.images.set p (f s.images[p]) } else pure ()

/-- The recipes with the seeds that a RECIPE_SEED carries. -/
def seeded (q : Pkt) (v : Vector Recipe 8) : Vector Recipe 8 :=
  Vector.ofFn fun (r : Fin 8) =>
    if (q.at 0 1).testBit r.val then { v[r] with seed := BitVec.ofNat 64 (q.at (8 + 8 * r.val) 8) } else v[r]

/-- RECIPE_SEED: the SEED of each recipe whose bit is set. (DEDUCED, log 28) -/
def opRecipeSeed : Op where
  code := 0x0305
  ok := fun _ q => q.long 72 && q.one && q.at 1 7 == 0
  rest := fun s q => firstOf [guard s q.from [q.part], partThere s q, diesIn s (diesOf s q.part) atRest]
  act := fun q => do
    if hasImage (← getS) q.part then
      modImage q.part fun x => { x with recipes := seeded q x.recipes }
    answer sOK

/-- RECIPE_SEED (R397). -/
def execRecipeSeed (q : Pkt) (s : State) : Host.Outcome State Fault Refusal := packetStep wideScope opRecipeSeed q s

/-! ## Ports and the fabric mode (R309, R341) -/

/-- The ports of a mask. -/
def maskPorts (m : Nat) : List (Fin 32) := (List.finRange 32).filter fun p => m.testBit p

/-- The link state of a port that no longer carries frames. (DESIGN CHOICE, log 21) -/
def quietPort (st : PortSt) (x : Port) : Port :=
  { x with st, width := 0, retry := [], waiting := [], episode := none, changing := false, nak := false, refusing := false, refusal := none, errSince := [], errEpisode := [], rxNext := none }

/-- One port of a PORT_SET: disable turns its lasers off, enable moves it from DISABLED to DOWN, train starts its training.
(DESIGN CHOICE, log 21) -/
def setPort (action : Nat) (p : Fin 32) : W Unit := do
  match action with
  | 0 =>
    modP p (quietPort .disabled)
    showLanes p
  | 1 => modP p fun x => if x.st = .disabled then { x with st := .down } else x
  | _ =>
    modP p fun x => if x.st = .disabled then x else quietPort .training x
    showLanes p

/-- PORT_SET. -/
def opPortSet : Op where
  code := 0x0400
  ok := fun _ q => q.long 8 && decide (q.at 4 4 < 3)
  rest := fun s q => firstOf [
    refuseIf (s.sec.bootFail.testBit 3) sABSENT,
    refuseIf ((maskPorts (q.at 0 4)).any fun p => !diePresent s (dieOf p) || (q.at 4 4 == 2 && (s.port p).st == .disabled)) sABSENT,
    diesIn s allDies atRest,
    refuseIf (q.at 4 4 == 2 && !bitOf (rget s (regA uHub bCLK 0)) 2) sSTATE]
  act := fun q => do
    (maskPorts (q.at 0 4)).forM (setPort (q.at 4 4))
    answer sACCEPTED

/-- A PORT_SET row: the packets whose action is the row's; a packet with a reserved action or a wrong length meets any of the three.
(DESIGN CHOICE, log 21 and 24) -/
def portSetRow (action : Nat) (q : Pkt) (s : State) : Host.Outcome State Fault Refusal :=
  W.within wideScope s (if q.long 8 ∧ q.at 4 4 < 3 ∧ q.at 4 4 ≠ action then pure () else packet opPortSet q)

/-- PORT_SET_DISABLE (R309). -/
def execPortSetDisable (q : Pkt) (s : State) : Host.Outcome State Fault Refusal := portSetRow 0 q s
/-- PORT_SET_ENABLE (R309). -/
def execPortSetEnable (q : Pkt) (s : State) : Host.Outcome State Fault Refusal := portSetRow 1 q s
/-- PORT_SET_TRAIN (R309). -/
def execPortSetTrain (q : Pkt) (s : State) : Host.Outcome State Fault Refusal := portSetRow 2 q s

/-- No port has a phase armed, running or not yet drained. -/
def phasesIdle (s : State) : Bool := s.ports.all fun x => x.armed.isEmpty && x.running.isNone && x.draining.isEmpty

/-- FAB_SETMODE. -/
def opFabSetmode : Op where
  code := 0x0401
  ok := fun _ q => q.long 1 && decide (q.at 0 1 < 4)
  rest := fun s _ => firstOf [diesIn s allDies atRest, refuseIf (!phasesIdle s) sSTATE]
  act := fun q => do
    modS fun s => { s with fab := { s.fab with mode := q.at 0 1 } }
    if q.at 0 1 ≠ 0 then
      (allDies.flatMap portsOf).forM fun p => modP p fun x => { x with waiting := x.waiting.filter fun b => windowType (rd b 0 1) }
    answer sOK

/-- FAB_SETMODE (R341). Frames of other types that still wait for room when a window mode begins are lost. (DESIGN CHOICE, log 54) -/
def execFabSetmode (q : Pkt) (s : State) : Host.Outcome State Fault Refusal := packetStep wideScope opFabSetmode q s

end Sys2Proof.Machine
end

