-- ==== Sys2Proof/Machine/Image.lean ====
section
/-! DEFINITION. Schedule images and membership maps: their sections, the verification of R64, loading, and MAP_LOAD:
03_schedules_queues_and_tokens.md R63 to R65 and R502, 11_chivary_fabric.md R314 to R316, R325, R326 and R338,
12_collectives_and_expert_traffic.md R352, 16_bringup_errors_and_recovery.md R484. -/

namespace Sys2Proof.Machine

/-! ## Header and directory (R502) -/

/-- A section of an image. -/
structure Sec2 where
  type : Nat
  unit : Nat
  len : Nat
  off : Nat
  deriving DecidableEq, Repr

/-- The sections that an image's directory lists. -/
def sectionsOf (b : List Byte) : List Sec2 :=
  (List.range (rd b 20 4)).map fun i =>
    let e := rd b 16 4 + 16 * i
    { type := rd b e 1, unit := rd b (e + 1) 1, len := rd b (e + 4) 4, off := rd b (e + 8) 8 }

/-- The bytes of a section, where there is one. -/
def sectionAt (b : List Byte) (ss : List Sec2) (type unit : Nat) : Option (List Byte) :=
  (ss.find? fun x => x.type == type && x.unit == unit).map fun x => sub b x.off x.len

/-- Does a section stand for a unit that its type has (R502)? -/
def sectionUnitOk (x : Sec2) : Bool :=
  if x.type = 2 then decide (x.unit < 32)
  else if x.type = 4 ∨ x.type = 5 ∨ x.type = 6 then x.unit == 0xFF
  else (x.type == 1 || x.type == 3 || within x.type 7 10) && decide (x.unit < 8)

/-- Header, directory and sections in place, those that each die needs for every die of the module, because an image is one module's
(R63, R502); `len` is the length that SCHED_LOAD names. -/
def directoryOk (s : State) (b : List Byte) (len : Nat) : Bool :=
  let dir := rd b 16 4
  let n := rd b 20 4
  let ss := sectionsOf b
  let need := fun t u => ss.any fun x => x.type == t && x.unit == u
  decide (64 ≤ len) && rd b 0 2 == 0x4753 && rd b 2 2 == 1 && rd b 4 4 == (rget s (regA uHub bMBX 0x14)).toNat && rd b 8 8 == len
    && decide (dir % 64 = 0) && decide (64 ≤ dir) && within n 1 4097 && allZero (sub b 24 40) && decide (dir + 16 * n ≤ len)
    && ((List.range n).all fun i => rd b (dir + 16 * i + 2) 2 == 0)
    && ss.all (fun x => decide (1 ≤ x.len) && decide (x.off % 64 = 0) && decide (x.off + x.len ≤ len) && sectionUnitOk x)
    && decide (((0, 64) :: (dir, 16 * n) :: ss.map fun x => (x.off, x.len)).Pairwise fun a c => meets a.1 a.2 c.1 c.2 = false)
    && decide ((ss.map fun x => (x.type, x.unit)).Nodup)
    && need 4 0xFF && need 6 0xFF && allDies.all fun d => need 1 d.val && need 8 d.val && need 9 d.val

/-! ## Membership maps (R314, R315) -/

/-- The map that bytes spell, where no field breaks R314. -/
def mapOf (b : List Byte) : Option MMap :=
  let n := rd b 0 2
  let g := rd b 8 4
  let mod := fun i => sub b (64 + 8 * i) 8
  let grp := fun i => sub b (64 + 8 * n + 8 * i) 8
  let ok := within n 16 4097 && (rd b 2 1 == 1 || rd b 2 1 == 2 || rd b 2 1 == 4) && within (rd b 3 1) 1 9 && within (rd b 4 1) 1 9
    && rd b 5 3 == 0 && decide (g ≤ 262144) && allZero (sub b 12 52) && b.length == 64 + 8 * n + 8 * g
    && (List.range n).all (fun i => let e := mod i
      decide (rd e 0 2 < 4096) && decide (rd e 2 1 < 4) && decide (rd e 3 1 < 10) && rd e 4 4 == 0)
    && (List.range g).all fun i => let e := grp i
      decide (rd e 5 1 < 16) && decide (rd e 6 1 < 2) && rd e 7 1 == 0
  if ok then
    some { z := rd b 2 1, ra := rd b 3 1, rb := rd b 4 1
           mods := (List.range n).map fun i => let e := mod i
             { module := rd e 0 2, prot := (rd e 2 1).testBit 1, present := (rd e 2 1).testBit 0, detour := rd e 3 1 }
           groups := (List.range g).map fun i => let e := grp i
             { kind := rd e 6 1, group := rd e 0 2, pos := rd e 2 2, module := rd e 4 2 % 4096, die := rd e 5 1 % 16 } }
  else none

/-- The positions of every group run 0, 1, 2 and on, within its largest size; the keys are sorted. -/
def groupsRun : List Nat → Option Nat → Bool
  | [], _ => true
  | k :: r, prev =>
    let pos := k % 2 ^ 16
    decide (pos < if k / 2 ^ 32 = 0 then 512 else 32768)
      && (match prev with
        | some q => if q / 2 ^ 16 = k / 2 ^ 16 then k == q + 1 else pos == 0
        | none => pos == 0)
      && groupsRun r (some k)

/-- R315's rules on order, geometry and groups, with the loading module listed and PRESENT. (DEDUCED, log 27) -/
def mapOk (me : Nat) (g : MMap) : Bool :=
  g.has me && decide ((g.mods.map (·.module)).Pairwise (· < ·))
    && g.mods.all (fun m => (List.range 5).all fun dim => decide (coord m.module dim < dimSize g dim))
    && groupsRun ((g.groups.map fun x => x.kind * 2 ^ 32 + x.group * 2 ^ 16 + x.pos).mergeSort fun a c => decide (a ≤ c)) none

/-! ## Paths through a command list (R64, R352) -/

/-- A place that a path reaches: the index, the return indices, and the epochs opened and closed on the way. -/
structure Place where
  pc : Nat
  stack : List Nat := []
  /-- Rising. -/
  opened : List Nat := []
  closed : List Nat := []
  deriving DecidableEq, Repr

/-- A number put into a rising list. -/
def insertNat (n : Nat) : List Nat → List Nat
  | [] => [n]
  | m :: r => if n < m then n :: m :: r else if n = m then m :: r else m :: insertNat n r

/-- What a command does to the epochs of a path: none where it breaks R352. -/
def epochStep (ws : Words) (x : Place) : Option Place :=
  if cClass ws ≠ 6 then some x
  else
    let e := fld (cw ws 5) 15 0
    let used := fun n => if x.opened.contains n || x.closed.contains n then some x else none
    match cOp ws with
    | 0x10 =>
      if bitOf (cw ws 5) 31 then
        (if x.opened.contains e then some { x with opened := x.opened.filter (· != e), closed := insertNat e x.closed } else some x)
      else if x.opened.contains e || x.closed.contains e || decide (16 ≤ x.opened.length) then none
      else some { x with opened := insertNat e x.opened }
    | 1 => let n := fld (cw ws 7) 15 0; if n = 0 then some x else used n
    | 0x14 => used (fld (cw ws 7) 15 0)
    | 0x11 => used e
    | 0x12 => used e
    | 0x13 => used e
    | _ => some x

/-- The places that follow a place, and whether it is a STOP; none where a path breaks R64. A path that runs past the
last command ends there. -/
def follow (cmds : Array Words) (x : Place) : Option (List Place × Bool) :=
  match cmds[x.pc]? with
  | none => some ([], false)
  | some ws =>
    match epochStep ws x with
    | none => none
    | some x =>
      let next := { x with pc := x.pc + 1 }
      let target := fld (cw ws 7) 21 0
      if cClass ws ≠ 15 then some ([next], false)
      else match cOp ws with
        | 5 => some ([], true)
        | 2 => some ([next, { x with pc := target }], false)
        | 3 => if 16 ≤ x.stack.length then none else some ([next, { x with pc := target, stack := (x.pc + 1) :: x.stack }], false)
        | 4 => match x.stack with
          | [] => none
          | r :: rest => some ([{ x with pc := r, stack := rest }], false)
        | _ => some ([next], false)

/-- Every place that paths from these reach, each that a jump may enter once: does some path reach a STOP, and none break a
rule? A place with one successor, at the next index, goes on without one. -/
def explore (cmds : Array Words) : Nat → List Place → List Place → Bool → Bool
  | 0, _, _, _ => false
  | _, [], _, stop => stop
  | n + 1, x :: todo, seen, stop =>
    match follow cmds x with
    | none => false
    | some (next, st) =>
      let straight := match next with | [y] => y.pc == x.pc + 1 && y.stack == x.stack | _ => false
      let fresh := if straight then next else next.eraseDups.filter fun y => !seen.contains y
      explore cmds n (fresh ++ todo) (if straight then seen else fresh ++ seen) (stop || st)

/-- More steps than `explore` can need: a place is an index, at most 16 return indices and, for each epoch number that a command
opens or closes, one of three states; each place that a jump may enter starts one straight run. -/
def exploreFuel (cmds : List Words) : Nat :=
  let epochs := ((cmds.filter fun ws => cClass ws == 6 && cOp ws == 0x10).map fun ws => fld (cw ws 5) 15 0).eraseDups.length
  (cmds.length + 2) ^ 19 * 3 ^ epochs

/-- The path checks of a die's command list. (DEDUCED, log 27) -/
def pathsOk (cmds : List Words) : Bool := explore cmds.toArray (exploreFuel cmds) [{ pc := 0 }] [] false

/-! ## Sections -/

/-- The words of each whole 64 bytes. -/
def spaceOf (b : List Byte) : List Words := (chunks 64 b).map wordsOf

/-- Recipe records (R53). -/
def recipesOf (b : List Byte) : Vector Recipe 8 :=
  Vector.ofFn fun (r : Fin 8) => { seed := BitVec.ofNat 64 (rd b (16 * r.val) 8), path := b8 (rd b (16 * r.val + 8) 1) }
/-- Do recipe records meet R53? -/
def recipesOk (b : List Byte) : Bool :=
  b.length == 128 && (List.range 8).all fun r => decide (rd b (16 * r + 8) 1 < 2) && rd b (16 * r + 9) 7 == 0

/-- Entries of a section of function tables: VE mask, slot and table (R165). -/
def tabsOf (b : List Byte) : List (Nat × Nat × List Byte) := (chunks 4112 b).map fun e => (rd e 0 1, rd e 1 1, sub e 16 4096)
/-- Do they meet R164 and R165? -/
def tabsOk (b : List Byte) : Bool :=
  decide (b.length % 4112 = 0) && (chunks 4112 b).all fun e =>
    decide (rd e 0 1 < 16) && decide (rd e 1 1 < 16) && allZero (sub e 2 14) && tableOk (sub e 16 4096)

/-- Entries of a section of histogram records (R177). -/
def histsOf (b : List Byte) : List (Nat × List Byte) := (chunks 276 b).map fun e => (rd e 0 4, sub e 4 272)
/-- Do they meet R177? -/
def histsOk (b : List Byte) : Bool :=
  decide (b.length % 276 = 0) && (histsOf b).all fun x =>
    decide (x.1 < 4096) && allZero (sub x.2 1 3) && allZero (sub x.2 8 264)

/-- Entries of the section of Gecko contexts: die, number and context (R282). -/
def ctxsOf (b : List Byte) : List (Nat × Nat × Context) :=
  (chunks 200 b).map fun e => (rd e 0 1, rd e 2 2, { static := sub e 8 128, step := sub e 136 64 })
/-- Do they meet R282 and R285? -/
def ctxsOk (b : List Byte) : Bool :=
  decide (b.length % 200 = 0) && (chunks 200 b).all (fun e => rd e 1 1 == 0 && rd e 4 4 == 0) && (ctxsOf b).all fun x =>
    decide (x.1 < 8) && decide (x.2.1 < 1024) && contextOk x.2.2

/-- LENGTH_t of a port's section (R325). -/
def tableLens (b : List Byte) : List Nat := (List.range (min 8 (rd b 1 1))).map fun t => rd b (16 + 2 * t) 2
/-- The slot tables of a port's section (R325). -/
def portTables (b : List Byte) : List (List (List Word)) :=
  ((tableLens b).foldl (fun (x : List (List (List Word)) × List (List Word)) n => (x.1 ++ [x.2.take n], x.2.drop n))
    ([], (chunks 32 (b.drop 32)).map wordsOf)).1

/-- A slot entry of a port (R326); its tiles and its live count lie outside the wide gradient buffer (R144). -/
def slotOk (parts : Nat) (g : MMap) (me p : Nat) (w : List Word) : Bool :=
  let w0 := atD 0 w 0
  let w4 := atD 0 w 4
  let n := fld w0 6 0
  let src := (atD 0 w 2).toNat * 4096
  if !slValid w then w.all (· == 0)
  else
    fld w0 13 7 == 0 && fld w4 16 12 == 0 && fld (atD 0 w 5) 31 27 == 0 && atD 0 w 6 == 0 && atD 0 w 7 == 0
      && decide (n ≤ 78) && fld w0 15 14 != 3 && (n != 0 || (bitOf w0 29 && !bitOf w0 28))
      && inPlain src (4096 * n) && (n == 0 || inData parts src (4096 * n)) && (!bitOf w0 28 || inRoom (lineA (fld (atD 0 w 5) 26 0)) 4)
      && (cabled g me p).any (fun x => x.1 == fld w4 31 20) && g.has (fld w4 31 20)
      && (bitOf w0 30 || (fld w0 27 16 == 0 && atD 0 w 1 == 0))

/-- A port's section (R325, R326, R338). -/
def portOk (parts : Nat) (g : MMap) (me p : Nat) (b : List Byte) : Bool :=
  let ls := tableLens b
  rd b 0 1 == p && within (rd b 1 1) 1 9 && rd b 2 2 == 0 && allZero (sub b 4 12) && ls.all (fun n => within n 1 4097)
    && (List.range 8).all (fun t => decide (t < ls.length) || rd b (16 + 2 * t) 2 == 0) && b.length == 32 + 32 * ls.sum
    && (portTables b).all fun t => t.all (slotOk parts g me p)
      && (decide (p < 24) || (decide (2 ≤ t.length) && (t.drop (t.length - 2)).all fun w => !slValid w))

/-- A completion log of a partition's die (R21, R65). -/
def logOk (s : State) (p : Nat) (d : Fin 8) (base n : Nat) : Bool :=
  decide (base % 4096 = 0) && (List.range 12).any (fun k => n == 512 * 2 ^ k) && zoneOf base (32 * n) == some 7 &&
  match storeOf base, storeOf (base + 32 * n - 1) with
  | some (x, o), some (y, o2) =>
    let (b, sz, own) := sliceOf s d x o
    x == y && own == some p && decide (o2 < b + (sz - sz / 1024))
  | _, _ => false

/-! ## A whole image -/

/-- What an image gives one die. -/
structure DieImg where
  d : Fin 8
  space : List Words
  logBase : Nat
  logN : Nat
  idleHold : Nat
  napHold : Nat
  tabs : List (Nat × Nat × List Byte)
  hist : List (Nat × List Byte)
  ctx : List (Nat × Context)
  deriving DecidableEq, Repr

/-- What the image's bytes give a die. R65 gives the values of sections 0x08 and 0x09 and no offsets: the log's base stands at
byte 0 and N at byte 8, IDLE_HOLD at byte 0 and NAP_HOLD at byte 1, and the rest of a section is zero. (DESIGN CHOICE, log 56) -/
def dieImg (b : List Byte) (d : Fin 8) : DieImg :=
  let ss := sectionsOf b
  let at_ := fun t => (sectionAt b ss t d.val).getD []
  { d, space := spaceOf (at_ 1), logBase := rd (at_ 8) 0 8, logN := rd (at_ 8) 8 4
    idleHold := rd (at_ 9) 0 1, napHold := rd (at_ 9) 1 1, tabs := tabsOf (at_ 3), hist := histsOf (at_ 7)
    ctx := ((ctxsOf ((sectionAt b ss 5 0xFF).getD [])).filter fun x => x.1 == d.val).map (·.2) }

/-- The sections of a die, each whole and without reserved bits (R12). -/
def dieSectionsOk (b : List Byte) (d : Fin 8) : Bool :=
  let ss := sectionsOf b
  let at_ := fun t => (sectionAt b ss t d.val).getD []
  let n := (at_ 1).length
  decide (n % 64 = 0) && decide (n ≤ 2 ^ 28) && decide (12 ≤ (at_ 8).length) && allZero ((at_ 8).drop 12)
    && decide (2 ≤ (at_ 9).length) && allZero ((at_ 9).drop 2) && tabsOk (at_ 3) && histsOk (at_ 7)

/-- The contexts that an image gives a die, each number once: the last entry of a number stands, at the checks and at the load.
(DESIGN CHOICE, log 57) -/
def DieImg.contexts (x : DieImg) : List (Nat × Context) :=
  x.ctx.foldl (fun (l : List (Nat × Context)) c => l.filter (fun y => y.1 != c.1) ++ [c]) []

/-- Every command of a die's command space, and the paths through it. (DEDUCED, log 27) -/
def dieCommandsOk (s : State) (b : List Byte) (x : DieImg) : Bool :=
  let ss := sectionsOf b
  let c : Against := {
    d := x.d, me := s.clk.module % 4096, parts := s.sec.parts, hist := x.hist.map (·.1), ctxs := x.contexts
    tables := (List.range 4).map fun j => (tableLens ((sectionAt b ss 2 (4 * x.d.val + j)).getD [])).length }
  x.space.all (commandOk c x.space.length) && pathsOk x.space

/-- The runs of external memory that an image names for a die, its completion log among them, each on the die it lies on. -/
def namedRuns (b : List Byte) (x : DieImg) : List (Fin 8 × Nat × Nat) :=
  let slots := (portsOf x.d).flatMap fun p =>
    (portTables ((sectionAt b (sectionsOf b) 2 p.val).getD [])).flatten.map fun w => (x.d, (atD 0 w 2).toNat * 4096, 4096 * fld (atD 0 w 0) 6 0)
  let arrays := x.ctx.flatMap fun c =>
    let g := gctx 0 c.2
    (ctxArrays g (some g.mom) (some g.wc)).filterMap fun a => a.2.map fun n => (x.d, g.base a.1, n)
  (x.d, x.logBase, 32 * x.logN) :: (x.space.flatMap (cmdRuns x.d) ++ slots ++ arrays).filter fun r => decide (0 < r.2.2)

/-- Does an image name an address of a stack or a channel that is ABSENT (R19, R484)? -/
def namesAbsent (s : State) (b : List Byte) (x : DieImg) : Bool := (namedRuns b x).any fun r => runAbsent s r.1 r.2.1 r.2.2

/-- Is training and fill of a tier that a run names not complete (R260)? The command space makes every image name its
die's cellar. -/
def namesUntrained (s : State) (b : List Byte) (x : DieImg) : Bool :=
  let dark := fun (d : Fin 8) (st : Store) => match st with
    | .loft _ => !bitOf (rget s (tierBlock d st 0)) 4
    | .attic _ => !bitOf (rget s (tierBlock d st 0)) 4
    | .cellar => [0, 0x8000].any fun k => !bitOf (rget s (regA d bCEL k)) 4
    | _ => false
  dark x.d .cellar
    || (namedRuns b x).any fun r => [storeOf r.2.1, storeOf (r.2.1 + r.2.2 - 1)].any fun o => o.any fun y => dark r.1 y.1

/-- The map that an image carries. -/
def imageMap (b : List Byte) : Option MMap := (sectionAt b (sectionsOf b) 6 0xFF).bind mapOf
/-- Does the map's PROTECTED bit of the loading module differ from a partition's state (R433)? -/
def protDiffers (s : State) (p : Nat) (b : List Byte) : Bool :=
  (imageMap b).any fun g => (g.find (s.clk.module % 4096)).any fun m => m.prot != isProt s p

/-- The verification of an image for a partition: OK, PARAM, AUTH, STATE or ABSENT. Its form is judged in full, for every die (R64); what
is trained and there, for the dies that are loaded (R260, R484). (DEDUCED, log 27) -/
def verifyImage (s : State) (p : Nat) (b : List Byte) (len : Nat) : Byte :=
  let ss := sectionsOf b
  let me := s.clk.module % 4096
  let dies := (diesOf s p).map (dieImg b)
  let ports := ss.filter fun x => x.type == 2
  match directoryOk s b len, imageMap b with
  | true, some g =>
    let ok := mapOk me g && recipesOk ((sectionAt b ss 4 0xFF).getD []) && ctxsOk ((sectionAt b ss 5 0xFF).getD [])
      && (allDies.map (dieImg b)).all (fun x => dieSectionsOk b x.d && logOk s (partOf s x.d) x.d x.logBase x.logN && dieCommandsOk s b x)
      && ports.all fun x => portOk s.sec.parts g me x.unit (sub b x.off x.len)
    let port := fun (x : Sec2) => (⟨x.unit % 32, Nat.mod_lt _ (by decide)⟩ : Fin 32)
    let up := fun x => (s.port (port x)).st == .up
    if !ok then sPARAM
    else if protDiffers s p b then sAUTH
    else if ports.any fun x => up x && cabled g me x.unit != some (peerOf s (port x)) then sPARAM
    else if dies.any (namesUntrained s b) then sSTATE
    else if ports.any (fun x => !up x) || dies.any (namesAbsent s b) then sABSENT
    else sOK
  | _, _ => sPARAM

/-! ## Loading (R63, R66, R165, R177, R282, R423) -/

/-- Tables and histogram records that an image writes into a die, at load and as it leaves Deep. Of two entries for one VE and slot, or for one
record, the later stands (R165, R177). (DESIGN CHOICE, log 57) -/
def DieImg.fill (x : DieImg) (d : Die) : Die :=
  { d with
    mv := Vector.ofFn fun (m : Fin 4) =>
      (x.tabs.filter fun t => t.1.testBit m.val).foldl (fun (v : MeVe) t => v.loadTable t.2.1 t.2.2) { d.mv[m] with tables := [], valid := [] }
    hist := x.hist.foldl (fun (h : NMap Byte) r => nsetRun 0 h (r.1 * 272) r.2) [] }

/-- A die with its part of an image: Loaded. (DEDUCED, log 27) -/
def DieImg.load (x : DieImg) (d : Die) : Die :=
  let d := x.fill d
  { d with
    ctx := x.contexts
    seq := { d.seq with st := .loaded, space := x.space, logBase := x.logBase, logN := x.logN, idleHold := x.idleHold, napHold := x.napHold, fetching := false, stopped := false } }

/-- The measurement register after an extension with a digest (R423). -/
def extended (mr digest : List Byte) : List Byte := sm3 (mr ++ digest)
/-- Extend a measurement register. -/
def extendMr (i : Fin 8) (digest : List Byte) : W Unit :=
  modS fun s => { s with sec := { s.sec with mr := s.sec.mr.set i (extended s.sec.mr[i] digest) } }

/-- A verified image takes the place of what a partition held. -/
def loadImage (p : Fin 8) (b : List Byte) : W Unit := do
  let s ← getS
  let ss := sectionsOf b
  (diesOf s p).forM fun d => do
    modD d (dieImg b d).load
    (portsOf d).forM fun x => modP x fun y => { y with tables := portTables ((sectionAt b ss 2 x.val).getD []) }
  let digest := sm3 b
  modS fun s => { s with
    images := s.images.set p { bytes := b, digest, recipes := recipesOf ((sectionAt b ss 4 0xFF).getD []) }
    fab := { s.fab with imageMaps := s.fab.imageMaps.set p (imageMap b) }
    sec := { s.sec with mr5Open := false } }
  extendMr 7 digest

/-- Does a run lie in the hub A reserve? -/
def inReserveA (a n : Nat) : Bool := decide (1 ≤ n ∧ resLo * 4096 ≤ a ∧ a + n ≤ resHi * 4096)

/-- Bytes of the hub A reserve as they stand. -/
def reserveBytes (s : State) (a n : Nat) : List Byte := s.mem.bytes (8 * 2 ^ 48 + a) n

/-- Bytes of the hub A reserve read under the tier's codes, where they are there (R19, R244). (DEDUCED, log 27) -/
def readReserve (a n : Nat) : W (Except Byte (List Byte)) := do
  if !reserveThere (← getS) a n then return .error sABSENT
  if reserveBusy (← getS) a n then return .error sBUSY
  readBytes 0 a n

/-- SCHED_LOAD: the copy and the verification of an image start. A partition that is protected and not keyed has no tenant, and R433
gives it STATE; R432 is read as refusing it nothing before. (DEDUCED, log 27) -/
def opSchedLoad : Op where
  code := 0x0300
  ok := fun _ q => q.long 16 && q.one && inReserveA (q.at 0 8) (q.at 8 8)
  rest := fun s q => firstOf [
    refuseIf (isKeyed s q.part && coarsened s q.from q.part) sAUTH,
    refuseIf (protDiffers s q.part (reserveBytes s (q.at 0 8) (q.at 8 8))) sAUTH,
    partThere s q, refuseIf (!reserveThere s (q.at 0 8) (q.at 8 8)) sABSENT, diesIn s (diesOf s q.part) [.empty, .stopped],
    refuseIf (isProt s q.part && !isKeyed s q.part) sSTATE,
    refuseIf (let b := reserveBytes s (q.at 0 8) (q.at 8 8)
      directoryOk s b b.length && (diesOf s q.part).any fun d => namesUntrained s b (dieImg b d)) sSTATE,
    refuseIf (loading s q.part) sBUSY]
  act := fun _ => answer sACCEPTED

/-- SCHED_LOAD (R64). -/
def execSchedLoad (q : Pkt) (s : State) : Host.Outcome State Fault Refusal := packetStep readScope opSchedLoad q s

/-- What PACKET_DONE reports of a verification: OK, PARAM or ABSENT (R397). An image that has changed since it was accepted, so that
AUTH or STATE would hold now, or that cannot be read, is refused with PARAM. (DESIGN CHOICE, log 56) -/
def loadStatus (st : Byte) : Byte := if st = sOK ∨ st = sABSENT then st else sPARAM

/-- The end of a SCHED_LOAD: the image verified in full, and loaded or refused. (DEDUCED, log 27) -/
def doneSchedLoad (a : Action) : W Byte := do
  let addr := rd a.payload 0 8
  let len := rd a.payload 8 8
  match ← readReserve addr len with
  | .error e => return loadStatus e
  | .ok b =>
    let s ← getS
    let p := a.part.toNat
    let rest := (diesOf s p).all fun d => [Sched.empty, .stopped].contains (s.die d).seq.st && !(s.die d).absent
    let st := loadStatus (if rest then verifyImage s p b len else sSTATE)
    if h : p < 8 then
      if st = sOK then loadImage ⟨p, h⟩ b
    return st

/-- MAP_LOAD: the copy of an owner's map starts. -/
def opMapLoad : Op where
  code := 0x0402
  ok := fun _ q => q.long 16 && inReserveA (q.at 0 8) (q.at 8 8)
  rest := fun s q => firstOf [refuseIf (!reserveThere s (q.at 0 8) (q.at 8 8)) sABSENT, refuseIf (!phasesIdle s) sSTATE, refuseIf (acting s [0x402]) sBUSY]
  act := fun _ => answer sACCEPTED

/-- MAP_LOAD (R316). -/
def execMapLoad (q : Pkt) (s : State) : Host.Outcome State Fault Refusal := packetStep readScope opMapLoad q s

/-- The end of a MAP_LOAD: the map takes effect, or the previous one stays. (DEDUCED, log 27) -/
def doneMapLoad (a : Action) : W Byte := do
  match ← readReserve (rd a.payload 0 8) (rd a.payload 8 8) with
  | .error e => return e
  | .ok b =>
    match mapOf b with
    | none => return sPARAM
    | some g =>
      if !mapOk ((← getS).clk.module % 4096) g then return sPARAM
      modS fun s => { s with fab := { s.fab with ownerMap := some g } }
      return sOK

end Sys2Proof.Machine
end

