-- ==== Sys2Proof/Machine/Refill.lean ====
section
/-! DEFINITION. Fills, refills and what a die loses without power: 04_store_rooms_and_tiles.md R118, 09_cellar_loft_and_attic.md
R241 to R243, R252, R260, 14_security_and_partitions.md R428, R445. -/

namespace Sys2Proof.Machine

/-! ## Channels and their memory -/

/-- The number of a channel, as `chanOf` counts them. -/
def chanNo : Channel → Nat
  | .cellar k pc => 32 * k.val + pc.val
  | .loft h c => 512 + 16 * h.val + c.val
  | .attic h c => 544 + 6 * h.val + c.val

/-- The tier a channel belongs to. -/
def tierOf : Channel → Tier
  | .cellar k _ => .cellar k
  | .loft h _ => .loft h
  | .attic h _ => .attic h

/-- The channel numbers of a tier. -/
def chansOf : Tier → List Nat
  | .cellar k => (List.range 32).map (32 * k.val + ·)
  | .loft h => (List.range 16).map (512 + 16 * h.val + ·)
  | .attic h => (List.range 6).map (544 + 6 * h.val + ·)

/-- The die of a stack: C2d and C2d+1 (R241). -/
def stackDie (k : Fin 16) : Fin 8 := ⟨k.val / 2, by omega⟩
/-- The key of a local address that a die has alone. -/
def dieKey (d : Fin 8) (a : Nat) : Nat := d.val * 2 ^ 48 + a
/-- The first local address of a hub's loft and of its attic (R103). -/
def loftAt (h : Nat) : Nat := 0x10000000000 + h * 0x8000000000
/-- The first local address of a hub's attic. -/
def atticAt (h : Nat) : Nat := 0x40000000000 + h * 0x12000000000

/-- The status block of a tier (R274, R277). -/
def tierStatusA : Tier → Nat
  | .cellar k => regA (k.val / 2) bCEL (0x8000 * (k.val % 2))
  | .loft h => regA 0 bLFT (0x10000 * h.val)
  | .attic h => regA 0 bATC (0x10000 * h.val)

/-- Every tier of the module. -/
def allTiers : List Tier := (List.finRange 16).map .cellar ++ (List.finRange 2).map .loft ++ (List.finRange 2).map .attic
/-- The stacks of a die. -/
def stacksOf (d : Fin 8) : List (Fin 16) := [⟨2 * d.val, by omega⟩, ⟨2 * d.val + 1, by omega⟩]

/-- The fill of a hub's operating system reserve, before the loft's other slices (R243, R260, R483). -/
def reserveFill (h : Fin 2) : MemOp := .wipe (hubKey (loftAt h.val)) (32 * gib) 1 0

/-- The fill of a tier's slices; the loft's reserve has been filled before them (R243, R260, R483). (DESIGN CHOICE, log 42) -/
def tierFill : Tier → MemOp
  | .cellar k => .wipe (dieKey (stackDie k) 0x1000000000) (96 * gib) 2 (k.val % 2)
  | .loft h => .wipe (hubKey (loftAt h.val + 32 * gib)) (480 * gib) 1 0
  | .attic h => .wipe (hubKey (atticAt h.val)) (1152 * gib) 1 0

/-- The fill of a channel's whole range (R271). -/
def chanFill : Channel → MemOp
  | .cellar k pc => .wipe (dieKey (stackDie k) 0x1000000000) (96 * gib) 64 (2 * pc.val + k.val % 2)
  | .loft h c => .wipe (hubKey (loftAt h.val)) (512 * gib) 16 c.val
  | .attic h c => .wipe (hubKey (atticAt h.val)) (1152 * gib) 6 c.val

/-- Has every channel of a tier finished its training, trained or failed (R252, R484)? -/
def settled (s : State) (t : Tier) : Bool := (chansOf t).all fun c => nget 0 s.tiers.chan c != 0

/-- TRAINED of a tier: its training and fill are complete (R275). -/
def isTrained (s : State) (t : Tier) : Bool := bitOf (rget s (tierStatusA t)) 4
/-- TRAINED of a tier set or cleared. -/
def setTrained (t : Tier) (b : Bool) : W Unit := setField (tierStatusA t) 4 4 (b2n b)

/-- A tier's training is to be done anew (R260, R486); without image 2 its channels stay ABSENT (R422). -/
def untrain (t : Tier) : W Unit := do
  if !(← getS).sec.bootFail.testBit 2 then modS fun s => { s with tiers := { s.tiers with chan := (chansOf t).foldl (fun (m : NMap Nat) c => nset 0 m c 0) s.tiers.chan } }
  setTrained t false

/-! ## Refills of slices (R260, R430, R435, R442) -/

/-- The fills of a partition's slices (R243): the cellars of its dies, and its loft and attic slices at both hubs. -/
def sliceFills (s : State) (p : Nat) : List MemOp :=
  let z := 480 * gib / s.sec.parts
  let y := 1152 * gib / s.sec.parts
  (diesOf s p).map (fun d => .wipe (dieKey d 0x1000000000) (96 * gib) 1 0)
    ++ [0, 1].flatMap fun h =>
      [.wipe (hubKey (loftAt h + 32 * gib + p * z)) z 1 0, .wipe (hubKey (atticAt h + p * y)) y 1 0]

/-- Refill the slices of partitions: zero data with valid codes and check words. (DESIGN CHOICE, log 12 and 42) -/
def refill (ps : List Nat) : W Unit := do
  let s ← getS
  (ps.flatMap (sliceFills s)).forM emit

/-- Refill every slice that takes a new key: with it the fill of every tier whose training is done is complete (R260, R485). The reserve is
among them where R_boot is renewed or the module retires (R426, R442), and not at a PART_SET, which leaves its key (R430).
(DESIGN CHOICE, log 42) -/
def refillAll (reserve : Bool) : W Unit := do
  let s ← getS
  if reserve then (List.finRange 2).forM fun h => emit (reserveFill h)
  refill (List.range s.sec.parts)
  allTiers.forM fun t => if settled s t then setTrained t true else pure ()

/-! ## Die SRAM (R118, R133, R177, R445) -/

/-- Summary slots whose contents are lost: free values. (DEDUCED, log 38) -/
def freeSummaries : W (Vector Summary 16) := do
  let n := (← getS).free
  modS fun s => { s with free := n + 128 }
  let f := fun (i j : Nat) => (Config.freeWord (n + 8 * i + j)).setWidth 32
  return Vector.ofFn fun (i : Fin 16) => {
    max := f i.val 0, min := f i.val 1, sum := f i.val 2, sat := f i.val 3, scrub := f i.val 4
    flags := f i.val 5 &&& 0xFF, status := if bitOf (f i.val 6) 0 then sLAZYMAX else sOK, cmd := f i.val 7 }

/-- A die without what its SRAM held: accumulators, tables, histograms, contexts. (DEDUCED, log 38) -/
def dropSram (d : Die) : Die :=
  { d with mv := d.mv.map fun x => { x with bank0 := [], bank1 := [], tables := [], valid := [] }, hist := [], ctx := [], ahead := Vector.replicate 8 [], runs := [] }

/-- Store rooms and gradient buffer filled with zero (R118). -/
def fillRooms (d : Fin 8) : W Unit := emit (.wipe (dieKey d 0) 0x1000000000 1 0)

/-- INIT_DONE of a die (R124). -/
def setInit (d : Fin 8) (b : Bool) : W Unit := setField (regA d bMOV 0x800) 3 3 (b2n b)

/-- The SRAM of a die goes: wiped but in Open, where what the summary slots hold afterwards is left open (R445, R451).
(DEDUCED, log 38) -/
def loseSram (d : Fin 8) : W Unit := do
  fillRooms d
  setInit d false
  modD d dropSram
  let sm ← if lifecycle (← getS) = 0 then freeSummaries else pure (Vector.replicate 16 {})
  modD d fun x => { x with summ := sm }

/-- The ports of a die that were UP go DOWN as it loses power (R455). -/
def darkPorts (d : Fin 8) : W Unit := (portsOf d).forM fun p => do
  portDown p
  modP p fun x => if x.st = .disabled then x else { quietPort .down x with armed := [], running := none, draining := [] }

/-- Every DOWN port of a die starts training, as at power-up (R309, R455, R483); none where image 3 failed (R422).
(DESIGN CHOICE, log 21) -/
def trainPorts (d : Fin 8) : W Unit := do
  if (← getS).sec.bootFail.testBit 3 then return
  (portsOf d).forM fun p => do
    modP p fun x => if x.st = .down then quietPort .training x else x
    showLanes p

/-! ## Keys of the die controllers (R428, R445) -/

/-- Note whether a die's controllers and fabric engine hold their keys (R445, R450). -/
def setKeys (d : Fin 8) (b : Bool) : W Unit := modS fun s => { s with sec := { s.sec with keysIn := s.sec.keysIn.set d b } }

/-- The key of slice `p` of tier `t`: protected and keyed from PK_p, else from R_boot (R426). -/
def sliceKey (c : Sec) (p t : Nat) : List Byte :=
  match c.pk.toList.getD p none with
  | some k => kdf k (ascii "LYH MEM") ([b8 t] ++ natLE 8 c.serial ++ natLE 4 (c.keygen.toList.getD p 0)) 256
  | none => kdf (natLE 32 c.rboot.toNat) (ascii "LYH MEM") ([b8 p, b8 t] ++ natLE 4 c.layoutGen) 256
/-- The key of the reserve at hub `h` (R426). -/
def reserveKey (c : Sec) (h : Nat) : List Byte := kdf (natLE 32 c.rboot.toNat) (ascii "LYH MEM") ([0xFF, b8 h] ++ zeros 4) 256

/-- The slice keys of partitions derived and installed in the memories' controllers (R417, R435). -/
def installSlices (ps : List Nat) : W Unit := modS fun s => { s with sec := { s.sec with
  memKeys := ps.foldl (fun m p => [0, 1, 2].foldl (fun (m : NMap (List Byte)) t => nset [] m (3 * p + t) (sliceKey s.sec p t)) m) s.sec.memKeys } }
/-- Every slice key and both reserve keys derived and installed; keys of partitions that are no more go (R428, R430). -/
def installKeys : W Unit := do
  modS fun s => { s with sec := { s.sec with memKeys := [(24, reserveKey s.sec 0), (25, reserveKey s.sec 1)] } }
  installSlices (List.range (← getS).sec.parts)

/-- R_boot drawn afresh, and the keys that come from it installed (R426, R428). -/
def newBoot : W Unit := do
  let r ← freeWide
  modS fun s => { s with sec := { s.sec with rboot := r } }
  installKeys

/-- The keys of partitions erased: PK_p, KEYGEN and tenant masters go (R430, R435, R442). -/
def Sec.eraseKeys (c : Sec) : Sec :=
  { c with pk := Vector.replicate 8 none, keygen := Vector.replicate 8 0, tenant := Vector.replicate 8 0 }

end Sys2Proof.Machine
end

