-- ==== Sys2Proof/Machine/Security.lean ====
section
/-! DEFINITION. Boot, the root of trust, identity and reports, key exchange, checkpoints, debug, lifecycle and partitions:
14_security_and_partitions.md. -/

namespace Sys2Proof.Machine

/-! ## Boot (R420 to R424) -/

/-- SEC_STATUS of the hub side. -/
def secA : Nat := regA uHub bSEC 0
/-- The word of a security event. -/
def evSec : Nat := whereW uHub bSEC 0
/-- Change the RoT's state. -/
def modC (f : Sec → Sec) : W Unit := modS fun s => { s with sec := f s.sec }

/-- The bytes of a copy: the flash's, with what SEC_FW_WRITE has put over them. (DESIGN CHOICE, log 29) -/
def copyBytes (c : Sec) (i k : Nat) (b : List Byte) : List Byte :=
  let base := (2 * i + k) * 2 ^ 32
  let laid := c.flash.filter fun x => decide (base ≤ x.1) && decide (x.1 < base + 2 ^ 32)
  let n := laid.foldl (fun (n : Nat) x => max n (x.1 - base + 1)) b.length
  List.zipWith (fun (o : Option Byte) v => o.getD v) (nrun none laid base n) (padTo n b)

/-- The identifier under which firmware is signed: the manual gives none, and GB/T 32918 has this one for such a case.
(PRESUMED, log 32) -/
def firmId : List Byte := ascii "1234567812345678"

/-- Does a copy pass (R420, R421): its header, its SM2 signature over header bytes 0 to 63, its body's digest, its SVN? -/
def copyOk (c : Sec) (i : Fin 5) (b : List Byte) : Bool :=
  let body := sub b 128 (rd b 8 4)
  decide (128 + rd b 8 4 ≤ b.length) && rd b 0 2 == 0x4946 && rd b 2 1 == i.val && rd b 3 1 == 0 && decide (rd b 4 4 ≤ 63)
    && rd b 12 4 == 0 && allZero (sub b 48 16) && sm3 body == sub b 16 32 && decide (c.svn[i.val] ≤ rd b 4 4)
    && sm2Verify firmId c.firmKey (b.take 64) (rd b 64 32) (rd b 96 32)

/-- The copy that a RoT takes, and its bytes: the active one, or the other where that fails (R420). -/
def copyTaken (c : Sec) (i : Fin 5) (x : ImageCopies) : Option (Nat × List Byte) :=
  let a := c.active[i] % 2
  let bytes := fun k => copyBytes c i.val k (if k = 0 then x.copy0 else x.copy1)
  ([a, 1 - a].find? fun k => copyOk c i (bytes k)).map fun k => (k, bytes k)

/-- The image that boot verifies next. -/
def nextImage (c : Sec) : Option (Fin 5) := (List.finRange 5).find? fun i => c.imageSvn[i].isNone && !c.bootFail.testBit i.val

/-- MIRROR_OK falls to 0 (R418). (DESIGN CHOICE, log 30) -/
def mirrorLost : W Unit := do
  modC fun c => { c with mirrorOk := false }
  setFlags secA 1
  raise 5 2 sOK evSec []

/-- The standby's own copy of an image, the active one or the other as `fell` says, is measured, and the standby mirrors while its MR0 to MR4
are the active RoT's (R418, R422). -/
def mirrorImage (i : Fin 5) (fell : Bool) (b : Option (List Byte)) : W Unit := do
  modC fun c => { c with mrB := match b with | some b => c.mrB.set i (extended c.mrB[i] (sm3 (b.take 64))) | none => c.mrB }
  if fell then setFlags secA 0x20
  let c := (← getS).sec
  let same := decide (c.mr.toList.take 5 = c.mrB.toList)
  if i = 0 then modC fun c => { c with mirrorOk := same } else if c.mirrorOk && !same then mirrorLost

/-- An image passes: it is measured. Image 0 brings the RoT's random draws. (DESIGN CHOICE, log 29) -/
def imagePass (i : Fin 5) (k : Nat) (b : List Byte) : W Unit := do
  let c := (← getS).sec
  extendMr ⟨i.val, by omega⟩ (sm3 (b.take 64))
  modC fun c => { c with imageSvn := c.imageSvn.set i (some (rd b 4 4)) }
  if k ≠ c.active[i] then
    modC fun c => { c with bootFallback := c.bootFallback ||| 2 ^ i.val, active := c.active.set i k }
    setFlags secA 0x20
  if i = 0 then
    newBoot
    let n ← freeWide
    modC fun c => { c with nonce := n }

/-- Both copies of an image fail: boot recovery for image 0; the blocks that another image serves stay in reset: the dies'
engines, the memory channels, the ports, the hub cores (R422). (DESIGN CHOICE, log 29) -/
def imageFail (i : Fin 5) : W Unit := do
  modC fun c => { c with bootFail := c.bootFail ||| 2 ^ i.val, recovery := c.recovery || i == 0 }
  match i with
  | 1 => modS fun s => { s with dies := s.dies.map fun d => { d with absent := true } }
  | 2 => modS fun s => { s with tiers := { s.tiers with chan := (List.range 556).map fun c => (c, 2) } }
  | _ => pure ()
  raise 5 3 sABSENT evSec [b8 i.val]

/-- After the last image the control firmware answers, and the hubs and every die start from Off towards Run, their controllers holding the
keys that the RoT has installed (R417, R428, R483). (DESIGN CHOICE, log 29) -/
def bootDone : W Unit := modS fun s => { s with
  sec := { s.sec with fwUp := true, keysIn := s.dies.map fun d => !d.absent }
  pwr := { s.pwr with hubTarget := Vector.replicate 2 (some .run) }
  dies := s.dies.map fun d => if d.absent then d else { d with target := some .run } }

/-- IMAGE_VERIFY: the next boot image, from its active copy or from the other one, by both RoTs. (DESIGN CHOICE, log 29) -/
def imageVerify (i : Fin 5) (x y : ImageCopies) : W Unit := do
  let s ← getS
  let c := s.sec
  if !s.pwr.on ∨ c.recovery ∨ c.fwUp ∨ nextImage c ≠ some i then return
  match copyTaken c i x with
  | some (k, b) => imagePass i k b
  | none => imageFail i
  let own := copyTaken c i y
  mirrorImage i (own.any (·.1 != c.active[i])) (own.map (·.2))
  if i = 4 then bootDone

/-- IMAGE_VERIFY (R420). -/
def execImageVerify (image : Fin 5) (a b : ImageCopies) (s : State) : Host.Outcome State Fault Refusal :=
  W.within wideScope s (imageVerify image a b)

/-- SEC_EXTEND: MR5, from master 2, until the first accepted SCHED_LOAD (R423). -/
def opSecExtend : Op where
  code := 0x0503
  lease := false
  ok := fun _ q => q.long 36 && q.at 0 4 == 5
  rest := fun s q => firstOf [refuseIf (q.from != 2) sAUTH, refuseIf (!s.sec.mr5Open) sSTATE]
  act := fun q => do
    extendMr 5 (q.payload.drop 4)
    answer sOK

/-- SEC_EXTEND (R423). -/
def execSecExtend (q : Pkt) (s : State) : Host.Outcome State Fault Refusal := packetStep wideScope opSecExtend q s

/-- May a counter take a value (R424)? -/
def svnOk (c : Sec) (k v : Nat) : Bool :=
  if k < 5 then c.imageSvn.toList.getD k none == some v else k == 5 && decide (c.svn[5] < v ∧ v ≤ 63)

/-- SEC_SVN_COMMIT: a counter raised. -/
def opSecSvnCommit : Op where
  code := 0x050C
  ok := fun s q => q.long 8 && svnOk s.sec (q.at 0 4) (q.at 4 4)
  rest := fun s _ => refuseIf (lifecycle s == 3) sSTATE
  act := fun q => do
    let k : Fin 6 := ⟨q.at 0 4 % 6, by omega⟩
    modC fun c => { c with svn := c.svn.set k (max c.svn[k] (q.at 4 4)) }
    answer sOK

/-- SEC_SVN_COMMIT (R424). -/
def execSecSvnCommit (q : Pkt) (s : State) : Host.Outcome State Fault Refusal := packetStep wideScope opSecSvnCommit q s

/-- SEC_FW_WRITE: bytes of an inactive copy, which takes effect at the next always-on start (R422, R447). -/
def opSecFwWrite : Op where
  code := 0x050D
  ok := fun _ q => within q.payload.length 9 4061 && decide (q.at 0 1 < 5) && decide (q.at 1 1 < 2) && q.at 2 2 == 0
    && decide (q.at 4 4 + (q.payload.length - 8) ≤ 2 ^ 32)
  rest := fun s q => firstOf [refuseIf (s.sec.active.toList.getD (q.at 0 1) 0 == q.at 1 1) sSTATE, refuseIf (warned s) sPOWER]
  act := fun q => do
    let i : Fin 5 := ⟨q.at 0 1 % 5, by omega⟩
    modC fun c => { c with
      flash := nsetRun none c.flash ((2 * q.at 0 1 + q.at 1 1) * 2 ^ 32 + q.at 4 4) ((q.payload.drop 8).map some)
      written := c.written.set i true }
    answer sOK

/-- SEC_FW_WRITE (R447). -/
def execSecFwWrite (q : Pkt) (s : State) : Host.Outcome State Fault Refusal := packetStep wideScope opSecFwWrite q s

/-! ## Two roots of trust (R417 to R419) -/

/-- ROT_HEARTBEAT: the active RoT's heartbeat reaches the standby. (DESIGN CHOICE, log 30) -/
def execRotHeartbeat (s : State) : Host.Outcome State Fault Refusal :=
  .next (if s.sec.fwUp && !s.sec.rotStopped && !s.sec.rotB && !s.sec.noControl then { s with sec := { s.sec with unheard := 0 } } else s)

/-- ACTIVE_ROT_STOP: a takeover can follow while MIRROR_OK is 1; else nothing is controlled any more.
(DESIGN CHOICE, log 30) -/
def rotStop (c : Sec) : Sec :=
  if !c.fwUp then c
  else if c.mirrorOk && !c.rotB then { c with rotStopped := true }
  else { c with noControl := true }

/-- ACTIVE_ROT_STOP (R419). -/
def execActiveRotStop (s : State) : Host.Outcome State Fault Refusal := .next { s with sec := rotStop s.sec }

/-! ## Identity and reports (R425 to R427, R438, R439) -/

/-- The identifier of ATK in signatures and key exchanges. -/
def attId : List Byte := ascii "LYHN8ATTESTATION"
/-- The private key IDK. -/
def idkPriv (c : Sec) : Nat := sm2Priv (leNat (kdf (natLE 32 c.seed.toNat) (ascii "LYH IDK") (natLE 8 c.serial) 256))
/-- The private key ATK. -/
def atkPriv (c : Sec) : Nat :=
  sm2Priv (leNat (kdf (natLE 32 c.seed.toNat) (ascii "LYH ATK") ((c.mr.toList.take 5).flatten) 256))
/-- A point as packets carry it: x then y, each 32 little-endian bytes (R7). (DEDUCED, log 31) -/
def pointLE (p : Nat × Nat) : List Byte := natLE 32 p.1 ++ natLE 32 p.2
/-- The public key of a private one. -/
def pubOf (d : Nat) : Nat × Nat := ecXY (ecMul d sm2G)
/-- The point that stands in a payload. (DEDUCED, log 31) -/
def pointAt (q : Pkt) (off : Nat) : Nat × Nat := (q.at off 32, q.at (off + 32) 32)
/-- The fuse bits (R438). -/
def fuseBits (c : Sec) : Nat := 8 * b2n c.fuseRetired + 4 * b2n c.fuseSealed + 2 * b2n c.fuseVendor + b2n c.fuseSeed
/-- MBX_REVISION. -/
def revision (s : State) : Nat := (rget s (regA uHub bMBX 0x14)).toNat

/-- SEC_IDENTITY; the key fields read zero in Retired. -/
def opSecIdentity : Op where
  code := 0x0500
  lease := false
  ok := fun _ q => q.long 0
  act := fun _ => do
    let s ← getS
    let c := s.sec
    let key := if lifecycle s = 3 then zeros 64 else pointLE (pubOf (idkPriv c))
    return some (sOK, natLE 8 c.serial ++ natLE 4 (revision s) ++ natLE 2 (fuseBits c) ++ [b8 (lifecycle s), b8 c.debug] ++ key ++ natLE 32 c.nonce.toNat)

/-- SEC_IDENTITY (R447). -/
def execSecIdentity (q : Pkt) (s : State) : Host.Outcome State Fault Refusal := packetStep readScope opSecIdentity q s

/-- The DER bytes of a certificate: certificate 0 certifies ATK and carries MR0 to MR4, certificate 1 certifies IDK.
(DESIGN CHOICE, log 36) -/
def certOf (c : Sec) (i : Nat) : List Byte :=
  Config.certificate i (if i = 0 then pointLE (pubOf (atkPriv c)) ++ (c.mr.toList.take 5).flatten else if i = 1 then pointLE (pubOf (idkPriv c)) else [])

/-- SEC_CERT: the total length, and up to 4,056 bytes from an offset. -/
def opSecCert : Op where
  code := 0x0501
  lease := false
  ok := fun _ q => q.long 8 && decide (q.at 0 4 < 3)
  rest := fun s _ => refuseIf (lifecycle s == 3) sSTATE
  act := fun q => do
    let b := certOf (← getS).sec (q.at 0 4)
    return some (sOK, natLE 4 b.length ++ sub b (q.at 4 4) 4056)

/-- SEC_CERT (R439). -/
def execSecCert (q : Pkt) (s : State) : Host.Outcome State Fault Refusal := packetStep readScope opSecCert q s

/-- A derived key of a partition (R426). -/
def partKey (c : Sec) (p : Nat) (label : String) (bits : Nat) : List Byte :=
  match c.pk.toList.getD p none with
  | some k => kdf k (ascii label) (natLE 4 (c.keygen.toList.getD p 0)) bits
  | none => zeros (bits / 8)
/-- FPR_p; zero when unkeyed. -/
def fingerprint (c : Sec) (p : Nat) : List Byte := partKey c p "LYH FPR" 256

/-- Bytes 0 to 447 of a report (R438). -/
def reportBody (s : State) (part : Nat) (nonce : List Byte) : List Byte :=
  let c := s.sec
  let one := part ≠ 0xFF
  let svn := fun k => c.svn.toList.getD k 0
  natLE 2 0x4154 ++ [1, b8 (lifecycle s)] ++ natLE 2 512 ++ [b8 c.debug, b8 part] ++ natLE 8 c.serial ++ natLE 4 (revision s)
    ++ natLE 2 (s.clk.module % 4096) ++ natLE 2 (fuseBits c) ++ natLE 8 s.clk.beat ++ (List.range 8).flatMap (fun k => natLE 4 (svn k))
    ++ c.mr.toList.flatten ++ sm3 (pointLE (pubOf (idkPriv c)))
    ++ [b8 c.parts, b8 c.prot, b8 (keyedMask s), b8 (if one then c.tenant.toList.getD part 0 else 0)]
    ++ natLE 4 (if one then c.keygen.toList.getD part 0 else 0) ++ natLE 4 c.layoutGen ++ [b8 (b2n c.rotB), 0, 0, 0]
    ++ (if one then fingerprint c part else zeros 32) ++ nonce ++ zeros 16

/-- SEC_ATTEST: the report, signed with ATK. -/
def opSecAttest : Op where
  code := 0x0502
  lease := false
  ok := fun _ q => q.long 32
  rest := fun s q => firstOf [partThere s q, refuseIf (lifecycle s == 3) sSTATE]
  act := fun q => do
    let k := sm2Priv (← freeWide).toNat
    let s ← getS
    let b := reportBody s q.part q.payload
    let (r, t) := sm2Sign attId (atkPriv s.sec) k b
    return some (sOK, b ++ natLE 32 r ++ natLE 32 t)

/-- SEC_ATTEST (R438). -/
def execSecAttest (q : Pkt) (s : State) : Host.Outcome State Fault Refusal := packetStep readScope opSecAttest q s

/-! ## Partition keys (R434 to R436) -/

/-- The partition a packet names. -/
def pktPart (q : Pkt) : Fin 8 := ⟨q.part % 8, by omega⟩
/-- Is an exchange pending for a partition: begun, and not yet finished? -/
def pendingKx (s : State) (p : Fin 8) : Option Kx := (s.sec.kx[p]).filter fun k => k.key.isNone
/-- Is every die of a list Empty? -/
def diesEmpty (s : State) (ds : List (Fin 8)) : Bool := ds.all fun d => (s.die d).seq.st == .empty

/-- SEC_KX_BEGIN: an exchange starts, in place of one that was pending for the partition. (DEDUCED, log 31) -/
def opSecKxBegin : Op where
  code := 0x0504
  ok := fun _ q => q.long 144 && q.one && ecOn (pointAt q 16) && ecOn (pointAt q 80)
  rest := fun s q => firstOf [
    partThere s q,
    refuseIf (lifecycle s != 1 || !isProt s q.part || !diesEmpty s (diesOf s q.part)) sSTATE,
    refuseIf (s.ctl.actions.any fun a => a.opcode == 0x505 && a.part == q.hdr.part) sBUSY]
  act := fun q => do
    let r := sm2Priv (← freeWide).toNat
    let c := (← getS).sec
    let k : Kx := { tenantId := sub q.payload 0 16, pa := pointAt q 16, ra := pointAt q 80, scalar := r }
    modC fun c => { c with kx := c.kx.set (pktPart q) (some k) }
    let (sb, _, _) := sm2Respond k.tenantId attId k.pa k.ra (atkPriv c) r 128
    return some (sOK, pointLE (pubOf r) ++ sb)

/-- SEC_KX_BEGIN (R434). -/
def execSecKxBegin (q : Pkt) (s : State) : Host.Outcome State Fault Refusal := packetStep wideScope opSecKxBegin q s

/-- What a SEC_KX_FINISH unwraps: none where S_A or the tag fails. -/
def kxOpen (c : Sec) (k : Kx) (q : Pkt) : Option (List Byte) :=
  let (_, sa, key) := sm2Respond k.tenantId attId k.pa k.ra (atkPriv c) k.scalar 128
  if sub q.payload 0 32 ≠ sa then none
  else gcmOpen key (sub q.payload 40 12) (q.hdr.part :: sub q.payload 32 8) (sub q.payload 52 32) (sub q.payload 84 16)

/-- SEC_KX_FINISH: a failing S_A or tag ends the exchange with AUTH and KX_FAIL_SEEN. (DEDUCED, log 31) -/
def opSecKxFinish : Op where
  code := 0x0505
  ok := fun _ q => q.long 100 && q.one && decide (1 ≤ q.at 32 4) && within (q.at 36 1) 1 16 && q.at 37 3 == 0
  rest := fun s q => firstOf [
    refuseIf ((pendingKx s (pktPart q)).any fun k => (kxOpen s.sec k q).isNone) sAUTH,
    partThere s q,
    refuseIf (pendingKx s (pktPart q)).isNone sSTATE]
  act := fun q => do
    modC fun c => { c with kx := c.kx.set (pktPart q) ((c.kx[pktPart q]).map fun k => { k with key := kxOpen c k q }) }
    answer sACCEPTED
  turned := fun q st => do
    if st = sAUTH then
      modC fun c => { c with kx := c.kx.set (pktPart q) none }
      setFlags secA 8

/-- SEC_KX_FINISH (R434). -/
def execSecKxFinish (q : Pkt) (s : State) : Host.Outcome State Fault Refusal := packetStep wideScope opSecKxFinish q s

/-- MR6 takes the partition byte, KEYGEN and the fingerprint (R423). (DESIGN CHOICE, log 36) -/
def measureKey (p keygen : Nat) (fpr : List Byte) : W Unit := extendMr 6 (sm3 ([b8 p] ++ natLE 4 keygen ++ fpr))

/-- A port's transmit SEQ under the key now installed: a key that its record names resumes at the end of the reserved block,
another one starts at 0 (R319, R436). (DEDUCED, log 34) -/
def rekeyPort (p : Fin 32) : W Unit := do
  let s ← getS
  let dg := sm3 (fabKey s (partOf s (dieOf p)))
  let same := nget [] s.sec.txDigest p.val == dg
  let seq := if same then max (s.port p).txSeq (nget 0 s.sec.txEnd p.val) else 0
  modP p fun x => { x with txSeq := seq, ack := seq, dlv := seq, retry := [] }
  modC fun c => { c with
    txDigest := nset [] c.txDigest p.val dg
    txEnd := if same then c.txEnd else nset 0 c.txEnd p.val 0 }

/-- The end of a SEC_KX_FINISH: key, refill, ports, MR6 (R435). -/
def doneKxFinish (a : Action) : W Byte := do
  let p : Fin 8 := ⟨a.part.toNat % 8, by omega⟩
  let c := (← getS).sec
  match (c.kx[p]).bind (·.key) with
  | none => return sSTATE
  | some k =>
    let keygen := rd a.payload 32 4
    modC fun c => { c with
      pk := c.pk.set p (some k), keygen := c.keygen.set p keygen, tenant := c.tenant.set p (rd a.payload 36 1)
      kx := c.kx.set p none }
    installSlices [p.val]
    refill [p.val]
    let s ← getS
    (diesOf s p.val).forM fun d => (portsOf d).forM fun x => do
      if (s.port x).st = .up then
        modP x (quietPort .training)
        showLanes x
      rekeyPort x
    measureKey p.val keygen (fingerprint (← getS).sec p.val)
    return sOK

/-- KX_TIMEOUT: 10 s without SEC_KX_FINISH end an exchange without effect. -/
def execKxTimeout (part : Fin 8) (s : State) : Host.Outcome State Fault Refusal :=
  .next { s with sec := { s.sec with kx := s.sec.kx.set part ((s.sec.kx[part]).filter fun k => k.key.isSome) } }

/-- SEC_KEY_ERASE. -/
def opSecKeyErase : Op where
  code := 0x0506
  ok := fun _ q => q.long 0 && q.one
  rest := fun s q => firstOf [partThere s q, refuseIf (!isKeyed s q.part || !diesEmpty s (diesOf s q.part)) sSTATE]
  act := fun _ => answer sACCEPTED

/-- SEC_KEY_ERASE (R435). -/
def execSecKeyErase (q : Pkt) (s : State) : Host.Outcome State Fault Refusal := packetStep readScope opSecKeyErase q s

/-- The end of a SEC_KEY_ERASE: the partition stays protected without a key. -/
def doneKeyErase (a : Action) : W Byte := do
  let p : Fin 8 := ⟨a.part.toNat % 8, by omega⟩
  modC fun c => { c with pk := c.pk.set p none, keygen := c.keygen.set p 0, tenant := c.tenant.set p 0 }
  installSlices [p.val]
  refill [p.val]
  measureKey p.val 0 (zeros 32)
  return sOK

/-! ## Checkpoints (R437) -/

/-- C_p. -/
def ckptKey (c : Sec) (p : Nat) : List Byte := partKey c p "LYH CKPT" 128
/-- The IV of a tile of a checkpoint: CKPT_ID in bits [95:64], the tile number below. (DEDUCED, log 33) -/
def ckptIv (id i : Nat) : List Byte := natLE 12 (id * 2 ^ 64 + i % 2 ^ 64)
/-- The tile number that the header's own IV carries. -/
def hdrIndex : Nat := 2 ^ 64 - 1
/-- Header bytes 0 to 47. -/
def ckptHead (p keygen id tiles src die : Nat) : List Byte :=
  natLE 2 0x4B43 ++ [1, b8 p] ++ natLE 4 keygen ++ natLE 4 id ++ zeros 4 ++ natLE 8 tiles ++ natLE 8 src ++ [b8 die] ++ zeros 15
/-- The key of the last CKPT_ID of a partition and KEYGEN. -/
def ckptSlot (c : Sec) (p : Nat) : Nat := p * 2 ^ 32 + c.keygen.toList.getD p 0

/-- A record stored into the hub A reserve: BUSY under a traffic generator (R271). -/
def putRecord (a : Nat) (bs : List Byte) : W Byte := do
  if reserveBusy (← getS) a bs.length then return sBUSY
  putReserve a bs
  return sOK

/-- The tile records of an export from tile `i` on: the status. (DEDUCED, log 33) -/
def exportTiles (p : Nat) (d : Fin 8) (key head : List Byte) (id src dst : Nat) : Nat → Nat → W Byte
  | 0, _ => return sOK
  | n + 1, i => do
    match ← readTile p d (src + 4096 * i) with
    | .error e => return e
    | .ok t =>
      let (ct, tag) := gcmSeal key (ckptIv id i) (head.take 32) t
      let st ← putRecord (dst + 64 + 4112 * i) (ct ++ tag)
      if st ≠ sOK then return st
      exportTiles p d key head id src dst n (i + 1)

/-- The die of a checkpoint packet. -/
def ckptDie (b : List Byte) : Fin 8 := ⟨rd b 8 1 % 8, by omega⟩

/-- What both checkpoint packets need of PART (R432, R447), and that the memory they name is there: TILES tiles of the die, and so many
bytes of hub A's reserve (R19). (DEDUCED, log 35) -/
def ckptRest (tile reserve n : Nat) (s : State) (q : Pkt) : Option Ans := firstOf [
  guard s q.from [q.part], partThere s q,
  refuseIf (let d := ckptDie q.payload
    !reserveThere s reserve (64 + 4112 * n) || runAbsent s d tile (4096 * n) || !memPresent s d tile) sABSENT,
  refuseIf (!isKeyed s q.part) sSTATE, diesIn s (diesOf s q.part) atRest]

/-- SEC_CKPT_EXPORT: refused where CKPT_ID is not greater than the last one; the RoT keeps the new one. (DEDUCED, log 35) -/
def opSecCkptExport : Op where
  code := 0x0507
  ok := fun s q => q.long 32 && q.one && decide (q.at 8 1 < 8) && q.at 9 3 == 0 && q.at 20 4 == 0 && q.at 0 8 % 4096 == 0
    && dieInPart s q (ckptDie q.payload) && inReserveA (q.at 24 8) (64 + 4112 * q.at 16 4)
    && decide (nget 0 s.sec.ckptId (ckptSlot s.sec q.part) < q.at 12 4 + 1)
  rest := fun s q => ckptRest (q.at 0 8) (q.at 24 8) (q.at 16 4) s q
  act := fun q => do
    modC fun c => { c with ckptId := nset 0 c.ckptId (ckptSlot c q.part) (q.at 12 4 + 1) }
    answer sACCEPTED

/-- SEC_CKPT_EXPORT (R437). -/
def execSecCkptExport (q : Pkt) (s : State) : Host.Outcome State Fault Refusal := packetStep wideScope opSecCkptExport q s

/-- The end of an export: the header, then the tile records. -/
def doneCkptExport (a : Action) : W Byte := do
  let b := a.payload
  let c := (← getS).sec
  let p := a.part.toNat
  let key := ckptKey c p
  let head := ckptHead p (c.keygen.toList.getD p 0) (rd b 12 4) (rd b 16 4) (rd b 0 8) (rd b 8 1)
  let st ← putRecord (rd b 24 8) (head ++ (gcmSeal key (ckptIv (rd b 12 4) hdrIndex) head []).2)
  if st ≠ sOK then return st
  exportTiles p (ckptDie b) key head (rd b 12 4) (rd b 0 8) (rd b 24 8) (rd b 16 4) 0

/-- SEC_CKPT_IMPORT. -/
def opSecCkptImport : Op where
  code := 0x0508
  ok := fun s q => q.long 24 && q.one && decide (q.at 8 1 < 8) && q.at 9 7 == 0 && q.at 0 8 % 4096 == 0
    && dieInPart s q (ckptDie q.payload) && inReserveA (q.at 16 8) 64
  rest := fun s q => ckptRest (q.at 0 8) (q.at 16 8) (rd (reserveBytes s (q.at 16 8) 24) 16 8) s q
  act := fun _ => answer sACCEPTED

/-- SEC_CKPT_IMPORT (R437). -/
def execSecCkptImport (q : Pkt) (s : State) : Host.Outcome State Fault Refusal := packetStep readScope opSecCkptImport q s

/-- A tag of a checkpoint fails. (DEDUCED, log 35) -/
def ckptFail : W Byte := do
  setFlags secA 0x10
  return sCHECK

/-- The tiles of an import from tile `i` on: the status; the first failure ends it. (DEDUCED, log 35) -/
def importTiles (p : Nat) (d : Fin 8) (key head : List Byte) (src dst : Nat) : Nat → Nat → W Byte
  | 0, _ => return sOK
  | n + 1, i => do
    let at_ := src + 64 + 4112 * i
    if !inReserveA at_ 4112 then return sRANGE
    match ← readReserve at_ 4112 with
    | .error e => return e
    | .ok r =>
      match gcmOpen key (ckptIv (rd head 8 4) i) (head.take 32) (r.take 4096) (r.drop 4096) with
      | none => ckptFail
      | some t =>
        let st ← writeTile p d (dst + 4096 * i) t (crc32c t)
        if st ≠ sOK then return st
        importTiles p d key head src dst n (i + 1)

/-- The end of an import: the header's tag first, then tile by tile. -/
def doneCkptImport (a : Action) : W Byte := do
  let b := a.payload
  let p := a.part.toNat
  let key := ckptKey (← getS).sec p
  match ← readReserve (rd b 16 8) 64 with
  | .error e => return e
  | .ok h =>
    let head := h.take 48
    match gcmOpen key (ckptIv (rd head 8 4) hdrIndex) head [] (h.drop 48) with
    | none => ckptFail
    | some _ => importTiles p (ckptDie b) key head (rd b 16 8) (rd b 0 8) (rd head 16 8) 0

/-! ## Debug (R443, R444) -/

/-- May the debug level become `l`? -/
def debugAllowed (s : State) (l : Nat) : Bool :=
  match lifecycle s with
  | 1 => decide (l ≤ 1)
  | 2 => l == 0 || s.sec.token.any fun t => decide (l ≤ t.1 ∧ s.clk.beat < t.2)
  | _ => true

/-- SEC_DEBUG_SET. -/
def opSecDebugSet : Op where
  code := 0x0509
  ok := fun _ q => q.long 1 && decide (q.at 0 1 < 3)
  rest := fun s q => refuseIf (!debugAllowed s (q.at 0 1)) sAUTH
  act := fun q => do
    modC fun c => { c with debug := q.at 0 1 }
    answer sOK

/-- SEC_DEBUG_SET (R443). -/
def execSecDebugSet (q : Pkt) (s : State) : Host.Outcome State Fault Refusal := packetStep wideScope opSecDebugSet q s

/-- DEBUG_TOKEN_EXPIRY: at the EXPIRY_BEAT of the last accepted token the level falls to None (R443). -/
def execDebugTokenExpiry (s : State) : Host.Outcome State Fault Refusal :=
  .next (if lifecycle s = 2 ∧ s.sec.token.any fun t => decide (t.2 ≤ s.clk.beat) then { s with sec := { s.sec with debug := 0 } } else s)

/-- Is a token not valid here? -/
def tokenBad (s : State) (b : List Byte) : Bool :=
  let c := s.sec
  rd b 8 8 != c.serial || rd b 16 32 != c.nonce.toNat || decide (rd b 4 4 < c.svn[5]) || decide (rd b 48 8 ≤ s.clk.beat)
    || !sm2Verify (ascii "LYHN8DEBUGTOKENS") c.tokenKey (b.take 64) (rd b 64 32) (rd b 96 32)

/-- SEC_TOKEN: a token that does not hold receives AUTH and sets TOKEN_REFUSED_SEEN. -/
def opSecToken : Op where
  code := 0x050A
  ok := fun _ q => q.long 128 && q.at 0 2 == 0x4B54 && q.at 2 1 == 1 && within (q.at 3 1) 1 3 && q.at 60 4 == 0
  rest := fun s q => firstOf [refuseIf (tokenBad s q.payload) sAUTH, refuseIf (lifecycle s != 1 || !diesEmpty s allDies) sSTATE]
  act := fun _ => answer sACCEPTED
  turned := fun _ st => if st = sAUTH then setFlags secA 4 else pure ()

/-- SEC_TOKEN (R444). -/
def execSecToken (q : Pkt) (s : State) : Host.Outcome State Fault Refusal := packetStep readScope opSecToken q s

/-- Every PK_p is erased, no exchange is pending, and no partition is protected. -/
def unprotect : W Unit := modC fun c => { c.eraseKeys with prot := 0, kx := Vector.replicate 8 none }
/-- The protected partitions. -/
def protParts (s : State) : List Nat := (List.range s.sec.parts).filter (isProt s)

/-- The end of a SEC_TOKEN: from Sealed to Service (R442). (DEDUCED, log 37) -/
def doneToken (a : Action) : W Byte := do
  let ps := protParts (← getS)
  unprotect
  installSlices ps
  refill ps
  let n ← freeWide
  modC fun c => { c with nonce := n, service := true, token := some (rd a.payload 3 1, rd a.payload 48 8) }
  return sOK

/-! ## Lifecycle (R442) -/

/-- Is a transition of SEC_LIFECYCLE one of the table's? -/
def transitionOk (s : State) (t : Nat) : Bool :=
  match lifecycle s, t with
  | 0, 1 => s.sec.fuseSeed && s.sec.fuseVendor
  | 2, 1 => true
  | 0, 3 => true
  | 1, 3 => true
  | 2, 3 => true
  | _, _ => false

/-- SEC_LIFECYCLE. -/
def opSecLifecycle : Op where
  code := 0x050B
  ok := fun s q => q.long 16 && decide (q.at 0 1 < 4) && q.at 1 7 == 0 && q.at 8 8 == s.sec.serial
  rest := fun s q => firstOf [refuseIf (!transitionOk s (q.at 0 1) || !diesEmpty s allDies) sSTATE, refuseIf (warned s) sPOWER]
  act := fun _ => answer sACCEPTED

/-- A SEC_LIFECYCLE row: the packets that name its target; one that names neither target, or has a wrong length, meets either.
(DESIGN CHOICE, log 24) -/
def lifecycleRow (target other : Nat) (q : Pkt) (s : State) : Host.Outcome State Fault Refusal :=
  W.within readScope s (if q.long 16 ∧ q.at 0 1 = other ∧ other ≠ target then pure () else packet opSecLifecycle q)

/-- SEC_LIFECYCLE_SEALED (R442). -/
def execSecLifecycleSealed (q : Pkt) (s : State) : Host.Outcome State Fault Refusal := lifecycleRow 1 3 q s
/-- SEC_LIFECYCLE_RETIRED (R442). -/
def execSecLifecycleRetired (q : Pkt) (s : State) : Host.Outcome State Fault Refusal := lifecycleRow 3 1 q s

/-- The end of a SEC_LIFECYCLE. (DEDUCED, log 37) -/
def doneLifecycle (a : Action) : W Byte := do
  let s ← getS
  if rd a.payload 0 1 = 3 then
    unprotect
    installKeys
    refillAll true
    modC fun c => { c with fuseRetired := true, debug := 0 }
  else if lifecycle s = 0 then modC fun c => { c with fuseSealed := true, debug := 0 }
  else
    modC fun c => { c with debug := 0 }
    newBoot
    refillAll true
    modC fun c => { c with service := false }
  return sOK

/-! ## Partitions (R423, R429, R430) -/

/-- The 16 bytes of PART_READ. (DESIGN CHOICE, log 36) -/
def partRead (s : State) : List Byte :=
  natLE 16 (Config.partReadLayout s.sec.parts s.sec.prot (keyedMask s) s.sec.layoutGen).toNat

/-- PART_READ. -/
def opPartRead : Op where
  code := 0x0801
  lease := false
  ok := fun _ q => q.long 0
  act := fun _ => do return some (sOK, partRead (← getS))

/-- PART_READ (R397). -/
def execPartRead (q : Pkt) (s : State) : Host.Outcome State Fault Refusal := packetStep readScope opPartRead q s

/-- PART_SET: a protected mask needs Sealed. (DESIGN CHOICE, log 36) -/
def opPartSet : Op where
  code := 0x0800
  ok := fun _ q => q.long 2 && [1, 2, 4, 8].contains (q.at 0 1) && decide (q.at 1 1 < 2 ^ q.at 0 1)
  rest := fun s q => firstOf [
    refuseIf (q.at 1 1 != 0 && lifecycle s != 1) sAUTH, refuseIf (!diesEmpty s allDies) sSTATE, refuseIf (warned s) sPOWER]
  act := fun _ => answer sACCEPTED

/-- PART_SET (R430). -/
def execPartSet (q : Pkt) (s : State) : Host.Outcome State Fault Refusal := packetStep readScope opPartSet q s

/-- The end of a PART_SET, in the order of R430. -/
def donePartSet (a : Action) : W Byte := do
  modC fun c => { c.eraseKeys with
    kx := Vector.replicate 8 none, parts := rd a.payload 0 1, layoutGen := satInc c.layoutGen }
  installKeys
  modS fun s => { s with regions := [] }
  refillAll false
  modC fun c => { c with prot := rd a.payload 1 1 }
  extendMr 6 (sm3 (partRead (← getS)))
  modC fun c => { c with mr := c.mr.set 7 (zeros 32) }
  return sOK

end Sys2Proof.Machine
end

