-- ==== Sys2Proof/Machine/Power.lean ====
section
/-! DEFINITION. Power states and their changes, trips and resets, clocks, beats, the marker, adaptive loops, supply monitoring,
readings, insertion and removal: 15_power_clocks_and_board.md. -/

namespace Sys2Proof.Machine

/-- Change the board state. -/
def modPw (f : Pwr → Pwr) : W Unit := modS fun s => { s with pwr := f s.pwr }
/-- Change the clocks. -/
def modClk (f : Clk → Clk) : W Unit := modS fun s => { s with clk := f s.clk }
/-- PWR_STATUS and CLK_STATUS of the hub side. -/
def pwrA : Nat := regA uHub bPWR 0
/-- CLK_STATUS. -/
def clkA : Nat := regA uHub bCLK 0
/-- The word of a power event of the board, and of a die. -/
def evPwr : Nat := whereW uHub bPWR 0
/-- The word of a die's power event. -/
def evDie (d : Fin 8) : Nat := whereW d bPWR 0
/-- The two hubs. -/
def hubs : List (Fin 2) := [0, 1]

/-! ## Losing power (R445, R451, R452, R466) -/

/-- Actions that will complete with POWER. -/
def failActions (hit : Action → Bool) : W Unit := modS fun s =>
  { s with ctl := { s.ctl with actions := s.ctl.actions.map fun a => if hit a then { a with status := sPOWER } else a } }

/-- A PWR_SET whose dies or hubs a reset or a trip takes to Off completes with POWER (R470). -/
def failPwrSet (names : List Byte → Bool) : W Unit := failActions fun a => a.opcode == 0x100 && names a.payload

/-- A SNAPSHOT or RESTORE of a partition whose die, or any whose hub, loses its memory cannot complete (R496). (DEDUCED, log 43) -/
def failSnaps (hit : Nat → Bool) : W Unit := failActions fun a => (a.opcode == 0x306 || a.opcode == 0x307) && hit a.part.toNat

/-- A running traffic generator of a block stops with its channel's power. -/
def dropGens (blk n : Nat) : W Unit := (List.range n).forM fun g => setField (blk + 0x4000 + 0x80 * g) 2 2 0

/-- A die goes to Off: notices for the epochs open on it, its ports DOWN, its SRAM and its cellar lost, its keys gone, the die
Empty, its tokens zero without an abort mark (R451, R455, R466). (DEDUCED, log 38) -/
def offDie (d : Fin 8) : W Unit := do
  let die ← getD d
  let part := partOf (← getS) d
  failSnaps (· == part)
  let open_ := die.slots.toList.filterMap fun o => o.map (·.number)
  modS fun s => { s with fab := { s.fab with
    notices := s.fab.notices ++ open_.flatMap fun x => (allDies.filter (· != d)).map fun e => (e.val, d.val, x) } }
  darkPorts d
  (portsOf d).forM fun p => modP p fun x => { x with tables := [] }
  loseSram d
  emit (.wipe (dieKey d 0) (2 ^ 48) 1 0)
  (stacksOf d).forM fun k => do
    untrain (.cellar k)
    dropGens (tierStatusA (.cellar k)) 32
  setKeys d false
  modD d fun x => { pw := .off, absent := x.absent, nextUid := x.nextUid, summ := x.summ }
  let s ← getS
  let p := partOf s d
  if h : p < 8 then
    if diesEmpty s (diesOf s p) then
      modS fun s => { s with images := s.images.set p {}, fab := { s.fab with imageMaps := s.fab.imageMaps.set p none } }

/-- A hub goes to Off: its loft and attic are lost (R445, R452). -/
def offHub (h : Fin 2) : W Unit := do
  failSnaps fun _ => true
  modPw fun w => { w with hub := w.hub.set h .off, hubTarget := w.hubTarget.set h none }
  emit (.wipe (hubKey (loftAt h.val)) (512 * gib) 1 0)
  emit (.wipe (hubKey (atticAt h.val)) (1152 * gib) 1 0)
  untrain (.loft h)
  untrain (.attic h)
  dropGens (tierStatusA (.loft h)) 16
  dropGens (tierStatusA (.attic h)) 6

/-- Is the module in Off (R452)? -/
def moduleIsOff (s : State) : Bool := allDies.all (fun d => (s.die d).pw == .off) && hubs.all fun h => s.pwr.hub[h] == .off

/-- The module has entered Off: R_boot and the memory keys go, with every PK_p but in Open; the debug level falls in Sealed and
Service (R445). After QUIESCE the ready contact goes low (R473). (DEDUCED, log 37) -/
def enteredOff : W Unit := do
  let s ← getS
  let l := lifecycle s
  modC fun c => { (if l = 0 then c else c.eraseKeys) with
    rboot := 0, debug := if l = 1 ∨ l = 2 then 0 else c.debug, keysIn := Vector.replicate 8 false, memKeys := [] }
  if s.ctl.quiesced then modPw fun w => { w with ready := true }

/-- What follows where the module has just entered Off. (DEDUCED, log 37) -/
def settleOff (was : Bool) : W Unit := do
  if !was && moduleIsOff (← getS) then enteredOff

/-- Every die and both hubs go to Off at once (R466, R469, R474). -/
def moduleDown : W Unit := do
  let was := moduleIsOff (← getS)
  allDies.forM offDie
  hubs.forM offHub
  failPwrSet fun _ => true
  settleOff was

/-- RESET_SEEN and RESET_CAUSE (R469, R480). (DEDUCED, log 40) -/
def noteReset (cause : Nat) : W Unit := do
  setFlags pwrA 4
  setField pwrA 15 12 cause

/-- The bytes of a temperature. -/
def tempBytes (t : Nat) : List Byte := natLE 2 t
/-- The unit byte of power events: dies 0 to 7, hub A 8, hub B 9 (R488). -/
def unitNo : PwrUnit → Nat
  | .die d => d.val
  | .hub h => 8 + h.val

/-- Does a die draw power: it is not in Off, or wakes from there (R451, R455)? -/
def powered (d : Die) : Bool := d.pw != .off || d.target.any (· != .off)

/-- A die trips to Off: by its junction, a stack, or its rail, which counts as a trip (R466, R469, R480, R488). -/
def tripDie (d : Fin 8) (resetCause cause : Nat) (temp : List Byte) : W Unit := do
  let was := moduleIsOff (← getS)
  noteReset resetCause
  setFlags pwrA 8
  raise 1 4 sPOWER (evDie d) ([b8 d.val, b8 cause] ++ temp)
  offDie d
  failPwrSet fun b => (rd b 0 1).testBit d.val
  settleOff was

/-- TRIP: a die at 115 °C, a stack at 105 °C; a hub at 115 °C takes the module to Off. (DEDUCED, log 40) -/
def trip (u : TripUnit) (temp : Nat) : W Unit := do
  let s ← getS
  match u with
  | .die d => if 115 ≤ temp ∧ powered (s.die d) then tripDie d 4 1 (tempBytes temp)
  | .stack k => if 105 ≤ temp ∧ powered (s.die (stackDie k)) then tripDie (stackDie k) 4 2 (tempBytes temp)
  | .hub h =>
    if 115 ≤ temp ∧ s.pwr.hub[h] ≠ .off then
      noteReset 5
      setFlags pwrA 8
      raise 1 4 sPOWER evPwr ([b8 (8 + h.val), 1] ++ tempBytes temp)
      moduleDown

/-- TRIP (R466). -/
def execTrip (u : TripUnit) (temp : Nat) (s : State) : Host.Outcome State Fault Refusal := W.within wideScope s (trip u temp)

/-! ## Entering and leaving power states (R451, R455, R301) -/

/-- The STEP words of a die's contexts. -/
def stepsOf (d : Die) : NMap Word := d.ctx.foldl (fun (m : NMap Word) c => nset 0 m c.1 (rdW c.2.static 72)) []

/-- A die goes to Deep: STEP saved, SRAM lost, ports DOWN, keys zeroised but in Open. -/
def enterDeep (d : Fin 8) : W Unit := do
  modD d fun x => { x with retained := stepsOf x }
  darkPorts d
  loseSram d
  if lifecycle (← getS) ≠ 0 then setKeys d false
  modD d fun x => { x with pw := .deep }

/-- The limit registers of a loop. -/
def limA (c : Nat) : Nat := regA uHub bPWR (0x40 + 8 * c)
/-- A limit register. -/
def limit (s : State) (c hi : Nat) : Nat := (rget s (limA c + 4 * hi)).toNat

/-- The lowest and the highest step of a die rail within the owner's limits, in steps of 2.5 mV above 650 mV (R461, R464); limits without a
step between them leave the one below the upper. (DEDUCED, log 41) -/
def railSteps (s : State) : Nat × Nat :=
  let hi := 2 * (limit s 1 1 - 650) / 5
  (min hi (cdiv (2 * (limit s 1 0 - 650)) 5), hi)

/-- The arithmetic clock of a die in MHz. -/
def freqOf (s : State) (d : Fin 8) : Nat := (rget s (regA d bCLK 0)).toNat

/-- A die's rail, or its arithmetic clock, changes: a mean over this moment is neither what it was nor what it is (R471). -/
def railChanges (d : Fin 8) : W Unit := modS fun s => { s with pwr := { s.pwr with railMoved := s.pwr.railMoved.set d s.clk.up } }
/-- The same of the clock. -/
def clkChanges (d : Fin 8) : W Unit := modS fun s => { s with pwr := { s.pwr with clkMoved := s.pwr.clkMoved.set d s.clk.up } }

/-- A die rail stands at a step; PWR_VOLT shows its millivolts. -/
def setRail (d : Fin 8) (k : Nat) : W Unit := do
  railChanges d
  modPw fun w => { w with rails := w.rails.set d k }
  setReg (regA d bPWR 4) (650 + 5 * k / 2)

/-- A core rail rises to a setpoint that its loop chooses within the owner's limits. (DEDUCED, log 38) -/
def railUp (d : Fin 8) : W Unit := do
  let (lo, hi) := railSteps (← getS)
  let v ← freeVal
  setRail d (lo + v % (hi - lo + 1))

/-- A die is in Run, its engines with it. -/
def inRun (d : Fin 8) : W Unit := do
  clkChanges d
  modD d fun x => { x with pw := .run, up := 0, eng := Vector.replicate 17 {} }
  railUp d
  trainPorts d

/-- A context with the STEP that the retention store held. -/
def restoreStep (r : NMap Word) (c : Nat × Context) : Nat × Context :=
  (c.1, { c.2 with static := setWord c.2.static 72 (nget 0 r c.1).toNat })

/-- A die with what the resident image gives it again as it leaves Deep (R301, R455). -/
def rewrite (b : List Byte) (d : Fin 8) (x : Die) : Die :=
  if x.seq.st = .empty then x
  else
    let i := dieImg b d
    { i.fill x with ctx := i.contexts.map (restoreStep x.retained) }

/-- A die leaves Deep for Run. (DEDUCED, log 38) -/
def wakeDeep (d : Fin 8) : W Unit := do
  fillRooms d
  setInit d true
  setKeys d true
  let s ← getS
  modD d (rewrite (s.images.toList.getD (partOf s d) {}).bytes d)
  inRun d

/-- A die leaves Off for Run, its cellar trained and filled. (DEDUCED, log 38) -/
def wakeOff (d : Fin 8) : W Unit := inRun d

/-- Nap keeps a die's contents as engine Nap keeps them: the accumulators go (R92, R451). -/
def napDie (d : Die) : Die := (List.finRange 4).foldl (fun (d : Die) m => napContents d ⟨m.val, by omega⟩) { d with pw := .nap }

/-- A die goes to a power state, through Run where it is neither in Run nor bound for Off. In Nap its rail stands at a retention level below
the setpoint, to which it rises again; the level is a free value (R451, R455). (DEDUCED, log 38) -/
def changeDie (d : Fin 8) (t : Pw) : W Unit := do
  let die ← getD d
  if die.pw = t then return
  if [Pw.run, .idle].contains die.pw && [Pw.run, .idle].contains t then pure ()
  else
    clkChanges d
    railChanges d
  if t = .off then offDie d
  else
    match die.pw with
    | .deep => wakeDeep d
    | .off => wakeOff d
    | .run => pure ()
    | .nap =>
      modD d fun x => { x with pw := .run }
      setRail d ((← getS).pwr.rails[d])
    | .idle => modD d fun x => { x with pw := .run }
    match t with
    | .idle => modD d fun x => { x with pw := .idle }
    | .nap =>
      modD d napDie
      let v ← freeVal
      setReg (regA d bPWR 4) (v % (rget (← getS) (regA d bPWR 4)).toNat)
    | .deep => enterDeep d
    | _ => pure ()

/-- The event of a supply reset, owed until the hubs next reach Run (R488). -/
def oweReset : W Unit := do
  let s ← getS
  if s.pwr.resetEvent && hubs.all fun h => s.pwr.hub[h] == .run then
    modPw fun w => { w with resetEvent := false }
    raise 1 2 sPOWER evPwr [b8 (fld (rget s pwrA) 15 12)]

/-- A hub goes to a power state. (DEDUCED, log 38 and 40) -/
def changeHub (h : Fin 2) (t : Pw) : W Unit := do
  if (← getS).pwr.hub[h] = t then return
  if t = .off then offHub h
  else
    modPw fun w => { w with hub := w.hub.set h t }
    oweReset

/-- Is a die that wakes from Off trained and filled (R455)? -/
def cellarReady (s : State) (d : Fin 8) : Bool :=
  storesReady s d && (s.sec.bootFail.testBit 2 || (stacksOf d).all fun k => isTrained s (.cellar k))

/-- Does a reset that stands keep a unit in Off: of the input or of a hub's rail, or of a die's own (R467, R469)? (DEDUCED, log 40) -/
def heldOff (s : State) : PwrUnit → Bool
  | .die d => s.pwr.resetInput || s.pwr.resetRail.any fun n => n == d.val || decide (8 ≤ n)
  | .hub _ => s.pwr.resetInput || s.pwr.resetRail.any fun n => decide (8 ≤ n)

/-- POWER_TRANSITION_DONE: a die or a hub reaches its target. (DEDUCED, log 38) -/
def transitionDone (u : PwrUnit) : W Unit := do
  let s ← getS
  let was := moduleIsOff s
  match u with
  | .die d =>
    match (s.die d).target with
    | none => return
    | some t =>
      if (s.die d).pw = .off ∧ t ≠ .off ∧ (!cellarReady s d ∨ heldOff s (.die d)) then return
      if t ≠ .run ∧ !atRest.contains (s.die d).seq.st then return
      changeDie d t
      modD d fun x => { x with target := none }
  | .hub h =>
    match s.pwr.hubTarget[h] with
    | none => return
    | some t =>
      if s.pwr.hub[h] = .off ∧ t ≠ .off ∧ heldOff s (.hub h) then return
      changeHub h t
      modPw fun w => { w with hubTarget := w.hubTarget.set h none }
  settleOff was

/-- POWER_TRANSITION_DONE (R455). -/
def execPowerTransitionDone (u : PwrUnit) (s : State) : Host.Outcome State Fault Refusal := W.within wideScope s (transitionDone u)

/-! ## PWR_SET (R453, R454) -/

/-- The target a PWR_SET names. -/
def pwrTarget (b : List Byte) : Pw := atD .off [.run, .idle, .nap, .deep, .off] (nfld (rd b 1 1) 2 0)
/-- HUBS. -/
def pwrHubs (b : List Byte) : Bool := (rd b 1 1).testBit 7
/-- The dies a PWR_SET names. -/
def pwrNamed (b : List Byte) : List (Fin 8) := allDies.filter fun d => (rd b 0 1).testBit d.val
/-- The hubs a PWR_SET names. -/
def pwrNamedHubs (b : List Byte) : List (Fin 2) := if pwrHubs b then hubs else []

/-- Does a PWR_SET need more than 10 ms: a die out of Off, hubs to Deep or Off, or hubs out of Off (R455)?
(DEDUCED, log 38) -/
def pwrLong (s : State) (b : List Byte) : Bool :=
  let t := pwrTarget b
  (pwrNamed b).any (fun d => (s.die d).pw == .off && t != .off)
    || (pwrNamedHubs b).any fun h => s.pwr.hub[h] != t && (t == .deep || t == .off || s.pwr.hub[h] == .off)

/-- Does a PWR_SET ask for Run from Deep or Off? -/
def pwrWakes (s : State) (b : List Byte) : Bool :=
  pwrTarget b == .run && ((pwrNamed b).any (fun d => darkDie (s.die d)) || (pwrNamedHubs b).any fun h => s.pwr.hub[h] != .run)

/-- Does a PWR_SET ask for Run of a unit that a standing reset keeps in Off? (DEDUCED, log 40) -/
def pwrHeld (s : State) (b : List Byte) : Bool :=
  pwrTarget b == .run && ((pwrNamed b).any (fun d => heldOff s (.die d)) || (pwrNamedHubs b).any fun h => heldOff s (.hub h))

/-- Are all that a PWR_SET names in its target state? -/
def pwrReached (s : State) (b : List Byte) : Bool :=
  (pwrNamed b).all (fun d => (s.die d).pw == pwrTarget b) && (pwrNamedHubs b).all fun h => s.pwr.hub[h] == pwrTarget b

/-- Does a PWR_SET name a unit that is still changing state? -/
def pwrMoving (s : State) (b : List Byte) : Bool :=
  (pwrNamed b).any (fun d => (s.die d).target.isSome) || (pwrNamedHubs b).any fun h => s.pwr.hubTarget[h].isSome

/-- The changes of a PWR_SET that completes within 10 ms. -/
def pwrNow (b : List Byte) : W Unit := do
  let was := moduleIsOff (← getS)
  (pwrNamed b).forM fun d => changeDie d (pwrTarget b)
  (pwrNamedHubs b).forM fun h => changeHub h (pwrTarget b)
  settleOff was

/-- A PWR_SET that runs on: its units have a target. The module leaving Off draws a fresh R_boot, and a die that leaves Off has its keys
before its cellar is filled (R428). -/
def pwrLater (b : List Byte) : W Unit := do
  let t := pwrTarget b
  if moduleIsOff (← getS) then newBoot
  (pwrNamed b).forM fun d => do
    if ((← getS).die d).pw = .off ∧ t ≠ .off then setKeys d true
  (pwrNamed b).forM fun d => modD d fun x => if x.pw = t then x else { x with target := some t }
  (pwrNamedHubs b).forM fun h => modPw fun w => if w.hub[h] = t then w else { w with hubTarget := w.hubTarget.set h (some t) }

/-- PWR_SET. With HUBS and target Run it ends what a QUIESCE left once that has completed; while one runs it takes nothing of it back
(R473). -/
def opPwrSet : Op where
  code := 0x0100
  ok := fun _ q => q.long 2 && q.at 0 1 != 0 && nfld (q.at 1 1) 6 3 == 0 && decide (nfld (q.at 1 1) 2 0 < 5)
    && (!pwrHubs q.payload || q.at 0 1 == 0xFF && [.run, .deep, .off].contains (pwrTarget q.payload))
  rest := fun s q =>
    let b := q.payload
    firstOf [
      refuseIf (pwrHubs b && q.from == 2) sAUTH,
      refuseIf (!(pwrNamed b).all (dieThere s q.from)) sABSENT,
      if pwrTarget b = .run then none else diesIn s (pwrNamed b) atRest,
      refuseIf (moduleIsOff s && pwrTarget b != .off && !(pwrHubs b && pwrTarget b == .run)) sSTATE,
      refuseIf (pwrWakes s b && (warned s || pwrHeld s b)) sPOWER,
      refuseIf (pwrMoving s b) sBUSY]
  act := fun q => do
    let s ← getS
    let b := q.payload
    if pwrHubs b && pwrTarget b == .run && !s.ctl.actions.any (·.opcode == 0x103) then
      modS fun s => { s with ctl := { s.ctl with quiesced := false }, pwr := { s.pwr with ready := false } }
    if pwrLong s b then
      pwrLater b
      answer sACCEPTED
    else
      pwrNow b
      answer sOK

/-- A PWR_SET row: the packets whose target is the row's; a packet with a reserved target or a wrong length meets any of the five.
(DESIGN CHOICE, log 24) -/
def pwrRow (t : Pw) (q : Pkt) (s : State) : Host.Outcome State Fault Refusal :=
  W.within wideScope s (if q.long 2 ∧ nfld (q.at 1 1) 2 0 < 5 ∧ pwrTarget q.payload ≠ t then pure () else packet opPwrSet q)

/-- PWR_SET_RUN (R453). -/
def execPwrSetRun (q : Pkt) (s : State) : Host.Outcome State Fault Refusal := pwrRow .run q s
/-- PWR_SET_IDLE (R453). -/
def execPwrSetIdle (q : Pkt) (s : State) : Host.Outcome State Fault Refusal := pwrRow .idle q s
/-- PWR_SET_NAP (R453). -/
def execPwrSetNap (q : Pkt) (s : State) : Host.Outcome State Fault Refusal := pwrRow .nap q s
/-- PWR_SET_DEEP (R453). -/
def execPwrSetDeep (q : Pkt) (s : State) : Host.Outcome State Fault Refusal := pwrRow .deep q s
/-- PWR_SET_OFF (R453). -/
def execPwrSetOff (q : Pkt) (s : State) : Host.Outcome State Fault Refusal := pwrRow .off q s

/-- The end of a PWR_SET: POWER after a reset, OK once every unit stands in its target; none before. -/
def donePwrSet (a : Action) : W (Option Byte) := do
  if a.status ≠ 0 then return some a.status
  return if pwrReached (← getS) a.payload then some sOK else none

/-! ## Limits and readings (R441, R464, R471) -/

/-- Are the limits of a loop in its ranges, and an unused field 0 (R464)? -/
def limitsOk (c lo hi : Nat) : Bool :=
  let both := fun a b => within lo a (b + 1) && within hi a (b + 1) && decide (lo ≤ hi)
  match c with
  | 0 => both 3600 4000
  | 1 => both 650 900
  | 2 => within lo 20 61 && hi == 0
  | 3 => lo == 0 && within hi 4100 4801
  | 4 => lo == 0 && within hi 85 106
  | 5 => both 0 63
  | 6 => lo == 0 && within hi 1 65
  | _ => false

/-- PWR_LIMIT. -/
def opPwrLimit : Op where
  code := 0x0101
  ok := fun _ q => q.long 12 && limitsOk (q.at 0 4) (q.at 4 4) (q.at 8 4)
  act := fun q => do
    setReg (limA (q.at 0 4)) (q.at 4 4)
    setReg (limA (q.at 0 4) + 4) (q.at 8 4)
    answer sOK

/-- PWR_LIMIT (R464). -/
def execPwrLimit (q : Pkt) (s : State) : Host.Outcome State Fault Refusal := packetStep readScope opPwrLimit q s

/-- A measured value below `n`, rounded down to a multiple of `g`: a free value. (DESIGN CHOICE, log 39) -/
def measured (on : Bool) (n g : Nat) : W Nat := do
  if !on then return 0
  let v ← freeVal
  return v % n / g * g

/-- A temperature reading: exact, or coarsened. (DESIGN CHOICE, log 39) -/
def tempReading (on coarse : Bool) (bits : Nat) : W Nat := do
  if !on then return 0
  if coarse then coarseTemp bits else return (← freeVal) % 2 ^ bits

/-- Has a whole window of readings closed after some beats: of 1 ms, for coarsened readings of 100 ms (R441, R471)? -/
def windowClosed (coarse : Bool) (up : Nat) : Bool := decide ((if coarse then beats100 else beatsMs) ≤ up)

/-- Has a die's arithmetic clock run unchanged for a whole window of readings, without a stretch? Its PLLs run in Run and in Idle (R451).
(DESIGN CHOICE, log 39) -/
def clkStood (s : State) (d : Fin 8) : Bool :=
  ((s.die d).pw == .run || (s.die d).pw == .idle) && !bitOf (rget s (regA d bPWR 0)) 4 && decide (s.pwr.clkMoved[d] + beatsMs < s.clk.up)

/-- Has a die's rail stood unchanged for a whole window of readings, in Run, Idle or Nap, without a stretch or a warning? (DESIGN CHOICE, log 39) -/
def railStood (s : State) (d : Fin 8) : Bool :=
  !darkDie (s.die d) && !bitOf (rget s (regA d bPWR 0)) 4 && !s.pwr.warnRail.contains d.val && decide (s.pwr.railMoved[d] + beatsMs < s.clk.up)

/-- The 16 bytes of a die in a PWR_READ. FREQ and VOLT are means over a millisecond like the rest: of a clock or a rail that stood still they
are CLK_FREQ and PWR_VOLT, else any up to 4.0 GHz and 900 mV (R461, R471). (DESIGN CHOICE, log 39) -/
def dieReading (m : Fin 5) (d : Fin 8) : W (List Byte) := do
  let s ← getS
  let die := s.die d
  let coarse := readsCoarse s m
  let on := !darkDie die && windowClosed coarse (min die.up s.clk.up)
  let shown := !darkDie die && decide (beatsMs ≤ die.up) && !coarsened s m (partOf s d)
  let freq ← if shown && clkStood s d then pure (freqOf s d) else measured shown 4001 1
  let volt ← if shown && railStood s d then pure (rget s (regA d bPWR 4)).toNat else measured shown 901 1
  let temp ← tempReading on coarse 16
  let t0 ← tempReading on coarse 8
  let t1 ← tempReading on coarse 8
  let w ← measured (die.pw != .off && windowClosed coarse s.clk.up) 4801 (if coarse then 25 else 1)
  return natLE 2 freq ++ natLE 2 volt ++ natLE 2 temp ++ natLE 1 t0 ++ natLE 1 t1 ++ natLE 4 w ++ [b8 (pwCode die.pw), 0, 0, 0]

/-- PWR_READ. -/
def opPwrRead : Op where
  code := 0x0102
  lease := false
  ok := fun _ q => q.long 0
  act := fun q => do
    let s ← getS
    let coarse := readsCoarse s q.from
    let on := windowClosed coarse s.clk.up
    let exact := windowClosed false s.clk.up
    let mv ← measured exact (2 ^ 32) 1
    let w ← measured on 4801 (if coarse then 25 else 1)
    let ts ← [0, 1, 2, 3].mapM fun _ => tempReading on coarse 16
    let st ← readReg pwrA
    let flow ← measured exact (2 ^ 16) 1
    let ds ← allDies.mapM (dieReading q.from)
    return some (sOK, natLE 4 mv ++ natLE 4 w ++ ts.flatMap (natLE 2) ++ natLE 4 st.toNat ++ natLE 2 flow ++ zeros 10 ++ ds.flatten)

/-- PWR_READ (R471). -/
def execPwrRead (q : Pkt) (s : State) : Host.Outcome State Fault Refusal := packetStep readScope opPwrRead q s

/-! ## Clocks and beats (R457 to R460) -/

/-- REFERENCE_LOCK: the always-on clock switches to the reference. -/
def referenceLock (s : State) : State :=
  if s.pwr.on then ror { s with clk := { s.clk with holdover := false } } clkA 0xC else s

/-- REFERENCE_LOCK (R457). -/
def execReferenceLock (s : State) : Host.Outcome State Fault Refusal := .next (referenceLock s)

/-- REF_LOST: the reference leaves tolerance; the clock holds its last frequency. -/
def refLost : W Unit := do
  let s ← getS
  if !bitOf (rget s clkA) 2 then return
  modClk fun c => { c with holdover := true }
  setField clkA 2 2 0
  setFlags clkA 1
  raise 1 6 sOK (whereW uHub bCLK 0) []

/-- REF_LOST (R458). -/
def execRefLost (s : State) : Host.Outcome State Fault Refusal := W.within boardScope s refLost

/-- REF_HOLDOVER_END: after 1 s the always-on clock returns to the crystal (R458). -/
def execRefHoldoverEnd (s : State) : Host.Outcome State Fault Refusal :=
  .next (if s.clk.holdover then rclr { s with clk := { s.clk with holdover := false } } clkA 8 else s)

/-- A marker pulse in error: counted, MARKER_ERR_SEEN, one event (R459). (DEDUCED, log 41) -/
def markerError : W Unit := do
  modClk fun c => { c with agreed := 0 }
  bump (regA uHub bCLK 0x14) 1
  setFlags clkA 2
  let n ← getReg (regA uHub bCLK 0x14)
  raise 1 7 sOK (whereW uHub bCLK 0) ([0, 0, 0, 0] ++ natLE 4 n.toNat)

/-- Registers that a new epoch-marker interval or scrub period starts afresh at a beat number: the lanes' counts, the scrubbed
lines, the scrubbed code words (R117, R251, R349). A scrub period of the tiers begins at the beat numbers that are multiples of 2^24.
(DESIGN CHOICE, log 57) -/
def newInterval (beat : Nat) : W Unit := do
  if beat % 2 ^ 20 = 0 then
    (List.finRange 32).forM fun p => do
      (List.range 8).forM fun l => setField (laneA p l) 31 8 0
      modP p fun x => { x with corrected := Vector.replicate 8 0 }
    allDies.forM fun d => do
      setReg (regA d bMOV 0x820) 0
      setReg (regA d bME 0x810) 0
    modS fun s => { s with tiers := { s.tiers with laneHits := [] } }
  if beat % 2 ^ 24 = 0 then allTiers.forM fun t => setReg (tierStatusA t + 0x20) 0

/-- MARKER_PULSE: an epoch pulse takes a pending CLK_LOAD and becomes the beat edge, at which the interval of the beat number
loaded begins; any other pulse is checked against the one before, an epoch pulse against the local count too. (DEDUCED, log 41) -/
def markerPulse (epoch : Bool) (offset : Nat) : W Unit := do
  let s ← getS
  if !s.pwr.on then return
  let now := 256 * s.clk.up + offset
  if epoch && bitOf (rget s clkA) 5 then
    let v := (rget s (regA uHub bCLK 0x10)).toNat * 2 ^ 32 + (rget s (regA uHub bCLK 0xC)).toNat
    modClk fun c => { c with beat := v, lastPulse := some (256 * c.up), agreed := min 16 (c.agreed + 1) }
    setField clkA 5 5 0
    newInterval v
  else
    modClk fun c => { c with lastPulse := some now }
    let spaced := s.clk.lastPulse.all fun t => t + 256 == now
    let placed := !epoch || offset == 0 && s.clk.beat % 2 ^ 20 == 0
    if spaced && placed then modClk fun c => { c with agreed := min 16 (c.agreed + 1) } else markerError
  setField clkA 4 4 (b2n ((← getS).clk.agreed == 16))

/-- MARKER_PULSE (R459). -/
def execMarkerPulse (epoch : Bool) (offset : Nat) (s : State) : Host.Outcome State Fault Refusal :=
  W.within boardScope s (markerPulse epoch offset)

/-- The floor of the arithmetic clock (R461). -/
def floorMHz : Nat := 3600

/-- A die at a beat edge: budget clocks, engine idleness and the time it has been in Run. -/
def tickDie (beat : Nat) (d : Die) : Die :=
  let d := countQuiet (markReady beat d)
  if d.pw = .run then { d with up := d.up + 1 } else d

/-- The first time below the floor in a run sets THERMAL_SEEN and raises BELOW_FLOOR with the junction's temperature (R466, R488). -/
def noteBelow (d : Fin 8) (temp : List Byte) : W Unit := do
  if !(← getS).pwr.belowFloor.contains d.val then
    modPw fun w => { w with belowFloor := w.belowFloor ++ [d.val] }
    setFlags pwrA 8
    raise 1 3 sPOWER (evDie d) ([b8 d.val, 0] ++ temp)

/-- BEAT_EDGE. -/
def beatEdge : W Unit := do
  let s ← getS
  if !s.pwr.on then return
  leaseEnded
  let beat := min (s.clk.beat + 1) (2 ^ 64 - 1)
  allDies.forM fun d =>
    if freqOf s d < floorMHz ∧ !darkDie (s.die d) then do
      bump (regA d bCLK 0xC) 1
      let t ← freeVal
      noteBelow d (natLE 2 t)
    else pure ()
  modS fun s => { s with
    dies := s.dies.map (tickDie s.clk.beat)
    clk := { s.clk with beat, up := s.clk.up + 1 }
    sec := { s.sec with unheard := s.sec.unheard + 1 } }
  modS fun s => { s with ctl := { s.ctl with leaseLeft := s.ctl.leaseLeft - 64 } }
  newInterval beat
  allDies.forM fun d => do
    let cs := startedOf (← getS) d 7
    if cs.any fun c => cOp c.words == 1 then auxBusy d 0
    if cs.any fun c => cOp c.words != 1 then auxBusy d 1

/-- BEAT_EDGE (R460). (DESIGN CHOICE, log 5) -/
def execBeatEdge (s : State) : Host.Outcome State Fault Refusal := W.within wideScope s beatEdge

/-! ## Adaptive loops (R461 to R466) -/

/-- Does a supply warning pull a die's clock to the floor (R468)? -/
def pulled (s : State) (d : Fin 8) : Bool := s.pwr.warnInput || s.pwr.warnRail.contains d.val

/-- The step that margin and the owner's limits give a die's clock: the highest at or below the upper limit that the margin sensors allow,
never below the lower limit (R462). -/
def ownGoal (s : State) (margin : Nat) : Nat :=
  let top := limit s 0 1 / 25 * 25
  let low := cdiv (limit s 0 0) 25 * 25
  if low ≤ top then max low (min top (margin / 25 * 25)) else top

/-- The step that the frequency loop moves towards: the floor while a supply warning pulls it there; while the input power is above its
limit the step below, down to the floor; else what margin and the owner's limits give (R29, R462, R468). (DEDUCED, log 41) -/
def freqGoal (s : State) (d : Fin 8) (margin watts : Nat) : Nat :=
  let f := freqOf s d
  if pulled s d then floorMHz
  else if limit s 3 1 < watts then
    if f ≤ floorMHz then f else min (ownGoal s margin) (max floorMHz (f - 25))
  else ownGoal s margin

/-- FREQUENCY_STEP: one step of 25 MHz towards the goal, none upwards while the junction is above the throttle point, or beyond what the
margin sensors allow before the voltage has risen (R462). A rise ends THROTTLED. (DEDUCED, log 41) -/
def frequencyStep (d : Fin 8) (margin watts temp : Nat) : W Unit := do
  let s ← getS
  if (s.die d).pw ≠ .run then return
  let f := freqOf s d
  let g := freqGoal s d margin watts
  let above := decide (limit s 3 1 < watts)
  let next := if g < f then f - 25 else if f < g ∧ temp ≤ limit s 4 1 ∧ f + 25 ≤ margin then f + 25 else f
  if next ≠ f then clkChanges d
  setReg (regA d bCLK 0) next
  if f < next then setField (regA d bPWR 0) 3 3 0
  let others := s.pwr.held.filter (· != d.val)
  let held := if above ∧ next < limit s 0 1 / 25 * 25 then d.val :: others else if ownGoal s margin ≤ next ∨ margin < next + 25 then others else s.pwr.held
  modPw fun w => { w with held }

/-- FREQUENCY_STEP (R462). -/
def execFrequencyStep (d : Fin 8) (reading : ClockReading) (s : State) : Host.Outcome State Fault Refusal :=
  W.within boardScope s (frequencyStep d reading.margin reading.watts reading.temp)

/-- VOLTAGE_STEP: the rail moves by one step of 2.5 mV towards what its margin sensors ask for, within the owner's limits; downwards only
once the clock is no faster than the lower rail allows (R461, R462). (DEDUCED, log 41) -/
def voltageStep (d : Fin 8) (asked margin : Nat) : W Unit := do
  let s ← getS
  if (s.die d).pw ≠ .run ∧ (s.die d).pw ≠ .idle then return
  let (lo, hi) := railSteps s
  let k := s.pwr.rails[d]
  let g := max lo (min hi (2 * (asked - 650) / 5))
  if k < g then setRail d (k + 1)
  else if g < k ∧ freqOf s d ≤ margin then setRail d (k - 1)

/-- VOLTAGE_STEP (R461). -/
def execVoltageStep (d : Fin 8) (reading : RailReading) (s : State) : Host.Outcome State Fault Refusal :=
  W.within boardScope s (voltageStep d reading.asked reading.margin)

/-- A port's lasers are on: not while it is DISABLED or its die is in Deep or Off (R476). -/
def lasersOn (s : State) (p : Fin 32) : Bool := (s.port p).st != .disabled && !darkDie (s.die (dieOf p))

/-- LASER_BIAS_STEP: a lane's bias code moves by one towards a code within its limits (R461). (DEDUCED, log 41) -/
def laserBiasStep (p : Fin 32) (lane : Fin 8) (code : Byte) : W Unit := do
  let s ← getS
  if !lasersOn s p then return
  let c := fld (rget s (laneA p lane.val)) 5 0
  let g := max (limit s 5 0) (min (limit s 5 1) code.toNat)
  setField (laneA p lane.val) 5 0 (if c < g then c + 1 else if g < c then c - 1 else c)

/-- LASER_BIAS_STEP (R461). -/
def execLaserBiasStep (p : Fin 32) (lane : Fin 8) (code : Byte) (s : State) : Host.Outcome State Fault Refusal :=
  W.within boardScope s (laserBiasStep p lane code)

/-- DROOP: an episode of stretching starts, or one that runs goes on. -/
def droop (d : Fin 8) : W Unit := do
  let s ← getS
  let a := regA d bPWR 0
  if darkDie (s.die d) ∨ bitOf (rget s a) 4 then return
  clkChanges d
  railChanges d
  setField a 4 4 1
  bump (regA d bCLK 4) 1

/-- DROOP (R465). -/
def execDroop (d : Fin 8) (s : State) : Host.Outcome State Fault Refusal := W.within boardScope s (droop d)

/-- STRETCH_END: an episode of n edges of the set clock has dropped floor(n / 4). -/
def stretchEnd (d : Fin 8) (edges : Nat) : W Unit := do
  let a := regA d bPWR 0
  if !bitOf (← getReg a) 4 then return
  clkChanges d
  railChanges d
  setField a 4 4 0
  bump (regA d bCLK 8) (edges / 4)

/-- STRETCH_END (R465). -/
def execStretchEnd (d : Fin 8) (edges : Nat) (s : State) : Host.Outcome State Fault Refusal := W.within boardScope s (stretchEnd d edges)

/-- THERMAL_THROTTLE: above the throttle point the clock falls by a step, below the floor if it must and down to 2.0 GHz; the
first time below it in a run sets THERMAL_SEEN and raises BELOW_FLOOR (R461, R466). (DEDUCED, log 41) -/
def thermalThrottle (d : Fin 8) (temp : Nat) : W Unit := do
  let s ← getS
  if darkDie (s.die d) ∨ temp ≤ limit s 4 1 then return
  let f := max 2000 (freqOf s d - 25)
  if f ≠ freqOf s d then clkChanges d
  setReg (regA d bCLK 0) f
  setField (regA d bPWR 0) 3 3 1
  if f < floorMHz then noteBelow d (tempBytes temp)

/-- THERMAL_THROTTLE (R466). -/
def execThermalThrottle (d : Fin 8) (temp : Nat) (s : State) : Host.Outcome State Fault Refusal :=
  W.within boardScope s (thermalThrottle d temp)

/-! ## Supply (R467 to R470) -/

/-- The cause and unit bytes of a supply event (R488). -/
def supplyNo : Supply → Nat × Nat
  | .input => (1, 0)
  | .rail (.die d) => (2, d.val)
  | .rail (.hub h) => (3, 8 + h.val)

/-- A self-test that a warning interrupts completes with POWER (R487). (DEDUCED, log 40) -/
def failTests : W Unit := modS fun s =>
  { s with ctl := { s.ctl with actions := s.ctl.actions.map fun a => if a.opcode = 0x602 then { a with status := sPOWER } else a } }

/-- SUPPLY_WARNING; of the input at or below 44.0 V. -/
def supplyWarning (what : Supply) (mv : Nat) : W Unit := do
  let s ← getS
  let (cause, n) := supplyNo what
  let stands : Bool := match what with | .input => s.pwr.warnInput | _ => s.pwr.warnRail.contains n
  if !s.pwr.on ∨ stands ∨ what = .input ∧ 44000 < mv then return
  modPw fun w => match what with
    | .input => { w with warnInput := true }
    | _ => { w with warnRail := w.warnRail ++ [n] }
  setFlags pwrA 2
  bump (regA uHub bPWR 0xC) 1
  match what with
  | .rail (.die d) => railChanges d
  | _ => pure ()
  raise 1 1 sPOWER evPwr ([b8 cause, b8 n, 0, 0] ++ natLE 4 mv)
  failTests

/-- SUPPLY_WARNING (R468). -/
def execSupplyWarning (what : Supply) (mv : Nat) (s : State) : Host.Outcome State Fault Refusal :=
  W.within wideScope s (supplyWarning what mv)

/-- WARNING_RELEASE: the warning no longer stands (R467). -/
def execWarningRelease (what : Supply) (s : State) : Host.Outcome State Fault Refusal :=
  .next { s with pwr := match what with
    | .input => { s.pwr with warnInput := false }
    | _ => { s.pwr with warnRail := s.pwr.warnRail.filter (· != (supplyNo what).2) } }

/-- SUPPLY_RESET: the input or a hub rail takes the module to Off, a die rail its die. (DEDUCED, log 40) -/
def supplyReset (what : Supply) : W Unit := do
  let s ← getS
  if !s.pwr.on then return
  match what with
  | .input =>
    if s.pwr.resetInput then return
    modPw fun w => { w with resetInput := true, resetEvent := true }
    noteReset 1
    moduleDown
  | .rail (.die d) =>
    if s.pwr.resetRail.contains d.val then return
    modPw fun w => { w with resetRail := w.resetRail ++ [d.val] }
    if powered (s.die d) then
      let t ← freeVal
      tripDie d 2 3 (natLE 2 t)
  | .rail (.hub h) =>
    if s.pwr.resetRail.contains (8 + h.val) then return
    modPw fun w => { w with resetRail := w.resetRail ++ [8 + h.val], resetEvent := true }
    noteReset 3
    moduleDown

/-- SUPPLY_RESET (R469). -/
def execSupplyReset (what : Supply) (s : State) : Host.Outcome State Fault Refusal := W.within wideScope s (supplyReset what)

/-- SUPPLY_RESET_RELEASE: the reset no longer stands (R467). -/
def execSupplyResetRelease (what : Supply) (s : State) : Host.Outcome State Fault Refusal :=
  .next { s with pwr := match what with
    | .input => { s.pwr with resetInput := false }
    | _ => { s.pwr with resetRail := s.pwr.resetRail.filter (· != (supplyNo what).2) } }

/-- FLOW_LOW: a flow below 4.0 L/min, in 0.01 L/min. -/
def flowLow (flow : Nat) : W Unit := do
  if !(← getS).pwr.on ∨ 400 ≤ flow then return
  setFlags pwrA 0x10
  raise 1 5 sOK evPwr (natLE 2 flow)

/-- FLOW_LOW (R478). -/
def execFlowLow (flow : Nat) (s : State) : Host.Outcome State Fault Refusal := W.within boardScope s (flowLow flow)

/-- The alert contact is low: a warning stands or a die is below the floor (R475). -/
def alertLow (s : State) : Bool := warned s || allDies.any fun d => !darkDie (s.die d) && decide (freqOf s d < floorMHz)

/-! ## Removal and insertion (R472 to R474) -/

/-- QUIESCE: later changes are refused, and every running generator stops, its channel refilled after a run that wrote (R271). -/
def opQuiesce (stopGens : W Unit) : Op where
  code := 0x0103
  ok := fun _ q => q.long 0
  rest := fun s _ => diesIn s allDies atRest
  act := fun _ => do
    modS fun s => { s with ctl := { s.ctl with quiesced := true } }
    stopGens
    answer sACCEPTED

/-- The end of a QUIESCE once no other action runs: every port DISABLED, and the module on its way to Off; a unit that wakes from Off
stays there.
(DEDUCED, log 40) -/
def doneQuiesce : W (Option Byte) := do
  if (← getS).ctl.actions.length ≠ 1 then return none
  (List.finRange 32).forM (setPort 0)
  let s ← getS
  let waking := (allDies.any fun d => (s.die d).target.isSome) || hubs.any fun h => s.pwr.hubTarget[h].isSome
  allDies.forM fun d => modD d fun x => { x with target := if x.pw = .off then none else some .off }
  hubs.forM fun h => modPw fun w => { w with hubTarget := w.hubTarget.set h (if w.hub[h] = .off then none else some .off) }
  if moduleIsOff s then
    if waking then enteredOff else modPw fun w => { w with ready := true }
  return some sOK

/-- ENABLE: with the presence contacts made the front end ramps up (R472). -/
def execEnable (s : State) : Host.Outcome State Fault Refusal :=
  .next { s with pwr := { s.pwr with presence := true, enable := true, frontEnd := true } }

/-- PRESENCE_SHORT_BREAK: the front end opens; without QUIESCE the withdrawal acts as an input reset (R473, R474).
(DEDUCED, log 40) -/
def presenceBreak : W Unit := do
  let s ← getS
  if !s.pwr.presence then return
  modPw fun w => { w with presence := false, frontEnd := false }
  if s.pwr.on ∧ !s.pwr.ready then
    noteReset 6
    modPw fun w => { w with resetEvent := true }
    moduleDown

/-- PRESENCE_SHORT_BREAK (R473). -/
def execPresenceShortBreak (s : State) : Host.Outcome State Fault Refusal := W.within wideScope s presenceBreak

/-- A port with its transmit SEQ at an always-on start: at the end of its reserved block while it has no key and had none (R436).
(DEDUCED, log 34) -/
def coldPort (c : Sec) (p : Fin 32) : Port :=
  let n := if nget [] c.txDigest p.val = [] then nget 0 c.txEnd p.val else 0
  { txSeq := n, ack := n, dlv := n }

/-- What outlives the always-on domain: fuses, flash, the address contacts, RESET_SEEN and RESET_CAUSE (R417, R420, R424,
R436, R437, R442, R469, R475). -/
def cold (s : State) : State :=
  let c := s.sec
  let st : State := {
    pending := s.pending, free := s.free
    ports := Vector.ofFn (coldPort c)
    sec := {
      serial := c.serial, seed := c.seed, tokenKey := c.tokenKey, firmKey := c.firmKey, fieldRepair := c.fieldRepair, fuseSeed := c.fuseSeed, fuseVendor := c.fuseVendor
      fuseSealed := c.fuseSealed, fuseRetired := c.fuseRetired, svn := c.svn, service := c.service, flash := c.flash
      active := c.active, written := c.written, ckptId := c.ckptId, txEnd := c.txEnd, txDigest := c.txDigest }
    pwr := {
      on := false, resetEvent := s.pwr.resetEvent, enable := s.pwr.enable, frontEnd := s.pwr.frontEnd, presence := s.pwr.presence }
    clk := { module := s.clk.module } }
  rset st pwrA (rget s pwrA &&& 0xF004#32)

/-- ALWAYS_ON_STOP: below 30.0 V the always-on domain and the RoT stop (R467). -/
def execAlwaysOnStop (s : State) : Host.Outcome State Fault Refusal := .next (if s.pwr.on then cold s else s)

/-- The copy that a written image starts from: the one SEC_FW_WRITE wrote takes effect (R447). (DESIGN CHOICE, log 29) -/
def takeWritten (c : Sec) : Sec :=
  { c with
    active := Vector.ofFn fun (i : Fin 5) => if c.written[i] then 1 - c.active[i] % 2 else c.active[i]
    written := Vector.replicate 5 false }

/-- ALWAYS_ON_START: with the front end closed, the domain starts on the crystal, everything at its reset value but what outlives it (R472, R483). -/
def execAlwaysOnStart (s : State) : Host.Outcome State Fault Refusal :=
  .next (if s.pwr.on || !s.pwr.frontEnd then s else let t := cold s; { t with pwr := { t.pwr with on := true }, sec := takeWritten t.sec })

end Sys2Proof.Machine
end

