-- ==== Sys2Proof/Machine/Tiers.lean ====
section
/-! DEFINITION. Training, fills, scrub, write-back, refresh, temperature and the traffic generators of the memories:
04_store_rooms_and_tiles.md R116 to R118, 09_cellar_loft_and_attic.md R251 to R255, R260, R271 to R273. -/

namespace Sys2Proof.Machine

/-! ## Training and fills (R118, R252, R260, R484) -/

/-- Does a tier have power, or a wake under way? -/
def tierPowered (s : State) : Tier → Bool
  | .cellar k => (s.die (stackDie k)).pw != .off || (s.die (stackDie k)).target.isSome
  | .loft h => s.pwr.hub[h] != .off || s.pwr.hubTarget[h].isSome
  | .attic h => s.pwr.hub[h] != .off || s.pwr.hubTarget[h].isSome

/-- The tier and channel bytes of TRAIN_FAIL, and the word of its event (R488). -/
def trainWhere : Channel → Nat × Nat × Nat
  | .cellar k pc => (0, pc.val, whereW (k.val / 2) bCEL (k.val % 2))
  | .loft h c => (1, c.val, whereW uHub bLFT h.val)
  | .attic h c => (2, c.val, whereW uHub bATC h.val)

/-- CEL_ERASE_MAP after a training that left lanes erased (R252, R276). -/
def trainMap (lanes : List Nat) : Nat :=
  match lanes with
  | [] => 0
  | [a] => 0x80 + a % 64
  | a :: b :: _ => 0x80 + a % 64 + 0x100 * (0x80 + b % 64)

/-- The lanes of a pseudo-channel that factory or field repairs have replaced (R252). -/
def repairedLanes (s : State) (n : Nat) : List Nat := Config.factoryRepair n ++ nget [] s.sec.fieldRepair n

/-- A training's repairs (R252): both records are applied again, each lane that still tests bad takes a repair resource while one is left,
which the RoT records, and the others stay bad. What is answered: the new repairs and the lanes left bad. -/
def repairLanes (s : State) (n : Nat) (bad : List Nat) : List Nat × List Nat :=
  let k := Config.repairResources - (repairedLanes s n).length
  (bad.eraseDups.take k, bad.eraseDups.drop k)

/-- CEL_REPAIR: the lanes repaired and the resources left, each at most 15 (R274). (DESIGN CHOICE, log 42) -/
def repairWord (used : Nat) : Nat := 16 * min 15 (Config.repairResources - used) + min 15 used

/-- A channel trained: the lanes that tested bad are repaired while resources are left, and up to two data or check lanes of a
pseudo-channel erased; it has failed, on both attempts or because more is bad, and counts as ABSENT from then on, with TRAIN_FAIL
(R252, R484, R488). -/
def trainChannel (ch : Channel) (failed : Bool) (lanes : List Nat) : W Unit := do
  let s ← getS
  let n := chanNo ch
  let (new, left) := match ch with | .cellar _ _ => repairLanes s n lanes | _ => ([], lanes)
  let bad := failed || (match ch with | .cellar _ _ => decide (2 < left.length) || left.any fun x => decide (34 ≤ x) | _ => false)
  modS fun s => { s with tiers := { s.tiers with chan := nset 0 s.tiers.chan n (if bad then 2 else 1) } }
  match ch with
  | .cellar k pc =>
    let base := tierStatusA (.cellar k)
    modS fun s => { s with sec := { s.sec with fieldRepair := nset [] s.sec.fieldRepair n (nget [] s.sec.fieldRepair n ++ new) } }
    setReg (base + 0x200 + 4 * pc.val) (repairWord (repairedLanes (← getS) n).length)
    setReg (base + 0x100 + 4 * pc.val) (trainMap (left.filter fun x => decide (x < 34)))
  | _ => pure ()
  if bad then
    let (t, c, w) := trainWhere ch
    raise 2 3 sABSENT w [b8 t, b8 c, b8 (left.headD 0xFF)]

/-- MEMORY_TRAINING_DONE: a channel trained; the last one of a loft's is followed by the fill of its reserve (R252, R483).
(DESIGN CHOICE, log 42) -/
def memoryTrainingDone (ch : Channel) (failed : Bool) (lanes : List Nat) : W Unit := do
  let s ← getS
  if nget 0 s.tiers.chan (chanNo ch) ≠ 0 ∨ !tierPowered s (tierOf ch) then return
  trainChannel ch failed lanes
  match ch with
  | .loft h _ => if settled (← getS) (.loft h) then emit (reserveFill h)
  | _ => pure ()

/-- MEMORY_TRAINING_DONE (R252). -/
def execMemoryTrainingDone (ch : Channel) (failed : Bool) (lanes : List Nat) (s : State) : Host.Outcome State Fault Refusal :=
  W.within wideScope s (memoryTrainingDone ch failed lanes)

/-- The die of a memory key; die 0 stands for the hubs. -/
def keyDie (key : Nat) : Fin 8 := ⟨key / 2 ^ 48 % 8, by omega⟩
/-- The check words that lie on channels which are filled become those of zero tiles, also for a tile that lies on another channel
(R244, R260). -/
def fillChecks (on : Nat → Bool) : W Unit := do
  let s ← getS
  let lies := fun (key : Nat) => (storeOf (key % 2 ^ 48)).any fun x =>
    (checkOff s (keyDie key) x.1 x.2).any fun o => on (chanOf (keyDie key) x.1 o)
  (s.mem.checks.filter fun x => lies (x.1 * 4096)).forM fun x => emit (.chk x.1 crcZeroTile)

/-- A tier filled: its slices' bytes and the check words that lie on it. -/
def fillTier (t : Tier) : W Unit := do
  emit (tierFill t)
  fillChecks (chansOf t).contains

/-- A channel's whole range filled (R271). -/
def fillChannel (ch : Channel) : W Unit := do
  emit (chanFill ch)
  fillChecks (· == chanNo ch)

/-- SLICE_FILL_DONE: a tier whose training is done is filled and TRAINED. (DESIGN CHOICE, log 42) -/
def sliceFillDone (t : Tier) : W Unit := do
  let s ← getS
  if isTrained s t ∨ !settled s t ∨ !tierPowered s t ∨ s.sec.bootFail.testBit 2 then return
  fillTier t
  setTrained t true

/-- SLICE_FILL_DONE (R260). -/
def execSliceFillDone (t : Tier) (s : State) : Host.Outcome State Fault Refusal := W.within boardScope s (sliceFillDone t)

/-- STORE_ROOM_FILL_DONE: a die's store rooms and gradient buffer are filled, INIT_DONE set. -/
def storeRoomFillDone (d : Fin 8) : W Unit := do
  let s ← getS
  let die := s.die d
  if storesReady s d ∨ (darkDie die ∧ die.target.isNone) then return
  fillRooms d
  setInit d true

/-- STORE_ROOM_FILL_DONE (R118). -/
def execStoreRoomFillDone (d : Fin 8) (s : State) : Host.Outcome State Fault Refusal := W.within boardScope s (storeRoomFillDone d)

/-! ## Scrub, write-back, refresh, retraining (R116, R117, R251, R253, R255, R461) -/

/-- Is the memory of a key powered, so that its scrub runs? -/
def keyPowered (s : State) (key : Nat) : Bool :=
  match storeOf (key % 2 ^ 48) with
  | none => false
  | some (.loft h, _) => key / 2 ^ 48 == 8 && s.pwr.hub.toList.getD h .off == .run
  | some (.attic h, _) => key / 2 ^ 48 == 8 && s.pwr.hub.toList.getD h .off == .run
  | some _ => decide (key / 2 ^ 48 < 8) && !darkDie (s.die (keyDie key))

/-- The block, the counter of scrubbed lines or code words, and the code of SCRUB_UNCORR of a memory. -/
def scrubOf (d : Fin 8) (st : Store) (off : Nat) : Nat × Nat × Nat :=
  match st with
  | .front => (whereW d bMOV 0, regA d bMOV 0x820, 0)
  | .tier t => (whereW d bMOV 0, regA d bMOV 0x820, 1 + t)
  | .wgb => (whereW d bME 0, regA d bME 0x810, 5)
  | .cellar => (whereW d bCEL (off / 4096 % 2), tierBlock d st off + 0x20, 6)
  | .loft h => (whereW uHub bLFT h, tierBlock d st off + 0x20, 7)
  | .attic h => (whereW uHub bATC h, tierBlock d st off + 0x20, 8)

/-- Upsets since the units of a line were last judged: the patterns of its units from `u` on (R116, R249). (DESIGN CHOICE, log 11) -/
def upset (st : Store) : Nat → List Nat → W Unit
  | _, [] => pure ()
  | u, x :: r => do
    let n := upsetBits (match st with | .cellar => 1 | .loft _ => 2 | .attic _ => 3 | _ => 0)
    emit (.err u (nget 0 (← getS).mem.errs u ^^^ x % 2 ^ n))
    upset st (u + 1) r

/-- PATROL_SCRUB of the 128-byte line, or in an external tier the code word, at a key: single errors are corrected and counted, an
uncorrectable one is recorded, raises its event, stays until the next write and fails no command. Check words beside the banks are not
among the lines. A channel that a traffic generator holds is not read (R271). -/
def patrolScrub (key : Nat) (upsets : List Nat) : W Unit := do
  let s ← getS
  let d := keyDie key
  match storeOf (key % 2 ^ 48) with
  | none => return
  | some (st, off) =>
    if !keyPowered s key || genBusy s d st off then return
    let z := if st.isExt then 1 else 2
    let a := key % 2 ^ 48 / (64 * z) * (64 * z)
    let u := keyOf d a / 64
    upset st u (upsets.take z)
    if !st.isExt then
      let t := keyOf d a / 4096
      emit (.chkErr t (nget 0 (← getS).mem.chkErrs t ^^^ upsets.getD z 0 % 2 ^ 72))
    let (w, ctr, code) := scrubOf d st off
    bump ctr 1
    let lost ← (List.range z).mapM fun i => do return (← readUnit 2 d (a + 64 * i)).lost
    if lost.any (· != 0) then raise 2 1 sUNCORR w (natLE 6 a ++ [b8 code])

/-- PATROL_SCRUB (R117). -/
def execPatrolScrub (addr : Nat) (upsets : List Nat) (s : State) : Host.Outcome State Fault Refusal :=
  W.within boardScope s (patrolScrub addr upsets)

/-- A unit whose corrected contents wait goes back to its cells; a write since then has replaced it (R116, R248). -/
def writeBack (u : Nat) : W Unit := do
  match nget none (← getS).mem.back u with
  | none => return
  | some p =>
    emit (.err u p)
    emit (.back u none)

/-- Is the channel that serves a key held by a traffic generator (R271)? -/
def keyBusy (s : State) (key : Nat) : Bool := (storeOf (key % 2 ^ 48)).any fun x => genBusy s (keyDie key) x.1 x.2

/-- CORRECTED_WRITEBACK of the line, or in an external tier the code word, at a key; in a channel that a traffic generator holds it waits
on. -/
def correctedWriteback (key : Nat) : W Unit := do
  if keyBusy (← getS) key then return
  if (storeOf (key % 2 ^ 48)).any fun x => x.1.isExt then writeBack (key / 64)
  else
    writeBack (key / 128 * 2)
    writeBack (key / 128 * 2 + 1)

/-- CORRECTED_WRITEBACK (R116). -/
def execCorrectedWriteback (addr : Nat) (s : State) : Host.Outcome State Fault Refusal := W.within boardScope s (correctedWriteback addr)

/-- REFRESH: a bank's refresh keeps what its cells hold (R255). (DESIGN CHOICE, log 42) -/
def execRefresh (_ : Nat) (s : State) : Host.Outcome State Fault Refusal := .next s

/-- CELLAR_RETRAIN: the read eye and the reference voltage are set anew, and no erasure map changes (R253, R461).
(DESIGN CHOICE, log 42) -/
def execCellarRetrain (_ : Fin 16) (s : State) : Host.Outcome State Fault Refusal := .next s

/-- STACK_HOT: a stack's temperature crosses 85 °C, which sets or clears HOT and its refresh rate; 95 °C sets the issue rate,
which is timing (R255, R466). -/
def execStackHot (stack : Fin 16) (temp : Nat) (s : State) : Host.Outcome State Fault Refusal :=
  W.within boardScope s (if (s.die (stackDie stack)).pw = .off then pure () else setField (tierStatusA (.cellar stack)) 5 5 (b2n (decide (85 < temp))))

/-! ## Traffic generators (R271 to R273) -/

/-- The channel of generator `g` as die `d` numbers them: 0 to 63 its pseudo-channels, 64 to 95 the loft's, 96 to 107 the attic's. -/
def genChan (d : Fin 8) (g : Nat) : Option Channel :=
  if g < 64 then some (.cellar ⟨2 * d.val + g / 32 % 2, by omega⟩ ⟨g % 32, by omega⟩)
  else if g < 96 then some (.loft ⟨(g - 64) / 16 % 2, by omega⟩ ⟨(g - 64) % 16, by omega⟩)
  else if g < 108 then some (.attic ⟨(g - 96) / 6 % 2, by omega⟩ ⟨(g - 96) % 6, by omega⟩)
  else none

/-- The registers of a channel's generator, as die `d` addresses them (R272, R277). -/
def genA (d : Fin 8) : Channel → Nat
  | .cellar k pc => regA d bCEL (0x8000 * (k.val % 2) + 0x4000 + 0x80 * pc.val)
  | .loft h c => regA d bLFT (0x10000 * h.val + 0x4000 + 0x80 * c.val)
  | .attic h c => regA d bATC (0x10000 * h.val + 0x4000 + 0x80 * c.val)

/-- A REG_WRITE of a generator's CTRL that keeps its configuration and writes 1 to a bit. -/
def genWrite (q : Hdr) (d : Fin 8) (g bit : Nat) : W Unit := do
  match genChan d g with
  | none => return
  | some ch =>
    let v ← getReg (genA d ch)
    writeRow true q (genA d ch) ((v.toNat &&& 0x0FFFFFF0) + bit)

/-- TG_START (R271). -/
def execTgStart (q : Hdr) (d : Fin 8) (g : Nat) (s : State) : Host.Outcome State Fault Refusal := W.within wideScope s (genWrite q d g 1)
/-- TG_STOP (R273): the requests in flight end before the run does. -/
def execTgStop (q : Hdr) (d : Fin 8) (g : Nat) (s : State) : Host.Outcome State Fault Refusal := W.within wideScope s (genWrite q d g 2)

/-- The key of the first tile that a channel holds, and the distance between its tiles, in tiles (R241, R242). -/
def chanTiles : Channel → Nat × Nat
  | .cellar k pc => (dieKey (stackDie k) 0x1000000000 / 4096 + 2 * pc.val + k.val % 2, 64)
  | .loft h c => (hubKey (loftAt h.val) / 4096 + c.val, 16)
  | .attic h c => (hubKey (atticAt h.val) / 4096 + c.val, 6)

/-- The upset units of a channel's range [lo, hi) of 64-byte units: the unit's number in the channel, and the local address. -/
def chanUpsets (m : Mem) (ch : Channel) (lo hi : Nat) : List (Nat × Nat) :=
  let (t0, step) := chanTiles ch
  m.errs.filterMap fun (u, _) =>
    let t := u / 64
    if decide (t0 ≤ t) && (t - t0) % step == 0 then
      let n := (t - t0) / step * 64 + u % 64
      if within n lo hi then some (n, 64 * u % 2 ^ 48) else none
    else none

/-- Does a 64-byte unit of a pseudo-channel lie in a bank, numbered bank group * 16 + bank? Of its tile `c` in the pseudo-channel
offset bits [21:18] and [25:22] are bits 3 to 0 and 7 to 4 of `c`; bits [11:10] are the unit's within its tile (R241). -/
def unitInBank (bank n : Nat) : Bool := n % 64 / 16 == bank / 16 && (n / 64 % 16 ^^^ n / 1024 % 16) == bank % 16

/-- A unit of [lo, hi) in a bank, one of those that there are as `f` says; each 16 tiles in line hold four 1 KiB requests of a bank, one
tile of them. None where the range holds none. -/
def pickInBank (bank lo hi f : Nat) : Option Nat :=
  let b0 := lo / 1024
  let at_ := fun j => 1024 * j + 64 * (bank % 16 ^^^ j % 16) + 16 * (bank / 16) + f % 16
  let b1 := (hi - 1) / 1024
  ([b0 + f / 16 % (b1 + 1 - b0), b0, b0 + 1, b1].map at_).find? fun n => decide (lo ≤ n) && decide (n < hi)

/-- The pattern that INJECT_EN leaves in a code word: every bit of the two symbols of each lane in the mask (R271). -/
def injected (mask : Nat) : Nat :=
  ((List.range 68).filter fun j => mask.testBit (rsLane j)).foldl (fun n j => n + 0xFF * 2 ^ (8 * j)) 0

/-- What a decoder makes of a pattern on any code word: the code is linear, so the pattern alone decides, here on the zero word. -/
def judgeInject (lanes : List Nat) (p : Nat) : Verdict := judgeCellar lanes p (zeros 64) id

/-- What a run has counted. -/
structure GenCount where
  mismatch : Nat := 0
  corr : Nat := 0
  uncorr : Nat := 0
  first : Nat := 0
  lanes : List Nat := []

/-- The code words read of `n` requests of `z` code words each, by MIX: none of the writes; each of the reads; one read after each write; the
reads of batches of `b` that alternate, the writes first (R273). (DESIGN CHOICE, log 42) -/
def genReads (mix b z n : Nat) : Nat :=
  match mix with
  | 1 => 0
  | 3 => (n / (2 * b) * b + (n % (2 * b) - b)) * z
  | _ => n * z

/-- How often a code word whose lanes the decoder corrects can be read before one of them becomes a run-time erasure (R253); none where
no reading of it makes one. -/
def untilErased (s : State) (d : Fin 8) (off : Nat) (lanes : List Nat) : Option Nat :=
  let map := erasedLanes (rget s (eraseMapA d off))
  if 2 ≤ map.length then none
  else ((lanes.filter fun l => !map.contains l).map fun l => max 1 (8 - nget 0 s.tiers.laneHits (laneKey d off l))).min?

/-- A code word read `n` times: every reading counts the lanes it corrects, and an erasure made by one holds for the next (R253). What is
answered: what the readings found, each with how often. At most two lanes can be erased meanwhile. -/
def readMany (judge : W Verdict) (d : Fin 8) (off : Nat) : Nat → Nat → W (List (Verdict × Nat))
  | 0, _ => return []
  | _, 0 => return []
  | f + 1, n => do
    let v ← judge
    let s ← getS
    let m := if f = 0 then n else min n ((untilErased s d off v.lanes).getD n)
    (List.range (min m 8)).forM fun _ => v.lanes.forM (laneHit d off)
    return (v, m) :: (← readMany judge d off f (n - m))

/-- The lanes of the symbols in which a decoded code word still differs from what was written. -/
def lanesLeft (left : Nat) : List Nat := (((List.range 68).filter fun j => nfld left (8 * j + 7) (8 * j) != 0).map rsLane).eraseDups

/-- What reading counts where every code word read holds the same pattern, from the read number `i` on. A lane counts that carried a corrected
symbol or one that mismatches; FIRST counts from the start of the channel (R272): `place` gives the unit of a read by its number and a
free value. Whether a code word that cannot be decoded also counts as a mismatch is open. (DESIGN CHOICE, log 42 and 57) -/
def countSame (mask : Nat) (place : Nat → Nat → Nat) : Nat → List (Verdict × Nat) → GenCount → W GenCount
  | _, [], g => return g
  | i, (v, m) :: r, g => do
    let k ← freeVal
    let f ← freeVal
    let differs := v.bytes.isSome || (v.lost ≠ 0 && k % 2 == 1)
    countSame mask place (i + m) r {
      mismatch := g.mismatch + (if differs then m else 0), corr := g.corr + v.corr * m, uncorr := g.uncorr + v.lost * m
      first := if differs && g.mismatch == 0 then place i f else g.first
      lanes := g.lanes ++ (if v.lost = 0 then v.lanes ++ lanesLeft v.left else if differs then (List.range 34).filter mask.testBit else []) }

/-- What a read-only run counts of an upset unit that it reads `n` times. -/
def countUnit (lanes : Option (List Nat)) (d : Fin 8) (a n : Nat) (g : GenCount) : W GenCount := do
  let off := ((storeOf a).map (·.2)).getD 0
  return (← readMany (judgeUnitBy lanes d a) d off 3 n).foldl (fun (g : GenCount) x => { g with
    corr := g.corr + x.1.corr * x.2, uncorr := g.uncorr + x.1.lost * x.2, lanes := if x.1.lost = 0 then g.lanes ++ x.1.lanes else g.lanes }) g

/-- One round over the upset units of a range, each with how often it is read in that round. -/
def countRound (lanes : Option (List Nat)) (d : Fin 8) (times : Nat → Nat) : List (Nat × Nat) → GenCount → W GenCount
  | [], g => return g
  | (n, a) :: r, g => do countRound lanes d times r (← countUnit lanes d a (times n) g)

/-- What a read-only run counts over the upset units of its range. In sequence from BASE on each unit is read once in every round of the
requests; after sixteen rounds no further reading makes an erasure. In random order how often each is read is open (R273).
(DESIGN CHOICE, log 42) -/
def countUpsets (lanes : Option (List Nat)) (d : Fin 8) (reads lo hi : Nat) (sequential : Bool) (units : List (Nat × Nat)) : W GenCount := do
  if units.isEmpty then return {}
  if sequential then
    let full := reads / (hi - lo)
    let g ← (List.range (min full 16)).foldlM (fun g _ => countRound lanes d (fun _ => 1) units g) {}
    let g ← countRound lanes d (fun _ => full - 16) units g
    countRound lanes d (fun n => b2n (decide (n - lo < reads % (hi - lo)))) units g
  else
    units.foldlM (fun g x => do
      let k ← freeVal
      countUnit lanes d x.2 (k % (reads + 1)) g) {}

/-- The words and the lanes that a run of `n` requests has met; with NO_ERASE it decodes without the erasure map. All its readings fall into
the interval in which it ends. Patterns, seeds and addresses choose what is written and where, which no count shows, since what was
written is what is expected; with ADDR_MODE 2 a cellar's run stays in its bank, and meets nothing where its range holds none of it.
(DESIGN CHOICE, log 42) -/
def genCount (ch : Channel) (r : GenRun) (n : Nat) : W GenCount := do
  let s ← getS
  let v := r.ctrl
  let lo := 16 * r.base
  let hi := 16 * r.limit
  let mix := fld v 15 14
  let mode := fld v 23 22
  let bank := fld v 21 16
  let reads := genReads mix (fld v 11 6) (atD 1 [1, 2, 16] (fld v 13 12)) n
  let noErase := bitOf v 4
  let d := match ch with | .cellar k _ => stackDie k | _ => 0
  if mix = 0 then
    let units := chanUpsets s.mem ch lo hi
    let met := match ch with | .cellar _ _ => units.filter fun x => mode != 2 || unitInBank bank x.1 | _ => units
    countUpsets (if noErase then some [] else none) d reads lo hi (mode == 0) met
  else
    match ch with
    | .cellar k pc =>
      let mask := if bitOf v 5 then r.inject else 0
      if mask = 0 ∨ (mode = 2 ∧ pickInBank bank lo hi 0 = none) then return {}
      let off := (2 * pc.val + k.val % 2) * 4096
      let judge : W Verdict := do
        let map := erasedLanes (← getReg (eraseMapA d off))
        return judgeInject (if noErase then [] else map) (injected mask)
      let place := fun i f =>
        if mode = 0 ∧ mix = 2 then lo + i % (hi - lo) else if mode = 2 then (pickInBank bank lo hi f).getD lo else lo + f % (hi - lo)
      countSame mask place 0 (← readMany judge d off 3 reads) {}
    | _ => return {}

/-- A run ends: its requests have been issued, all of COUNT or, where it was told to stop, as many as there was time for; its counters show
what it met, which no counter of the channel's controller does, and the duration is open (R95). A run that wrote is followed
by the fill of the channel's whole range, and BUSY clears. With COUNT 0 only STOP ends a run. Its configuration is what START found.
(DESIGN CHOICE, log 42 and 57) -/
def genDone (ch : Channel) : W Unit := do
  let d : Fin 8 := match ch with | .cellar k _ => stackDie k | _ => 0
  let base := genA d ch
  let stop := nget false (← getS).tiers.stopping (chanNo ch)
  let r := nget {} (← getS).tiers.runs (chanNo ch)
  let count := r.count
  if !bitOf (← getReg base) 2 ∨ (count = 0 ∧ !stop) then return
  let k ← freeVal
  let n := if !stop then count else if count = 0 then k % 2 ^ 32 else k % (count + 1)
  let g ← genCount ch r n
  setReg (base + 0x24) n
  setReg (base + 0x28) (min g.mismatch 0xFFFFFFFF)
  setReg (base + 0x2C) (min g.corr 0xFFFFFFFF)
  setReg (base + 0x30) (min g.uncorr 0xFFFFFFFF)
  setReg (base + 0x34) g.first
  setReg (base + 0x38) ((← freeVal) % 2 ^ 32)
  match ch with
  | .cellar _ _ =>
    let m := packWord 34 1 fun i => b2n (g.lanes.contains i)
    setReg (base + 0x3C) (m % 2 ^ 32)
    setReg (base + 0x40) (m / 2 ^ 32)
  | _ => pure ()
  if fld r.ctrl 15 14 ≠ 0 then fillChannel ch
  setField base 2 2 0
  modS fun s => { s with tiers := { s.tiers with stopping := nset false s.tiers.stopping (chanNo ch) false } }

/-- TG_COMPLETE (R271). -/
def execTgComplete (d : Fin 8) (g : Nat) (s : State) : Host.Outcome State Fault Refusal :=
  W.within boardScope s (match genChan d g with | some ch => genDone ch | none => pure ())

/-- Every channel of the module. -/
def allChans : List Channel :=
  (List.finRange 16).flatMap (fun k => (List.finRange 32).map (Channel.cellar k))
    ++ (List.finRange 2).flatMap (fun h => (List.finRange 16).map (Channel.loft h))
    ++ (List.finRange 2).flatMap (fun h => (List.finRange 6).map (Channel.attic h))

/-- QUIESCE (R473): it stops every generator, after its requests in flight. -/
def opQuiesceAll : Op := opQuiesce (allChans.forM fun ch => do
  modS fun s => { s with tiers := { s.tiers with stopping := nset false s.tiers.stopping (chanNo ch) true } }
  genDone ch
  modS fun s => { s with tiers := { s.tiers with stopping := nset false s.tiers.stopping (chanNo ch) false } })

/-- QUIESCE (R473). -/
def execQuiesce (q : Pkt) (s : State) : Host.Outcome State Fault Refusal := packetStep wideScope opQuiesceAll q s

end Sys2Proof.Machine
end

