-- ==== Sys2Proof/Machine/Recovery.lean ====
section
/-! DEFINITION. Self-tests, step snapshots and their restoration: 16_bringup_errors_and_recovery.md R486, R487, R492 to R498. -/

namespace Sys2Proof.Machine

/-! ## Where snapshots lie (R494, R495) -/

/-- The start of attic slice `p` of a hub. -/
def atticSlice (s : State) (h p : Nat) : Nat := atticAt h + p * (1152 * gib / s.sec.parts)
/-- The record of the die at position `i` of a partition in a slot. -/
def recordAt (s : State) (p slot i : Nat) : Nat :=
  atticSlice s 0 p + 381 * gib / s.sec.parts + slot * (gib / 2 / s.sec.parts) + i * 0x40000
/-- Tiles of a die's cellar. -/
def cellarTiles : Nat := 25165824
/-- The address of snapshot tile `n` of a slot. -/
def dataAt (s : State) (p slot n : Nat) : Nat :=
  atticSlice s (n % 2) p + (382 + 384 * slot) * gib / s.sec.parts + 4096 * (n / 2)
/-- The position of a die within its partition. -/
def posOf (s : State) (d : Fin 8) : Nat := d.val - 8 * partOf s d / s.sec.parts

/-- Bytes of the attic as they stand. -/
def atticBytes (s : State) (a n : Nat) : List Byte := s.mem.bytes (hubKey a) n

/-- Is a record valid? -/
def recordValid (b : List Byte) : Bool := rd b 0 2 == 0x534E && rd b 2 1 == 1 && rd b 128 4 == 1
/-- The first 132 bytes of the records of a slot, die by die. -/
def slotRecords (s : State) (p slot : Nat) : List (List Byte) := (diesOf s p).map fun d => atticBytes s (recordAt s p slot (posOf s d)) 132
/-- Is a slot valid on every die? -/
def slotValid (s : State) (p slot : Nat) : Bool :=
  !nget false s.tiers.badSlots (2 * p + slot) && (slotRecords s p slot).all recordValid
/-- The module holds a slot invalid, or no longer does. -/
def holdBad (p slot : Nat) (b : Bool) : W Unit :=
  modS fun s => { s with tiers := { s.tiers with badSlots := nset false s.tiers.badSlots (2 * p + slot) b } }
/-- SNAP_SEQ of a slot. -/
def slotSeq (s : State) (p slot : Nat) : Nat := rd ((slotRecords s p slot).headD []) 4 4

/-- The slot that a SNAPSHOT writes: the one without the newest valid snapshot, slot 0 when neither is valid (R496).
(DEDUCED, log 43) -/
def nextSlotNo (s : State) (p : Nat) : Nat :=
  match slotValid s p 0, slotValid s p 1 with
  | true, true => if slotSeq s p 0 < slotSeq s p 1 then 0 else 1
  | true, false => 1
  | _, _ => 0

/-! ## Tiles moved by the control firmware -/

/-- A tile written without a permission of a region: its bytes and its check word, or ABSENT on a stack or a
channel that failed (R19) and BUSY under a traffic generator. -/
def snapTile (d : Fin 8) (a : Nat) (bs : List Byte) : W Byte := do
  match storeOf a with
  | none => return sRANGE
  | some (st, off) =>
    if addrAbsent (← getS) d a then return sABSENT
    if tileBusy (← getS) d st off then return sBUSY
    let e ← putCheck d st a off (crc32c bs)
    if e ≠ sOK then return e
    emit (.put (keyOf d a) bs)
    return sOK

/-- A tile read and verified (R113), where its stack or channel has not failed (R19). -/
def snapRead (d : Fin 8) (a : Nat) : W (Except Byte (List Byte)) := do
  if addrAbsent (← getS) d a then return .error sABSENT
  oldTile 0 d a

/-- A tile copied: the status. -/
def moveTile (d : Fin 8) (src dst : Nat) : W Byte := do
  match ← snapRead d src with
  | .error e => return e
  | .ok t => snapTile d dst t

/-- Work on a list, ended by the first status that is not OK. -/
def allOk {α : Type} (f : α → W Byte) : List α → W Byte
  | [] => return sOK
  | x :: r => do
    let st ← f x
    if st ≠ sOK then return st
    allOk f r

/-- Bytes written over whole tiles from an address on. -/
def putRun (d : Fin 8) (a : Nat) (bs : List Byte) : W Byte :=
  allOk (fun x => snapTile d (a + 4096 * x.2) (padTo 4096 x.1)) (chunks 4096 bs).zipIdx

/-- Cellar regions of a die in which its partition may write (R493). -/
def writable (s : State) (d : Fin 8) : List Nat :=
  (List.range 49152).filter fun i => (regionEntry s ((8 + d.val) * 2 ^ 32 + i)).toNat.testBit (2 * partOf s d + 1)
/-- The tiles of a cellar region: 2 MiB. -/
def regionTiles (i : Nat) : List Nat := (List.range 512).map (512 * i + ·)
/-- The cellar address of a tile. -/
def cellarAt (t : Nat) : Nat := 0x1000000000 + 4096 * t

/-! ## SNAPSHOT (R492, R493, R495, R496) -/

/-- Do SNAPSHOT or RESTORE run on a partition? -/
def snapBusy (s : State) (part : Byte) : Bool :=
  s.ctl.actions.any fun a => (a.opcode == 0x306 || a.opcode == 0x307) && a.part == part

/-- SNAPSHOT. -/
def opSnapshot : Op where
  code := 0x0306
  ok := fun _ q => q.long 0 && q.one
  rest := fun s q => firstOf [
    guard s q.from [q.part], partThere s q,
    refuseIf (!(diesOf s q.part).all fun d => (s.die d).seq.st == .stopped && (s.die d).cleanStop) sSTATE,
    refuseIf (snapBusy s q.hdr.part) sBUSY]
  act := fun _ => answer sACCEPTED

/-- SNAPSHOT (R496). -/
def execSnapshot (q : Pkt) (s : State) : Host.Outcome State Fault Refusal := packetStep readScope opSnapshot q s

/-- VALID of a record. -/
def setValid (s : State) (p slot : Nat) (d : Fin 8) (v : Nat) : W Byte := do
  let a := recordAt s p slot (posOf s d)
  snapTile d a (setWord (atticBytes (← getS) a 4096) 128 v)

/-- The record of a die, apart from VALID; `beat` is that in which the SNAPSHOT was accepted. (DEDUCED, log 43) -/
def snapRecord (d : Fin 8) (p seq beat : Nat) (map : List Nat) : W (List Byte) := do
  let s ← getS
  let die := s.die d
  let img := s.images.toList.getD p {}
  let steps := die.ctx.map fun c => rd c.2.static 72 4
  let none_ ← freeVal
  let lo := match steps with | [] => none_ | x :: r => r.foldl min x
  let hi := match steps with | [] => none_ / 2 ^ 32 | x :: r => r.foldl max x
  let head := natLE 2 0x534E ++ [1, b8 d.val] ++ natLE 4 seq ++ natLE 8 beat ++ padTo 32 img.digest ++ natLE 4 s.sec.layoutGen
    ++ natLE 4 (s.sec.keygen.toList.getD p 0) ++ natLE 4 lo ++ natLE 4 hi ++ img.recipes.toList.flatMap fun r => natLE 8 r.seed.toNat
  let bits := (List.range 6144).map fun i => b8 (packWord 8 1 fun j => b2n (map.contains (8 * i + j)))
  let ctxs := (List.range 1024).flatMap fun c => match ctxOf die c with
    | some x => padTo 192 (x.static ++ x.step)
    | none => zeros 192
  return padTo 4096 head ++ padTo 12288 bits ++ ctxs

/-- The copy of a die into a slot: its regions, then its record. -/
def snapDie (p slot seq beat : Nat) (d : Fin 8) : W Byte := do
  let s ← getS
  let map := writable s d
  let st ← allOk (fun t => moveTile d (cellarAt t) (dataAt s p slot (posOf s d * cellarTiles + t))) (map.flatMap regionTiles)
  if st ≠ sOK then return st
  putRun d (recordAt s p slot (posOf s d)) (← snapRecord d p seq beat map)

/-- Are a partition's dies and both attics there to copy? -/
def snapPowered (s : State) (p : Nat) : Bool :=
  (diesOf s p).all (fun d => !darkDie (s.die d)) && hubs.all fun h => s.pwr.hub[h] == .run

/-- The end of a SNAPSHOT, in the order of R496; one that cannot complete leaves the slot invalid, also where its records can no longer be
written, and a hub A in Off has lost both slots. (DEDUCED, log 43) -/
def doneSnapshot (a : Action) : W Byte := do
  let s ← getS
  let p := a.part.toNat
  let ds := diesOf s p
  if s.pwr.hub[0] = .off then return sPOWER
  let slot := nextSlotNo s p
  let seq := satInc (nget 0 s.snapSeq p)
  modS fun s => { s with snapSeq := nset 0 s.snapSeq p seq }
  holdBad p slot true
  let st ← allOk (fun d => setValid s p slot d 0) ds
  if st ≠ sOK then return st
  if a.status ≠ 0 then return a.status
  if !snapPowered s p then return sPOWER
  let st ← allOk (snapDie p slot seq a.beat) ds
  if st ≠ sOK then return st
  let st ← allOk (fun d => setValid s p slot d 1) ds
  if st = sOK then holdBad p slot false
  return st

/-! ## RESTORE (R497) -/

/-- Do the records of a slot carry the present LAYOUT_GEN and KEYGEN? -/
def slotFits (s : State) (p slot : Nat) : Bool :=
  (slotRecords s p slot).all fun b => rd b 48 4 == s.sec.layoutGen && rd b 52 4 == s.sec.keygen.toList.getD p 0

/-- RESTORE. (DEDUCED, log 43) -/
def opRestore : Op where
  code := 0x0307
  ok := fun _ q => q.long 1 && q.one && decide (q.at 0 1 < 2)
  rest := fun s q => firstOf [
    guard s q.from [q.part], partThere s q, diesIn s (diesOf s q.part) [.loaded, .stopped],
    refuseIf (!slotValid s q.part (q.at 0 1) || !slotFits s q.part (q.at 0 1)) sSTATE,
    refuseIf (snapBusy s q.hdr.part) sBUSY]
  act := fun _ => answer sACCEPTED

/-- RESTORE (R497). -/
def execRestore (q : Pkt) (s : State) : Host.Outcome State Fault Refusal := packetStep readScope opRestore q s

/-- The tiles of a record from an offset on, verified as they are read. -/
def readRecord (d : Fin 8) (a : Nat) : Nat → W (Except Byte (List Byte))
  | 0 => return .ok []
  | n + 1 => do
    match ← snapRead d a with
    | .error e => return .error e
    | .ok t =>
      match ← readRecord d (a + 4096) n with
      | .error e => return .error e
      | .ok r => return .ok (t ++ r)

/-- A context as a record holds it. -/
def ctxFrom (b : List Byte) (c : Nat × Context) : Nat × Context :=
  (c.1, { static := sub b (16384 + 192 * c.1) 128, step := sub b (16384 + 192 * c.1 + 128) 64 })

/-- The recipes with the seeds of a record. -/
def recipesFrom (b : List Byte) (v : Vector Recipe 8) : Vector Recipe 8 :=
  Vector.ofFn fun (r : Fin 8) => { v[r] with seed := BitVec.ofNat 64 (rd b (64 + 8 * r.val) 8) }

/-- The restoration of a die from a slot: its regions, and with the image of the snapshot loaded its contexts and the seeds. -/
def restoreDie (p slot : Nat) (d : Fin 8) : W Byte := do
  let s ← getS
  match ← readRecord d (recordAt s p slot (posOf s d)) 52 with
  | .error e => return e
  | .ok b =>
    let map := (List.range 49152).filter fun i => (rd b (4096 + i / 8) 1).testBit (i % 8)
    let st ← allOk (fun t => moveTile d (dataAt s p slot (posOf s d * cellarTiles + t)) (cellarAt t)) (map.flatMap regionTiles)
    if st ≠ sOK then return st
    if sub b 16 32 = (s.images.toList.getD p {}).digest then
      modD d fun x => { x with ctx := x.ctx.map (ctxFrom b) }
      modImage p fun i => { i with recipes := recipesFrom b i.recipes }
    return sOK

/-- The end of a RESTORE; a read that fails ends it after the regions already written, and leaves the slot invalid (R489, R497).
(DEDUCED, log 43) -/
def doneRestore (a : Action) : W Byte := do
  let s ← getS
  let p := a.part.toNat
  let slot := rd a.payload 0 1
  if a.status ≠ 0 then return a.status
  if !snapPowered s p then return sPOWER
  let st ← allOk (restoreDie p slot) (diesOf s p)
  if st = sCHECK ∨ st = sUNCORR then
    holdBad p slot true
    (diesOf s p).forM fun d => do let _ ← setValid s p slot d 0
  return st

/-! ## Self-tests (R486, R487) -/

/-- A unit that a self-test tests. -/
inductive TestUnit where
  | die (d : Fin 8)
  | stack (k : Fin 16)
  | port (p : Fin 32)
  | rot (h : Fin 2)
  | engines (d : Fin 8)
  /-- The XTS engines of a hub's loft controllers, or of its attic's. -/
  | xts (h : Fin 2) (attic : Bool)
  deriving DecidableEq, Repr

/-- The units of a self-test, by its payload. (DEDUCED, log 43) -/
def testUnits (b : List Byte) : List TestUnit :=
  match rd b 0 4 with
  | 2 => ((List.finRange 16).filter fun k => (rd b 4 2).testBit k.val).map .stack
  | 5 => (maskPorts (rd b 4 4)).map .port
  | 6 => hubs.map .rot ++ allDies.map .engines ++ hubs.map (.xts · false) ++ hubs.map (.xts · true)
  | _ => (allDies.filter fun d => (rd b 4 1).testBit d.val).map .die

/-- The dies that a self-test names. -/
def testDies (b : List Byte) : List (Fin 8) :=
  (testUnits b).filterMap fun u => match u with | .die d => some d | .stack k => some (stackDie k) | _ => none

/-- Is a unit that a self-test names not there or not enabled (R19, R395): a die held in reset or dark, a stack whose training
failed, a port that is DISABLED? -/
def unitAbsent (s : State) (u : TestUnit) : Bool :=
  let gone := fun (d : Fin 8) => (s.die d).absent || darkDie (s.die d)
  match u with
  | .die d => gone d
  | .stack k => gone (stackDie k) || stackAbsent s k.val
  | .port p => gone (dieOf p) || (s.port p).st == .disabled
  | _ => false

/-- Parameters of a self-test: what its code does not use is zero. -/
def testOk (b : List Byte) : Bool :=
  let c := rd b 0 4
  let used := if c = 2 then 2 else if c = 5 then 8 else if c = 6 then 0 else 1
  within c 1 7 && allZero (b.drop (4 + used)) && (c != 5 || within (rd b 8 4) 1 60001)

/-- SELFTEST. (DEDUCED, log 43) -/
def opSelftest : Op where
  code := 0x0602
  ok := fun _ q => q.long 32 && testOk q.payload
  rest := fun s q =>
    let b := q.payload
    firstOf [
      refuseIf ((testDies b).any fun d => isKeyed s (partOf s d)) sAUTH,
      refuseIf ((testUnits b).any (unitAbsent s)) sABSENT,
      refuseIf (s.fab.mode == 0 && q.at 0 4 != 6) sSTATE,
      refuseIf (!diesEmpty s (testDies b)) sSTATE,
      refuseIf (s.ctl.actions.any fun a => a.opcode == 0x602 && (testUnits a.payload).any (testUnits b).contains) sBUSY]
  act := fun _ => answer sACCEPTED

/-- A SELFTEST row: the packets of its test code; a packet with a reserved code or a wrong length meets any of the six.
(DESIGN CHOICE, log 24) -/
def selftestRow (c : Nat) (q : Pkt) (s : State) : Host.Outcome State Fault Refusal :=
  W.within readScope s (if q.long 32 ∧ 1 ≤ q.at 0 4 ∧ q.at 0 4 < 7 ∧ q.at 0 4 ≠ c then pure () else packet opSelftest q)

/-- SELFTEST_STORE_MARCH (R486). -/
def execSelftestStoreMarch (q : Pkt) (s : State) : Host.Outcome State Fault Refusal := selftestRow 1 q s
/-- SELFTEST_CELLAR_ARRAY (R486). -/
def execSelftestCellarArray (q : Pkt) (s : State) : Host.Outcome State Fault Refusal := selftestRow 2 q s
/-- SELFTEST_ENGINE_KNOWN_ANSWER (R486). -/
def execSelftestEngineKnownAnswer (q : Pkt) (s : State) : Host.Outcome State Fault Refusal := selftestRow 3 q s
/-- SELFTEST_ON_PACKAGE_LINKS (R486). -/
def execSelftestOnPackageLinks (q : Pkt) (s : State) : Host.Outcome State Fault Refusal := selftestRow 4 q s
/-- SELFTEST_PORT_TRAFFIC (R486). -/
def execSelftestPortTraffic (q : Pkt) (s : State) : Host.Outcome State Fault Refusal := selftestRow 5 q s
/-- SELFTEST_CRYPTO_KNOWN_ANSWER (R486). -/
def execSelftestCryptoKnownAnswer (q : Pkt) (s : State) : Host.Outcome State Fault Refusal := selftestRow 6 q s

/-- The unit and instance bytes of a result, and the word of its event. -/
def testWhere : TestUnit → Nat × Nat × Nat
  | .die d => (d.val, 0, whereW d bDBG 0)
  | .stack k => (k.val / 2, k.val % 2, whereW (k.val / 2) bCEL (k.val % 2))
  | .port p => (p.val / 4, p.val % 4, whereW (p.val / 4) bFAB (p.val % 4))
  | .rot h => (8, h.val, whereW uHub bSEC h.val)
  | .engines d => (d.val, 0, whereW d bSEC 0)
  | .xts h a => (8, h.val, whereW uHub (if a then bATC else bLFT) h.val)

/-- The rank of a test status: UNCORR, CHECK, LINK, ABSENT, OK, the worst first (R487). -/
def testRank (st : Byte) : Nat := if st = sUNCORR then 4 else if st = sCHECK then 3 else if st = sLINK then 2 else if st = sABSENT then 1 else 0
/-- The status a unit reports: a port with an uncorrectable code word reports LINK. (DEDUCED, log 43) -/
def unitStatus (u : TestUnit) (raw errors : Nat) : Byte :=
  match u with
  | .port _ => if errors ≠ 0 then sLINK else if raw = 7 then sABSENT else sOK
  | _ => if [7, 9, 10, 11].contains raw then b8 raw else sOK

/-- The new training of a pseudo-channel of a stack under test (R252, R253, R486): which lanes test bad is measured, and where the test
reports no ABSENT they are no more than can be repaired and erased. (DESIGN CHOICE, log 42) -/
def retrain (k : Fin 16) (fails : Bool) (pc : Fin 32) : W Unit := do
  let s ← getS
  let n := chanNo (.cellar k pc)
  if nget 0 s.tiers.chan n = 2 then return
  let m ← freeVal
  let bad := (List.range 34).filter m.testBit
  trainChannel (.cellar k pc) fails (if fails then bad else bad.take (Config.repairResources - (repairedLanes s n).length + 2))

/-- The code words with errors of a port's test, spread over its lanes: how is measured, and together they are all of them (R487). -/
def spreadErrors (p : Fin 32) : List Nat → Nat → W Unit
  | [], _ => return
  | l :: r, n => do
    let k ← freeVal
    let mine := if r.isEmpty then n else k % (n + 1)
    let v ← getReg (laneA p l)
    setField (laneA p l) 31 16 (min 0xFFFF (fld v 31 16 + mine))
    spreadErrors p r (n - mine)

/-- What a test leaves in the unit it tested. Which pseudo-channels of a stack fail their new training, how the code words with errors spread
over a port's lanes, and how many were corrected on each are free values. (DESIGN CHOICE, log 6 and 42) -/
def testAfter (c : Nat) (u : TestUnit) (st : Byte) (errors : Nat) : W Unit := do
  match u with
  | .die d =>
    if c = 1 ∨ c = 3 then
      fillRooms d
      setInit d true
      modD d fun x => { x with hist := [] }
    if c = 3 then modD d fun x => { dropSram x with summ := Vector.replicate 16 {} }
  | .stack k =>
    fillTier (.cellar k)
    let one ← freeVal
    let more ← freeVal
    (List.finRange 32).forM fun pc => retrain k (st == sABSENT && (one % 32 == pc.val || more.testBit pc.val)) pc
    setTrained (.cellar k) true
  | .port p =>
    let lanes := activeLanes (← getP p)
    spreadErrors p (if lanes.isEmpty then List.range 8 else lanes) errors
    (List.finRange 8).forM fun l => do
      let fixed ← freeVal
      modP p fun x => { x with corrected := x.corrected.set l (x.corrected[l] + fixed) }
  | _ => pure ()

/-- One unit's result. -/
def testUnit (a : Action) (found : List Nat) (u : TestUnit × Nat) : W Byte := do
  let c := rd a.payload 0 4
  let f := fun i => atD 0 found (3 * u.2 + i)
  let st := if a.status ≠ 0 then a.status else unitStatus u.1 (f 0) (f 1)
  let (n, i, w) := testWhere u.1
  testAfter c u.1 st (f 1)
  raise 6 1 st w ([b8 c, b8 n, b8 i, 0] ++ natLE 4 (f 1) ++ natLE 4 (f 2))
  return st

/-- The end of a SELFTEST: one event for each unit, and the worst status among them; POWER where a warning interrupted it.
`found`: status, error count and first failing index of each unit, in order. -/
def doneSelftest (a : Action) (found : List Nat) : W Byte := do
  let sts ← (testUnits a.payload).zipIdx.mapM (testUnit a found)
  if a.status ≠ 0 then return a.status
  return sts.foldl (fun (x : Byte) y => if testRank x < testRank y then y else x) sOK

end Sys2Proof.Machine
end

