-- ==== Sys2Proof/Machine/Mailbox.lean ====
section
/-! DEFINITION. The table of opcodes (R397, R447), register writes with the mailbox behind them (R400, R414), and the end of an
ACCEPTED action (R396). -/

namespace Sys2Proof.Machine

/-- The opcodes of the control plane. -/
def allOps : List Op := [
  opPing, opClaim, opHeartbeat, opHandover, opRelease, opPktStatus,
  opPwrSet, opPwrLimit, opPwrRead, opQuiesceAll,
  opRegRead, opRegWrite, opMemRead, opMemWrite, opRegionSet,
  opSchedLoad, opSchedUnload, opSchedStart, opSchedStop, opSchedStatus, opRecipeSeed, opSnapshot, opRestore,
  opPortSet, opFabSetmode, opMapLoad,
  opSecIdentity, opSecCert, opSecAttest, opSecExtend, opSecKxBegin, opSecKxFinish, opSecKeyErase, opSecCkptExport,
  opSecCkptImport, opSecDebugSet, opSecToken, opSecLifecycle, opSecSvnCommit, opSecFwWrite,
  opEvtRead, opFlagMiss, opSelftest, opGekStep, opGekRead, opPartSet, opPartRead]

/-- The opcode of a code; none for an undefined one. -/
def opOf (code : Nat) : Option Op := allOps.find? fun o => o.code == code

/-- The unit that stands in MBX_REQ is taken: it raises REQ_BUSY, and is a packet or is discarded (R391, R414). -/
def takeReq : W Unit := do
  modS fun s => { s with ctl := { s.ctl with submitted := false } }
  setFlags (regA uHub bMBX 0) 1
  let u := reqUnit (← getS).ctl
  if unitOk u then
    let (code, q) := unitPkt 2 u
    receive code (opOf code) q
  else discard 2

/-- DISCARD_UNIT: a unit that is no packet gets no reply (R391); one that is a packet of a reserved opcode, which no other row carries,
gets its reply (R397). While REQ_BUSY is 1 the mailbox ignores its SUBMIT, with OVERRUN_SEEN (R414). (DESIGN CHOICE, log 24) -/
def discardUnit (m : Fin 5) (unit : List Byte) (net : Datagram) : W Unit := do
  let s ← getS
  if !answers s m net then return
  if m = 2 ∧ s.sec.fwUp ∧ bitOf (rget s (regA uHub bMBX 0)) 0 then setFlags (regA uHub bMBX 0) 8
  else if m = 2 then
    let req := nsetRun 0 s.ctl.req 0 (unit.take 4096)
    if unitOk (reqUnit { s.ctl with req }) then return
    modS fun s => { s with ctl := { s.ctl with req } }
    discard m
  else if !unitOk unit then discard m
  else
    let (code, q) := unitPkt m unit
    if (opOf code).isNone then receive code none { q with hdr := { q.hdr with net } }

/-- DISCARD_UNIT (R391). -/
def execDiscardUnit (port : Fin 5) (unit : RawUnit) (s : State) : Host.Outcome State Fault Refusal :=
  W.within readScope s (discardUnit port unit.bytes unit.net)

/-- Where a packet wrote MBX_SUBMIT, the unit in MBX_REQ is sent next. -/
def sendSubmitted : W Unit := do
  let s ← getS
  if s.ctl.submitted && answers s 2 then takeReq else modS fun s => { s with ctl := { s.ctl with submitted := false } }

/-- A REG_WRITE; one that wrote MBX_SUBMIT sends the unit in MBX_REQ next. -/
def regWrite (q : Pkt) : W Unit := do
  packet opRegWrite q
  sendSubmitted

/-- REG_WRITE (R400). -/
def execRegWrite (q : Pkt) (s : State) : Host.Outcome State Fault Refusal := W.within wideScope s (regWrite q)

/-- MBX_SUBMIT: the operating system's bytes stand in MBX_REQ and are sent; while REQ_BUSY is 1 the submit is ignored and sets
OVERRUN_SEEN. (DESIGN CHOICE, log 24) -/
def mbxSubmit (unit : List Byte) : W Unit := do
  let s ← getS
  if bitOf (rget s (regA uHub bMBX 0)) 0 then setFlags (regA uHub bMBX 0) 8
  else if answers s 2 then
    modS fun s => { s with ctl := { s.ctl with req := nsetRun 0 s.ctl.req 0 (unit.take 4096) } }
    takeReq

/-- MBX_SUBMIT (R414). -/
def execMbxSubmit (unit : List Byte) (s : State) : Host.Outcome State Fault Refusal := W.within wideScope s (mbxSubmit unit)

/-- The packets that waited are taken in order, until one's own reply has to wait (R394). -/
def takeQueued : Nat → W Unit
  | 0 => return
  | n + 1 => do
    let s ← getS
    match queues s, s.ctl.queue with
    | false, x :: r =>
      modS fun s => { s with ctl := { s.ctl with queue := r, arrived := some x.beat } }
      if answers (← getS) x.pkt.from x.pkt.hdr.net then takePkt x.code.toNat (opOf x.code.toNat) x.pkt
      modS fun s => { s with ctl := { s.ctl with arrived := none } }
      sendSubmitted
      takeQueued n
    | _, _ => return

/-- What may end a window access that a packet waits for, and then the packets behind it. A drained REG_WRITE to MBX_SUBMIT may add one. -/
def thenQueued (w : W Unit) : W Unit := do
  w
  takeQueued (2 * (← getS).ctl.queue.length + 1)

/-- TAKEOVER: after 256 always-on cycles without a heartbeat, with MIRROR_OK 1, hub B's RoT controls, with what the standby mirrors: the
state as it is. A packet that waits for its window access has a request record and no commit record, and is taken afresh; then the queued
packets are. Every other packet's step is whole, so no commit record waits to be applied again. With hub A's RoT in reset nothing mirrors
hub B's (R418, R419). (DESIGN CHOICE, log 3 and 30) -/
def takeover : W Unit := do
  let s ← getS
  if !s.sec.fwUp ∨ !s.sec.mirrorOk ∨ s.sec.rotB ∨ s.sec.unheard < 4 then return
  modS fun s => { s with sec := { s.sec with rotStopped := false }, ctl := { s.ctl with winPkt := none } }
  s.ctl.winPkt.toList.forM fun w => takePkt w.opcode.toNat (opOf w.opcode.toNat) w.pkt
  takeQueued (2 * (← getS).ctl.queue.length + 1)
  modC fun c => { c with rotB := true }
  setFlags secA 0x40
  bump (regA uHub bSEC 0x64) 1
  raise 5 1 sOK evSec (natLE 4 (← getS).ctl.leaseId.toNat)
  mirrorLost

/-- TAKEOVER (R419). -/
def execTakeover (s : State) : Host.Outcome State Fault Refusal := W.within wideScope s takeover

/-- WRSP (R342). -/
def execWrsp (p : Fin 32) (frame : List Byte) (errs : List LaneErrs) (s : State) : Host.Outcome State Fault Refusal :=
  W.within wideScope s (thenQueued (onFrame p tWRSP frame errs (wrspFrame p)))

/-- WINDOW_TIMEOUT (R344). -/
def execWindowTimeout (d : Fin 8) (s : State) : Host.Outcome State Fault Refusal := W.within wideScope s (thenQueued (windowTimeout d))

/-- The end of a PORT_SET: once no port that it trains is in TRAINING any more (R309). -/
def donePortSet (a : Action) : W (Option Byte) := do
  let s ← getS
  return if rd a.payload 4 4 = 2 ∧ (maskPorts (rd a.payload 0 4)).any fun p => (s.port p).st == .training then none else some sOK

/-- What an ACCEPTED action does as it ends: its final status; none while it cannot end yet. (DESIGN CHOICE, log 44) -/
def finishAction (a : Action) (found : List Nat) : W (Option Byte) := do
  match a.opcode.toNat with
  | 0x100 => donePwrSet a
  | 0x103 => doneQuiesce
  | 0x300 => return some (← doneSchedLoad a)
  | 0x306 => return some (← doneSnapshot a)
  | 0x307 => return some (← doneRestore a)
  | 0x400 => donePortSet a
  | 0x402 => return some (← doneMapLoad a)
  | 0x505 => return some (← doneKxFinish a)
  | 0x506 => return some (← doneKeyErase a)
  | 0x507 => return some (← doneCkptExport a)
  | 0x508 => return some (← doneCkptImport a)
  | 0x50A => return some (← doneToken a)
  | 0x50B => return some (← doneLifecycle a)
  | 0x602 => return some (← doneSelftest a found)
  | 0x800 => return some (← donePartSet a)
  | _ => return some sOK

/-- PACKET_DONE: the k-th ACCEPTED action ends. (DESIGN CHOICE, log 44) -/
def packetDone (k : Nat) (found : List Nat) : W Unit := do
  let s ← getS
  if !s.sec.fwUp ∨ s.sec.noControl ∨ s.sec.rotStopped then return
  match s.ctl.actions[k]? with
  | none => return
  | some a =>
    match ← finishAction a found with
    | none => return
    | some st => actionDone k a st

/-- PACKET_DONE (R396). -/
def execPacketDone (k : Nat) (found : List Nat) (s : State) : Host.Outcome State Fault Refusal :=
  W.within wideScope s (packetDone k found)

end Sys2Proof.Machine
end

