-- ==== Sys2Proof/Machine/Dispatch.lean ====
section
/-! DEFINITION. One arm per command: the meaning it calls. -/

namespace Sys2Proof.Machine

/-- The effect of a command on everything but the queue. (DESIGN CHOICE, log 49) -/
def exec (i : Instr) (s : State) : Host.Outcome State Fault Refusal :=
  match i with
  | .alwaysOnStart => Sys2Proof.Machine.execAlwaysOnStart s
  | .imageVerify image a b => Sys2Proof.Machine.execImageVerify image a b s
  | .memoryTrainingDone ch failed lanes => Sys2Proof.Machine.execMemoryTrainingDone ch failed lanes s
  | .sliceFillDone t => Sys2Proof.Machine.execSliceFillDone t s
  | .storeRoomFillDone d => Sys2Proof.Machine.execStoreRoomFillDone d s
  | .referenceLock => Sys2Proof.Machine.execReferenceLock s
  | .refLost => Sys2Proof.Machine.execRefLost s
  | .refHoldoverEnd => Sys2Proof.Machine.execRefHoldoverEnd s
  | .beatEdge => Sys2Proof.Machine.execBeatEdge s
  | .markerPulse epoch offset => Sys2Proof.Machine.execMarkerPulse epoch offset s
  | .clkLoad q hi => Sys2Proof.Machine.execClkLoad q hi s
  | .ping q => Sys2Proof.Machine.execPing q s
  | .claim q => Sys2Proof.Machine.execClaim q s
  | .heartbeat q => Sys2Proof.Machine.execHeartbeat q s
  | .handover q => Sys2Proof.Machine.execHandover q s
  | .release q => Sys2Proof.Machine.execRelease q s
  | .leaseEnded => Sys2Proof.Machine.execLeaseEnded s
  | .pktStatus q => Sys2Proof.Machine.execPktStatus q s
  | .packetDone k found => Sys2Proof.Machine.execPacketDone k found s
  | .discardUnit port unit => Sys2Proof.Machine.execDiscardUnit port unit s
  | .portQueueFull opcode q => Sys2Proof.Machine.execPortQueueFull opcode q s
  | .mbxSubmit unit => Sys2Proof.Machine.execMbxSubmit unit s
  | .pwrSetRun q => Sys2Proof.Machine.execPwrSetRun q s
  | .pwrSetIdle q => Sys2Proof.Machine.execPwrSetIdle q s
  | .pwrSetNap q => Sys2Proof.Machine.execPwrSetNap q s
  | .pwrSetDeep q => Sys2Proof.Machine.execPwrSetDeep q s
  | .pwrSetOff q => Sys2Proof.Machine.execPwrSetOff q s
  | .powerTransitionDone u => Sys2Proof.Machine.execPowerTransitionDone u s
  | .pwrLimit q => Sys2Proof.Machine.execPwrLimit q s
  | .pwrRead q => Sys2Proof.Machine.execPwrRead q s
  | .quiesce q => Sys2Proof.Machine.execQuiesce q s
  | .regRead q => Sys2Proof.Machine.execRegRead q s
  | .rcRegisterRead q addr => Sys2Proof.Machine.execRcRegisterRead q addr s
  | .regWrite q => Sys2Proof.Machine.execRegWrite q s
  | .w1cClear via addr value hwSet => Sys2Proof.Machine.execW1cClear via addr value hwSet s
  | .tokenWrite q addr value => Sys2Proof.Machine.execTokenWrite q addr value s
  | .seqLogRdWrite q d value => Sys2Proof.Machine.execSeqLogRdWrite q d value s
  | .evtSizeWrite q ring value => Sys2Proof.Machine.execEvtSizeWrite q ring value s
  | .evtRdWrite via ring value => Sys2Proof.Machine.execEvtRdWrite via ring value s
  | .regionEntryWrite q addr value => Sys2Proof.Machine.execRegionEntryWrite q addr value s
  | .memRead q => Sys2Proof.Machine.execMemRead q s
  | .memWrite q => Sys2Proof.Machine.execMemWrite q s
  | .regionSet q => Sys2Proof.Machine.execRegionSet q s
  | .schedLoad q => Sys2Proof.Machine.execSchedLoad q s
  | .schedUnload q => Sys2Proof.Machine.execSchedUnload q s
  | .schedStart q => Sys2Proof.Machine.execSchedStart q s
  | .startBeat => Sys2Proof.Machine.execStartBeat s
  | .schedStop q => Sys2Proof.Machine.execSchedStop q s
  | .scheduleStopped d => Sys2Proof.Machine.execScheduleStopped d s
  | .schedStatus q => Sys2Proof.Machine.execSchedStatus q s
  | .recipeSeed q => Sys2Proof.Machine.execRecipeSeed q s
  | .snapshot q => Sys2Proof.Machine.execSnapshot q s
  | .restore q => Sys2Proof.Machine.execRestore q s
  | .portSetDisable q => Sys2Proof.Machine.execPortSetDisable q s
  | .portSetEnable q => Sys2Proof.Machine.execPortSetEnable q s
  | .portSetTrain q => Sys2Proof.Machine.execPortSetTrain q s
  | .peerTrainingStart p => Sys2Proof.Machine.execPeerTrainingStart p s
  | .trainingDone p lanesUp peer => Sys2Proof.Machine.execTrainingDone p lanesUp peer s
  | .fabSetmode q => Sys2Proof.Machine.execFabSetmode q s
  | .mapLoad q => Sys2Proof.Machine.execMapLoad q s
  | .evtRead q => Sys2Proof.Machine.execEvtRead q s
  | .flagMiss q => Sys2Proof.Machine.execFlagMiss q s
  | .selftestStoreMarch q => Sys2Proof.Machine.execSelftestStoreMarch q s
  | .selftestCellarArray q => Sys2Proof.Machine.execSelftestCellarArray q s
  | .selftestEngineKnownAnswer q => Sys2Proof.Machine.execSelftestEngineKnownAnswer q s
  | .selftestOnPackageLinks q => Sys2Proof.Machine.execSelftestOnPackageLinks q s
  | .selftestPortTraffic q => Sys2Proof.Machine.execSelftestPortTraffic q s
  | .selftestCryptoKnownAnswer q => Sys2Proof.Machine.execSelftestCryptoKnownAnswer q s
  | .gekStep q => Sys2Proof.Machine.execGekStep q s
  | .gekRead q => Sys2Proof.Machine.execGekRead q s
  | .partSet q => Sys2Proof.Machine.execPartSet q s
  | .partRead q => Sys2Proof.Machine.execPartRead q s
  | .secIdentity q => Sys2Proof.Machine.execSecIdentity q s
  | .secCert q => Sys2Proof.Machine.execSecCert q s
  | .secAttest q => Sys2Proof.Machine.execSecAttest q s
  | .secExtend q => Sys2Proof.Machine.execSecExtend q s
  | .secKxBegin q => Sys2Proof.Machine.execSecKxBegin q s
  | .secKxFinish q => Sys2Proof.Machine.execSecKxFinish q s
  | .kxTimeout part => Sys2Proof.Machine.execKxTimeout part s
  | .secKeyErase q => Sys2Proof.Machine.execSecKeyErase q s
  | .secCkptExport q => Sys2Proof.Machine.execSecCkptExport q s
  | .secCkptImport q => Sys2Proof.Machine.execSecCkptImport q s
  | .secDebugSet q => Sys2Proof.Machine.execSecDebugSet q s
  | .debugTokenExpiry => Sys2Proof.Machine.execDebugTokenExpiry s
  | .secToken q => Sys2Proof.Machine.execSecToken q s
  | .secLifecycleSealed q => Sys2Proof.Machine.execSecLifecycleSealed q s
  | .secLifecycleRetired q => Sys2Proof.Machine.execSecLifecycleRetired q s
  | .secSvnCommit q => Sys2Proof.Machine.execSecSvnCommit q s
  | .secFwWrite q => Sys2Proof.Machine.execSecFwWrite q s
  | .rotHeartbeat => Sys2Proof.Machine.execRotHeartbeat s
  | .takeover => Sys2Proof.Machine.execTakeover s
  | .eventWrite ring => Sys2Proof.Machine.execEventWrite ring s
  | .sequencerForward d => Sys2Proof.Machine.execSequencerForward d s
  | .commandComplete d k => Sys2Proof.Machine.execCommandComplete d k s
  | .overrun d k => Sys2Proof.Machine.execOverrun d k s
  | .nop d => Sys2Proof.Machine.execNop d s
  | .waitbeat d => Sys2Proof.Machine.execWaitbeat d s
  | .branch d => Sys2Proof.Machine.execBranch d s
  | .call d => Sys2Proof.Machine.execCall d s
  | .seqReturn d => Sys2Proof.Machine.execSeqReturn d s
  | .stop d => Sys2Proof.Machine.execStop d s
  | .warm d => Sys2Proof.Machine.execWarm d s
  | .sleep d => Sys2Proof.Machine.execSleep d s
  | .engineSleepEnter d e => Sys2Proof.Machine.execEngineSleepEnter d e s
  | .engineIdle d e => Sys2Proof.Machine.execEngineIdle d e s
  | .engineNap d e => Sys2Proof.Machine.execEngineNap d e s
  | .engineWakeDone d e => Sys2Proof.Machine.execEngineWakeDone d e s
  | .matmul d m => Sys2Proof.Machine.execMatmul d m s
  | .dgrad d m => Sys2Proof.Machine.execDgrad d m s
  | .wgrad d m => Sys2Proof.Machine.execWgrad d m s
  | .split d m => Sys2Proof.Machine.execSplit d m s
  | .gbclear d m => Sys2Proof.Machine.execGbclear d m s
  | .epi d m => Sys2Proof.Machine.execEpi d m s
  | .bwd d m => Sys2Proof.Machine.execBwd d m s
  | .normLn d m => Sys2Proof.Machine.execNormLn d m s
  | .normRms d m => Sys2Proof.Machine.execNormRms d m s
  | .smxMax d m => Sys2Proof.Machine.execSmxMax d m s
  | .smxExp d m => Sys2Proof.Machine.execSmxExp d m s
  | .smxLazy d m => Sys2Proof.Machine.execSmxLazy d m s
  | .accScale d m => Sys2Proof.Machine.execAccScale d m s
  | .smxFinal d m => Sys2Proof.Machine.execSmxFinal d m s
  | .setpos d m => Sys2Proof.Machine.execSetpos d m s
  | .vtload d m => Sys2Proof.Machine.execVtload d m s
  | .hclear d m => Sys2Proof.Machine.execHclear d m s
  | .hdump d m => Sys2Proof.Machine.execHdump d m s
  | .gather d => Sys2Proof.Machine.execGather d s
  | .strided d => Sys2Proof.Machine.execStrided d s
  | .scatter d => Sys2Proof.Machine.execScatter d s
  | .dispatch d => Sys2Proof.Machine.execDispatch d s
  | .nconv d => Sys2Proof.Machine.execNconv d s
  | .topk d => Sys2Proof.Machine.execTopk d s
  | .sort d => Sys2Proof.Machine.execSort d s
  | .copy d => Sys2Proof.Machine.execCopy d s
  | .convert d => Sys2Proof.Machine.execConvert d s
  | .pack d => Sys2Proof.Machine.execPack d s
  | .unpack d => Sys2Proof.Machine.execUnpack d s
  | .gapply d => Sys2Proof.Machine.execGapply d s
  | .gparam d => Sys2Proof.Machine.execGparam d s
  | .gprep d => Sys2Proof.Machine.execGprep d s
  | .phase d => Sys2Proof.Machine.execPhase d s
  | .phaseTakeover p => Sys2Proof.Machine.execPhaseTakeover p s
  | .slotStart p => Sys2Proof.Machine.execSlotStart p s
  | .phaseWatchdog p => Sys2Proof.Machine.execPhaseWatchdog p s
  | .dcopy d => Sys2Proof.Machine.execDcopy d s
  | .wcopy d => Sys2Proof.Machine.execWcopy d s
  | .windowTimeout d => Sys2Proof.Machine.execWindowTimeout d s
  | .dataFrame p frame errs => Sys2Proof.Machine.execDataFrame p frame errs s
  | .emptyFrame p frame errs => Sys2Proof.Machine.execEmptyFrame p frame errs s
  | .abortFrame p frame errs => Sys2Proof.Machine.execAbortFrame p frame errs s
  | .linkFrame p frame errs => Sys2Proof.Machine.execLinkFrame p frame errs s
  | .wreq p frame errs => Sys2Proof.Machine.execWreq p frame errs s
  | .wrsp p frame errs => Sys2Proof.Machine.execWrsp p frame errs s
  | .ackTimeout p => Sys2Proof.Machine.execAckTimeout p s
  | .widthChangeDone w => Sys2Proof.Machine.execWidthChangeDone w s
  | .retryBudgetExpiry p => Sys2Proof.Machine.execRetryBudgetExpiry p s
  | .epochOpen d => Sys2Proof.Machine.execEpochOpen d s
  | .epochClose d => Sys2Proof.Machine.execEpochClose d s
  | .abortNotice d epoch => Sys2Proof.Machine.execAbortNotice d epoch s
  | .rscan d => Sys2Proof.Machine.execRscan d s
  | .rquant d => Sys2Proof.Machine.execRquant d s
  | .rdeq d => Sys2Proof.Machine.execRdeq d s
  | .reshard d => Sys2Proof.Machine.execReshard d s
  | .tgStart q d g => Sys2Proof.Machine.execTgStart q d g s
  | .tgStop q d g => Sys2Proof.Machine.execTgStop q d g s
  | .tgComplete d g => Sys2Proof.Machine.execTgComplete d g s
  | .patrolScrub addr upsets => Sys2Proof.Machine.execPatrolScrub addr upsets s
  | .correctedWriteback addr => Sys2Proof.Machine.execCorrectedWriteback addr s
  | .refresh addr => Sys2Proof.Machine.execRefresh addr s
  | .cellarRetrain stack => Sys2Proof.Machine.execCellarRetrain stack s
  | .frequencyStep d reading => Sys2Proof.Machine.execFrequencyStep d reading s
  | .voltageStep d reading => Sys2Proof.Machine.execVoltageStep d reading s
  | .laserBiasStep p lane code => Sys2Proof.Machine.execLaserBiasStep p lane code s
  | .droop d => Sys2Proof.Machine.execDroop d s
  | .stretchEnd d edges => Sys2Proof.Machine.execStretchEnd d edges s
  | .thermalThrottle d temp => Sys2Proof.Machine.execThermalThrottle d temp s
  | .trip u temp => Sys2Proof.Machine.execTrip u temp s
  | .supplyWarning what mv => Sys2Proof.Machine.execSupplyWarning what mv s
  | .warningRelease what => Sys2Proof.Machine.execWarningRelease what s
  | .supplyReset what => Sys2Proof.Machine.execSupplyReset what s
  | .flowLow flow => Sys2Proof.Machine.execFlowLow flow s
  | .enable => Sys2Proof.Machine.execEnable s
  | .presenceShortBreak => Sys2Proof.Machine.execPresenceShortBreak s
  | .alwaysOnStop => Sys2Proof.Machine.execAlwaysOnStop s
  | .supplyResetRelease what => Sys2Proof.Machine.execSupplyResetRelease what s
  | .stackHot stack temp => Sys2Proof.Machine.execStackHot stack temp s
  | .gapLinkFrame p => Sys2Proof.Machine.execGapLinkFrame p s
  | .activeRotStop => Sys2Proof.Machine.execActiveRotStop s

end Sys2Proof.Machine
end

