-- ==== Sys2Proof/Machine/Terms.lean ====
section
/-! DEFINITION. The words that statements about the machine use: a packet that no check refuses, its reply, a command ready at
its queue's head, a control command ready at the sequencer's place. -/

namespace Sys2Proof.Machine

/-- A byte of memory, by its key. (DESIGN CHOICE, log 10) -/
def byteAt (s : State) (k : Nat) : Byte := nget 0 s.mem.cells k
/-- The check word of a tile, by its key. -/
def checkAt (s : State) (t : Nat) : Word := nget crcZeroTile s.mem.checks t

/-- Is a key one of a byte of an event ring's entries? -/
def inRing (s : State) (k : Nat) : Prop :=
  ∃ r < 8, 8 * 2 ^ 48 + (rget s (ringA r + 4)).toNat * 4096 ≤ k ∧ k < 8 * 2 ^ 48 + (rget s (ringA r + 4)).toNat * 4096 + 32 * ringN s r

/-- An event's entry reaches no register of the tier that serves a key and no stored pattern of its code word: no ring is enabled, the key is
a die's own, or the rings lie elsewhere and no other unit holds an error. -/
def ringsApart (s : State) (key : Nat) : Prop :=
  (∀ r < 8, ringN s r = 0) ∨ key / 2 ^ 48 < 8
    ∨ ((∀ u, u ≠ key / 64 → nget 0 s.mem.errs u = 0) ∧ ∀ k, k / 64 = key / 64 → ¬ inRing s k)

/-- The address of the entry that a ring holds at an index (R410). -/
def ringEntry (s : State) (r i : Nat) : Nat := (rget s (ringA r + 4)).toNat * 4096 + 32 * (i % max (ringN s r) 1)
/-- A ring's entry lies in the reserve (R410), on a channel that no traffic generator holds (R271). -/
abbrev slotOpen (s : State) (a : Nat) : Prop := inReserve a = true ∧ reserveBusy s a 32 = false

/-- A packet arrives on a port that takes it, is no repetition, and no check of R395 refuses it. -/
def Passes (op : Op) (q : Pkt) (s : State) : Prop :=
  answers s q.from q.hdr.net = true ∧ q.wf = true ∧ queues s = false ∧ ¬(q.from = 2 ∧ s.sec.fwUp = true ∧ bitOf (rget s (regA uHub bMBX 0)) 0 = true)
    ∧ q.hdr.flags.toNat.testBit 2 = false ∧ (s.sec.recovery = true → op.code = 0 ∨ op.code = 0x50D)
    ∧ op.refusal (arrive op.code q s) q = none

/-- The last reply to a packet's master answers that packet. -/
def Replied (t : State) (q : Pkt) (code : Nat) (st : Byte) (payload : List Byte) : Prop :=
  t.ctl.replies[q.from] = some { opcode := BitVec.ofNat 16 code, hdr := q.hdr, status := st.setWidth 16, payload }

/-- A command `c` stands at the head of queue `q` of a die that runs, before the commands `rest`; it is of the opcode, its waits
hold, its engines are in Run and accept it (R61, R76, R91). -/
def Ready (s : State) (d : Fin 8) (q : Fin 9) (op : Nat) (accept : Accept) (c : Queued) (rest : List Queued) : Prop :=
  (s.die d).pw = .run ∧ ((s.die d).seq.st = .running ∨ (s.die d).seq.st = .halted) ∧ (s.die d).seq.halted.contains q.val = false
    ∧ (s.die d).queues[q] = c :: rest ∧ cOp c.words = op ∧ waitsOf (s.die d) c.words = .hold
    ∧ ((enginesOf c.words).all fun e => (s.die d).eng[e].st == .run) = true ∧ accept s d c.words = true

/-- A command has started on a die: it has left its queue, it stands last among the started commands with the next number and
its budget clock, and the sequencer, the other queues and the die's power are as before. -/
def StartedFrom (s t : State) (d : Fin 8) (q : Fin 9) (c : Queued) (rest : List Queued) : Prop :=
  (t.die d).queues = (s.die d).queues.set q rest ∧ (t.die d).nextUid = (s.die d).nextUid + 1 ∧ (t.die d).seq = (s.die d).seq
    ∧ (t.die d).pw = (s.die d).pw
    ∧ ∃ x before, (t.die d).started = before ++ [x] ∧ x.idx = c.idx ∧ x.words = c.words ∧ x.clock = c.clock.getD s.clk.beat
      ∧ x.uid = (s.die d).nextUid ∧ x.timing = c.timing ∧ x.held = false

/-- What an engine command leaves as it is: the control plane, the partitions, keys and images, power and clocks, the region
tables and miss counters, and the waiting commands. -/
def EngineFrame (s t : State) : Prop :=
  t.pending = s.pending ∧ t.miss = s.miss ∧ t.regions = s.regions ∧ t.ctl = s.ctl ∧ t.images = s.images ∧ t.pwr = s.pwr
    ∧ t.clk = s.clk ∧ t.snapSeq = s.snapSeq ∧ t.sec = { s.sec with txEnd := t.sec.txEnd }

/-! ## Packets, more -/

/-- The opcode and the packet of a packet row, where the packet is one of the row's: a row that shares its opcode with others
takes the packets of its own target, action or test. -/
def packetRow : Instr → Option (Op × Pkt)
  | .ping q => some (opPing, q)
  | .claim q => some (opClaim, q)
  | .heartbeat q => some (opHeartbeat, q)
  | .handover q => some (opHandover, q)
  | .release q => some (opRelease, q)
  | .pktStatus q => some (opPktStatus, q)
  | .pwrSetRun q => if pwrTarget q.payload = .run then some (opPwrSet, q) else none
  | .pwrSetIdle q => if pwrTarget q.payload = .idle then some (opPwrSet, q) else none
  | .pwrSetNap q => if pwrTarget q.payload = .nap then some (opPwrSet, q) else none
  | .pwrSetDeep q => if pwrTarget q.payload = .deep then some (opPwrSet, q) else none
  | .pwrSetOff q => if pwrTarget q.payload = .off then some (opPwrSet, q) else none
  | .pwrLimit q => some (opPwrLimit, q)
  | .pwrRead q => some (opPwrRead, q)
  | .quiesce q => some (opQuiesceAll, q)
  | .regRead q => some (opRegRead, q)
  | .memRead q => some (opMemRead, q)
  | .memWrite q => some (opMemWrite, q)
  | .regionSet q => some (opRegionSet, q)
  | .schedLoad q => some (opSchedLoad, q)
  | .schedUnload q => some (opSchedUnload, q)
  | .schedStart q => some (opSchedStart, q)
  | .schedStop q => some (opSchedStop, q)
  | .schedStatus q => some (opSchedStatus, q)
  | .recipeSeed q => some (opRecipeSeed, q)
  | .snapshot q => some (opSnapshot, q)
  | .restore q => some (opRestore, q)
  | .portSetDisable q => if q.at 4 4 = 0 then some (opPortSet, q) else none
  | .portSetEnable q => if q.at 4 4 = 1 then some (opPortSet, q) else none
  | .portSetTrain q => if q.at 4 4 = 2 then some (opPortSet, q) else none
  | .fabSetmode q => some (opFabSetmode, q)
  | .mapLoad q => some (opMapLoad, q)
  | .evtRead q => some (opEvtRead, q)
  | .flagMiss q => some (opFlagMiss, q)
  | .selftestStoreMarch q => if q.at 0 4 = 1 then some (opSelftest, q) else none
  | .selftestCellarArray q => if q.at 0 4 = 2 then some (opSelftest, q) else none
  | .selftestEngineKnownAnswer q => if q.at 0 4 = 3 then some (opSelftest, q) else none
  | .selftestOnPackageLinks q => if q.at 0 4 = 4 then some (opSelftest, q) else none
  | .selftestPortTraffic q => if q.at 0 4 = 5 then some (opSelftest, q) else none
  | .selftestCryptoKnownAnswer q => if q.at 0 4 = 6 then some (opSelftest, q) else none
  | .gekStep q => some (opGekStep, q)
  | .gekRead q => some (opGekRead, q)
  | .partSet q => some (opPartSet, q)
  | .partRead q => some (opPartRead, q)
  | .secIdentity q => some (opSecIdentity, q)
  | .secCert q => some (opSecCert, q)
  | .secAttest q => some (opSecAttest, q)
  | .secExtend q => some (opSecExtend, q)
  | .secKxBegin q => some (opSecKxBegin, q)
  | .secKxFinish q => some (opSecKxFinish, q)
  | .secKeyErase q => some (opSecKeyErase, q)
  | .secCkptExport q => some (opSecCkptExport, q)
  | .secCkptImport q => some (opSecCkptImport, q)
  | .secDebugSet q => some (opSecDebugSet, q)
  | .secToken q => some (opSecToken, q)
  | .secLifecycleSealed q => if q.at 0 1 = 1 then some (opSecLifecycle, q) else none
  | .secLifecycleRetired q => if q.at 0 1 = 3 then some (opSecLifecycle, q) else none
  | .secSvnCommit q => some (opSecSvnCommit, q)
  | .secFwWrite q => some (opSecFwWrite, q)
  | _ => none

/-- A packet arrives on a port that takes it, is no repetition, and the order of R395 refuses it with a status and a payload. -/
def Refuses (op : Op) (q : Pkt) (st : Byte) (pl : List Byte) (s : State) : Prop :=
  answers s q.from q.hdr.net = true ∧ q.wf = true ∧ queues s = false ∧ ¬(q.from = 2 ∧ s.sec.fwUp = true ∧ bitOf (rget s (regA uHub bMBX 0)) 0 = true)
    ∧ q.hdr.flags.toNat.testBit 2 = false ∧ s.sec.recovery = false ∧ op.refusal (arrive op.code q s) q = some (st, pl)

/-- A register of the mailbox block, which counts replies and shows the operating system's (R415). -/
def mbxReg (a : Nat) : Prop := regUnit a = uHub ∧ regBlk a = bMBX
/-- A register of the hub side's SEC block. -/
def secReg (a : Nat) : Prop := regUnit a = uHub ∧ regBlk a = bSEC
/-- Every register outside a set reads as before. -/
def RegsKept (s t : State) (but : Nat → Prop) : Prop := ∀ a, ¬ but a → rget t a = rget s a
/-- Every byte of memory and every check word is as before. -/
def MemKept (s t : State) : Prop := (∀ k, byteAt t k = byteAt s k) ∧ ∀ k, checkAt t k = checkAt s k
/-- Every byte of memory outside the event rings and every check word is as before: a command that raises an event may write it there. -/
def MemButRings (s t : State) : Prop := (∀ k, ¬ inRing s k → byteAt t k = byteAt s k) ∧ ∀ k, checkAt t k = checkAt s k
/-- The dies, the ports, the fabric, the images, the power, the clocks and the waiting commands are as before. -/
def HardKept (s t : State) : Prop :=
  t.dies = s.dies ∧ t.ports = s.ports ∧ t.fab = s.fab ∧ t.images = s.images ∧ t.pwr = s.pwr ∧ t.clk = s.clk ∧ t.pending = s.pending
    ∧ t.snapSeq = s.snapSeq

/-- What a packet leaves as it is when all it brings is its reply: memory, the events, the region and miss tables, the
partitions and keys, the lease's holder and number, and every register outside the mailbox block. -/
def ReplyFrame (s t : State) : Prop :=
  HardKept s t ∧ t.sec = s.sec ∧ MemKept s t ∧ t.hold = s.hold ∧ t.lost = s.lost ∧ t.regions = s.regions ∧ t.miss = s.miss
    ∧ t.tiers = s.tiers ∧ t.ctl.lease = s.ctl.lease ∧ t.ctl.leaseId = s.ctl.leaseId ∧ t.ctl.winPkt = s.ctl.winPkt
    ∧ RegsKept s t mbxReg

/-- A packet is ACCEPTED: the reply says so, its action runs, it stands first among its master's last accepted packets without
a final status, and the lease restarts (R396, R401). -/
def Accepted (s t : State) (q : Pkt) (code : Nat) : Prop :=
  Replied t q code sACCEPTED [] ∧ t.ctl.leaseLeft = leaseCycles
    ∧ t.ctl.actions = s.ctl.actions
        ++ [{ master := q.from, opcode := BitVec.ofNat 16 code, seq := q.hdr.seq, part := q.hdr.part, payload := q.payload, beat := s.clk.beat }]
    ∧ t.ctl.accepted = s.ctl.accepted.set q.from (((q.hdr.seq, none) :: s.ctl.accepted[q.from]).take 16)

/-- The control firmware runs, and the k-th accepted action is `a`. -/
def CanEnd (s : State) (k : Nat) (a : Action) : Prop :=
  s.sec.fwUp = true ∧ s.sec.noControl = false ∧ s.sec.rotStopped = false ∧ s.ctl.actions[k]? = some a

/-- The k-th accepted action `a` has ended with a status: it runs no longer, and its master's list holds the status (R396). -/
def Ended (s t : State) (k : Nat) (a : Action) (st : Byte) : Prop :=
  t.ctl.actions = s.ctl.actions.eraseIdx k
    ∧ t.ctl.accepted = s.ctl.accepted.set a.master
        (s.ctl.accepted[a.master].set (s.ctl.accepted[a.master].findIdx fun x => x.1 == a.seq && x.2.isNone) (a.seq, some st))

/-- The value of a register that nothing leaves open: its view or its word, without the bits that are write-only (R10). -/
def plainValue (s : State) (a : Nat) : Word :=
  let v := match viewOf s a with | some n => w32 n | none => rget s a
  match regInfo a with | some i => v &&& ~~~ w32 i.wo | none => v

/-- Does a PWR_READ show a master a die's clock and rail: it is awake, a window in Run has closed, and the die is not protected from that
master (R441, R471)? -/
abbrev readsExactly (s : State) (m : Fin 5) (d : Fin 8) : Prop :=
  darkDie (s.die d) = false ∧ beatsMs ≤ (s.die d).up ∧ coarsened s m (partOf s d) = false

/-- Does a master read a register as it stands: its value is not open, and it is no coarsened reading of a protected die (R440)? -/
def Exact (s : State) (m : Fin 5) (a : Nat) : Prop :=
  openRange s a = none ∧ waitingLag s a = none ∧ hubHot s a = false
    ∧ ∀ h : regUnit a < 8, regBlk a ≠ bLFT → regBlk a ≠ bATC → coarsened s m (partOf s ⟨regUnit a, h⟩) = false

/-- A register of the hub side, or of a traffic generator, whose RW bits are all that a write changes. -/
def plainRW (a : Nat) (i : RegInfo) : Prop :=
  regInfo a = some i ∧ i.w1c = 0 ∧ i.rw ≠ 0 ∧
    ((regUnit a = uHub ∧ ((regBlk a = bEVT ∧ regOff a % 0x40 ≠ 8) ∨ (regBlk a = bCLK ∧ regOff a = 0xC)
        ∨ (regBlk a = bMBX ∧ (regOff a = 0x18 ∨ regOff a = 0x1C))))
      ∨ ((tgOf a).isSome = true ∧ a % 0x80 ≠ 0))

/-- What a register or token write leaves as it is beside its own registers: memory, the ports, the fabric, keys and partitions,
images, power, clocks, region entries, miss counters, the lease's holder, and every register outside a set and the mailbox. -/
def WriteFrame (s t : State) (own : Nat → Prop) : Prop :=
  MemKept s t ∧ t.ports = s.ports ∧ t.fab = s.fab ∧ t.sec = s.sec ∧ t.images = s.images ∧ t.pwr = s.pwr ∧ t.clk = s.clk
    ∧ t.pending = s.pending ∧ t.regions = s.regions ∧ t.miss = s.miss ∧ t.hold = s.hold ∧ t.ctl.lease = s.ctl.lease
    ∧ t.ctl.leaseId = s.ctl.leaseId ∧ t.ctl.actions = s.ctl.actions ∧ RegsKept s t (fun a => own a ∨ mbxReg a)

/-- A tile that a consumer reads without an error: its memory exists, no traffic generator holds its channel or its check word's, no
stored bit of it or of its check word has changed, it lies in no check area, and its check word is its bytes' (R113, R244, R247,
R271). -/
def GoodTile (s : State) (d : Fin 8) (a : Nat) : Prop :=
  ∃ st off, storeOf (a / 4096 * 4096) = some (st, off) ∧ tileBusy s d st off = false ∧ inCheckArea s d st off = false
    ∧ (∀ i < 64, nget 0 s.mem.errs (keyOf d (a / 4096 * 4096) / 64 + i) = 0)
    ∧ (∀ c, checkOff s d st off = some c → nget 0 s.mem.errs (keyOf d (a / 4096 * 4096 - off + c) / 64) = 0)
    ∧ (checkOff s d st off = none → nget 0 s.mem.chkErrs (keyOf d (a / 4096 * 4096) / 4096) = 0)
    ∧ checkAt s (keyOf d (a / 4096 * 4096) / 4096) = s.mem.tileCrc (keyOf d (a / 4096 * 4096) / 4096)

/-- The byte at which a die's next completion record begins (R88). -/
def nextRecord (s : State) (d : Fin 8) : Nat := keyOf d ((s.die d).seq.logBase + 32 * ((s.die d).seq.logWr.toNat % max (s.die d).seq.logN 1))

/-- A record of a die's completion log can be written: the log's tile at its write index reads without an error and the die's
partition may write it (R89, R114). -/
def RecordFits (s : State) (d : Fin 8) : Prop :=
  let q := (s.die d).seq
  let a := q.logBase + 32 * (q.logWr.toNat % max q.logN 1)
  s.mem.wf ∧ GoodTile s d a ∧ permitted s (partOf s d) d (a / 4096 * 4096) true = true ∧ 160 < logFree q

/-- A control command `ws` stands at the sequencer's place of a die that runs and fetches; it is of the opcode, its waits hold,
its completion is not held, and it has no record to write or its record can be written (R81, R89). -/
def ControlReady (s : State) (d : Fin 8) (op : Nat) (ws : Words) : Prop :=
  current (s.die d) = some ws ∧ cClass ws = 15 ∧ cOp ws = op ∧ (s.die d).seq.ctlHeld = false ∧ waitsOf (s.die d) ws = .hold ∧ (cLog ws = false ∨ RecordFits s d)

/-- The tokens of a die after a command that signals: SIGNAL rises by one, saturating, where SIGNAL_EN is 1 (R72). -/
def Signalled (x y : Die) (ws : Words) : Prop :=
  ∀ n, nget 0 y.tokens n = if cSignalEn ws = true ∧ n = cSignal ws then satAdd (nget 0 x.tokens n) 1 else nget 0 x.tokens n

/-- The sequencer once a control command at its place has completed with OK and gone on to the next index: the place is cleared for the
next command, and the log's write index rises with a record (R81, R89). -/
def wentOn (q : Seq) (ws : Words) : Seq :=
  { q with
    pc := q.pc + 1, ctlClock := none, ctlHeld := false, ctlTiming := 0, ctlTaken := false
    logWr := if cLog ws then q.logWr + 1 else q.logWr }
/-- The same once it has gone on at index `x` from its place at index `c`: within the fetch window that stays, else at its start (R62). -/
def wentTo (q : Seq) (ws : Words) (c x : Nat) : Seq := { wentOn q ws with pc := x, window := if inWindow q c x then q.window else x }

/-- The 32 bytes of the record of a control command that completes with OK (R88). -/
def controlRecord (s : State) (d : Fin 8) (ws : Words) : List Byte :=
  let q := (s.die d).seq
  let clock := q.ctlClock.getD s.clk.beat
  recordBytes { idx := q.pc, words := ws, clock } 15 (schedAt (s.die d) clock) (schedBeat s d)

/-- Memory after a record is written at a die's log index: its 32 bytes stand there, and every other byte is as before, and so is every
check word but that of its tile. -/
def RecordLeft (s t : State) (d : Fin 8) (bytes : List Byte) : Prop :=
  (∀ k, byteAt t k = if nextRecord s d ≤ k ∧ k < nextRecord s d + 32 then atD 0 bytes (k - nextRecord s d) else byteAt s k)
    ∧ ∀ x, x ≠ nextRecord s d / 4096 → checkAt t x = checkAt s x

/-- The counters of waits and merges of a die's memories: what a partial write to one of them changes (R114, R247). -/
def tierCount (d : Fin 8) (a : Nat) : Prop :=
  a = regA d bMOV 0x818 ∨ ∃ st off, st.isExt = true ∧ (a = tierBlock d st off + 0x18 ∨ a = tierBlock d st off + 0x1C)

/-- What a control command that completes with OK leaves of the module beside what it does itself: the token it signals, its record in the
log where it has one, and its sequencer as `q` says; the queues, the started commands, the marks and the summary slots of its die are as
before, and so are the other dies, the ports, the events held, memory but for the record, the registers but for the die's flags and the
counters of the log's memory, and the rest of the module. -/
def ControlFrame (s t : State) (d : Fin 8) (ws : Words) (q : Seq) : Prop :=
  Signalled (s.die d) (t.die d) ws
    ∧ t.die d = { s.die d with seq := q, tokens := (t.die d).tokens, eng := (t.die d).eng }
    ∧ (∀ e, e ≠ d → t.die e = s.die e) ∧ t.ports = s.ports ∧ t.fab = s.fab ∧ t.hold = s.hold ∧ EngineFrame s t
    ∧ (cLog ws = false → MemKept s t ∧ RegsKept s t (· = seqStatusA d))
    ∧ (cLog ws = true → RecordLeft s t d (controlRecord s d ws) ∧ RegsKept s t fun a => a = seqStatusA d ∨ tierCount d a)

/-- The die, queue, opcode, acceptance and work of an engine row: it starts the command at that queue's head (R61). The work takes
the command's index, the number it starts with, and its words. -/
def engineRow : Instr → Option (Fin 8 × Fin 9 × Nat × Accept × (Nat → Nat → Words → W Res))
  | .matmul d m => some (d, meQueue m, 0x01, productFree, fun _ => productWork d m)
  | .dgrad d m => some (d, meQueue m, 0x02, productFree, fun _ => productWork d m)
  | .split d m => some (d, meQueue m, 0x04, productFree, fun _ => productWork d m)
  | .wgrad d m => some (d, meQueue m, 0x03, productFree, fun _ => wgradWork d m)
  | .gbclear d m => some (d, meQueue m, 0x05, clearFree, fun _ => gbclearWork d)
  | .epi d m => some (d, meQueue m, 0x40, veFree, fun idx _ ws => veWork d m idx ws)
  | .bwd d m => some (d, meQueue m, 0x41, veFree, fun idx _ ws => veWork d m idx ws)
  | .normLn d m => some (d, meQueue m, 0x42, veFree, fun idx _ ws => veWork d m idx ws)
  | .normRms d m => some (d, meQueue m, 0x43, veFree, fun idx _ ws => veWork d m idx ws)
  | .smxMax d m => some (d, meQueue m, 0x44, veFree, fun idx _ ws => veWork d m idx ws)
  | .smxExp d m => some (d, meQueue m, 0x45, veFree, fun idx _ ws => veWork d m idx ws)
  | .smxLazy d m => some (d, meQueue m, 0x46, veFree, fun idx _ ws => veWork d m idx ws)
  | .accScale d m => some (d, meQueue m, 0x47, veFree, fun idx _ ws => veWork d m idx ws)
  | .smxFinal d m => some (d, meQueue m, 0x48, veFree, fun idx _ ws => veWork d m idx ws)
  | .setpos d m => some (d, meQueue m, 0x49, veFree, fun _ => setposWork d m)
  | .vtload d m => some (d, meQueue m, 0x4A, vtFree, fun _ => vtloadWork d m)
  | .hclear d m => some (d, meQueue m, 0x4B, veFree, fun _ => hclearWork d m)
  | .hdump d m => some (d, meQueue m, 0x4C, veFree, fun _ => hdumpWork d m)
  | .gather d => some (d, 4, 0x01, frogFree, fun _ => frogWork d)
  | .strided d => some (d, 4, 0x02, frogFree, fun _ => frogWork d)
  | .scatter d => some (d, 4, 0x03, frogFree, fun _ => frogWork d)
  | .dispatch d => some (d, 4, 0x04, frogFree, fun _ => frogWork d)
  | .nconv d => some (d, 7, 0x01, auxFree, fun _ => nconvWork d)
  | .topk d => some (d, 7, 0x10, auxFree, fun _ => sortWork d)
  | .sort d => some (d, 7, 0x11, auxFree, fun _ => sortWork d)
  | .copy d => some (d, 5, 0x01, movFree, fun _ => copyWork d)
  | .convert d => some (d, 5, 0x02, movFree, fun _ => convertWork d)
  | .pack d => some (d, 5, 0x03, movFree, fun _ => packWork d)
  | .unpack d => some (d, 5, 0x04, movFree, fun _ => unpackWork d)
  | .gapply d => some (d, 8, 0x01, gekFree, fun _ => gapplyWork d)
  | .gparam d => some (d, 8, 0x02, gekFree, fun _ => gparamWork d)
  | .gprep d => some (d, 8, 0x03, gekFree, fun _ => gprepWork d)
  | .phase d => some (d, 6, 0x01, phaseFree, fun _ => armPhase d)
  | .dcopy d => some (d, 6, 0x02, oneOf [0x02], fun _ => dcopyWork d)
  | .wcopy d => some (d, 6, 0x03, oneOf [0x03], fun _ => wcopyWork d)
  | .epochOpen d => some (d, 6, 0x10, fun _ _ ws => !bitOf (cw ws 5) 31, fun _ => epochWork false d)
  | .epochClose d => some (d, 6, 0x10, fun _ _ ws => bitOf (cw ws 5) 31, fun _ => epochWork true d)
  | .rscan d => some (d, 6, 0x11, redFree, fun _ => rscanWork d)
  | .rquant d => some (d, 6, 0x12, redFree, fun _ => rquantWork d)
  | .rdeq d => some (d, 6, 0x13, redFree, fun _ => rdeqWork d)
  | .reshard d => some (d, 6, 0x14, phaseFree, fun _ => reshardWork d)
  | _ => none

/-- The state in which the work of a command begins: the command has left its queue, and its engines have been idle for no beat. -/
def prepared (s : State) (d : Fin 8) (q : Fin 9) (c : Queued) (rest : List Queued) : State :=
  s.onDie d fun x => { x with
    queues := x.queues.set q rest, nextUid := x.nextUid + 1
    eng := stirred (enginesOf c.words) x.eng }

/-- A command `c` of an opcode stands at the head of queue `q` of a die that runs, before the commands `rest`. -/
def AtHead (s : State) (d : Fin 8) (q : Fin 9) (op : Nat) (c : Queued) (rest : List Queued) : Prop :=
  (s.die d).pw = .run ∧ ((s.die d).seq.st = .running ∨ (s.die d).seq.st = .halted) ∧ (s.die d).seq.halted.contains q.val = false
    ∧ (s.die d).queues[q] = c :: rest ∧ cOp c.words = op

/-- What the work of an engine command leaves: its answer stands with the command, and ports, fabric, tokens, banks, tables, contexts,
histograms, summary slots, run-ahead buffers and epochs are as the work left them. `v` is the working copy that the command leaves as
the work left it, but for the dies and the count of store-room waits; what remains is to send its events, if it raised any. -/
def WorkLeft (w : Res × Work) (s t : State) (d : Fin 8) : Prop :=
  (∃ x, (t.die d).started = (w.2.s.die d).started ++ [x] ∧ x.status = w.1.status ∧ x.ctr = w.1.ctr ∧ x.busy = w.1.busy ∧ x.note = w.1.note
      ∧ x.summ = w.1.summ ∧ x.feed = w.1.feed)
    ∧ (∃ v : Work, v.log = w.2.log ∧ v.evs = w.2.evs ∧ v.s = { w.2.s with dies := v.s.dies, regs := v.s.regs }
      ∧ RegsKept w.2.s v.s (· = regA d bMOV 0x81C) ∧ t = fabScope s (v.flushed.result s))
    ∧ (w.2.evs = [] → t.mem = s.mem.applyAll w.2.log.reverse ∧ RegsKept w.2.s t (· = regA d bMOV 0x81C))
    ∧ t.ports = w.2.s.ports ∧ t.fab = w.2.s.fab
    ∧ (∀ e, (t.die e).mv = (w.2.s.die e).mv ∧ (t.die e).ctx = (w.2.s.die e).ctx ∧ (t.die e).hist = (w.2.s.die e).hist
      ∧ (t.die e).summ = (w.2.s.die e).summ ∧ (t.die e).tokens = (w.2.s.die e).tokens ∧ (t.die e).marks = (w.2.s.die e).marks
      ∧ (t.die e).epochs = (w.2.s.die e).epochs ∧ (t.die e).slots = (w.2.s.die e).slots ∧ (t.die e).win = (w.2.s.die e).win
      ∧ (t.die e).ahead = (w.2.s.die e).ahead ∧ (t.die e).runs = (w.2.s.die e).runs ∧ (t.die e).redFailed = (w.2.s.die e).redFailed)

/-- The two operands of a product as its engine reads them: the stored matrices, the rows that depend on nothing that failed, the
status, the counters (R129 to R131). -/
def operandsRead (s : State) (d : Fin 8) (m : Fin 4) (c : Queued) (rest : List Queued) : Vals × Vals × Nat × Byte × Ctr :=
  ((do meStart d m c.words; loadBoth (partOf s d) d c.words : W _) { s := prepared s d (meQueue m) c rest }).1

/-- The last started command of a die has a status. -/
def LastStatus (t : State) (d : Fin 8) (st : Byte) : Prop := ∃ x before, (t.die d).started = before ++ [x] ∧ x.status = st


/-- The port, frame type, bytes and code words of a row at which a frame arrives. -/
def frameRow : Instr → Option (Fin 32 × Nat × List Byte × List LaneErrs)
  | .dataFrame p f e => some (p, tDATA, f, e)
  | .emptyFrame p f e => some (p, tEMPTY, f, e)
  | .linkFrame p f e => some (p, tLINK, f, e)
  | .abortFrame p f e => some (p, tABORT, f, e)
  | .wreq p f e => some (p, tWREQ, f, e)
  | .wrsp p f e => some (p, tWRSP, f, e)
  | _ => none

/-- A port after the code words of a frame are counted on their lanes (R308, R322, R349). -/
def withErrs (x : Port) (errs : List LaneErrs) : Port :=
  { x with
    errSince := x.errSince ++ badWords errs, errEpisode := if x.episode.isSome then x.errEpisode ++ badWords errs else []
    corrected := errs.foldl (fun (v : Vector Nat 8) e => v.set e.lane (v.get e.lane + e.fixed)) x.corrected }

/-- The difference of the beat count that a LINK frame carries from the receiver's own, less the fibre's delay, in always-on cycles: that of
the frame and of the beat lie each within their beat (R337). -/
def beatDiff (s : State) (p : Fin 32) (h : FHdr) : Int := signedOf 32 ((h.w16 + 2 ^ 32 - s.clk.beat % 2 ^ 32) % 2 ^ 32) * 64 + (s.port p).fibre

/-- A whole frame of a sequenced type arrives in order on a port that is UP, in clear and with no link field to act on. -/
def Arrives (s : State) (p : Fin 32) (type : Nat) (frame : List Byte) (h : FHdr) : Prop :=
  (s.port p).st = .up ∧ frameOk frame = true ∧ h = FHdr.parse frame ∧ h.type = type ∧ type ≠ tLINK
    ∧ carried s type = true ∧ (s.port p).rxNext.all (· == h.seq) = true ∧ h.enc = false ∧ h.ackV = false ∧ h.nak = false ∧ h.refuseAck = false

/-- The frames of a slot: COUNT, or with LIVE no more than the word at LIVE_LINE (R328). -/
def slotFrames (s : State) (p : Fin 32) (w : List Word) : Nat :=
  let a := lineA (fld (atD 0 w 5) 26 0)
  if bitOf (atD 0 w 0) 28 then min (fld (atD 0 w 0) 6 0) (rd (s.mem.bytes (keyOf (dieOf p) (a / 4096 * 4096)) 4096) (a % 4096) 4)
  else fld (atD 0 w 0) 6 0

/-- A slot of a phase can go on a port: it is due, its wait holds, with LIVE its count can be read, no frame waits for room, and there is
room for its `n` frames (R323, R327, R328, R333). -/
def SlotReady (s : State) (p : Fin 32) (ph : PhaseRun) (w : List Word) (n : Nat) : Prop :=
  (s.port p).running = some ph ∧ (s.port p).st = .up ∧ (s.port p).changing = false ∧ ph.start + ph.next ≤ schedBeat s (dieOf p)
    ∧ ph.failed = false ∧ w = slotOf s p ph.table ph.next ∧ slValid w = true ∧ slotWait (s.die (dieOf p)) w = .hold
    ∧ n = slotFrames s p w
    ∧ (bitOf (atD 0 w 0) 28 = true → GoodTile s (dieOf p) (lineA (fld (atD 0 w 5) 26 0))
      ∧ permitted s (partOf s (dieOf p)) (dieOf p) (lineA (fld (atD 0 w 5) 26 0) / 4096 * 4096) false = true)
    ∧ (s.port p).waiting = [] ∧ hasRoom (s.port p) (max n 1) = true

/-- The running phase of a port has a slot still to send. -/
def Underway (s : State) (p : Fin 32) : Prop := ∀ ph, (s.port p).running = some ph → ph.next < tableLen s p ph.table

/-- Frame `i` of the `n` that a slot sends, or with `n` 0 its EMPTY frame, as bytes without the CRC (R317, R325, R327, R328): its header, and,
where no Sealed partition's key enciphers it, its tile and check word. -/
def SlotFrame (s : State) (p : Fin 32) (ph : PhaseRun) (w : List Word) (n i : Nat) (b : List Byte) : Prop :=
  let h := FHdr.parse b
  let src := keyOf (dieOf p) (((atD 0 w 2).toNat + i) * 4096)
  h.type = (if n = 0 then tEMPTY else tDATA) ∧ h.op = (if n = 0 then 0 else fld (atD 0 w 0) 15 14)
    ∧ h.last = decide (i + 1 = max n 1) ∧ h.token = (slToken w && decide (i + 1 = max n 1))
    ∧ h.srcDie = (dieOf p).val ∧ h.srcPort = p.val
    ∧ h.dstModule = fld (atD 0 w 4) 31 20 ∧ h.dstDie = fld (atD 0 w 4) 19 17 ∧ h.dstToken = fld (atD 0 w 4) 11 0
    ∧ h.dstTile = (if n = 0 then 0 else ((atD 0 w 3).toNat + i) % 2 ^ 32) ∧ h.epoch = ph.epoch % 2 ^ 16
    ∧ h.w16 = (ph.table * 2 ^ 29 + ph.next * 2 ^ 17 + i * 2 ^ 10) % 2 ^ 32
    ∧ ((isProt s (partOf s (dieOf p)) && isKeyed s (partOf s (dieOf p))) = false →
      b.drop 64 = (if n = 0 then [] else s.mem.bytes src 4096) ∧ (n ≠ 0 → h.check = checkAt s (src / 4096)))

/-- The phases of a port whose current slot may be later than SLACK allows (R331). -/
def lateOn (s : State) (p : Fin 32) : List PhaseRun :=
  (s.port p).running.toList.filter (watchdogDue s p · true) ++ (s.port p).draining.filter (watchdogDue s p · false)
/-- A phase with its watchdog's decision deferred, where it is late (R332). -/
def deferLate (s : State) (p : Fin 32) (ph : PhaseRun) : PhaseRun := if (lateOn s p).contains ph then { ph with deferred := true } else ph

/-- What a port runs once a phase has gone past a slot: the phase, or nothing after its last slot. -/
def afterSlot (s : State) (p : Fin 32) (ph : PhaseRun) : Option PhaseRun := if tableLen s p ph.table ≤ ph.next then none else some ph


/-- A packet stands at a port that takes it: the port answers, the packet's fields fit, and the mailbox is not busy with another. -/
def Taken (q : Pkt) (s : State) : Prop :=
  answers s q.from q.hdr.net = true ∧ q.wf = true ∧ queues s = false ∧ ¬(q.from = 2 ∧ s.sec.fwUp = true ∧ bitOf (rget s (regA uHub bMBX 0)) 0 = true)
/-- A packet is taken that is no repetition, outside boot recovery, and the first steps of R395 (form, master, lease) refuse nothing. -/
def Fresh (op : Op) (q : Pkt) (s : State) : Prop :=
  Taken q s ∧ q.hdr.flags.toNat.testBit 2 = false ∧ s.sec.recovery = false ∧ op.entry (arrive op.code q s) q = none

end Sys2Proof.Machine
end

