-- ==== Sys2Proof/Safety.lean ====
section
/-! DEFINITION. What counts as a safe run: memory keeps its one canonical form. -/

namespace Sys2Proof.Machine

/-- The invariant of every step: memory in canonical form. -/
abbrev State.Inv (s : State) : Prop := s.mem.wf

end Sys2Proof.Machine
end

