-- ==== Sys2Proof/Certificates/Slice0/Obligations.lean ====
section
/-! DEFINITION. The statements for the provers. -/

section
open Sys2Proof Sys2Proof.Machine

/-! ## The whole machine -/

/-- One step takes the command at the front of the queue and runs it on the state with the queue's rest; an empty queue idles.
Where the manual is silent it says the model's own choices (log 1). -/
def Obligations.StepRunsFrontCommand : Prop :=
  (∀ (c : Instr) (rest : List Instr) (s : State), step { s with pending := c :: rest } = exec c { s with pending := rest })
    ∧ ∀ s : State, s.pending = [] → step s = .next s

/-- Memory is in its canonical form after reset. -/
def Obligations.InvAtReset : Prop := State.reset.Inv

/-- Every step keeps memory in its canonical form, from every state that has it. -/
def Obligations.InvKeptByEveryStep : Prop := ∀ s t : State, s.Inv → step s = .next t → t.Inv

/-- No command ends in a fault or a refusal, and none touches the queue of waiting commands.
Where the manual is silent it says the model's own choices (log 1 and 3). -/
def Obligations.EveryCommandAnswers : Prop := ∀ (c : Instr) (s : State), ∃ t, exec c s = .next t ∧ t.pending = s.pending

/-- What reset leaves, as R483, R401, R410, R341 and R420 say: the lease is FREE, every ring is disabled, every die and both hubs
are Off and every die's schedule Empty, the fabric is in BRINGUP, no image is verified and nothing is answered.
Where the manual is silent it says the model's own choices (log 48). -/
def Obligations.ResetState : Prop :=
  State.reset.ctl.lease = .free ∧ (∀ r < 8, ringN State.reset r = 0) ∧ (∀ d, (State.reset.die d).pw = .off)
    ∧ (∀ d, (State.reset.die d).seq.st = .empty) ∧ (∀ h : Fin 2, State.reset.pwr.hub[h] = .off) ∧ State.reset.fab.mode = 1
    ∧ (∀ p, (State.reset.port p).st = .down) ∧ State.reset.sec.fwUp = false ∧ (∀ m n, answers State.reset m n = false)

/-! ## Packets and ownership -/

/-- HEARTBEAT, HANDOVER and RELEASE that no check refuses (R401, R403): whom the lease belongs to, its number and the time
it has left, and the reply. -/
def Obligations.LeasePackets : Prop :=
  (∀ q s, Passes opHeartbeat q s → ∃ t, exec (.heartbeat q) s = .next t ∧ t.ctl.leaseLeft = leaseCycles
    ∧ t.ctl.lease = s.ctl.lease ∧ t.ctl.leaseId = s.ctl.leaseId ∧ Replied t q 0x0002 sOK (natLE 4 2000))
  ∧ (∀ q s, Passes opHandover q s → ∃ t, exec (.handover q) s = .next t
    ∧ (∃ m : Fin 5, m.val = q.at 0 1 ∧ t.ctl.lease = .pending q.from m) ∧ t.ctl.leaseId = s.ctl.leaseId
    ∧ t.ctl.leaseLeft = leaseCycles ∧ Replied t q 0x0003 sOK [])
  ∧ (∀ q s, Passes opRelease q s → ∃ t, exec (.release q) s = .next t ∧ t.ctl.lease = .free ∧ t.ctl.leaseId = 0
    ∧ t.ctl.leaseLeft = 0 ∧ Replied t q 0x0004 sOK [])

/-- The end of the lease (R401, R404): in the beat in which it runs out it becomes FREE whoever held it, and where master 2 held it
LEASE_LOST_SEEN is set; what the owner had configured stays: dies, ports, fabric, partitions and keys, images, power and the region
tables are as before. While more than a beat's cycles are left of it, it does not end.
Where the manual is silent it says the model's own choices (log 5). -/
def Obligations.LeaseEnd : Prop :=
  (∀ s m, ownerOf s.ctl = some m → s.ctl.leaseLeft ≤ 64 →
    ∃ t, exec .leaseEnded s = .next t ∧ t.ctl.lease = .free ∧ t.ctl.leaseId = 0 ∧ t.ctl.leaseLeft = 0
    ∧ (m = 2 → bitOf (rget t (regA uHub bMBX 0)) 2 = true)
    ∧ t.dies = s.dies ∧ t.ports = s.ports ∧ t.fab = s.fab ∧ t.sec = s.sec ∧ t.images = s.images ∧ t.pwr = s.pwr ∧ t.regions = s.regions)
  ∧ ∀ s, 64 < s.ctl.leaseLeft → exec .leaseEnded s = .next s

/-- PING, PKT_STATUS and SCHED_STATUS (R396, R397): what their replies hold. The statement on SCHED_STATUS covers a sender to whom no
named die reads coarsened.
Where the manual is silent it says the model's own choices (log 25, 28 and 45). -/
def Obligations.StatusReaders : Prop :=
  (∀ q s, Passes opPing q s → ∃ t, exec (.ping q) s = .next t ∧ Replied t q 0x0000 sOK
    (natLE 2 (s.clk.module % 4096) ++ natLE 4 (revision s)
      ++ [b8 (match ownerOf s.ctl with | some m => m.val | none => 0xFF), b8 (match s.ctl.lease with | .pending _ x => x.val | _ => 0xFF)]
      ++ (if (ownerOf s.ctl).isSome then natLE 4 (leaseMs s.ctl) ++ natLE 4 s.ctl.leaseId.toNat else zeros 8)))
  ∧ (∀ q s, Passes opPktStatus q s → ∃ t, exec (.pktStatus q) s = .next t
    ∧ ∃ f, acceptedOf s.ctl q.from (rdW q.payload 0) = some f ∧ Replied t q 0x0005 sOK [f.getD sACCEPTED, 0])
  ∧ (∀ q s, Passes opSchedStatus q s → (partDies s q).all (fun d => !coarsened s q.from (partOf s d)) = true →
    ∃ t, exec (.schedStatus q) s = .next t ∧ Replied t q 0x0304 sOK ((partDies s q).flatMap fun d =>
      natLE 4 (keep (rget s (seqStatusA d)) 0xE0 + schedCode (s.die d).seq.st + 2 ^ 15 * b2n (s.die d).seq.haltValid
          + 2 ^ 16 * (s.die d).seq.haltStatus.toNat + 2 ^ 24 * (s.die d).seq.haltClass)
        ++ natLE 4 (s.die d).seq.pc ++ natLE 4 (if (s.die d).seq.ran then shownBeat (schedBeat s d) else 0) ++ natLE 4 (s.die d).seq.overruns.toNat))

/-- CLAIM (R402): it succeeds where the lease is FREE, or the sender is the pending target, or the sender owns it; a new owner takes the
next lease ID of a counter that starts at 1 and saturates (R13), the owner's own CLAIM restarts the lease and keeps its ID; in every other case it
receives BUSY with the owner's ID and the lease is unchanged. A packet that needs the lease and carries another ID, or comes from
another master, receives OWNER and has no effect beside its reply. -/
def Obligations.ClaimGrants : Prop :=
  (∀ q s, Fresh opClaim q s → (s.ctl.lease = .free ∨ (∃ o, s.ctl.lease = .pending o q.from) ∨ ownerOf s.ctl = some q.from) →
    ∃ t, exec (.claim q) s = .next t ∧ t.ctl.leaseLeft = leaseCycles
      ∧ (if ownerOf s.ctl = some q.from then ownerOf t.ctl = some q.from ∧ t.ctl.leaseId = s.ctl.leaseId ∧ t.ctl.nextLease = s.ctl.nextLease
         else t.ctl.lease = .owned q.from ∧ t.ctl.leaseId = s.ctl.nextLease ∧ t.ctl.nextLease = satAdd s.ctl.nextLease 1)
      ∧ Replied t q 0x0001 sOK (natLE 4 t.ctl.leaseId.toNat ++ natLE 4 2000))
  ∧ (∀ q o s, Fresh opClaim q s → ownerOf s.ctl = some o → o ≠ q.from → s.ctl.lease ≠ .pending o q.from →
    ∃ t, exec (.claim q) s = .next t ∧ Replied t q 0x0001 sBUSY [b8 o.val] ∧ ReplyFrame s t ∧ t.ctl.leaseLeft = s.ctl.leaseLeft
      ∧ t.ctl.nextLease = s.ctl.nextLease)
  ∧ (State.reset.ctl.nextLease = 1 ∧ ∀ s, s.pwr.on = false → s.pwr.frontEnd = true → ∃ t, exec .alwaysOnStart s = .next t ∧ t.ctl.nextLease = 1)
  ∧ ∀ (c : Instr) (op : Op) (q : Pkt) (s : State), packetRow c = some (op, q) → Taken q s → q.hdr.flags = 0 → s.sec.recovery = false →
    q.hdr.version = 1 → q.hdr.status = 0 → q.hdr.resv = 0 → (q.hdr.part.toNat ≤ 7 ∨ q.hdr.part = 0xFF) →
    op.ok (arrive op.code q s) q = true → q.hdr.master.toNat = q.from.val → op.lease = true → op.free (arrive op.code q s) q = false →
    (ownerOf s.ctl ≠ some q.from ∨ q.hdr.lease ≠ s.ctl.leaseId) →
    ∃ t, exec c s = .next t ∧ Replied t q op.code sOWNER [] ∧ ReplyFrame s t ∧ t.ctl.leaseLeft = s.ctl.leaseLeft
      ∧ t.ctl.actions = s.ctl.actions

/-- RETRY (R393): the module keeps the last reply to each master; a packet with RETRY and the SEQ of that reply receives it again and
nothing acts on it a second time; one with any other SEQ is refused with PARAM. The stored reply goes to where the packet came from
(R388). -/
def Obligations.RetryRule : Prop :=
  (∀ (c : Instr) (op : Op) (q : Pkt) (r : Reply) (s : State), packetRow c = some (op, q) → Taken q s → q.hdr.flags.toNat.testBit 2 = true →
    s.ctl.replies[q.from] = some r → r.hdr.seq = q.hdr.seq →
    ∃ t, exec c s = .next t ∧ t.ctl.replies = s.ctl.replies.set q.from (some { r with hdr := { r.hdr with net := q.hdr.net } })
      ∧ ReplyFrame s t ∧ t.ctl.leaseLeft = s.ctl.leaseLeft
      ∧ t.ctl.actions = s.ctl.actions ∧ t.ctl.accepted = s.ctl.accepted
      ∧ rget t (regA uHub bMBX (0x20 + 4 * q.from.val)) = satAdd (rget s (regA uHub bMBX (0x20 + 4 * q.from.val))) 1
      ∧ (q.from = 2 → nwf 0 s.ctl.rsp → nrun 0 t.ctl.rsp 0 r.bytes.length = r.bytes))
  ∧ (∀ (c : Instr) (op : Op) (q : Pkt) (s : State), packetRow c = some (op, q) → Taken q s → q.hdr.flags.toNat.testBit 2 = true →
    (∀ r, s.ctl.replies[q.from] = some r → r.hdr.seq ≠ q.hdr.seq) →
    ∃ t, exec c s = .next t ∧ Replied t q op.code sPARAM [] ∧ ReplyFrame s t ∧ t.ctl.leaseLeft = s.ctl.leaseLeft
      ∧ t.ctl.actions = s.ctl.actions ∧ t.ctl.accepted = s.ctl.accepted)
  ∧ ∀ (c : Instr) (op : Op) (q : Pkt) (s t : State), packetRow c = some (op, q) → exec c s = .next t →
    (∀ m, m ≠ q.from → t.ctl.replies[m] = s.ctl.replies[m])
      ∧ (t.ctl.replies[q.from] = s.ctl.replies[q.from]
        ∨ (∃ r, s.ctl.replies[q.from] = some r ∧ t.ctl.replies[q.from] = some { r with hdr := { r.hdr with net := q.hdr.net } })
        ∨ ∃ st pl, Replied t q op.code st pl)


/-- A packet that the order of checks refuses (R395) has no effect beside its reply, whichever row it is: the reply carries the
status and payload of the first failing step, and memory, dies, ports, fabric, keys and partitions, power, clocks, actions and
lease are as before. Two refusals leave a
trace: a SEC_KX_FINISH whose S_A or tag fails ends the pending exchange of its partition and sets KX_FAIL_SEEN (R434), a SEC_TOKEN
that does not hold sets TOKEN_REFUSED_SEEN (R444); each receives AUTH.
Where the manual is silent it says the model's own choices (log 24). -/
def Obligations.RefusedPacketNoEffect : Prop :=
  (∀ (c : Instr) (op : Op) (q : Pkt) (st : Byte) (pl : List Byte) (s : State), packetRow c = some (op, q) → op.code ≠ 0x505 →
    op.code ≠ 0x50A → Refuses op q st pl s →
    ∃ t, exec c s = .next t ∧ Replied t q op.code st pl ∧ HardKept s t ∧ t.sec = s.sec ∧ MemKept s t ∧ t.hold = s.hold
      ∧ t.regions = s.regions ∧ t.miss = s.miss ∧ t.ctl.actions = s.ctl.actions ∧ t.ctl.accepted = s.ctl.accepted
      ∧ t.ctl.lease = s.ctl.lease ∧ t.ctl.leaseId = s.ctl.leaseId ∧ t.ctl.leaseLeft = s.ctl.leaseLeft
      ∧ RegsKept s t (fun a => mbxReg a ∨ secReg a) ∧ (st ≠ sAUTH → RegsKept s t mbxReg))
  ∧ ((∀ q s, Refuses opSecKxFinish q sAUTH [] s → opSecKxFinish.entry (arrive 0x505 q s) q = none →
    ∃ t, exec (.secKxFinish q) s = .next t ∧ Replied t q 0x505 sAUTH [] ∧ t.sec.kx = s.sec.kx.set (pktPart q) none
      ∧ t.sec.pk = s.sec.pk ∧ bitOf (rget t secA) 3 = true ∧ t.ctl.actions = s.ctl.actions)
  ∧ ∀ q s, Refuses opSecToken q sAUTH [] s → opSecToken.entry (arrive 0x50A q s) q = none →
    ∃ t, exec (.secToken q) s = .next t ∧ Replied t q 0x50A sAUTH [] ∧ t.sec = s.sec ∧ bitOf (rget t secA) 2 = true
      ∧ t.ctl.actions = s.ctl.actions)

/-- Packets that no check refuses and whose effect waits for the end of their action: SCHED_LOAD, SNAPSHOT, RESTORE, MAP_LOAD,
SEC_KEY_ERASE, SEC_CKPT_IMPORT, SEC_TOKEN, both SEC_LIFECYCLE rows, the six SELFTEST rows and PART_SET receive ACCEPTED, their
action runs, and nothing else changes yet (R396).
Where the manual is silent it says the model's own choices (log 44). -/
def Obligations.AcceptedPackets : Prop :=
  ∀ (c : Instr) (op : Op) (q : Pkt) (s : State), packetRow c = some (op, q) →
    op.code ∈ [0x300, 0x306, 0x307, 0x402, 0x506, 0x508, 0x50A, 0x50B, 0x602, 0x800] → Passes op q s →
    ∃ t, exec c s = .next t ∧ Accepted s t q op.code ∧ ReplyFrame s t

/-- ACCEPTED packets with an effect of their own before they end: SEC_KX_FINISH keeps the key that it unwrapped until its action
installs it (R434); SEC_CKPT_EXPORT records its CKPT_ID (R437); QUIESCE stops every traffic generator and later refuses changes
(R473, R271).
Where the manual is silent it says the model's own choices (log 31, 35, 40 and 44). -/
def Obligations.AcceptedWithEffect : Prop :=
  (∀ q s, Passes opSecKxFinish q s → ∃ t, exec (.secKxFinish q) s = .next t ∧ Accepted s t q 0x505
    ∧ (∃ k key, pendingKx s (pktPart q) = some k ∧ kxOpen s.sec k q = some key ∧ t.sec.kx[pktPart q] = some { k with key := some key })
    ∧ t.sec.pk = s.sec.pk ∧ t.sec.keygen = s.sec.keygen ∧ MemKept s t ∧ HardKept s t)
  ∧ (∀ q s, Passes opSecCkptExport q s → ∃ t, exec (.secCkptExport q) s = .next t ∧ Accepted s t q 0x507
    ∧ t.sec = { s.sec with ckptId := nset 0 s.sec.ckptId (ckptSlot s.sec q.part) (q.at 12 4 + 1) } ∧ MemKept s t ∧ HardKept s t)
  ∧ ∀ q s, Passes opQuiesceAll q s → ∃ t, exec (.quiesce q) s = .next t ∧ Accepted s t q 0x103 ∧ t.ctl.quiesced = true
    ∧ (∀ ch, bitOf (rget t (genA (match ch with | .cellar k _ => stackDie k | _ => 0) ch)) 2 = false) ∧ HardKept s t ∧ t.sec = s.sec

/-- PORT_SET (R309): disable turns the named ports DISABLED, enable takes a DISABLED one to DOWN, train takes every named one to
TRAINING; the other ports are as before.
Where the manual is silent it says the model's own choices (log 21 and 24). -/
def Obligations.PortSetRows : Prop :=
  (∀ q s, q.at 4 4 = 0 → Passes opPortSet q s → ∃ t, exec (.portSetDisable q) s = .next t ∧ Accepted s t q 0x400
    ∧ (∀ p : Fin 32, (t.port p) = if (q.at 0 4).testBit p then quietPort .disabled (s.port p) else s.port p)
    ∧ t.dies = s.dies ∧ t.fab = s.fab ∧ t.sec = s.sec ∧ MemKept s t)
  ∧ (∀ q s, q.at 4 4 = 1 → Passes opPortSet q s → ∃ t, exec (.portSetEnable q) s = .next t ∧ Accepted s t q 0x400
    ∧ (∀ p : Fin 32, (t.port p) = if (q.at 0 4).testBit p ∧ (s.port p).st = .disabled then { s.port p with st := .down } else s.port p)
    ∧ t.dies = s.dies ∧ t.fab = s.fab ∧ t.sec = s.sec ∧ MemKept s t)
  ∧ (∀ q s, q.at 4 4 = 2 → Passes opPortSet q s → ∃ t, exec (.portSetTrain q) s = .next t ∧ Accepted s t q 0x400
    ∧ (∀ p : Fin 32, (t.port p) = if (q.at 0 4).testBit p then quietPort .training (s.port p) else s.port p)
    ∧ t.dies = s.dies ∧ t.fab = s.fab ∧ t.sec = s.sec ∧ MemKept s t)

/-- PWR_SET (R453 to R455), each row for its own target: a change that needs more than 10 ms is ACCEPTED, and each named unit
that stands elsewhere has the target; any other is done at once, with OK, and the named units stand in the target. The units it
does not name stand where they stood.
Where the manual is silent it says the model's own choices (log 24 and 38). -/
def Obligations.PwrSetRows : Prop :=
  ∀ (c : Instr) (q : Pkt) (s : State), packetRow c = some (opPwrSet, q) →
    (c = .pwrSetRun q ∨ c = .pwrSetIdle q ∨ c = .pwrSetNap q ∨ c = .pwrSetDeep q ∨ c = .pwrSetOff q) → Passes opPwrSet q s →
    ∃ t, exec c s = .next t ∧
      (if pwrLong s q.payload then
        Accepted s t q 0x100 ∧ (∀ d, (t.die d).pw = (s.die d).pw
          ∧ (t.die d).target = if (q.at 0 1).testBit d.val ∧ (s.die d).pw ≠ pwrTarget q.payload then some (pwrTarget q.payload) else (s.die d).target)
        ∧ ∀ h : Fin 2, t.pwr.hub[h] = s.pwr.hub[h]
          ∧ t.pwr.hubTarget[h] = if pwrHubs q.payload ∧ s.pwr.hub[h] ≠ pwrTarget q.payload then some (pwrTarget q.payload) else s.pwr.hubTarget[h]
      else
        Replied t q 0x100 sOK [] ∧ (∀ d, (t.die d).pw = if (q.at 0 1).testBit d.val then pwrTarget q.payload else (s.die d).pw)
        ∧ ∀ h : Fin 2, t.pwr.hub[h] = if pwrHubs q.payload then pwrTarget q.payload else s.pwr.hub[h])

/-- PACKET_DONE (R396): what the ends of the ACCEPTED actions bring. SEC_KEY_ERASE leaves its partition without a key and its cellars
zero (R435); SEC_KX_FINISH installs the key, KEYGEN and tenant masters (R435); SEC_TOKEN opens Service, no partition protected or keyed
(R442, R444); SEC_LIFECYCLE to Retired blows its fuse and erases every key, to Sealed blows its fuse or ends Service with the reserve
zero (R442); PART_SET sets count and mask, counts the generation up, which saturates (R13), erases every key and region entry and clears
MR7 (R423, R430). SCHED_LOAD loads an image that verifies, dies, ports, recipes and map, and measures it; one that does not changes
nothing (R64, R65); MAP_LOAD puts the map into effect, or keeps the one before (R316); bytes of theirs on a channel that is not there end
them with ABSENT (R19). A SNAPSHOT that does not end with OK leaves its
slot invalid, one that does has written the fields of its record and VALID (R495, R496); a RESTORE gives back contexts and seeds where the
image is the snapshot's, and one whose read fails leaves the slot invalid (R489, R497). SELFTEST reports the worst status of its units,
and a test of a die's stores leaves them zero (R486, R487). SEC_CKPT_EXPORT writes the sealed header and one sealed record per tile,
SEC_CKPT_IMPORT the tiles that its records open to, nothing where the header's tag fails (R437). QUIESCE ends when no other action runs,
with every port DISABLED, the module on its way to Off (R473).
Where the manual is silent it says the model's own choices (log 27, 33, 35, 37, 40, 42, 43, 44 and 56). -/
def Obligations.ActionsEnd : Prop :=
  ((∀ s k a found, CanEnd s k a → a.opcode = 0x506 → ∃ t, exec (.packetDone k found) s = .next t ∧ Ended s t k a sOK
    ∧ (∀ p : Fin 8, p.val = a.part.toNat % 8 → t.sec.pk[p] = none ∧ t.sec.keygen[p] = 0 ∧ t.sec.tenant[p] = 0
      ∧ (∀ d ∈ diesOf s p.val, ∀ o < 96 * gib, byteAt t (dieKey d (0x1000000000 + o)) = 0))
    ∧ t.sec.prot = s.sec.prot ∧ t.sec.mr = s.sec.mr.set 6 (extended s.sec.mr[6] (sm3 ([b8 (a.part.toNat % 8)] ++ natLE 4 0 ++ zeros 32))))
  ∧ (∀ s k a found key, CanEnd s k a → a.opcode = 0x505 → (∀ p : Fin 8, p.val = a.part.toNat % 8 → (s.sec.kx[p]).bind (·.key) = some key) →
    ∃ t, exec (.packetDone k found) s = .next t ∧ Ended s t k a sOK
      ∧ ∀ p : Fin 8, p.val = a.part.toNat % 8 → t.sec.pk[p] = some key ∧ t.sec.keygen[p] = rd a.payload 32 4
        ∧ t.sec.tenant[p] = rd a.payload 36 1 ∧ t.sec.kx[p] = none)
  ∧ (∀ s k a found, CanEnd s k a → a.opcode = 0x50A → ∃ t, exec (.packetDone k found) s = .next t ∧ Ended s t k a sOK
    ∧ t.sec.service = true ∧ t.sec.token = some (rd a.payload 3 1, rd a.payload 48 8) ∧ t.sec.prot = 0
    ∧ ∀ p : Fin 8, t.sec.pk[p] = none ∧ t.sec.kx[p] = none)
  ∧ (∀ s k a found, CanEnd s k a → a.opcode = 0x50B → rd a.payload 0 1 = 3 → ∃ t, exec (.packetDone k found) s = .next t
    ∧ Ended s t k a sOK ∧ lifecycle t = 3 ∧ t.sec.debug = 0 ∧ t.sec.prot = 0 ∧ ∀ p : Fin 8, t.sec.pk[p] = none)
  ∧ (∀ s k a found, CanEnd s k a → a.opcode = 0x50B → rd a.payload 0 1 ≠ 3 → lifecycle s = 0 → s.mem.wf → ∃ t, exec (.packetDone k found) s = .next t
    ∧ Ended s t k a sOK ∧ t.sec = { s.sec with fuseSealed := true, debug := 0 } ∧ MemButRings s t ∧ HardKept s t)
  ∧ (∀ s k a found, CanEnd s k a → a.opcode = 0x50B → rd a.payload 0 1 ≠ 3 → lifecycle s = 2 → ∃ t, exec (.packetDone k found) s = .next t
    ∧ Ended s t k a sOK ∧ lifecycle t = 1 ∧ t.sec.debug = 0 ∧ t.sec.prot = s.sec.prot ∧ t.sec.pk = s.sec.pk
    ∧ ∀ h : Fin 2, ∀ o < 32 * gib, ¬ inRing s (hubKey (loftAt h.val + o)) → byteAt t (hubKey (loftAt h.val + o)) = 0)
  ∧ ∀ s k a found, CanEnd s k a → a.opcode = 0x800 → ∃ t, exec (.packetDone k found) s = .next t ∧ Ended s t k a sOK
    ∧ t.sec.parts = rd a.payload 0 1 ∧ t.sec.prot = rd a.payload 1 1 ∧ t.sec.layoutGen = min (s.sec.layoutGen + 1) 0xFFFFFFFF
    ∧ t.regions = [] ∧ t.sec.mr[7] = zeros 32 ∧ ∀ p : Fin 8, t.sec.pk[p] = none ∧ t.sec.keygen[p] = 0 ∧ t.sec.tenant[p] = 0)
  ∧ (∀ s k a found b (h : a.part.toNat < 8), CanEnd s k a → a.opcode = 0x300 → s.mem.wf → b = reserveBytes s (rd a.payload 0 8) (rd a.payload 8 8) →
    inReserveA (rd a.payload 0 8) (rd a.payload 8 8) = true → reserveThere s (rd a.payload 0 8) (rd a.payload 8 8) = true →
    reserveBusy s (rd a.payload 0 8) (rd a.payload 8 8) = false → s.mem.errs = [] →
    (∀ d ∈ diesOf s a.part.toNat, ((s.die d).seq.st = .empty ∨ (s.die d).seq.st = .stopped) ∧ (s.die d).absent = false) →
    (verifyImage s a.part.toNat b (rd a.payload 8 8) = sOK → ∃ t, exec (.packetDone k found) s = .next t ∧ Ended s t k a sOK
      ∧ (∀ d, t.die d = if d ∈ diesOf s a.part.toNat then (dieImg b d).load (s.die d) else s.die d)
      ∧ (∀ p : Fin 32, t.port p = if dieOf p ∈ diesOf s a.part.toNat
          then { s.port p with tables := portTables ((sectionAt b (sectionsOf b) 2 p.val).getD []) } else s.port p)
      ∧ t.images = s.images.set a.part.toNat { bytes := b, digest := sm3 b, recipes := recipesOf ((sectionAt b (sectionsOf b) 4 0xFF).getD []) }
      ∧ t.fab = { s.fab with imageMaps := s.fab.imageMaps.set a.part.toNat (imageMap b) }
      ∧ t.sec = { s.sec with mr5Open := false, mr := s.sec.mr.set 7 (extended s.sec.mr[7] (sm3 b)) } ∧ MemButRings s t)
    ∧ (verifyImage s a.part.toNat b (rd a.payload 8 8) ≠ sOK → ∃ t, exec (.packetDone k found) s = .next t
      ∧ Ended s t k a (if verifyImage s a.part.toNat b (rd a.payload 8 8) = sABSENT then sABSENT else sPARAM)
      ∧ HardKept s t ∧ t.sec = s.sec ∧ MemButRings s t))
  ∧ (∀ s k a found, CanEnd s k a → a.opcode = 0x300 ∨ a.opcode = 0x402 → s.mem.wf → reserveThere s (rd a.payload 0 8) (rd a.payload 8 8) = false →
    ∃ t, exec (.packetDone k found) s = .next t ∧ Ended s t k a sABSENT ∧ HardKept s t ∧ t.sec = s.sec ∧ MemButRings s t)
  ∧ (∀ s k a found, CanEnd s k a → a.opcode = 0x402 → s.mem.wf → inReserveA (rd a.payload 0 8) (rd a.payload 8 8) = true →
    reserveThere s (rd a.payload 0 8) (rd a.payload 8 8) = true → reserveBusy s (rd a.payload 0 8) (rd a.payload 8 8) = false → s.mem.errs = [] →
    (∀ g, mapOf (reserveBytes s (rd a.payload 0 8) (rd a.payload 8 8)) = some g → mapOk (s.clk.module % 4096) g = true →
      ∃ t, exec (.packetDone k found) s = .next t ∧ Ended s t k a sOK ∧ t.fab = { s.fab with ownerMap := some g }
        ∧ t.dies = s.dies ∧ t.ports = s.ports ∧ t.sec = s.sec ∧ MemButRings s t)
    ∧ ((∀ g, mapOf (reserveBytes s (rd a.payload 0 8) (rd a.payload 8 8)) = some g → mapOk (s.clk.module % 4096) g = false) →
      ∃ t, exec (.packetDone k found) s = .next t ∧ Ended s t k a sPARAM ∧ HardKept s t ∧ t.sec = s.sec ∧ MemButRings s t))
  ∧ (∀ s k a found, CanEnd s k a → a.opcode = 0x306 → s.mem.wf → s.pwr.hub[(0 : Fin 2)] = .off → ∃ t, exec (.packetDone k found) s = .next t
    ∧ Ended s t k a sPOWER ∧ HardKept s t ∧ t.tiers = s.tiers ∧ MemButRings s t)
  ∧ (∀ s k a found, CanEnd s k a → a.opcode = 0x306 → s.mem.wf → (∀ x, inRing s x → x < hubKey (atticAt 0)) → s.pwr.hub[(0 : Fin 2)] ≠ .off →
    ∃ t st, exec (.packetDone k found) s = .next t ∧ Ended s t k a st ∧ t.dies = s.dies ∧ t.images = s.images ∧ t.sec = s.sec
      ∧ nget 0 t.snapSeq a.part.toNat = min (nget 0 s.snapSeq a.part.toNat + 1) 0xFFFFFFFF
      ∧ (a.status ≠ 0 → st ≠ sOK) ∧ (snapPowered s a.part.toNat = false → st ≠ sOK)
      ∧ (st ≠ sOK → slotValid t a.part.toNat (nextSlotNo s a.part.toNat) = false)
      ∧ (∀ d, diesOf s a.part.toNat = [d] → st = sOK → slotValid t a.part.toNat (nextSlotNo s a.part.toNat) = true
        ∧ ∃ r, r = atticBytes t (recordAt s a.part.toNat (nextSlotNo s a.part.toNat) (posOf s d)) 132
          ∧ r.take 56 = natLE 2 0x534E ++ [1, b8 d.val] ++ natLE 4 (min (nget 0 s.snapSeq a.part.toNat + 1) 0xFFFFFFFF) ++ natLE 8 a.beat
            ++ padTo 32 (s.images.toList.getD a.part.toNat {}).digest ++ natLE 4 s.sec.layoutGen ++ natLE 4 (s.sec.keygen.toList.getD a.part.toNat 0)
          ∧ rd r 128 4 = 1))
  ∧ (∀ s k a found, CanEnd s k a → a.opcode = 0x307 → s.mem.wf → (a.status ≠ 0 ∨ snapPowered s a.part.toNat = false) →
    ∃ t st, exec (.packetDone k found) s = .next t ∧ Ended s t k a st ∧ st ≠ sOK ∧ HardKept s t ∧ t.sec = s.sec ∧ MemButRings s t)
  ∧ (∀ s k a found, CanEnd s k a → a.opcode = 0x307 → a.status = 0 → snapPowered s a.part.toNat = true →
    ∃ t st, exec (.packetDone k found) s = .next t ∧ Ended s t k a st ∧ t.sec = s.sec ∧ t.ports = s.ports
      ∧ (∀ d, t.die d = { s.die d with ctx := (t.die d).ctx }) ∧ (∀ d, d ∉ diesOf s a.part.toNat → t.die d = s.die d)
      ∧ (st = sCHECK ∨ st = sUNCORR → slotValid t a.part.toNat (rd a.payload 0 1) = false)
      ∧ (∀ d b, diesOf s a.part.toNat = [d] → (readRecord d (recordAt s a.part.toNat (rd a.payload 0 1) (posOf s d)) 52 { s := s }).1 = .ok b → st = sOK →
        (t.die d).ctx = (if sub b 16 32 = (s.images.toList.getD a.part.toNat {}).digest then (s.die d).ctx.map (ctxFrom b) else (s.die d).ctx)
        ∧ ∀ h : a.part.toNat < 8, (t.images[a.part.toNat]).recipes = if sub b 16 32 = (s.images.toList.getD a.part.toNat {}).digest
            then recipesFrom b (s.images[a.part.toNat]).recipes else (s.images[a.part.toNat]).recipes))
  ∧ (∀ s k a found, CanEnd s k a → a.opcode = 0x602 → ∃ t, exec (.packetDone k found) s = .next t
    ∧ Ended s t k a (if a.status ≠ 0 then a.status else
        ((testUnits a.payload).zipIdx.map fun u => unitStatus u.1 (atD 0 found (3 * u.2)) (atD 0 found (3 * u.2 + 1))).foldl
          (fun x y => if testRank x < testRank y then y else x) sOK)
    ∧ t.ctl.lease = s.ctl.lease
    ∧ (rd a.payload 0 4 = 1 ∨ rd a.payload 0 4 = 3 → (∀ d : Fin 8, (rd a.payload 4 1).testBit d.val = true →
        storesReady t d = true ∧ (t.die d).hist = [] ∧ ∀ o < 0x1000000000, byteAt t (dieKey d o) = 0 ∧ checkAt t (dieKey d o / 4096) = crcZeroTile)
      ∧ ∀ d : Fin 8, (rd a.payload 4 1).testBit d.val = false → t.die d = s.die d ∧ (s.mem.wf → ∀ o < 2 ^ 48, byteAt t (dieKey d o) = byteAt s (dieKey d o))))
  ∧ (∀ s k a found d src dst n key head, CanEnd s k a → a.opcode = 0x507 → s.mem.wf → s.mem.errs = [] → d = ckptDie a.payload →
    src = rd a.payload 0 8 → dst = rd a.payload 24 8 → n = rd a.payload 16 4 → key = ckptKey s.sec a.part.toNat →
    head = ckptHead a.part.toNat (s.sec.keygen.toList.getD a.part.toNat 0) (rd a.payload 12 4) n src (rd a.payload 8 1) →
    src % 4096 = 0 → inReserveA dst (64 + 4112 * n) = true → reserveBusy s dst (64 + 4112 * n) = false →
    (∀ i < n, GoodTile s d (src + 4096 * i) ∧ inReserve (src + 4096 * i) = false ∧ permitted s a.part.toNat d (src + 4096 * i) false = true) →
    (∀ x, hubKey dst ≤ x → x < hubKey dst + 64 + 4112 * n → ¬ inRing s x) →
    ∃ t, exec (.packetDone k found) s = .next t ∧ Ended s t k a sOK ∧ t.dies = s.dies ∧ t.sec = s.sec
      ∧ (∀ j < 64, byteAt t (hubKey dst + j) = atD 0 (head ++ (gcmSeal key (ckptIv (rd a.payload 12 4) hdrIndex) head []).2) j)
      ∧ (∀ i < n, ∀ j < 4112, ∀ x, x = gcmSeal key (ckptIv (rd a.payload 12 4) i) (head.take 32) (s.mem.bytes (keyOf d (src + 4096 * i)) 4096) →
        byteAt t (hubKey dst + 64 + 4112 * i + j) = atD 0 (x.1 ++ x.2) j)
      ∧ ∀ x, ¬(hubKey dst ≤ x ∧ x < hubKey dst + 64 + 4112 * n) → ¬ inRing s x → byteAt t x = byteAt s x)
  ∧ (∀ s k a found d src dst key h, CanEnd s k a → a.opcode = 0x508 → s.mem.wf → s.mem.errs = [] → d = ckptDie a.payload →
    src = rd a.payload 16 8 → dst = rd a.payload 0 8 → key = ckptKey s.sec a.part.toNat → inReserveA src 64 = true → reserveThere s src 64 = true →
    reserveBusy s src 64 = false → h = reserveBytes s src 64 →
    (gcmOpen key (ckptIv (rd h 8 4) hdrIndex) (h.take 48) [] (h.drop 48) = none →
      ∃ t, exec (.packetDone k found) s = .next t ∧ Ended s t k a sCHECK ∧ MemButRings s t ∧ t.dies = s.dies ∧ bitOf (rget t secA) 4 = true)
    ∧ ∀ (x : Nat → List Byte) n, (gcmOpen key (ckptIv (rd h 8 4) hdrIndex) (h.take 48) [] (h.drop 48)).isSome = true → n = rd h 16 8 →
      inReserveA src (64 + 4112 * n) = true → reserveBusy s src (64 + 4112 * n) = false → dst % 4096 = 0 →
      (∀ i < n, reserveThere s (src + 64 + 4112 * i) 4112 = true ∧ (∃ r, r = reserveBytes s (src + 64 + 4112 * i) 4112
        ∧ gcmOpen key (ckptIv (rd h 8 4) i) (h.take 32) (r.take 4096) (r.drop 4096) = some (x i) ∧ (x i).length = 4096)
        ∧ permitted s a.part.toNat d (dst + 4096 * i) true = true ∧ inReserve (dst + 4096 * i) = false
        ∧ (∀ j < 4096, ¬ inRing s (keyOf d (dst + 4096 * i) + j))
        ∧ ∃ st off, storeOf (dst + 4096 * i) = some (st, off) ∧ tileBusy s d st off = false) →
      ∃ t, exec (.packetDone k found) s = .next t ∧ Ended s t k a sOK ∧ t.dies = s.dies ∧ t.sec = s.sec
        ∧ ∀ i < n, (∀ j < 4096, byteAt t (keyOf d (dst + 4096 * i) + j) = atD 0 (x i) j)
          ∧ checkAt t (keyOf d (dst + 4096 * i) / 4096) = crc32c (x i))
  ∧ (∀ s k a found, CanEnd s k a → a.opcode = 0x103 → s.ctl.actions.length ≠ 1 → exec (.packetDone k found) s = .next s)
  ∧ ∀ s k a found, CanEnd s k a → a.opcode = 0x103 → s.mem.wf → s.ctl.actions.length = 1 → s.ctl.quiesced = true →
    ∃ t, exec (.packetDone k found) s = .next t ∧ Ended s t k a sOK ∧ (∀ p : Fin 32, t.port p = quietPort .disabled (s.port p))
      ∧ (∀ d, (t.die d).pw = (s.die d).pw ∧ (t.die d).target = if (s.die d).pw = .off then none else some .off)
      ∧ (∀ h : Fin 2, t.pwr.hub[h] = s.pwr.hub[h] ∧ t.pwr.hubTarget[h] = if s.pwr.hub[h] = .off then none else some .off)
      ∧ t.pwr.ready = (s.pwr.ready || moduleIsOff s) ∧ MemButRings s t

/-- A unit that is no packet gets no reply and is counted; a packet of a reserved opcode receives PARAM, and STATE from the boot ROM
(R397, R422), and does nothing else; on the mailbox REQ_BUSY clears, BAD_SEEN sets and the mailbox interrupt is
raised (R391, R414). A packet that arrives while another is acted on, or after the active RoT has stopped and before the takeover, joins
the queue and has no effect yet (R394, R419); one that meets a full queue receives BUSY and runs nothing. From the mailbox nothing is
taken while REQ_BUSY is 1, be it a packet or not: only OVERRUN_SEEN sets, and nothing joins the queue (R394, R414).
Where the manual is silent it says the model's own choices (log 24 and 48). -/
def Obligations.UnitsDiscarded : Prop :=
  (∀ (m : Fin 5) unit net s, m ≠ 2 → answers s m net = true → unitOk unit = false → ∃ t, exec (.discardUnit m { bytes := unit, net }) s = .next t
    ∧ rget t (regA uHub bMBX (0x40 + 4 * m.val)) = satAdd (rget s (regA uHub bMBX (0x40 + 4 * m.val))) 1
    ∧ RegsKept s t (· = regA uHub bMBX (0x40 + 4 * m.val)) ∧ t.ctl = s.ctl ∧ MemKept s t ∧ HardKept s t ∧ t.sec = s.sec)
  ∧ (∀ (m : Fin 5) unit net q s, m ≠ 2 → answers s m net = true → unitOk unit = true → (∀ op ∈ allOps, op.code ≠ rd unit 4 2) →
    (b8 (rd unit 3 1)).toNat.testBit 2 = false → queues s = false → q = { (unitPkt m unit).2 with hdr := { (unitPkt m unit).2.hdr with net } } →
    ∃ t, exec (.discardUnit m { bytes := unit, net }) s = .next t
    ∧ Replied t q (rd unit 4 2) (if s.sec.recovery then sSTATE else sPARAM) [] ∧ ReplyFrame s t ∧ t.ctl.queue = s.ctl.queue
    ∧ t.ctl.actions = s.ctl.actions ∧ t.ctl.leaseLeft = s.ctl.leaseLeft)
  ∧ (∀ unit net s, s.sec.fwUp = true → bitOf (rget s (regA uHub bMBX 0)) 0 = true → ∃ t, exec (.discardUnit 2 { bytes := unit, net }) s = .next t
    ∧ rget t (regA uHub bMBX 0) = rget s (regA uHub bMBX 0) ||| 8#32 ∧ RegsKept s t (· = regA uHub bMBX 0) ∧ t.ctl = s.ctl ∧ MemKept s t
    ∧ HardKept s t ∧ t.sec = s.sec)
  ∧ (∀ (c : Instr) (op : Op) (q : Pkt) (s : State), packetRow c = some (op, q) → q.from = 2 → s.sec.fwUp = true →
    bitOf (rget s (regA uHub bMBX 0)) 0 = true → ∃ t, exec c s = .next t
    ∧ rget t (regA uHub bMBX 0) = rget s (regA uHub bMBX 0) ||| 8#32 ∧ RegsKept s t (· = regA uHub bMBX 0) ∧ t.ctl = s.ctl ∧ MemKept s t
    ∧ HardKept s t ∧ t.sec = s.sec)
  ∧ (∀ unit net s, answers s 2 = true → bitOf (rget s (regA uHub bMBX 0)) 0 = false → unitOk (reqUnit { s.ctl with req := nsetRun 0 s.ctl.req 0 (unit.take 4096) }) = false →
    ∃ t, exec (.discardUnit 2 { bytes := unit, net }) s = .next t ∧ bitOf (rget t (regA uHub bMBX 0)) 0 = false ∧ bitOf (rget t (regA uHub bMBX 0)) 4 = true
      ∧ rget t (regA uHub bMBX 0x48) = satAdd (rget s (regA uHub bMBX 0x48)) 1 ∧ t.ctl.replies = s.ctl.replies ∧ t.ctl.mbxIrqs = s.ctl.mbxIrqs + 1
      ∧ MemKept s t ∧ HardKept s t)
  ∧ (∀ (c : Instr) (op : Op) (q : Pkt) (s : State), packetRow c = some (op, q) → answers s q.from q.hdr.net = true → q.wf = true →
    queues s = true → queueFull s.ctl q.from = false →
    ¬(q.from = 2 ∧ s.sec.fwUp = true ∧ bitOf (rget s (regA uHub bMBX 0)) 0 = true) → ∃ t, exec c s = .next t
    ∧ t.ctl.queue = s.ctl.queue ++ [⟨BitVec.ofNat 16 op.code, q, s.clk.beat⟩] ∧ t.ctl.replies = s.ctl.replies ∧ t.ctl.winPkt = s.ctl.winPkt
    ∧ t.ctl.lease = s.ctl.lease ∧ t.ctl.actions = s.ctl.actions ∧ t.sec = s.sec ∧ MemKept s t ∧ HardKept s t)
  ∧ ∀ (opcode : Half) q s, q.from ≠ 2 → answers s q.from q.hdr.net = true → q.wf = true → queueFull s.ctl q.from = true →
    ∃ t, exec (.portQueueFull opcode q) s = .next t
    ∧ Replied t q opcode.toNat sBUSY [] ∧ ReplyFrame s t ∧ t.ctl.queue = s.ctl.queue ∧ t.ctl.actions = s.ctl.actions
    ∧ t.ctl.leaseLeft = s.ctl.leaseLeft

/-- MBX_SUBMIT (R414): the bytes of a packet submitted while REQ_BUSY is 0 do what that packet does, for every opcode; a submit
while REQ_BUSY is 1 does nothing but set OVERRUN_SEEN. The reply to the operating system stands in MBX_RSP, REQ_BUSY is clear and
RSP_READY set (R414, R415); here for every packet of master 2 that a check refuses, whatever its row.
Where the manual is silent it says the model's own choices (log 24). -/
def Obligations.Mailbox : Prop :=
  ((∀ op ∈ allOps, ∀ (q : Pkt) (s : State), q.from = 2 → q.hdr.net = {} → q.wf = true → answers s 2 = true → s.ctl.submitted = false →
    bitOf (rget s (regA uHub bMBX 0)) 0 = false →
    exec (.mbxSubmit (unitBytes (BitVec.ofNat 16 op.code) q.hdr q.hdr.flags q.hdr.status q.payload)) s = packetStep wideScope op q s)
  ∧ ∀ unit s, bitOf (rget s (regA uHub bMBX 0)) 0 = true → ∃ t, exec (.mbxSubmit unit) s = .next t
    ∧ rget t (regA uHub bMBX 0) = rget s (regA uHub bMBX 0) ||| 8#32 ∧ RegsKept s t (· = regA uHub bMBX 0)
    ∧ t.ctl = s.ctl ∧ MemKept s t ∧ HardKept s t)
  ∧ (∀ (c : Instr) (op : Op) (q : Pkt) (st : Byte) (pl : List Byte) (s : State), packetRow c = some (op, q) → q.from = 2 →
    Refuses op q st pl s → nwf 0 s.ctl.rsp →
    ∃ t r, exec c s = .next t ∧ t.ctl.replies[(2 : Fin 5)] = some r ∧ bitOf (rget t (regA uHub bMBX 0)) 0 = false
      ∧ bitOf (rget t (regA uHub bMBX 0)) 1 = true ∧ nrun 0 t.ctl.rsp 0 r.bytes.length = r.bytes
      ∧ rget t (regA uHub bMBX 0x28) = satAdd (rget s (regA uHub bMBX 0x28)) 1)


/-! ## Registers, regions and flags -/

/-- REG_READ of one word, and RC_REGISTER_READ (R10, R399, R405): the reply is the register's value; the owner's read of an RC
register clears it to its reset value, any other read changes no register outside the mailbox.
REG_WRITE of one word of a register whose RW bits are all that it changes (R10, R400): those bits take the value, its other
bits and every other register outside the mailbox are as before; a REG_WRITE that a check refuses writes nothing.
Where the manual is silent it says the model's own choices (log 6, 14, 25 and 39). -/
def Obligations.RegisterReadsAndWrites : Prop :=
  ((∀ q s, Passes opRegRead q s → q.at 4 4 = 1 → Exact (arrive 0x200 q s) q.from (q.at 0 4) →
    ∃ t, exec (.regRead q) s = .next t ∧ Replied t q 0x200 sOK (natLE 4 (plainValue (arrive 0x200 q s) (q.at 0 4)).toNat)
      ∧ (∀ i, regInfo (q.at 0 4) = some i → i.rc = true → ownerOf s.ctl = some q.from → rget t (q.at 0 4) = regReset (q.at 0 4))
      ∧ RegsKept s t (fun a => mbxReg a ∨ (canon a = canon (q.at 0 4) ∧ (∃ i, regInfo (q.at 0 4) = some i ∧ i.rc = true) ∧ ownerOf s.ctl = some q.from))
      ∧ MemKept s t ∧ HardKept s t ∧ t.sec = s.sec)
  ∧ ∀ (h : Hdr) (a : Word) i s, regInfo a.toNat = some i → i.rc = true → Passes opRegRead ⟨h, natLE 4 a.toNat ++ natLE 4 1⟩ s →
    Exact (arrive 0x200 ⟨h, natLE 4 a.toNat ++ natLE 4 1⟩ s) h.port a.toNat →
    ∃ t, exec (.rcRegisterRead h a) s = .next t
      ∧ Replied t ⟨h, natLE 4 a.toNat ++ natLE 4 1⟩ 0x200 sOK (natLE 4 (plainValue (arrive 0x200 ⟨h, natLE 4 a.toNat ++ natLE 4 1⟩ s) a.toNat).toNat)
      ∧ rget t a.toNat = (if ownerOf s.ctl = some h.port then regReset a.toNat else rget s a.toNat)
      ∧ RegsKept s t (fun b => mbxReg b ∨ canon b = canon a.toNat) ∧ MemKept s t ∧ HardKept s t)
  ∧ ((∀ q s i, Passes opRegWrite q s → q.at 4 4 = 1 → plainRW (q.at 0 4) i → s.ctl.submitted = false →
    ∃ t, exec (.regWrite q) s = .next t ∧ Replied t q 0x201 sOK []
      ∧ rget t (q.at 0 4) = w32 (((rget s (q.at 0 4)).toNat &&& (0xFFFFFFFF - i.rw)) + (q.at 8 4 &&& i.rw))
      ∧ t.dies = s.dies ∧ WriteFrame s t (fun b => canon b = canon (q.at 0 4)))
  ∧ ∀ q st pl s, Refuses opRegWrite q st pl s → s.ctl.submitted = false → ∃ t, exec (.regWrite q) s = .next t
    ∧ Replied t q 0x201 st pl ∧ t.dies = s.dies ∧ WriteFrame s t secReg)

/-- The token block (R99): a write of a token's word sets it, one of a word of the map of marks sets its 32 marks, and nothing else of any die
changes; that holds in Loaded and Stopped only: in every other state the write is refused with STATE and the values stay as they
were; a read returns the current value in every state, here to a master that no coarsened reading hides it from (R440); both
reset to zero. -/
def Obligations.TokenRegisters : Prop :=
  (∀ (h : Hdr) (a v : Word) (d : Fin 8) s, regUnit a.toNat = d.val → regBlk a.toNat = bTOK → Passes opRegWrite (oneWord h a.toNat v.toNat) s →
    ∃ t, exec (.tokenWrite h a v) s = .next t ∧ Replied t (oneWord h a.toNat v.toNat) 0x201 sOK []
      ∧ (∀ n, nget 0 (t.die d).tokens n = if 4 * n = regOff a.toNat ∧ regOff a.toNat < 0x4000 then v else nget 0 (s.die d).tokens n)
      ∧ (∀ n, nget false (t.die d).marks n =
          if 0x4000 ≤ regOff a.toNat ∧ n / 32 = (regOff a.toNat - 0x4000) / 4 then v.toNat.testBit (n % 32) else nget false (s.die d).marks n)
      ∧ t.die d = { s.die d with tokens := (t.die d).tokens, marks := (t.die d).marks } ∧ (∀ e, e ≠ d → t.die e = s.die e)
      ∧ WriteFrame s t (fun _ => False))
  ∧ (∀ (h : Hdr) (a v : Word) (d : Fin 8) s, regUnit a.toNat = d.val → regBlk a.toNat = bTOK →
    Passes opRegWrite (oneWord h a.toNat v.toNat) s → (s.die d).seq.st = .loaded ∨ (s.die d).seq.st = .stopped)
  ∧ (∀ (h : Hdr) (a v : Word) (d : Fin 8) s, regUnit a.toNat = d.val → regBlk a.toNat = bTOK → (s.die d).seq.st ≠ .loaded →
    (s.die d).seq.st ≠ .stopped → ∃ t, exec (.tokenWrite h a v) s = .next t ∧ t.dies = s.dies)
  ∧ (∀ (h : Hdr) (a v : Word) (d : Fin 8) s, regUnit a.toNat = d.val → regBlk a.toNat = bTOK → (s.die d).seq.st ≠ .loaded →
    (s.die d).seq.st ≠ .stopped → Fresh opRegWrite (oneWord h a.toNat v.toNat) s → s.ctl.quiesced = false →
    coarsened s h.port (partOf s d) = false → dieThere s h.port d = true →
    ∃ t, exec (.tokenWrite h a v) s = .next t ∧ Replied t (oneWord h a.toNat v.toNat) 0x201 sSTATE [])
  ∧ (∀ q (d : Fin 8) s, Passes opRegRead q s → q.at 4 4 = 1 → regUnit (q.at 0 4) = d.val → regBlk (q.at 0 4) = bTOK →
    coarsened s q.from (partOf s d) = false →
    ∃ t, exec (.regRead q) s = .next t ∧ (∃ v, Replied t q 0x200 sOK (natLE 4 v)
      ∧ (regOff (q.at 0 4) < 0x4000 → v = (nget 0 (s.die d).tokens (regOff (q.at 0 4) / 4)).toNat)
      ∧ (0x4000 ≤ regOff (q.at 0 4) → ∀ i < 32, v.testBit i = nget false (s.die d).marks (32 * ((regOff (q.at 0 4) - 0x4000) / 4) + i))))
  ∧ ∀ d n, nget 0 (State.reset.die d).tokens n = 0 ∧ nget false (State.reset.die d).marks n = false

/-- SEQ_LOG_RD_WRITE (R89), EVT_SIZE_WRITE and EVT_RD_WRITE (R411, R412), CLK_LOAD (R460): the read index of a die's log; the size
of a ring, whose read index starts at its write index when the ring becomes enabled; the read index of a ring, in a packet or
through the mapping where master 2 is its consumer; the high word of CLK_LOAD, which arms the load.
Where the manual is silent it says the model's own choices (log 14 and 26). -/
def Obligations.QueueWrites : Prop :=
  (∀ (h : Hdr) (d : Fin 8) (v : Word) s, Passes opRegWrite (oneWord h (regA d bSEQ 0x10) v.toNat) s →
    ∃ t, exec (.seqLogRdWrite h d v) s = .next t ∧ Replied t (oneWord h (regA d bSEQ 0x10) v.toNat) 0x201 sOK []
      ∧ t.die d = { s.die d with seq := { (s.die d).seq with logRd := v } } ∧ (∀ e, e ≠ d → t.die e = s.die e) ∧ WriteFrame s t (fun _ => False))
  ∧ (∀ (h : Hdr) (r : Fin 8) (v : Word) s, Passes opRegWrite (oneWord h (ringA r + 8) v.toNat) s →
    ∃ t, exec (.evtSizeWrite h r v) s = .next t ∧ Replied t (oneWord h (ringA r + 8) v.toNat) 0x201 sOK []
      ∧ rget t (ringA r + 8) = w32 (v.toNat % 32)
      ∧ rget t (ringA r + 0x18) = (if fld (rget s (ringA r + 8)) 4 0 = 0 ∧ v.toNat % 32 ≠ 0 then rget s (ringA r + 0x14) else rget s (ringA r + 0x18))
      ∧ t.dies = s.dies ∧ WriteFrame s t (fun b => b = ringA r + 8 ∨ b = ringA r + 0x18))
  ∧ (∀ (h : Hdr) (r : Fin 8) (v : Word) s, Passes opRegWrite (oneWord h (ringA r + 0x18) v.toNat) s →
    ∃ t, exec (.evtRdWrite (.packet h) r v) s = .next t ∧ Replied t (oneWord h (ringA r + 0x18) v.toNat) 0x201 sOK []
      ∧ rget t (ringA r + 0x18) = v ∧ t.dies = s.dies ∧ WriteFrame s t (· = ringA r + 0x18))
  ∧ (∀ (r : Fin 8) (v : Word) s, fld (rget s (ringA r + 0x10)) 2 0 = 2 → judgeEvt s r 0x18 v.toNat = none →
    ∃ t, exec (.evtRdWrite .mapped r v) s = .next t ∧ rget t (ringA r + 0x18) = v ∧ RegsKept s t (· = ringA r + 0x18)
      ∧ t.ctl = s.ctl ∧ t.dies = s.dies ∧ MemKept s t)
  ∧ ∀ (h : Hdr) (v : Word) s, Passes opRegWrite (oneWord h (regA uHub bCLK 0x10) v.toNat) s →
    ∃ t, exec (.clkLoad h v) s = .next t ∧ Replied t (oneWord h (regA uHub bCLK 0x10) v.toNat) 0x201 sOK []
      ∧ rget t (regA uHub bCLK 0x10) = v ∧ rget t clkA = rget s clkA ||| 0x20#32 ∧ t.dies = s.dies
      ∧ WriteFrame s t (fun b => b = regA uHub bCLK 0x10 ∨ b = clkA)

/-- REGION_ENTRY_WRITE and REGION_SET (R120, R122, R246): the entries named take their values, every other entry is as before.
Where the manual is silent it says the model's own choices (log 26). -/
def Obligations.RegionWrites : Prop :=
  (∀ (h : Hdr) (a v : Word) x y s, regBlk a.toNat = bSEC → regionOf (regUnit a.toNat) (regOff a.toNat) 0 = some x →
    regionOf (regUnit a.toNat) (regOff a.toNat) 1 = some y → Passes opRegWrite (oneWord h a.toNat v.toNat) s →
    ∃ t, exec (.regionEntryWrite h a v) s = .next t ∧ Replied t (oneWord h a.toNat v.toNat) 0x201 sOK []
      ∧ (∀ k, regionEntry t k = if k = x then v.setWidth 16 else if k = y then (v >>> 16).setWidth 16 else regionEntry s k)
      ∧ MemKept s t ∧ HardKept s t ∧ t.sec = s.sec ∧ t.miss = s.miss ∧ RegsKept s t mbxReg)
  ∧ ∀ q s, Passes opRegionSet q s → ∃ t, exec (.regionSet q) s = .next t ∧ Replied t q 0x204 sOK []
    ∧ (∀ i < q.at 8 4, regionEntry t (tableKey (q.at 0 1) (q.at 1 1) (q.at 4 4 + i)) = BitVec.ofNat 16 (q.at (12 + 2 * i) 2))
    ∧ (∀ k, (∀ i < q.at 8 4, k ≠ tableKey (q.at 0 1) (q.at 1 1) (q.at 4 4 + i)) → regionEntry t k = regionEntry s k)
    ∧ MemKept s t ∧ HardKept s t ∧ t.sec = s.sec ∧ t.miss = s.miss ∧ RegsKept s t mbxReg

/-- W1C_CLEAR (R407): a write of 1 clears a flag, but a flag that the hardware sets in the same cycle stays set, and its miss
counter rises by one and saturates at 255; the other flags and miss counters are as before. Through the mapping the register is
MBX_STATUS (R413). FLAG_MISS replies with the 32 counters of a register, and the owner's clears them. -/
def Obligations.FlagClears : Prop :=
  (∀ (h : Hdr) (a v hw : Word) s, w1cMask a.toNat ≠ 0 → ¬ mbxReg a.toNat → Passes opRegWrite (oneWord h a.toNat v.toNat) s →
    ∃ t, exec (.w1cClear (.packet h) a v hw) s = .next t ∧ Replied t (oneWord h a.toNat v.toNat) 0x201 sOK []
      ∧ rget t a.toNat = (rget s a.toNat &&& ~~~ (v &&& w32 (w1cMask a.toNat))) ||| (hw &&& w32 (w1cMask a.toNat))
      ∧ (∀ b < 32, nget 0 t.miss (canon a.toNat * 32 + b) =
          if (v.toNat &&& hw.toNat &&& w1cMask a.toNat).testBit b then min 255 (nget 0 s.miss (canon a.toNat * 32 + b) + 1)
          else nget 0 s.miss (canon a.toNat * 32 + b))
      ∧ (∀ k, k / 32 ≠ canon a.toNat → nget 0 t.miss k = nget 0 s.miss k)
      ∧ (∀ d, t.die d = { s.die d with redFailed := (t.die d).redFailed }) ∧ (regOff a.toNat ≠ 0x8100 → t.dies = s.dies)
      ∧ MemKept s t ∧ RegsKept s t (fun b => mbxReg b ∨ canon b = canon a.toNat))
  ∧ (∀ (v hw : Word) s, ∃ t, exec (.w1cClear .mapped (w32 (regA uHub bMBX 0)) v hw) s = .next t
    ∧ rget t (regA uHub bMBX 0) = (rget s (regA uHub bMBX 0) &&& ~~~ (v &&& 0x1E#32)) ||| (hw &&& 0x1E#32)
    ∧ (∀ b < 32, nget 0 t.miss (regA uHub bMBX 0 * 32 + b) =
        if (v.toNat &&& hw.toNat &&& 0x1E).testBit b then min 255 (nget 0 s.miss (regA uHub bMBX 0 * 32 + b) + 1)
        else nget 0 s.miss (regA uHub bMBX 0 * 32 + b))
    ∧ t.ctl = s.ctl ∧ t.dies = s.dies ∧ MemKept s t ∧ RegsKept s t (· = regA uHub bMBX 0))
  ∧ ∀ q s, Passes opFlagMiss q s → ∃ t, exec (.flagMiss q) s = .next t
    ∧ Replied t q 0x601 sOK ((nrun 0 s.miss (canon (q.at 0 4) * 32) 32).map b8)
    ∧ (∀ k, nget 0 t.miss k = if ownerOf s.ctl = some q.from ∧ k / 32 = canon (q.at 0 4) then 0 else nget 0 s.miss k)
    ∧ MemKept s t ∧ HardKept s t ∧ RegsKept s t mbxReg

/-! ## Memory, events and Gecko records through packets -/

/-- MEM_READ of a local address outside the reserve and the check areas (R398): where the tile reads without an error, the reply
is OK and its bytes are the memory's; memory is as before. With a global address whose answer is awaited, the request stands in
the control plane and no reply goes out yet.
Where the manual is silent it says the model's own choices (log 11, 12, 23, 25 and 26). -/
def Obligations.MemoryReads : Prop :=
  (∀ q s, s.mem.wf → Passes opMemRead q s → isGlobal (q.at 0 8) = false → GoodTile s (memDie q) (q.at 0 8) → inReserve (q.at 0 8) = false →
    (∀ st off, storeOf (q.at 0 8) = some (st, off) → inCheckArea s (memDie q) st off = false) →
    (q.part = 0xFF ∨ permitted s q.part (memDie q) (q.at 0 8) false = true) →
    ∃ t, exec (.memRead q) s = .next t
      ∧ Replied t q 0x202 sOK ((List.range (q.at 10 2)).map fun i => byteAt s (keyOf (memDie q) (q.at 0 8) + i))
      ∧ MemKept s t ∧ HardKept s t ∧ t.sec = s.sec)
  ∧ ∀ q s, Passes opMemRead q s → isGlobal (q.at 0 8) = true →
    (askWindow (askerOf s q) (pktTag q) (q.at 0 8) 0 [] { s := arrive 0x202 q s }).1 = none →
    ∃ t, exec (.memRead q) s = .next t ∧ t.ctl.replies = s.ctl.replies
      ∧ t.ctl.winPkt = some { opcode := 0x202, pkt := q, die := (askerOf s q).val, tag := pktTag q }

/-- MEM_WRITE of a local address outside the reserve and the check areas (R114, R398): where the tile reads without an error, the
reply is OK, exactly the named bytes take the packet's, and the tile's check word is that of its new bytes; every other byte and
check word is as before. With a global address the tile is asked for first.
Where the manual is silent it says the model's own choices (log 11, 12, 23 and 26). -/
def Obligations.MemoryWrites : Prop :=
  (∀ q s, s.mem.wf → Passes opMemWrite q s → isGlobal (q.at 0 8) = false → GoodTile s (memDie q) (q.at 0 8) → inReserve (q.at 0 8) = false →
    (∀ st off, storeOf (q.at 0 8) = some (st, off) → inCheckArea s (memDie q) st off = false) →
    permitted s q.part (memDie q) (q.at 0 8 / 4096 * 4096) true = true →
    ∃ t, exec (.memWrite q) s = .next t ∧ Replied t q 0x203 sOK []
      ∧ (∀ k, byteAt t k = if keyOf (memDie q) (q.at 0 8) ≤ k ∧ k < keyOf (memDie q) (q.at 0 8) + q.at 10 2
          then atD 0 q.payload (16 + (k - keyOf (memDie q) (q.at 0 8))) else byteAt s k)
      ∧ (∀ x, checkAt t x = if x = keyOf (memDie q) (q.at 0 8) / 4096 then t.mem.tileCrc x else checkAt s x)
      ∧ HardKept s t ∧ t.sec = s.sec)
  ∧ ∀ q s, Passes opMemWrite q s → isGlobal (q.at 0 8) = true →
    (askWindow (askerOf s q) (pktTag q) (q.at 0 8) 0 [] { s := arrive 0x203 q s }).1 = none →
    ∃ t, exec (.memWrite q) s = .next t ∧ t.ctl.replies = s.ctl.replies
      ∧ t.ctl.winPkt = some { opcode := 0x203, pkt := q, die := (askerOf s q).val, tag := pktTag q }

/-- EVT_READ (R397): the entries of a ring as its reader sees them. EVENT_WRITE (R410, R411): a ring with room takes the oldest
event that waits for it, its 32 bytes stand at the write index, the index rises by one, and no other byte changes; where entries
were lost the EVENTS_LOST entry comes first, with their number.
Where the manual is silent it says the model's own choices (log 14 and 26). -/
def Obligations.EventRings : Prop :=
  (∀ q s, Passes opEvtRead q s → s.mem.errs = [] → (∀ i < q.at 8 4, slotOpen s (ringEntry s (q.at 0 4) (q.at 4 4 + i))) →
    ∃ t, exec (.evtRead q) s = .next t
    ∧ Replied t q 0x600 sOK ((List.range (q.at 8 4)).flatMap fun i => entryFor s q.from
        (s.mem.bytes (8 * 2 ^ 48 + (rget s (ringA (q.at 0 4) + 4)).toNat * 4096 + 32 * ((q.at 4 4 + i) % ringN s (q.at 0 4))) 32))
    ∧ ReplyFrame s t)
  ∧ (∀ (r : Fin 8) i h s, s.mem.wf → ringsUp s = true → ringUsed s r < ringN s r → s.mem.errs = [] → slotOpen s (ringSlot s r) →
    nget 0 s.lost r.val = 0 →
    s.hold.findIdx (waitsFor s r) = i → s.hold[i]? = some h →
    ∃ t, exec (.eventWrite r) s = .next t ∧ rget t (ringA r + 0x14) = rget s (ringA r + 0x14) + 1
      ∧ (∀ k, byteAt t k =
          let at_ := 8 * 2 ^ 48 + (rget s (ringA r + 4)).toNat * 4096 + 32 * ((rget s (ringA r + 0x14)).toNat % ringN s r)
          if at_ ≤ k ∧ k < at_ + 32
          then atD 0 (eventBytes (shownEvent s (fld (rget s (ringA r + 0x10)) 2 0) h.ev) ((rget s (ringA r + 0x14)).toNat / ringN s r % 2)) (k - at_)
          else byteAt s k)
      ∧ RegsKept s t (· = ringA r + 0x14) ∧ t.ctl = s.ctl ∧ HardKept s t
      ∧ t.hold = (if ((settledRings s h).filter (· != r.val)).isEmpty then s.hold.eraseIdx i
          else s.hold.set i { h with rings := (settledRings s h).filter (· != r.val), written := true }))
  ∧ ∀ (r : Fin 8) s, s.mem.wf → ringsUp s = true → ringUsed s r < ringN s r → s.mem.errs = [] → slotOpen s (ringSlot s r) →
    nget 0 s.lost r.val ≠ 0 →
    ∃ t, exec (.eventWrite r) s = .next t ∧ rget t (ringA r + 0x14) = rget s (ringA r + 0x14) + 1 ∧ nget 0 t.lost r.val = 0 ∧ t.hold = s.hold
      ∧ (let at_ := 8 * 2 ^ 48 + (rget s (ringA r + 4)).toNat * 4096 + 32 * ((rget s (ringA r + 0x14)).toNat % ringN s r)
        byteAt t at_ = 6 ∧ byteAt t (at_ + 1) = 0 ∧ ∀ i < 4, byteAt t (at_ + 24 + i) = atD 0 (natLE 4 (nget 0 s.lost r.val)) i)

/-- GEK_STEP (R286): the per-step records of a run of contexts take the packet's records, their static fields and every other
context are as before. GEK_READ (R397, R440): the 192 bytes of a context, or zeros for a master that no tenant is.
Where the manual is silent it says the model's own choices (log 26). -/
def Obligations.GeckoPackets : Prop :=
  (∀ q s, Passes opGekStep q s → ∃ t, exec (.gekStep q) s = .next t ∧ Replied t q 0x700 sOK []
    ∧ (∀ n, ctxOf (t.die (gekDie q)) n =
        if q.at 2 2 ≤ n ∧ n < q.at 2 2 + q.at 4 4
        then (ctxOf (s.die (gekDie q)) n).map fun c => { c with step := sub q.payload (8 + 64 * (n - q.at 2 2)) 64 }
        else ctxOf (s.die (gekDie q)) n)
    ∧ t.die (gekDie q) = { s.die (gekDie q) with ctx := (t.die (gekDie q)).ctx } ∧ (∀ e, e ≠ gekDie q → t.die e = s.die e)
    ∧ WriteFrame s t (fun _ => False))
  ∧ ∀ q s c, Passes opGekRead q s → ctxOf (s.die (gekDie q)) (q.at 2 2) = some c → ∃ t, exec (.gekRead q) s = .next t
    ∧ Replied t q 0x701 sOK (if coarsened s q.from (partOf s (gekDie q)) then zeros 192 else padTo 192 (c.static ++ c.step))
    ∧ ReplyFrame s t

/-! ## Roots of trust, identity, keys, debug -/

/-- IMAGE_VERIFY (R420 to R423): the next boot image whose active copy passes is measured into its register, its SVN is kept, and
no failure is recorded; where both copies fail BOOT_FAIL records it, image 0's failure enters boot recovery, and the dies of
image 1 and the channels of image 2 stay away. Both RoTs measure their own copies, the standby's use of its fallback sets BOOT_FALLBACK_SEEN (R422), and the standby mirrors from image 0 on while the measurements agree (R418).
Where the manual is silent it says the model's own choices (log 29 and 30). -/
def Obligations.BootImages : Prop :=
  (∀ (i : Fin 5) (x y : ImageCopies) s b, s.pwr.on = true → s.sec.recovery = false → s.sec.fwUp = false → nextImage s.sec = some i →
    s.sec.active[i] < 2 → b = copyBytes s.sec i.val s.sec.active[i] (if s.sec.active[i] = 0 then x.copy0 else x.copy1) →
    copyOk s.sec i b = true →
    ∃ t, exec (.imageVerify i x y) s = .next t
      ∧ t.sec.imageSvn[i] = some (rd b 4 4)
      ∧ t.sec.mr = s.sec.mr.set i.val (extended s.sec.mr[i.val] (sm3 (b.take 64)))
      ∧ (∀ k c, copyTaken s.sec i y = some (k, c) → t.sec.mrB = s.sec.mrB.set i (extended s.sec.mrB[i] (sm3 (c.take 64)))
        ∧ (k ≠ s.sec.active[i] → bitOf (rget t (regA uHub bSEC 0)) 5 = true))
      ∧ (t.sec.mirrorOk = true ↔ (i = 0 ∨ s.sec.mirrorOk = true) ∧ t.sec.mr.toList.take 5 = t.sec.mrB.toList)
      ∧ t.sec.bootFail = s.sec.bootFail ∧ t.sec.active = s.sec.active ∧ t.sec.recovery = false ∧ (t.sec.fwUp = true ↔ i = 4)
      ∧ t.ctl = s.ctl ∧ t.ports = s.ports ∧ t.clk = s.clk)
  ∧ ∀ (i : Fin 5) (x y : ImageCopies) s, s.pwr.on = true → s.sec.recovery = false → s.sec.fwUp = false → nextImage s.sec = some i →
    (∀ k < 2, copyOk s.sec i (copyBytes s.sec i.val k (if k = 0 then x.copy0 else x.copy1)) = false) →
    ∃ t, exec (.imageVerify i x y) s = .next t ∧ t.sec.bootFail = s.sec.bootFail ||| 2 ^ i.val ∧ t.sec.recovery = decide (i = 0)
      ∧ t.sec.imageSvn = s.sec.imageSvn ∧ t.sec.mr = s.sec.mr ∧ (i = 1 → ∀ d, (t.die d).absent = true)
      ∧ (i = 2 → ∀ n < 556, nget 0 t.tiers.chan n = 2)

/-- SEC_EXTEND (R423), SEC_SVN_COMMIT (R424) and SEC_FW_WRITE (R447): MR5 is extended and no other register of measurement is; a
counter rises to the value and none falls; the bytes stand in the flash's inactive copy, which takes effect at the next
always-on start.
Where the manual is silent it says the model's own choices (log 29). -/
def Obligations.Measurements : Prop :=
  (∀ q s, Passes opSecExtend q s → ∃ t, exec (.secExtend q) s = .next t ∧ Replied t q 0x503 sOK []
    ∧ t.sec = { s.sec with mr := s.sec.mr.set 5 (extended s.sec.mr[5] (q.payload.drop 4)) } ∧ MemKept s t ∧ HardKept s t)
  ∧ (∀ q s, Passes opSecSvnCommit q s → ∃ t, exec (.secSvnCommit q) s = .next t ∧ Replied t q 0x50C sOK []
    ∧ (∀ k : Fin 6, t.sec.svn[k] = if k.val = q.at 0 4 then max s.sec.svn[k] (q.at 4 4) else s.sec.svn[k])
    ∧ t.sec = { s.sec with svn := t.sec.svn } ∧ MemKept s t ∧ HardKept s t)
  ∧ ∀ q s, nwf none s.sec.flash → Passes opSecFwWrite q s → ∃ t, exec (.secFwWrite q) s = .next t ∧ Replied t q 0x50D sOK []
    ∧ (∀ k, nget none t.sec.flash k =
        let at_ := (2 * q.at 0 1 + q.at 1 1) * 2 ^ 32 + q.at 4 4
        if at_ ≤ k ∧ k < at_ + (q.payload.length - 8) then some (atD 0 q.payload (8 + (k - at_))) else nget none s.sec.flash k)
    ∧ t.sec.active = s.sec.active ∧ t.sec.mr = s.sec.mr ∧ t.sec.imageSvn = s.sec.imageSvn ∧ MemKept s t ∧ HardKept s t

/-- The controlling RoT (R418, R419): a heartbeat that reaches the standby restarts its count; when the active RoT stops while MIRROR_OK
is 1, a takeover can follow and until then the ports queue what arrives and nothing is replied; with MIRROR_OK 0, or hub B's RoT in
control, nothing is controlled any more and no port answers. After 256 cycles without a heartbeat the standby takes over, TAKEOVER_SEEN
sets and MIRROR_OK falls; the takeover leaves keys, partitions and lease as they were and acts on the packets that wait, here on one PING.
Where the manual is silent it says the model's own choices (log 30 and 48). -/
def Obligations.RootsOfTrust : Prop :=
  (∀ s, s.sec.fwUp = true → s.sec.rotStopped = false → s.sec.rotB = false → s.sec.noControl = false →
    exec .rotHeartbeat s = .next { s with sec := { s.sec with unheard := 0 } })
  ∧ (∀ s, s.sec.fwUp = true → ∃ t, exec .activeRotStop s = .next t
    ∧ (s.sec.mirrorOk = true → s.sec.rotB = false → t = { s with sec := { s.sec with rotStopped := true } } ∧ queues t = true)
    ∧ (s.sec.mirrorOk = false ∨ s.sec.rotB = true → t = { s with sec := { s.sec with noControl := true } } ∧ ∀ m n, answers t m n = false))
  ∧ (∀ q b s, s.sec.fwUp = true → s.sec.mirrorOk = true → s.sec.rotB = false → 4 ≤ s.sec.unheard → s.ctl.winPkt = none →
    s.ctl.queue = [⟨0x0000, q, b⟩] → s.ctl.submitted = false → answers s q.from q.hdr.net = true → q.hdr.flags.toNat.testBit 2 = false →
    opPing.refusal { s with ctl := { s.ctl with queue := [], arrived := some b }, sec := { s.sec with rotStopped := false } } q = none →
    ∃ t pl, exec .takeover s = .next t ∧ Replied t q 0x0000 sOK pl ∧ pl.length = 16 ∧ t.ctl.queue = [] ∧ t.ctl.lease = s.ctl.lease
      ∧ t.sec = { s.sec with rotB := true, rotStopped := false, mirrorOk := false } ∧ HardKept s t)
  ∧ ∀ s, s.sec.fwUp = true → s.sec.mirrorOk = true → s.sec.rotB = false → 4 ≤ s.sec.unheard → s.ctl.winPkt = none → s.ctl.queue = [] →
    ∃ t, exec .takeover s = .next t ∧ t.sec = { s.sec with rotB := true, rotStopped := false, mirrorOk := false } ∧ bitOf (rget t secA) 6 = true ∧ bitOf (rget t secA) 0 = true
    ∧ rget t (regA uHub bSEC 0x64) = satAdd (rget s (regA uHub bSEC 0x64)) 1 ∧ t.ctl = s.ctl ∧ t.regions = s.regions ∧ HardKept s t

/-- What the readers of identity and partitions reply (R397, R438, R439, R447): SEC_IDENTITY, SEC_CERT, SEC_ATTEST and PART_READ.
The bytes of a certificate, the layout of PART_READ and the scalar of a signature are the model's free values.
Where the manual is silent it says the model's own choices (log 7, 31, 32 and 36). -/
def Obligations.IdentityReaders : Prop :=
  (∀ q s, Passes opSecIdentity q s → ∃ t, exec (.secIdentity q) s = .next t ∧ Replied t q 0x500 sOK
    (natLE 8 s.sec.serial ++ natLE 4 (revision s) ++ natLE 2 (fuseBits s.sec) ++ [b8 (lifecycle s), b8 s.sec.debug]
      ++ (if lifecycle s = 3 then zeros 64 else pointLE (pubOf (idkPriv s.sec))) ++ natLE 32 s.sec.nonce.toNat) ∧ ReplyFrame s t)
  ∧ (∀ q s, Passes opSecCert q s → ∃ t, exec (.secCert q) s = .next t ∧ Replied t q 0x501 sOK
    (natLE 4 (certOf s.sec (q.at 0 4)).length ++ sub (certOf s.sec (q.at 0 4)) (q.at 4 4) 4056) ∧ ReplyFrame s t)
  ∧ (∀ q s, Passes opSecAttest q s → ∃ t, exec (.secAttest q) s = .next t ∧ ReplyFrame s t
    ∧ ∃ k, Replied t q 0x502 sOK (reportBody s q.part q.payload
        ++ natLE 32 (sm2Sign attId (atkPriv s.sec) k (reportBody s q.part q.payload)).1
        ++ natLE 32 (sm2Sign attId (atkPriv s.sec) k (reportBody s q.part q.payload)).2))
  ∧ ∀ q s, Passes opPartRead q s → ∃ t, exec (.partRead q) s = .next t ∧ Replied t q 0x801 sOK (partRead s) ∧ ReplyFrame s t

/-- SEC_KX_BEGIN (R434): the exchange pends with the tenant's identifier and keys and a fresh scalar; the reply holds the scalar's
point and S_B. KX_TIMEOUT ends an exchange that no SEC_KX_FINISH followed, without effect.
SEC_DEBUG_SET (R443) sets the debug level, never above None or Observe in Sealed; DEBUG_TOKEN_EXPIRY takes it to None in
Service once the token's EXPIRY_BEAT has come.
Where the manual is silent it says the model's own choices (log 31 and 32). -/
def Obligations.KeysAndDebug : Prop :=
  ((∀ q s, Passes opSecKxBegin q s → ∃ t x, exec (.secKxBegin q) s = .next t
    ∧ t.sec = { s.sec with kx := s.sec.kx.set (pktPart q) (some { tenantId := sub q.payload 0 16, pa := pointAt q 16, ra := pointAt q 80, scalar := x }) }
    ∧ Replied t q 0x504 sOK (pointLE (pubOf x)
        ++ (sm2Respond (sub q.payload 0 16) attId (pointAt q 16) (pointAt q 80) (atkPriv s.sec) x 128).1)
    ∧ MemKept s t ∧ HardKept s t)
  ∧ ∀ (p : Fin 8) s, ∃ t, exec (.kxTimeout p) s = .next t ∧ pendingKx t p = none
    ∧ (∀ e, e ≠ p → t.sec.kx[e] = s.sec.kx[e]) ∧ t = { s with sec := { s.sec with kx := t.sec.kx } })
  ∧ ((∀ q s, Passes opSecDebugSet q s → ∃ t, exec (.secDebugSet q) s = .next t ∧ Replied t q 0x509 sOK []
    ∧ t.sec = { s.sec with debug := q.at 0 1 } ∧ (lifecycle s = 1 → t.sec.debug ≤ 1) ∧ MemKept s t ∧ HardKept s t)
  ∧ ∀ s tok, lifecycle s = 2 → s.sec.token = some tok → tok.2 ≤ s.clk.beat →
    exec .debugTokenExpiry s = .next { s with sec := { s.sec with debug := 0 } })

/-! ## Power, supply, clocks, board -/

/-- PWR_LIMIT and PWR_READ (R464, R471): the two limit registers of the loop take the packet's values and no other register does;
a PWR_READ holds PWR_STATUS and every die's power state; what is measured is within its range, and zero of a die in Deep or Off and
before a whole window has closed.
POWER_TRANSITION_DONE (R454, R455): a die or a hub with a target stands in it, and has none any more; a die that comes from Off stays there
until its store rooms are filled and its stacks trained and filled, a unit that comes from Off as long as a reset that keeps it there stands
(R467), and a die whose schedule is not at rest stays in Run. A die that reaches Deep or Off has lost its SRAM: no context, no table, no
accumulator, its store rooms zero.
Where the manual is silent it says the model's own choices (log 38, 39 and 40). -/
def Obligations.PowerPacketsAndTransitions : Prop :=
  ((∀ q s, Passes opPwrLimit q s → ∃ t, exec (.pwrLimit q) s = .next t ∧ Replied t q 0x101 sOK []
    ∧ rget t (limA (q.at 0 4)) = w32 (q.at 4 4) ∧ rget t (limA (q.at 0 4) + 4) = w32 (q.at 8 4) ∧ t.dies = s.dies
    ∧ WriteFrame s t (fun a => a = limA (q.at 0 4) ∨ a = limA (q.at 0 4) + 4))
  ∧ (∀ q s, Passes opPwrRead q s → s.clk.up < beatsMs → (∀ d, (s.die d).pw = .off) → ∃ t, exec (.pwrRead q) s = .next t
    ∧ Replied t q 0x102 sOK (zeros 16 ++ natLE 4 (plainValue (arrive 0x102 q s) pwrA).toNat ++ zeros 12
        ++ (List.replicate 8 (zeros 12 ++ [4, 0, 0, 0])).flatten)
    ∧ ReplyFrame s t)
  ∧ (∀ q s, Passes opPwrRead q s → ∃ t pl, exec (.pwrRead q) s = .next t ∧ Replied t q 0x102 sOK pl ∧ ReplyFrame s t ∧ pl.length = 160
    ∧ rd pl 4 4 ≤ 4800 ∧ rd pl 16 4 = (plainValue (arrive 0x102 q s) pwrA).toNat ∧ rd pl 22 10 = 0
    ∧ (s.clk.up < beatsMs → rd pl 0 16 = 0 ∧ rd pl 20 2 = 0)
    ∧ ∀ d : Fin 8, rd pl (32 + 16 * d.val + 12) 4 = pwCode (s.die d).pw
      ∧ (if readsExactly s q.from d ∧ clkStood s d = true then rd pl (32 + 16 * d.val) 2 = freqOf s d % 65536
          else rd pl (32 + 16 * d.val) 2 ≤ 4000)
      ∧ (if readsExactly s q.from d ∧ railStood s d = true then
          rd pl (32 + 16 * d.val + 2) 2 = (rget s (regA d bPWR 4)).toNat % 65536 else rd pl (32 + 16 * d.val + 2) 2 ≤ 900)
      ∧ rd pl (32 + 16 * d.val + 8) 4 ≤ 4800
      ∧ ((s.die d).pw = .off ∨ s.clk.up < beatsMs → rd pl (32 + 16 * d.val + 8) 4 = 0)
      ∧ (darkDie (s.die d) = true ∨ (s.die d).up < beatsMs → rd pl (32 + 16 * d.val) 8 = 0)
      ∧ (coarsened s q.from (partOf s d) = true → rd pl (32 + 16 * d.val) 4 = 0)))
  ∧ ((∀ (d : Fin 8) x s, (s.die d).target = some x →
    ((s.die d).pw = .off → x ≠ .off → cellarReady s d = true ∧ heldOff s (.die d) = false) →
    (x = .run ∨ atRest.contains (s.die d).seq.st = true) → ∃ t, exec (.powerTransitionDone (.die d)) s = .next t ∧ (t.die d).pw = x ∧ (t.die d).target = none
      ∧ (∀ e, e ≠ d → (t.die e).pw = (s.die e).pw)
      ∧ (x = .off ∨ x = .deep → (s.die d).pw ≠ x → (t.die d).ctx = [] ∧ (∀ m : Fin 4, (t.die d).mv[m].bank0 = [] ∧ (t.die d).mv[m].valid = [])
        ∧ ∀ a < 0x320000000, byteAt t (dieKey d a) = 0))
  ∧ (∀ (d : Fin 8) x s, (s.die d).target = some x → x ≠ .run → atRest.contains (s.die d).seq.st = false →
    exec (.powerTransitionDone (.die d)) s = .next s)
  ∧ (∀ (d : Fin 8) x s, (s.die d).target = some x → (s.die d).pw = .off → x ≠ .off → (cellarReady s d = false ∨ heldOff s (.die d) = true) →
    exec (.powerTransitionDone (.die d)) s = .next s)
  ∧ (∀ (h : Fin 2) x s, s.pwr.hubTarget[h] = some x → s.pwr.hub[h] = .off → x ≠ .off → heldOff s (.hub h) = true →
    exec (.powerTransitionDone (.hub h)) s = .next s)
  ∧ ∀ (h : Fin 2) x s, s.pwr.hubTarget[h] = some x → (s.pwr.hub[h] = .off → x ≠ .off → heldOff s (.hub h) = false) →
    ∃ t, exec (.powerTransitionDone (.hub h)) s = .next t
    ∧ t.pwr.hub[h] = x ∧ t.pwr.hubTarget[h] = none ∧ (∀ e, e ≠ h → t.pwr.hub[e] = s.pwr.hub[e]) ∧ t.dies = s.dies)

/-- TRIP (R466) takes a die at 115 °C, or the die of a stack at 105 °C, to Off, with the cause recorded and THERMAL_SEEN; a hub
takes every die and both hubs with it. SUPPLY_RESET (R467, R469) does the same for the module's input or a hub's rail, and for a
die's rail with its die; a wake from Off that a trip or a reset meets ends (R470).
Where the manual is silent it says the model's own choices (log 40). -/
def Obligations.TripsAndResets : Prop :=
  (∀ (d : Fin 8) temp s, 115 ≤ temp → powered (s.die d) = true → ∃ t, exec (.trip (.die d) temp) s = .next t ∧ (t.die d).pw = .off ∧ (t.die d).target = none
    ∧ (t.die d).seq.st = .empty ∧ bitOf (rget t pwrA) 2 = true ∧ bitOf (rget t pwrA) 3 = true ∧ fld (rget t pwrA) 15 12 = 4
    ∧ ∀ e, e ≠ d → (t.die e).pw = (s.die e).pw)
  ∧ (∀ (k : Fin 16) temp s, 105 ≤ temp → powered (s.die (stackDie k)) = true → ∃ t, exec (.trip (.stack k) temp) s = .next t
    ∧ (t.die (stackDie k)).pw = .off ∧ (t.die (stackDie k)).target = none ∧ bitOf (rget t pwrA) 3 = true ∧ fld (rget t pwrA) 15 12 = 4)
  ∧ (∀ (h : Fin 2) temp s, 115 ≤ temp → s.pwr.hub[h] ≠ .off → ∃ t, exec (.trip (.hub h) temp) s = .next t
    ∧ moduleIsOff t = true ∧ bitOf (rget t pwrA) 3 = true ∧ fld (rget t pwrA) 15 12 = 5)
  ∧ (∀ s, s.pwr.on = true → s.pwr.resetInput = false → ∃ t, exec (.supplyReset .input) s = .next t ∧ moduleIsOff t = true
    ∧ t.pwr.resetInput = true ∧ bitOf (rget t pwrA) 2 = true ∧ fld (rget t pwrA) 15 12 = 1)
  ∧ (∀ (h : Fin 2) s, s.pwr.on = true → s.pwr.resetRail.contains (8 + h.val) = false → ∃ t, exec (.supplyReset (.rail (.hub h))) s = .next t
    ∧ moduleIsOff t = true ∧ fld (rget t pwrA) 15 12 = 3)
  ∧ ∀ (d : Fin 8) s, s.pwr.on = true → s.pwr.resetRail.contains d.val = false → powered (s.die d) = true →
    ∃ t, exec (.supplyReset (.rail (.die d))) s = .next t ∧ (t.die d).pw = .off ∧ (t.die d).target = none ∧ t.pwr.resetRail = s.pwr.resetRail ++ [d.val] ∧ bitOf (rget t pwrA) 3 = true ∧ fld (rget t pwrA) 15 12 = 2
      ∧ (∀ e, e ≠ d → (t.die e).pw = (s.die e).pw)

/-- SUPPLY_WARNING of the input at or below 44.0 V sets WARN_SEEN, counts, and stands until WARNING_RELEASE (R467, R468); SUPPLY_RESET_RELEASE ends a standing
reset; FLOW_LOW below 4.0 L/min sets FLOW_LOW (R478); ENABLE ramps the front end up (R472); a break of the short presence
contacts opens it, and without the ready contact takes the module down as a reset of cause 6 (R473, R474).
Where the manual is silent it says the model's own choices (log 40). -/
def Obligations.SupplyAndBoard : Prop :=
  (∀ mv s, s.pwr.on = true → s.pwr.warnInput = false → mv ≤ 44000 → ∃ t, exec (.supplyWarning .input mv) s = .next t ∧ warned t = true
    ∧ bitOf (rget t pwrA) 1 = true ∧ rget t (regA uHub bPWR 0xC) = satAdd (rget s (regA uHub bPWR 0xC)) 1
    ∧ t.dies = s.dies ∧ t.ports = s.ports ∧ t.sec = s.sec ∧ t.pwr = { s.pwr with warnInput := true })
  ∧ (∀ mv s, 44000 < mv → exec (.supplyWarning .input mv) s = .next s)
  ∧ (∀ u s, exec (.warningRelease u) s = .next { s with pwr := match u with
      | .input => { s.pwr with warnInput := false } | _ => { s.pwr with warnRail := s.pwr.warnRail.filter (· != (supplyNo u).2) } })
  ∧ (∀ s, exec (.supplyResetRelease .input) s = .next { s with pwr := { s.pwr with resetInput := false } })
  ∧ (∀ u s, exec (.supplyResetRelease (.rail u)) s = .next { s with pwr := { s.pwr with resetRail := s.pwr.resetRail.filter (· != unitNo u) } })
  ∧ (∀ flow s, s.pwr.on = true → flow < 400 → ∃ t, exec (.flowLow flow) s = .next t ∧ rget t pwrA = rget s pwrA ||| 0x10#32
    ∧ t.dies = s.dies ∧ t.pwr = s.pwr ∧ t.ctl = s.ctl ∧ t.clk = s.clk)
  ∧ (∀ s, exec .enable s = .next { s with pwr := { s.pwr with presence := true, enable := true, frontEnd := true } })
  ∧ (∀ s, s.pwr.presence = true → ∃ t, exec .presenceShortBreak s = .next t ∧ t.pwr.frontEnd = false ∧ t.pwr.presence = false
    ∧ (s.pwr.on = true → s.pwr.ready = false → moduleIsOff t = true ∧ fld (rget t pwrA) 15 12 = 6)
    ∧ (s.pwr.on = false ∨ s.pwr.ready = true → t = { s with pwr := { s.pwr with presence := false, frontEnd := false } }))

/-- The always-on domain (R467, R472, R483): below 30.0 V it stops, and what does not outlive it is at its reset value; it starts again
only behind a front end that has ramped up, and then all of memory is empty, the lease is FREE, the rings are disabled, every die and both hubs are Off, no image is verified and an image that
SEC_FW_WRITE wrote has become the active copy.
Where the manual is silent it says the model's own choices (log 8, 9 and 10). -/
def Obligations.AlwaysOn : Prop :=
  (∀ s, s.pwr.on = true → ∃ t, exec .alwaysOnStop s = .next t ∧ t.pwr.on = false ∧ (∀ m n, answers t m n = false) ∧ moduleIsOff t = true
    ∧ t.sec.svn = s.sec.svn ∧ t.sec.flash = s.sec.flash ∧ t.sec.ckptId = s.sec.ckptId ∧ t.sec.txEnd = s.sec.txEnd
    ∧ t.sec.fuseSealed = s.sec.fuseSealed ∧ t.sec.fuseRetired = s.sec.fuseRetired ∧ t.sec.service = s.sec.service
    ∧ (∀ p : Fin 8, t.sec.pk[p] = none) ∧ t.clk.module = s.clk.module ∧ fld (rget t pwrA) 15 12 = fld (rget s pwrA) 15 12)
  ∧ (∀ s, s.pwr.frontEnd = false → exec .alwaysOnStart s = .next s)
  ∧ ∀ s, s.pwr.on = false → s.pwr.frontEnd = true → ∃ t, exec .alwaysOnStart s = .next t ∧ t.pwr.on = true ∧ t.ctl = {} ∧ (∀ r < 8, ringN t r = 0)
    ∧ moduleIsOff t = true ∧ t.mem = {} ∧ t.fab = {} ∧ t.sec.fwUp = false ∧ t.sec.imageSvn = Vector.replicate 5 none ∧ t.clk.beat = 0
    ∧ ∀ i : Fin 5, t.sec.active[i] = if s.sec.written[i] then 1 - s.sec.active[i] % 2 else s.sec.active[i]

/-- The clocks (R457 to R460): the reference is locked, lost with REF_LOST_SEEN, and its holdover ends on the crystal; an epoch
pulse takes a pending CLK_LOAD, and where that begins an epoch-marker interval its count of scrubbed lines starts at 0 (R123); a pulse 256 reference periods after the last agrees, another one counts an error; a beat edge
advances the beat, which saturates (R13), and takes 64 cycles of the lease, which ends with its last beat (R403); a die below the
floor counts the beat, and its first one in a run sets THERMAL_SEEN (R466).
Where the manual is silent it says the model's own choices (log 5 and 41). -/
def Obligations.Clocks : Prop :=
  (∀ s, s.pwr.on = true → ∃ t, exec .referenceLock s = .next t ∧ rget t clkA = rget s clkA ||| 0xC#32 ∧ t.clk = { s.clk with holdover := false }
    ∧ RegsKept s t (· = clkA) ∧ t.dies = s.dies ∧ t.ctl = s.ctl ∧ t.mem = s.mem)
  ∧ (∀ s, bitOf (rget s clkA) 2 = true → ∃ t, exec .refLost s = .next t ∧ bitOf (rget t clkA) 2 = false ∧ bitOf (rget t clkA) 0 = true
    ∧ t.clk = { s.clk with holdover := true } ∧ t.dies = s.dies ∧ t.ctl = s.ctl)
  ∧ (∀ s, s.clk.holdover = true → ∃ t, exec .refHoldoverEnd s = .next t ∧ rget t clkA = rget s clkA &&& ~~~ 8#32
    ∧ t.clk = { s.clk with holdover := false } ∧ RegsKept s t (· = clkA))
  ∧ (∀ n s, s.pwr.on = true → bitOf (rget s clkA) 5 = true → ∃ t, exec (.markerPulse true n) s = .next t
    ∧ t.clk.beat = (rget s (regA uHub bCLK 0x10)).toNat * 2 ^ 32 + (rget s (regA uHub bCLK 0xC)).toNat ∧ bitOf (rget t clkA) 5 = false
    ∧ (t.clk.beat % 2 ^ 20 = 0 → ∀ d : Fin 8, rget t (regA d bMOV 0x820) = 0))
  ∧ (∀ n s, s.pwr.on = true → s.clk.lastPulse = some (256 * s.clk.up + n - 256) → 256 ≤ 256 * s.clk.up + n →
    ∃ t, exec (.markerPulse false n) s = .next t ∧ t.clk = { s.clk with lastPulse := some (256 * s.clk.up + n), agreed := min 16 (s.clk.agreed + 1) }
      ∧ bitOf (rget t clkA) 4 = decide (16 ≤ s.clk.agreed + 1) ∧ rget t (regA uHub bCLK 0x14) = rget s (regA uHub bCLK 0x14))
  ∧ (∀ n x s, s.pwr.on = true → s.clk.lastPulse = some x → x + 256 ≠ 256 * s.clk.up + n → ∃ t, exec (.markerPulse false n) s = .next t
    ∧ t.clk.agreed = 0 ∧ rget t (regA uHub bCLK 0x14) = satAdd (rget s (regA uHub bCLK 0x14)) 1 ∧ bitOf (rget t clkA) 1 = true)
  ∧ ∀ s, s.pwr.on = true → ∃ t, exec .beatEdge s = .next t ∧ t.clk = { s.clk with beat := min (s.clk.beat + 1) (2 ^ 64 - 1), up := s.clk.up + 1 }
    ∧ (ownerOf s.ctl = none ∨ 64 < s.ctl.leaseLeft → t.ctl = { s.ctl with leaseLeft := s.ctl.leaseLeft - 64 })
    ∧ (∀ m, ownerOf s.ctl = some m → s.ctl.leaseLeft ≤ 64 → t.ctl = { s.ctl with lease := .free, leaseId := 0, leaseLeft := 0 })
    ∧ (∀ p, t.port p = { s.port p with corrected := (t.port p).corrected })
    ∧ t.pwr = { s.pwr with belowFloor := t.pwr.belowFloor }
    ∧ ((ownerOf s.ctl = none ∨ 64 < s.ctl.leaseLeft) →
        (∀ d : Fin 8, floorMHz ≤ freqOf s d ∨ darkDie (s.die d) = true ∨ s.pwr.belowFloor.contains d.val = true) →
        t.mem = s.mem ∧ t.pwr = s.pwr)
    ∧ (∀ d : Fin 8, freqOf s d < floorMHz → darkDie (s.die d) = false →
        rget t (regA d bCLK 0xC) = satAdd (rget s (regA d bCLK 0xC)) 1 ∧ t.pwr.belowFloor.contains d.val = true
          ∧ (s.pwr.belowFloor.contains d.val = false → bitOf (rget t pwrA) 3 = true))
    ∧ ∀ d, (t.die d).pw = (s.die d).pw ∧ (t.die d).tokens = (s.die d).tokens ∧ (t.die d).seq.st = (s.die d).seq.st
      ∧ (t.die d).up = if (s.die d).pw = .run then (s.die d).up + 1 else (s.die d).up

/-- The adaptive loops (R461 to R466): the arithmetic clock moves one step of 25 MHz towards its goal, none upwards above the throttle
point or beyond what the margin sensors allow; a standing supply warning puts the goal at the floor, input power above its limit a step below the clock, and else it is a
multiple of 25 MHz not above the owner's upper limit; a rail moves one step of 2.5 mV and a laser's bias code by one, each towards a
value within its limits; a droop starts one stretch episode, whose end counts
a quarter of its edges; above the throttle point the clock falls a step, THROTTLED sets, and the first beat below the floor in a
run sets THERMAL_SEEN.
Where the manual is silent it says the model's own choices (log 41). -/
def Obligations.AdaptiveLoops : Prop :=
  (∀ (d : Fin 8) margin watts temp s, (s.die d).pw = .run → freqOf s d + 25 < 2 ^ 32 →
    ∃ t, exec (.frequencyStep d { margin, watts, temp }) s = .next t
    ∧ freqOf t d = (if freqGoal s d margin watts < freqOf s d then freqOf s d - 25
        else if freqOf s d < freqGoal s d margin watts ∧ temp ≤ limit s 4 1 ∧ freqOf s d + 25 ≤ margin then freqOf s d + 25 else freqOf s d)
    ∧ (pulled s d = true → freqGoal s d margin watts = floorMHz)
    ∧ (limit s 3 1 < watts → floorMHz < freqOf s d → freqOf t d = freqOf s d - 25)
    ∧ (pulled s d = false → watts ≤ limit s 3 1 → freqGoal s d margin watts = ownGoal s margin)
    ∧ ownGoal s margin ≤ limit s 0 1 ∧ ownGoal s margin % 25 = 0
    ∧ t.dies = s.dies ∧ t.pwr = { s.pwr with
        held := t.pwr.held, clkMoved := if freqOf t d = freqOf s d then s.pwr.clkMoved else s.pwr.clkMoved.set d s.clk.up }
    ∧ RegsKept s t (fun a => a = regA d bCLK 0 ∨ a = regA d bPWR 0) ∧ t.mem = s.mem)
  ∧ (∀ (d : Fin 8) asked margin s k lo hi g, (s.die d).pw = .run ∨ (s.die d).pw = .idle → railSteps s = (lo, hi) →
    k = s.pwr.rails[d] → g = max lo (min hi (2 * (asked - 650) / 5)) →
    (k < g ∨ (g < k ∧ freqOf s d ≤ margin) → ∃ t, exec (.voltageStep d { asked, margin }) s = .next t
      ∧ t.pwr.rails[d] = (if k < g then k + 1 else k - 1) ∧ rget t (regA d bPWR 4) = w32 (650 + 5 * t.pwr.rails[d] / 2)
      ∧ t.pwr = { s.pwr with rails := s.pwr.rails.set d t.pwr.rails[d], railMoved := s.pwr.railMoved.set d s.clk.up } ∧ RegsKept s t (· = regA d bPWR 4) ∧ t.dies = s.dies)
    ∧ (¬(k < g ∨ (g < k ∧ freqOf s d ≤ margin)) → exec (.voltageStep d { asked, margin }) s = .next s)
    ∧ (650 ≤ limit s 1 1 → 650 + 5 * hi / 2 ≤ limit s 1 1))
  ∧ (∀ (p : Fin 32) (l : Fin 8) (c : Byte) s b g, (s.port p).st ≠ .disabled → darkDie (s.die (dieOf p)) = false → limit s 5 0 < 64 →
    limit s 5 1 < 64 → b = fld (rget s (laneA p l.val)) 5 0 → g = max (limit s 5 0) (min (limit s 5 1) c.toNat) →
    ∃ t, exec (.laserBiasStep p l c) s = .next t
      ∧ fld (rget t (laneA p l.val)) 5 0 = (if b < g then b + 1 else if g < b then b - 1 else b)
      ∧ fld (rget t (laneA p l.val)) 31 6 = fld (rget s (laneA p l.val)) 31 6 ∧ RegsKept s t (· = laneA p l.val))
  ∧ (∀ (d : Fin 8) s, darkDie (s.die d) = false → bitOf (rget s (regA d bPWR 0)) 4 = false → ∃ t, exec (.droop d) s = .next t
    ∧ bitOf (rget t (regA d bPWR 0)) 4 = true ∧ rget t (regA d bCLK 4) = satAdd (rget s (regA d bCLK 4)) 1
    ∧ RegsKept s t (fun a => a = regA d bPWR 0 ∨ a = regA d bCLK 4))
  ∧ (∀ (d : Fin 8) n s, bitOf (rget s (regA d bPWR 0)) 4 = true → ∃ t, exec (.stretchEnd d n) s = .next t
    ∧ bitOf (rget t (regA d bPWR 0)) 4 = false
    ∧ (rget t (regA d bCLK 8)).toNat = min ((rget s (regA d bCLK 8)).toNat + n / 4) 0xFFFFFFFF
    ∧ RegsKept s t (fun a => a = regA d bPWR 0 ∨ a = regA d bCLK 8))
  ∧ ∀ (d : Fin 8) temp s, darkDie (s.die d) = false → limit s 4 1 < temp → ∃ t, exec (.thermalThrottle d temp) s = .next t
    ∧ freqOf t d = max 2000 (freqOf s d - 25) ∧ bitOf (rget t (regA d bPWR 0)) 3 = true
    ∧ (freqOf t d < floorMHz → t.pwr.belowFloor.contains d.val = true)
    ∧ (freqOf t d < floorMHz → s.pwr.belowFloor.contains d.val = false → bitOf (rget t pwrA) 3 = true) ∧ t.dies = s.dies

/-! ## Schedules -/

/-- SCHED_START, SCHED_STOP and SCHED_UNLOAD (R66, R67, R69): the partition's dies are Armed for the packet's beat with their tokens,
marks, sums, slots and log indices afresh, and the reply holds the module beat; an Armed die stops at once, a Running or Halted one
goes to Stopping with its queues empty; a die without its image is Empty, with no context. Other dies keep their schedule state.
RECIPE_SEED (R397): the seed of each recipe whose bit is set takes the packet's, every other recipe and its path are as before.
Where the manual is silent it says the model's own choices (log 28). -/
def Obligations.SchedulePackets : Prop :=
  ((∀ q s, Passes opSchedStart q s → ∃ t, exec (.schedStart q) s = .next t ∧ Replied t q 0x302 sOK (natLE 8 s.clk.beat)
    ∧ (∀ d, t.die d = if d ∈ diesOf s q.part then armDie (q.at 0 8) (s.die d) else s.die d)
    ∧ (∀ d ∈ diesOf s q.part, (t.die d).seq.st = .armed ∧ (t.die d).seq.startBeat = q.at 0 8 ∧ (t.die d).tokens = [] ∧ (t.die d).marks = []
      ∧ (t.die d).seq.logWr = 0 ∧ (t.die d).seq.haltValid = false ∧ (t.die d).epochs = [])
    ∧ (∀ p, t.port p = if dieOf p ∈ diesOf s q.part then { s.port p with corrected := Vector.replicate 8 0 } else s.port p)
    ∧ t.fab = s.fab ∧ t.sec = s.sec ∧ MemKept s t)
  ∧ (∀ q s, Passes opSchedStop q s → ∃ t, exec (.schedStop q) s = .next t ∧ Replied t q 0x303 sOK []
    ∧ (∀ d, (t.die d).seq.st = if d ∈ diesOf s q.part then (if (s.die d).seq.st = .armed then .stopped else .stopping) else (s.die d).seq.st)
    ∧ (∀ d ∈ diesOf s q.part, (s.die d).seq.st ≠ .armed → (∀ n : Fin 9, (t.die d).queues[n] = []) ∧ (t.die d).seq.fetching = false)
    ∧ t.sec.parts = s.sec.parts ∧ t.images = s.images)
  ∧ ∀ q s, Passes opSchedUnload q s → ∃ t, exec (.schedUnload q) s = .next t ∧ Replied t q 0x301 sOK []
    ∧ (∀ d ∈ diesOf s q.part, (t.die d).seq.st = .empty ∧ (t.die d).seq.space = [] ∧ (t.die d).ctx = [] ∧ ∀ m : Fin 4, (t.die d).mv[m].valid = [])
    ∧ (∀ d, d ∉ diesOf s q.part → t.die d = s.die d) ∧ (∀ h : q.part < 8, t.images[q.part] = {} ∧ t.fab.imageMaps[q.part] = none)
    ∧ t.sec = s.sec ∧ MemKept s t)
  ∧ (∀ q s, Passes opRecipeSeed q s → hasImage s q.part = true → ∃ t, exec (.recipeSeed q) s = .next t ∧ Replied t q 0x305 sOK []
    ∧ (∀ h : q.part < 8, ∀ r : Fin 8, (t.images[q.part]).recipes[r] =
        if (q.at 0 1).testBit r.val then { (s.images[q.part]).recipes[r] with seed := BitVec.ofNat 64 (q.at (8 + 8 * r.val) 8) }
        else (s.images[q.part]).recipes[r])
    ∧ t.dies = s.dies ∧ t.sec = s.sec ∧ MemKept s t)

/-- START_BEAT and SCHEDULE_STOPPED (R66, R67, R81, R492): an Armed die whose start beat has come begins at index 0 in Running,
every other die is as before; a die that has reached STOP, or is Stopping, enters Stopped once its queues are empty and its engines
done, cleanly where it was Running.
Where the manual is silent it says the model's own choices (log 3 and 5). -/
def Obligations.ScheduleEdges : Prop :=
  (∀ s, ∃ t, exec .startBeat s = .next t ∧ (∀ d, (s.die d).seq.st = .armed → (s.die d).seq.startBeat ≤ s.clk.beat →
      (t.die d).seq.st = .running ∧ (t.die d).seq.pc = 0 ∧ (t.die d).seq.fetching = true ∧ (t.die d).seq.stack = []
        ∧ (t.die d).tokens = (s.die d).tokens ∧ (t.die d).queues = (s.die d).queues)
    ∧ (∀ d, ((s.die d).seq.st ≠ .armed ∨ s.clk.beat < (s.die d).seq.startBeat) → t.die d = s.die d)
    ∧ t = { s with dies := t.dies })
  ∧ ∀ (d : Fin 8) s, idleDie (s.die d) = true →
    (((s.die d).seq.st = .running ∧ (s.die d).seq.stopped = true) ∨ (s.die d).seq.st = .stopping) →
    ∃ t, exec (.scheduleStopped d) s = .next t ∧ (t.die d).seq.st = .stopped ∧ (t.die d).cleanStop = decide ((s.die d).seq.st = .running)
      ∧ (∀ e, e ≠ d → t.die e = s.die e) ∧ t = { s with dies := t.dies }

/-! ## Ports and the fabric mode -/

/-- FAB_SETMODE (R341), PEER_TRAINING_START and TRAINING_DONE (R309, R312): the mode takes the packet's value; a DOWN port whose peer
trains goes to TRAINING and a DISABLED one stays; a training ends UP with the largest of the widths 8, 6, 4 and 2 that the passing
lanes allow where the peer is the one the owner's map gives, and DOWN with fewer than two lanes, without a peer or with another
one, and DOWN while the port's die is in Deep or Off (R455); the other ports are as before. Frames of types that a window mode does not
carry and that still wait for room are lost when it begins.
Where the manual is silent it says the model's own choices (log 21 and 54). -/
def Obligations.PortTraining : Prop :=
  (∀ q s, Passes opFabSetmode q s → ∃ t, exec (.fabSetmode q) s = .next t ∧ Replied t q 0x401 sOK []
    ∧ t.fab = { s.fab with mode := q.at 0 1 } ∧ t.dies = s.dies ∧ t.sec = s.sec ∧ MemKept s t
    ∧ ∀ p : Fin 32, t.port p = if q.at 0 1 = 0 then s.port p
        else { s.port p with waiting := (s.port p).waiting.filter fun b => windowType (rd b 0 1) })
  ∧ (∀ (p : Fin 32) s, (s.port p).st = .down → s.sec.bootFail.testBit 3 = false → ∃ t, exec (.peerTrainingStart p) s = .next t
    ∧ t.port p = { s.port p with st := .training } ∧ (∀ e, e ≠ p → t.port e = s.port e) ∧ t = { s with ports := t.ports })
  ∧ (∀ (p : Fin 32) s, (s.port p).st = .disabled → exec (.peerTrainingStart p) s = .next s)
  ∧ (∀ (p : Fin 32) lanes m e s, (s.port p).st = .training → darkDie (s.die (dieOf p)) = false → 2 ≤ ((List.range 8).filter fun l => atD false lanes l).length →
    (s.fab.ownerMap = none ∨ ∃ g, s.fab.ownerMap = some g ∧ cabled g s.clk.module p.val = some (m, e)) →
    ∃ t, exec (.trainingDone p lanes (some (m, e))) s = .next t ∧ (t.port p).st = .up
      ∧ (t.port p).width = widthFor ((List.range 8).filter fun l => atD false lanes l).length
      ∧ (t.port p).txSeq = (s.port p).txSeq ∧ (t.port p).rxNext = none ∧ (t.port p).retry = []
      ∧ rget t (portA p + 4) = w32 (m % 4096 * 2 ^ 20 + e % 32 * 2 ^ 15)
      ∧ (∀ x, x ≠ p → t.port x = s.port x) ∧ t.dies = s.dies ∧ MemKept s t)
  ∧ ∀ (p : Fin 32) lanes peer s, (s.port p).st = .training →
    (darkDie (s.die (dieOf p)) = true ∨ ((List.range 8).filter fun l => atD false lanes l).length < 2 ∨ peer = none
      ∨ ∃ g x, s.fab.ownerMap = some g ∧ peer = some x ∧ cabled g s.clk.module p.val ≠ some x) →
    ∃ t, exec (.trainingDone p lanes peer) s = .next t ∧ (t.port p).st = .down ∧ (t.port p).width = 0
      ∧ (∀ x, x ≠ p → t.port x = s.port x) ∧ t.dies = s.dies

/-! ## The tiers -/

/-- MEMORY_TRAINING_DONE, SLICE_FILL_DONE and STORE_ROOM_FILL_DONE (R118, R252, R260): a channel is trained, or ABSENT when both
attempts failed; a cellar's bad lanes take the repairs that are left, which are recorded, and the others stand in the erasure map; with the last channel of a loft its reserve is zero (R483). A tier whose
channels have settled is TRAINED after its fill, its slices zero with good check words, of a cellar, a loft and an attic; a die's store
rooms and gradient buffer are zero with INIT_DONE.
Where the manual is silent it says the model's own choices (log 10 and 42). -/
def Obligations.TrainingAndFills : Prop :=
  (∀ (ch : Channel) lanes s, nget 0 s.tiers.chan (chanNo ch) = 0 → tierPowered s (tierOf ch) = true → lanes.length ≤ 2 →
    (∀ x ∈ lanes, x < 34) → ∃ t, exec (.memoryTrainingDone ch false lanes) s = .next t
      ∧ (∀ n, nget 0 t.tiers.chan n = if n = chanNo ch then 1 else nget 0 s.tiers.chan n) ∧ t.dies = s.dies
      ∧ ((∀ h c, ch = .loft h c → settled t (.loft h) = false) → t.mem = s.mem)
      ∧ (∀ h c, ch = .loft h c → settled t (.loft h) = true → (∀ o < 32 * gib, byteAt t (hubKey (loftAt h.val + o)) = 0)
        ∧ ∀ x, ¬(hubKey (loftAt h.val) ≤ x ∧ x < hubKey (loftAt h.val) + 32 * gib) → byteAt t x = byteAt s x)
      ∧ ∀ k pc, ch = .cellar k pc →
        nget [] t.sec.fieldRepair (chanNo ch) = nget [] s.sec.fieldRepair (chanNo ch) ++ (repairLanes s (chanNo ch) lanes).1
        ∧ rget t (tierStatusA (.cellar k) + 0x100 + 4 * pc.val) = w32 (trainMap (repairLanes s (chanNo ch) lanes).2))
  ∧ (∀ (ch : Channel) lanes s, nget 0 s.tiers.chan (chanNo ch) = 0 → tierPowered s (tierOf ch) = true →
    ∃ t, exec (.memoryTrainingDone ch true lanes) s = .next t
      ∧ (∀ n, nget 0 t.tiers.chan n = if n = chanNo ch then 2 else nget 0 s.tiers.chan n) ∧ t.dies = s.dies)
  ∧ (∀ (k : Fin 16) s, isTrained s (.cellar k) = false → settled s (.cellar k) = true → tierPowered s (.cellar k) = true →
    s.sec.bootFail.testBit 2 = false → ∃ t, exec (.sliceFillDone (.cellar k)) s = .next t ∧ isTrained t (.cellar k) = true
      ∧ (∀ o < 96 * gib, byteAt t (dieKey (stackDie k) (0x1000000000 + o)) =
          if o / 4096 % 2 = k.val % 2 then 0 else byteAt s (dieKey (stackDie k) (0x1000000000 + o)))
      ∧ (∀ o < 96 * gib, o / 4096 % 2 = k.val % 2 → checkAt t (dieKey (stackDie k) (0x1000000000 + o) / 4096) = crcZeroTile)
      ∧ (∀ e, e ≠ stackDie k → ∀ a < 2 ^ 48, byteAt t (dieKey e a) = byteAt s (dieKey e a)) ∧ t.dies = s.dies)
  ∧ (∀ (h : Fin 2) s, isTrained s (.loft h) = false → settled s (.loft h) = true → tierPowered s (.loft h) = true →
    s.sec.bootFail.testBit 2 = false → ∃ t, exec (.sliceFillDone (.loft h)) s = .next t ∧ isTrained t (.loft h) = true
      ∧ (∀ o, 32 * gib ≤ o → o < 512 * gib → byteAt t (hubKey (loftAt h.val + o)) = 0 ∧ checkAt t (hubKey (loftAt h.val + o) / 4096) = crcZeroTile)
      ∧ (∀ o < 32 * gib, byteAt t (hubKey (loftAt h.val + o)) = byteAt s (hubKey (loftAt h.val + o))) ∧ t.dies = s.dies)
  ∧ (∀ (h : Fin 2) s, isTrained s (.attic h) = false → settled s (.attic h) = true → tierPowered s (.attic h) = true →
    s.sec.bootFail.testBit 2 = false → ∃ t, exec (.sliceFillDone (.attic h)) s = .next t ∧ isTrained t (.attic h) = true
      ∧ (∀ o < 1152 * gib, byteAt t (hubKey (atticAt h.val + o)) = 0 ∧ checkAt t (hubKey (atticAt h.val + o) / 4096) = crcZeroTile)
      ∧ (∀ x, ¬(hubKey (atticAt h.val) ≤ x ∧ x < hubKey (atticAt h.val) + 1152 * gib) → byteAt t x = byteAt s x) ∧ t.dies = s.dies)
  ∧ ∀ (d : Fin 8) s, storesReady s d = false → darkDie (s.die d) = false → ∃ t, exec (.storeRoomFillDone d) s = .next t
    ∧ storesReady t d = true ∧ (∀ a < 0x1000000000, byteAt t (dieKey d a) = 0 ∧ checkAt t (dieKey d a / 4096) = crcZeroTile)
    ∧ (∀ a, 0x1000000000 ≤ a → a < 2 ^ 48 → byteAt t (dieKey d a) = byteAt s (dieKey d a)) ∧ t.dies = s.dies

/-- PATROL_SCRUB, CORRECTED_WRITEBACK, REFRESH, CELLAR_RETRAIN and STACK_HOT (R116, R117, R154, R250, R251, R253, R255, R271, R461). In a store
room, a stacked tier and the gradient buffer a scrubbed line counts; one bit changed of a word is corrected, counted and waits to be
written back; two bits of one word are uncorrectable, counted, and stay. In the cellar, the loft and the attic a scrubbed code word counts;
one that its code corrects is counted and waits to be written back, an uncorrectable one is counted, sets UNCORR_SEEN and stays; a lane that
the cellar's decoder corrects is counted, and on its eighth code word is erased where fewer than two are. No byte changes but in the event
rings. The write-back of a line or code word leaves its cells as they were written; neither acts on a channel that a traffic generator
holds; HOT follows 85 °C.
Where the manual is silent it says the model's own choices (log 11 and 42). -/
def Obligations.ScrubAndRefresh : Prop :=
  (∀ (d : Fin 8) a st off s, storeOf a = some (st, off) → st.isExt = false → darkDie (s.die d) = false →
    (∀ u, u / 2 = dieKey d a / 128 → nget 0 s.mem.errs u = 0) →
    (∀ ctr b corr unc, ctr = (if st = .wgb then regA d bME 0x810 else regA d bMOV 0x820) → b = (if st = .wgb then regA d bME 0x800 else regA d bMOV 0x800) →
      corr = (if st = .wgb then regA d bME 0x808 else regA d bMOV 0x80C) → unc = (if st = .wgb then regA d bME 0x80C else regA d bMOV 0x810) →
      (∃ t, exec (.patrolScrub (dieKey d a) []) s = .next t ∧ rget t ctr = satAdd (rget s ctr) 1
        ∧ (∀ u, nget 0 t.mem.errs u = nget 0 s.mem.errs u) ∧ MemKept s t ∧ t.dies = s.dies ∧ RegsKept s t (· = ctr))
      ∧ (∀ i < 576, ∃ t, exec (.patrolScrub (dieKey d a) [2 ^ i]) s = .next t
        ∧ nget none t.mem.back (dieKey d a / 128 * 2) = some 0 ∧ MemKept s t ∧ rget t ctr = satAdd (rget s ctr) 1
        ∧ rget t corr = satAdd (rget s corr) 1 ∧ bitOf (rget t b) 0 = true ∧ RegsKept s t (fun x => x = ctr ∨ x = corr ∨ x = b))
      ∧ ∀ i j, i < j → j < 576 → i / 72 = j / 72 →
        ∃ t, exec (.patrolScrub (dieKey d a) [2 ^ i + 2 ^ j]) s = .next t ∧ nget 0 t.mem.errs (dieKey d a / 128 * 2) = 2 ^ i + 2 ^ j
        ∧ bitOf (rget t b) 2 = true ∧ rget t unc = satAdd (rget s unc) 1 ∧ rget t ctr = satAdd (rget s ctr) 1
        ∧ ((∀ r < 8, ringN s r = 0) → MemKept s t)))
  ∧ (∀ key st off s, storeOf (key % 2 ^ 48) = some (st, off) → st.isExt = true → keyPowered s key = true → keyBusy s key = false →
    nget 0 s.mem.errs (key / 64) = 0 → (∀ d b, d = keyDie key → b = tierBlock d st off →
      (∃ t, exec (.patrolScrub key []) s = .next t ∧ rget t (b + 0x20) = satAdd (rget s (b + 0x20)) 1
        ∧ (∀ u, nget 0 t.mem.errs u = nget 0 s.mem.errs u) ∧ MemKept s t ∧ t.dies = s.dies ∧ RegsKept s t (· = b + 0x20))
      ∧ (∀ p corr left, 0 < p → corr ≠ 0 → (match st with
          | .loft _ => p < 2 ^ 513 ∧ 2 ^ 512 ≤ p ∧ corr = 1 ∧ left = p % 2 ^ 512
          | .attic _ => (∃ i x, i < 10 ∧ x < 2 ^ 64 ∧ p = x * 2 ^ (64 * i)) ∧ corr = 1 ∧ left = 0
          | _ => p < 2 ^ 544 ∧ ∀ v, v = judgeCellar (erasedLanes (rget s (eraseMapA d off))) p
              (storedBytes s d st (key % 2 ^ 48 / 64 * 64) (off / 64 * 64) 64) id → v.lost = 0 ∧ v.corr = corr ∧ v.left = left) →
        ∃ t, exec (.patrolScrub key [p]) s = .next t ∧ nget none t.mem.back (key / 64) = some left
        ∧ rget t (b + 0xC) = satAdd (rget s (b + 0xC)) corr ∧ bitOf (rget t b) 0 = true ∧ rget t (b + 0x20) = satAdd (rget s (b + 0x20)) 1
        ∧ ((∀ r < 8, ringN s r = 0) → MemKept s t))
      ∧ (∀ p, (match st with
          | .loft _ => 2 ^ 513 ≤ p ∧ p < 2 ^ 514
          | .attic _ => False
          | _ => p < 2 ^ 544 ∧ (judgeCellar (erasedLanes (rget s (eraseMapA d off))) p
              (storedBytes s d st (key % 2 ^ 48 / 64 * 64) (off / 64 * 64) 64) id).lost ≠ 0) → 0 < p → ringsApart s key →
        ∃ t, exec (.patrolScrub key [p]) s = .next t ∧ nget 0 t.mem.errs (key / 64) = p ∧ nget none t.mem.back (key / 64) = nget none s.mem.back (key / 64)
        ∧ bitOf (rget t b) 1 = true ∧ rget t (b + 0x10) = satAdd (rget s (b + 0x10)) 1 ∧ ((∀ r < 8, ringN s r = 0) → MemKept s t))
      ∧ (∀ i j x y, i < j → j < 10 → 0 < x → x < 2 ^ 64 → 0 < y → y < 2 ^ 64 → (∃ h, st = .attic h) → ringsApart s key →
        ∃ t, exec (.patrolScrub key [x * 2 ^ (64 * i) + y * 2 ^ (64 * j)]) s = .next t ∧ ((∀ r < 8, ringN s r = 0) → MemKept s t)
        ∧ ((nget none t.mem.back (key / 64) = some 0 ∧ rget t (b + 0xC) = satAdd (rget s (b + 0xC)) 2 ∧ bitOf (rget t b) 0 = true)
          ∨ (nget 0 t.mem.errs (key / 64) = x * 2 ^ (64 * i) + y * 2 ^ (64 * j) ∧ bitOf (rget t b) 1 = true
            ∧ rget t (b + 0x10) = satAdd (rget s (b + 0x10)) 1)))
      ∧ ∀ p v l map, st = .cellar → 0 < p → p < 2 ^ 544 → map = eraseMapA d off →
        v = judgeCellar (erasedLanes (rget s map)) p (storedBytes s d st (key % 2 ^ 48 / 64 * 64) (off / 64 * 64) 64) id → v.lost = 0 →
        l ∈ v.lanes → l ∉ erasedLanes (rget s map) → ∃ t, exec (.patrolScrub key [p]) s = .next t
        ∧ nget 0 t.tiers.laneHits (laneKey d off l) = nget 0 s.tiers.laneHits (laneKey d off l) + 1
        ∧ (v.lanes = [l] → (nget 0 s.tiers.laneHits (laneKey d off l) < 7 ∨ 2 ≤ (erasedLanes (rget s map)).length) → rget t map = rget s map)
        ∧ (v.lanes = [l] → 7 ≤ nget 0 s.tiers.laneHits (laneKey d off l) → (erasedLanes (rget s map)).length < 2 →
          l ∈ erasedLanes (rget t map) ∧ rget t (b + 0x14) = satAdd (rget s (b + 0x14)) 1 ∧ bitOf (rget t b) 2 = true)))
  ∧ (∀ key s, keyBusy s key = true → ∀ ups, exec (.patrolScrub key ups) s = .next s ∧ exec (.correctedWriteback key) s = .next s)
  ∧ (∀ key s, keyBusy s key = false → ∃ t, exec (.correctedWriteback key) s = .next t
    ∧ (∀ u, (if (storeOf (key % 2 ^ 48)).any (fun x => x.1.isExt) then u = key / 64 else u / 2 = key / 128) →
      ∀ p, nget none s.mem.back u = some p → nget 0 t.mem.errs u = p ∧ nget none t.mem.back u = none)
    ∧ (∀ u, (¬(if (storeOf (key % 2 ^ 48)).any (fun x => x.1.isExt) then u = key / 64 else u / 2 = key / 128) ∨ nget none s.mem.back u = none) →
      nget 0 t.mem.errs u = nget 0 s.mem.errs u ∧ nget none t.mem.back u = nget none s.mem.back u)
    ∧ MemKept s t ∧ t = { s with mem := t.mem })
  ∧ (∀ a s, exec (.refresh a) s = .next s) ∧ (∀ k s, exec (.cellarRetrain k) s = .next s)
  ∧ ∀ (k : Fin 16) temp s, (s.die (stackDie k)).pw ≠ .off → ∃ t, exec (.stackHot k temp) s = .next t
    ∧ bitOf (rget t (tierStatusA (.cellar k))) 5 = decide (85 < temp) ∧ RegsKept s t (· = tierStatusA (.cellar k)) ∧ t.dies = s.dies ∧ t.mem = s.mem

/-- TG_START, TG_STOP and TG_COMPLETE (R271 to R273) of a cellar's, a loft's or an attic's channel: a start takes the configuration that the
registers hold, sets BUSY and clears every counter that the generator has, a stop writes CTRL and tells a run to end; the end, which with COUNT 0 only a stop brings, clears BUSY; a run that was
not told to stop has issued COUNT requests; without errors put in, what was written is what is read; and after a run that wrote the channel's range is zero.
Where the manual is silent it says the model's own choices (log 25 and 42). -/
def Obligations.TrafficGenerators : Prop :=
  (∀ (h : Hdr) (d : Fin 8) g ch s, genChan d g = some ch →
    (∀ a v, a = genA d ch → v = ((rget s a).toNat &&& 0x0FFFFFF0) + 1 → Passes opRegWrite (oneWord h a v) s →
      ∃ t, exec (.tgStart h d g) s = .next t ∧ Replied t (oneWord h a v) 0x201 sOK [] ∧ bitOf (rget t a) 2 = true
        ∧ (nget {} t.tiers.runs (chanNo ch)).count = (rget s (a + 0x10)).toNat
        ∧ fld (nget {} t.tiers.runs (chanNo ch)).ctrl 27 4 = fld (rget s a) 27 4
        ∧ (∀ o ∈ [0x24, 0x28, 0x2C, 0x30, 0x34, 0x38, 0x3C, 0x40], (regInfo (a + o)).isSome = true → rget t (a + o) = 0)
        ∧ nget false t.tiers.stopping (chanNo ch) = false ∧ t.dies = s.dies ∧ t.ports = s.ports ∧ MemKept s t))
  ∧ (∀ (h : Hdr) (d : Fin 8) g ch s, genChan d g = some ch →
    (∀ a v, a = genA d ch → v = ((rget s a).toNat &&& 0x0FFFFFF0) + 2 → Passes opRegWrite (oneWord h a v) s →
      ∃ t, exec (.tgStop h d g) s = .next t ∧ Replied t (oneWord h a v) 0x201 sOK [] ∧ rget t a = rget s a
        ∧ (bitOf (rget s a) 2 = true → nget false t.tiers.stopping (chanNo ch) = true)
        ∧ t.dies = s.dies ∧ t.ports = s.ports ∧ MemKept s t))
  ∧ ∀ (d : Fin 8) g ch s, genChan d g = some ch →
    (∀ a r, a = genA d ch → r = nget {} s.tiers.runs (chanNo ch) → bitOf (rget s a) 2 = true → (r.count ≠ 0 ∨ nget false s.tiers.stopping (chanNo ch) = true) →
      ∃ t, exec (.tgComplete d g) s = .next t ∧ bitOf (rget t a) 2 = false ∧ t.dies = s.dies ∧ t.ports = s.ports ∧ t.ctl = s.ctl
        ∧ (nget false s.tiers.stopping (chanNo ch) = false → rget t (a + 0x24) = w32 r.count)
        ∧ (fld r.ctrl 15 14 = 0 → s.mem.errs = [] → t.mem = s.mem)
        ∧ (fld r.ctrl 15 14 ≠ 0 → bitOf r.ctrl 5 = false → rget t (a + 0x28) = 0 ∧ rget t (a + 0x2C) = 0 ∧ rget t (a + 0x30) = 0)
        ∧ (fld r.ctrl 15 14 ≠ 0 → match ch with
          | .cellar k pc => ∀ o < 96 * gib, byteAt t (dieKey (stackDie k) (0x1000000000 + o)) =
              if o / 4096 % 64 = 2 * pc.val + k.val % 2 then 0 else byteAt s (dieKey (stackDie k) (0x1000000000 + o))
          | .loft h c => ∀ o < 512 * gib, byteAt t (hubKey (loftAt h.val + o)) = if o / 4096 % 16 = c.val then 0 else byteAt s (hubKey (loftAt h.val + o))
          | .attic h c => ∀ o < 1152 * gib, byteAt t (hubKey (atticAt h.val + o)) = if o / 4096 % 6 = c.val then 0 else byteAt s (hubKey (atticAt h.val + o))))

/-! ## The sequencer -/

/-- The sequencer (R60): it forwards the engine command at its place to the tail of that command's queue, whose engines have then been quiet for no beat (R91),
and goes on to the next in list order; where that queue holds 256 commands it stalls, and nothing changes; it forwards no control command, executes one only when its
waits hold, and forwards nothing while one waits.
Where the manual is silent it says the model's own choices (log 3). -/
def Obligations.SequencerForwards : Prop :=
  (∀ (d : Fin 8) ws s (h : cClass ws < 9), current (s.die d) = some ws → (s.die d).queues[cClass ws].length < 256 →
    ∃ t, exec (.sequencerForward d) s = .next t
      ∧ t.die d = { s.die d with
          queues := (s.die d).queues.set (cClass ws) ((s.die d).queues[cClass ws] ++ [{ idx := (s.die d).seq.pc, words := ws }])
          eng := stirred (enginesOf ws) (s.die d).eng
          seq := { (s.die d).seq with pc := (s.die d).seq.pc + 1 } }
      ∧ (∀ e, e ≠ d → t.die e = s.die e) ∧ t = { s with dies := t.dies })
  ∧ (∀ (d : Fin 8) ws s (h : cClass ws < 9), current (s.die d) = some ws → 256 ≤ (s.die d).queues[cClass ws].length →
    exec (.sequencerForward d) s = .next s)
  ∧ (∀ (d : Fin 8) ws s, current (s.die d) = some ws → cClass ws = 15 → exec (.sequencerForward d) s = .next s)
  ∧ (∀ (i : Instr) (d : Fin 8) ws s, i ∈ [Instr.nop d, .waitbeat d, .branch d, .call d, .seqReturn d, .stop d, .warm d, .sleep d] →
    current (s.die d) = some ws → (s.die d).seq.ctlHeld = false → waitsOf (s.die d) ws = .wait → exec i s = .next s)
  ∧ ∀ (i : Instr) (d : Fin 8) s, i ∈ [Instr.sequencerForward d, .nop d, .waitbeat d, .branch d, .call d, .seqReturn d, .stop d, .warm d, .sleep d] →
    current (s.die d) = none → exec i s = .next s

/-- The control commands (R62, R81, R82, R84), each ready at the sequencer's place: NOP goes on; WAITBEAT goes on at a schedule beat
from BEAT to BEAT + LATE and stays before it, and later than that, or held for log space until then (R89), it records an overrun of the
control queue with TIMING OVERRUN, or SUBSUMED on a halted die, which stays with it while it is held; BRANCH and CALL go to TARGET where the condition holds, a CALL pushing the next
index; RETURN goes where the last CALL said; STOP ends fetching. Each that completes with OK signals as its header says, its record stands at the
log's write index where its header asks for one, and it changes no other byte, no other field of its sequencer and nothing else.
Where the manual is silent it says the model's own choices (log 3). -/
def Obligations.ControlCommands : Prop :=
  (∀ (d : Fin 8) ws s, ControlReady s d 0 ws → ∃ t, exec (.nop d) s = .next t ∧ ControlFrame s t d ws (wentOn (s.die d).seq ws)
    ∧ (t.die d).eng = (s.die d).eng)
  ∧ (∀ (d : Fin 8) ws s, ControlReady s d 1 ws → (cw ws 5).toNat ≤ schedBeat s d → schedBeat s d ≤ (cw ws 5).toNat + fld (cw ws 6) 15 0 →
    ∃ t, exec (.waitbeat d) s = .next t ∧ ControlFrame s t d ws (wentOn (s.die d).seq ws) ∧ (t.die d).eng = (s.die d).eng)
  ∧ (∀ (d : Fin 8) ws s, ControlReady s d 1 ws → schedBeat s d < (cw ws 5).toNat → exec (.waitbeat d) s = .next s)
  ∧ (∀ (d : Fin 8) ws s, ControlReady s d 1 ws → RecordFits s d → (cw ws 5).toNat + fld (cw ws 6) 15 0 < schedBeat s d →
    (∀ i < 32, ¬ inRing s (nextRecord s d + i)) →
    ∃ t, exec (.waitbeat d) s = .next t ∧ (t.die d).seq.pc = (s.die d).seq.pc + 1
      ∧ (t.die d).seq.overruns = satAdd (s.die d).seq.overruns 1 ∧ (t.die d).seq.overrun.contains 15 = true ∧ bitOf (rget t (seqStatusA d)) 6 = true
      ∧ (t.die d).seq.logWr = (s.die d).seq.logWr + 1 ∧ Signalled (s.die d) (t.die d) ws ∧ byteAt t (nextRecord s d + 7) = sOVERRUN)
  ∧ (∀ (d : Fin 8) ws s, current (s.die d) = some ws → cClass ws = 15 → cOp ws = 1 → (s.die d).seq.ctlHeld = true → RecordFits s d →
    (s.die d).seq.ctlTiming = 0 → (cw ws 5).toNat + fld (cw ws 6) 15 0 < schedBeat s d → (∀ i < 32, ¬ inRing s (nextRecord s d + i)) →
    ∃ t, exec (.waitbeat d) s = .next t ∧ (t.die d).seq.pc = (s.die d).seq.pc + 1 ∧ (t.die d).seq.ctlHeld = false
      ∧ (t.die d).seq.overruns = satAdd (s.die d).seq.overruns 1 ∧ (t.die d).seq.logWr = (s.die d).seq.logWr + 1 ∧ Signalled (s.die d) (t.die d) ws
      ∧ byteAt t (nextRecord s d + 7) = if (s.die d).seq.st = .halted then sSUBSUMED else sOVERRUN)
  ∧ (∀ (d : Fin 8) ws s, current (s.die d) = some ws → cClass ws = 15 → cOp ws = 1 → (s.die d).seq.ctlHeld = true → RecordFits s d →
    (s.die d).seq.ctlTiming ≠ 0 → (cw ws 5).toNat ≤ schedBeat s d →
    ∃ t, exec (.waitbeat d) s = .next t ∧ (t.die d).seq.pc = (s.die d).seq.pc + 1 ∧ (t.die d).seq.ctlHeld = false
      ∧ (t.die d).seq.overruns = (s.die d).seq.overruns ∧ (t.die d).seq.logWr = (s.die d).seq.logWr + 1 ∧ Signalled (s.die d) (t.die d) ws
      ∧ byteAt t (nextRecord s d + 7) = (s.die d).seq.ctlTiming)
  ∧ (∀ (d : Fin 8) ws s, ControlReady s d 2 ws → ∃ t, exec (.branch d) s = .next t
    ∧ ControlFrame s t d ws (if condHolds (s.die d) ws then wentTo (s.die d).seq ws (s.die d).seq.pc (fld (cw ws 7) 21 0) else wentOn (s.die d).seq ws)
    ∧ (t.die d).eng = (s.die d).eng)
  ∧ (∀ (d : Fin 8) ws s, ControlReady s d 3 ws → ∃ t, exec (.call d) s = .next t
    ∧ ControlFrame s t d ws (if condHolds (s.die d) ws then
          { wentTo (s.die d).seq ws (s.die d).seq.pc (fld (cw ws 7) 21 0) with stack := ((s.die d).seq.pc + 1) :: (s.die d).seq.stack }
        else wentOn (s.die d).seq ws)
    ∧ (t.die d).eng = (s.die d).eng)
  ∧ (∀ (d : Fin 8) ws x rest s, ControlReady s d 4 ws → (s.die d).seq.stack = x :: rest → ∃ t, exec (.seqReturn d) s = .next t
    ∧ ControlFrame s t d ws { wentTo (s.die d).seq ws (s.die d).seq.pc x with stack := rest } ∧ (t.die d).eng = (s.die d).eng)
  ∧ ∀ (d : Fin 8) ws s, ControlReady s d 5 ws → ∃ t, exec (.stop d) s = .next t
    ∧ ControlFrame s t d ws { wentOn (s.die d).seq ws with fetching := false, stopped := true } ∧ (t.die d).eng = (s.die d).eng ∧ current (t.die d) = none

/-- WARM and SLEEP (R81, R91): a WARM starts waking each named engine that is in Idle or Nap and leaves one in Run or waking; a SLEEP marks each named engine for its level, or for Nap where it was on its way there, but for one that sleeps as deep already; the other engines are as before.
Where the manual is silent it says the model's own choices (log 46). -/
def Obligations.WarmAndSleep : Prop :=
  (∀ (d : Fin 8) ws s, ControlReady s d 6 ws → ∃ t, exec (.warm d) s = .next t ∧ ControlFrame s t d ws (wentOn (s.die d).seq ws)
    ∧ ∀ e : Fin 17, (t.die d).eng[e] = if bitOf (cw ws 5) e then warm (engineFree (s.die d) e) (s.die d).eng[e] else (s.die d).eng[e])
  ∧ ∀ (d : Fin 8) ws s, ControlReady s d 7 ws → ∃ t, exec (.sleep d) s = .next t ∧ ControlFrame s t d ws (wentOn (s.die d).seq ws)
    ∧ ∀ e : Fin 17, (t.die d).eng[e] =
        if bitOf (cw ws 5) e = true ∧ ¬((s.die d).eng[e].st = .nap ∨ ((s.die d).eng[e].st = .idle ∧ bitOf (cw ws 6) 0 = false))
        then { (s.die d).eng[e] with sleepTo := some (bitOf (cw ws 6) 0 || (s.die d).eng[e].sleepTo == some true) } else (s.die d).eng[e]

/-- A control command whose wait stands on a marked token completes with EPOCH, and the die halts (R76, R90): whatever the command,
the first failure of a run is recorded with its class and status, the sequencer stops fetching, and a signalling command marks its
token instead of raising it. -/
def Obligations.MarkedWaitHalts : Prop :=
  ∀ (d : Fin 8) ws s, current (s.die d) = some ws → cClass ws = 15 → waitsOf (s.die d) ws = .epoch → (s.die d).seq.ctlHeld = false →
    (s.die d).seq.haltValid = false → ∃ t, exec (match cOp ws with
        | 0 => .nop d | 1 => .waitbeat d | 2 => .branch d | 3 => .call d | 4 => .seqReturn d | 5 => .stop d | 6 => .warm d | _ => .sleep d) s
        = .next t
      ∧ (cOp ws ≤ 7 → (t.die d).seq.st = .halted ∧ (t.die d).seq.fetching = false ∧ (t.die d).seq.haltValid = true
        ∧ (t.die d).seq.haltClass = 15 ∧ (t.die d).seq.haltStatus = sEPOCH ∧ (t.die d).tokens = (s.die d).tokens
        ∧ (cSignalEn ws = true → nget false (t.die d).marks (cSignal ws) = true))

/-- COMMAND_COMPLETE (R72, R87 to R90): a started command whose work is done with OK or EMPTY leaves the started ones, signals its token, fills its
summary slot (R174, R176), and adds its counters to its queue's sums; its record, where it has one, stands at the log's write index, which rises by one; with no
more than 160 free entries it is held instead, and only LOG_STALLS rises. One that failed halts its die.
OVERRUN (R78, R80, R266): a started command, of the mover too, or the head of a queue, whose budget clock is over counts one overrun, sets
OVERRUN_SEEN and takes the TIMING OVERRUN, or SUBSUMED on a Halted die; it runs on. One that completes past its budget overruns so too.
Where the manual is silent it says the model's own choices (log 4 and 5). -/
def Obligations.CommandCompletes : Prop :=
  ((∀ (d : Fin 8) k c s (h : cClass c.words < 9), (s.die d).pw = .run → (s.die d).started[k]? = some c → workDone s d c = true →
    failing c.status = false → c.timing = 0 → pastBudget s.clk.beat c.clock c.words = false → (cLog c.words = false ∨ RecordFits s d) →
    ∃ t, exec (.commandComplete d k) s = .next t ∧ (t.die d).started = (s.die d).started.eraseIdx k ∧ Signalled (s.die d) (t.die d) c.words
      ∧ (t.die d).qsum[cClass c.words] =
          #v[satAdd (s.die d).qsum[cClass c.words][0] c.ctr.ovf.toNat, satAdd (s.die d).qsum[cClass c.words][1] c.ctr.sat.toNat,
             satAdd (s.die d).qsum[cClass c.words][2] c.ctr.ufz.toNat, satAdd (s.die d).qsum[cClass c.words][3] c.ctr.scrub.toNat]
      ∧ (t.die d).seq = { (s.die d).seq with logWr := if cLog c.words then (s.die d).seq.logWr + 1 else (s.die d).seq.logWr }
      ∧ (t.die d).queues = (s.die d).queues ∧ (t.die d).marks = (s.die d).marks ∧ (∀ e, e ≠ d → t.die e = s.die e)
      ∧ (∀ n : Fin 16, (t.die d).summ[n] = match c.summ with
        | some x => if n.val = x.1 % 16 then x.2 else (s.die d).summ[n]
        | none => (s.die d).summ[n])
      ∧ (c.feed = none → (t.die d).hist = (s.die d).hist)
      ∧ (cLog c.words = false → MemKept s t)
      ∧ (cLog c.words = true → ∀ k, byteAt t k =
          let at_ := nextRecord s d
          if at_ ≤ k ∧ k < at_ + 32 then atD 0 (recordBytes c (cClass c.words) (schedAt (s.die d) c.clock) (schedBeat s d)) (k - at_)
          else byteAt s k))
  ∧ (∀ (d : Fin 8) k c s, (s.die d).pw = .run → (s.die d).started[k]? = some c → workDone s d c = true →
    failing c.status = false → c.held = false → (c.timing ≠ 0 ∨ (cLog c.words = true ∧ pastBudget s.clk.beat c.clock c.words = false)) →
    logFree (s.die d).seq ≤ 160 →
    ∃ t, exec (.commandComplete d k) s = .next t ∧ (t.die d).seq = { (s.die d).seq with logStalls := satAdd (s.die d).seq.logStalls 1 }
      ∧ (t.die d).tokens = (s.die d).tokens ∧ (t.die d).started.length = (s.die d).started.length ∧ MemKept s t)
  ∧ (∀ (d : Fin 8) k c s, (s.die d).pw = .run → (s.die d).started[k]? = some c → workDone s d c = true → failing c.status = false →
    c.timing = 0 → pastBudget s.clk.beat c.clock c.words = true → RecordFits s d → (∀ i < 32, ¬ inRing s (nextRecord s d + i)) →
    ∃ t, exec (.commandComplete d k) s = .next t ∧ (t.die d).started = (s.die d).started.eraseIdx k ∧ Signalled (s.die d) (t.die d) c.words
      ∧ (t.die d).seq.overruns = satAdd (s.die d).seq.overruns 1 ∧ bitOf (rget t (seqStatusA d)) 6 = true
      ∧ (t.die d).seq.logWr = (s.die d).seq.logWr + 1
      ∧ byteAt t (nextRecord s d + 7) = if (s.die d).seq.st = .halted then sSUBSUMED else sOVERRUN)
  ∧ ∀ (d : Fin 8) k c s, (s.die d).pw = .run → (s.die d).started[k]? = some c → workDone s d c = true → failing c.status = true →
    ∃ t, exec (.commandComplete d k) s = .next t ∧ (t.die d).seq.fetching = false
      ∧ (t.die d).seq.st = (if (s.die d).seq.st = .running then .halted else (s.die d).seq.st)
      ∧ (t.die d).seq.halted.contains (cClass c.words) = true ∧ (t.die d).tokens = (s.die d).tokens
      ∧ ((s.die d).seq.haltValid = false → (t.die d).seq.haltStatus = c.status ∧ (t.die d).seq.haltClass = cClass c.words)
      ∧ ((s.die d).seq.haltValid = true → (t.die d).seq.haltStatus = (s.die d).seq.haltStatus))
  ∧ (∀ (d : Fin 8) (q : Fin 9) c rest b s, (s.die d).queues[q] = c :: rest → c.clock = some b → overBudget s.clk.beat b c.words = true →
    c.timing = 0 → (s.die d).seq.halted.contains q.val = false →
    ∃ t, exec (.overrun d ((s.die d).started.length + q.val)) s = .next t ∧ (t.die d).seq.overruns = satAdd (s.die d).seq.overruns 1
      ∧ bitOf (rget t (seqStatusA d)) 6 = true
      ∧ (t.die d).queues = (s.die d).queues.set q ({ c with timing := if (s.die d).seq.st = .halted then sSUBSUMED else sOVERRUN } :: rest)
      ∧ (t.die d).started = (s.die d).started ∧ (t.die d).tokens = (s.die d).tokens ∧ (∀ e, e ≠ d → t.die e = s.die e))
  ∧ (∀ (d : Fin 8) k c s, (s.die d).started[k]? = some c → c.timing = 0 → overBudget s.clk.beat c.clock c.words = true →
    ∃ t, exec (.overrun d k) s = .next t ∧ (t.die d).seq.overruns = satAdd (s.die d).seq.overruns 1 ∧ bitOf (rget t (seqStatusA d)) 6 = true
      ∧ (t.die d).started = (s.die d).started.map (fun x => if x.uid = c.uid then
          { x with timing := if (s.die d).seq.st = .halted then sSUBSUMED else sOVERRUN } else x)
      ∧ (t.die d).queues = (s.die d).queues ∧ (t.die d).tokens = (s.die d).tokens ∧ (t.die d).seq.st = (s.die d).seq.st
      ∧ (∀ e, e ≠ d → t.die e = s.die e))

/-- Engine sleep (R91, R92): a free engine goes to the level that a SLEEP named; from Run to Idle after IDLE_HOLD beats without a
command, where a SLEEP to Nap still stands, from Idle to Nap after NAP_HOLD beats when that is not 0; a waking engine reaches Run. Nap discards an ME's
accumulators, Idle keeps them. The other engines and dies are as before.
Where the manual is silent it says the model's own choices (log 5 and 46). -/
def Obligations.EngineSleep : Prop :=
  (∀ (d : Fin 8) (e : Fin 17) n s, (s.die d).eng[e].sleepTo = some n →
    ((s.die d).eng[e].st = .run ∨ ((s.die d).eng[e].st = .idle ∧ n = true)) → engineFree (s.die d) e = true →
    ∃ t, exec (.engineSleepEnter d e) s = .next t ∧ (t.die d).eng[e] = { st := if n then .nap else .idle, quiet := (s.die d).eng[e].quiet }
      ∧ (∀ x, x ≠ e → (t.die d).eng[x] = (s.die d).eng[x])
      ∧ (∀ m : Fin 4, (t.die d).mv[m] = if n = true ∧ e.val = m.val then { (s.die d).mv[m] with bank0 := [], bank1 := [] } else (s.die d).mv[m])
      ∧ (∀ x, x ≠ d → t.die x = s.die x) ∧ t = { s with dies := t.dies })
  ∧ (∀ (d : Fin 8) (e : Fin 17) s, (s.die d).eng[e].st = .run → engineFree (s.die d) e = true → max 1 (s.die d).seq.idleHold ≤ (s.die d).eng[e].quiet →
    ∃ t, exec (.engineIdle d e) s = .next t ∧ t.die d = { s.die d with eng := (s.die d).eng.set e { st := .idle, sleepTo := (s.die d).eng[e].sleepTo.filter (·), quiet := (s.die d).eng[e].quiet } }
      ∧ (∀ x, x ≠ d → t.die x = s.die x) ∧ t = { s with dies := t.dies })
  ∧ (∀ (d : Fin 8) (e : Fin 17) s, (s.die d).eng[e].st = .idle → (s.die d).seq.napHold ≠ 0 → (s.die d).seq.napHold ≤ (s.die d).eng[e].idle →
    ∃ t, exec (.engineNap d e) s = .next t ∧ (t.die d).eng = (s.die d).eng.set e { st := .nap, quiet := (s.die d).eng[e].quiet }
      ∧ (∀ m : Fin 4, (t.die d).mv[m] = if e.val = m.val then { (s.die d).mv[m] with bank0 := [], bank1 := [] } else (s.die d).mv[m])
      ∧ (t.die d).hist = (s.die d).hist ∧ (t.die d).ctx = (s.die d).ctx ∧ (∀ x, x ≠ d → t.die x = s.die x) ∧ t = { s with dies := t.dies })
  ∧ ∀ (d : Fin 8) (e : Fin 17) s, (s.die d).eng[e].st = .waking → ∃ t, exec (.engineWakeDone d e) s = .next t
    ∧ t.die d = { s.die d with eng := (s.die d).eng.set e { (s.die d).eng[e] with st := .run } }
    ∧ (∀ x, x ≠ d → t.die x = s.die x) ∧ t = { s with dies := t.dies }

/-! ## The engines -/

/-- Every engine command that is ready at its queue's head starts (R61, R76, R78, R91): it leaves its queue and stands among the
started commands with its budget clock, no sequencer, queue or power of any die changes otherwise, and everything it did is what
its opcode's work does from there. It covers every row of the matrix and vector engines, the frog engines, the newt engine, the
sorter, the mover, the Gecko units and the fabric engine.
Where the manual is silent it says the model's own choices (log 3 and 4). -/
def Obligations.EngineCommandsRun : Prop :=
  ∀ (i : Instr) (d : Fin 8) (q : Fin 9) (op : Nat) (acc : Accept) (work : Nat → Nat → Words → W Res) (c : Queued) (rest : List Queued)
    (s : State), engineRow i = some (d, q, op, acc, work) → Ready s d q op acc c rest →
    ∃ t, exec i s = .next t ∧ StartedFrom s t d q c rest ∧ EngineFrame s t
      ∧ (∀ e, e ≠ d → (t.die e).seq = (s.die e).seq ∧ (t.die e).queues = (s.die e).queues ∧ (t.die e).pw = (s.die e).pw)
      ∧ WorkLeft (work c.idx (s.die d).nextUid c.words { s := prepared s d q c rest }) s t d

/-- When an engine command does not start (R61, R76, R91): with no command of its opcode at the head, a wait that does not hold, a
halted queue, or an engine that cannot accept it, nothing changes; a wait on a marked token completes it at once with EPOCH,
without any work, as the failure that it is (R90, R386); with a sleeping engine the engine begins to wake and the command keeps its place and its budget clock.
Where the manual is silent it says the model's own choices (log 3 and 4). -/
def Obligations.EngineStarts : Prop :=
  (∀ i d q op acc work s, engineRow i = some (d, q, op, acc, work) →
    (∀ c rest, (s.die d).queues[q] = c :: rest → cOp c.words = op → waitsOf (s.die d) c.words = .wait) → exec i s = .next s)
  ∧ (∀ i d q op acc work s, engineRow i = some (d, q, op, acc, work) → (s.die d).seq.halted.contains q.val = true → exec i s = .next s)
  ∧ (∀ i d q op acc work c rest s, engineRow i = some (d, q, op, acc, work) → AtHead s d q op c rest → waitsOf (s.die d) c.words = .hold →
    ((enginesOf c.words).all fun e => (s.die d).eng[e].st == .run) = true → acc s d c.words = false → exec i s = .next s)
  ∧ (∀ i d q op acc work c rest s, engineRow i = some (d, q, op, acc, work) → AtHead s d q op c rest → waitsOf (s.die d) c.words = .epoch →
    ∃ t, exec i s = .next t ∧ (t.die d).queues = (s.die d).queues.set q rest ∧ (t.die d).nextUid = (s.die d).nextUid + 1
      ∧ (t.die d).tokens = (s.die d).tokens ∧ (cSignalEn c.words = true → nget false (t.die d).marks (cSignal c.words) = true)
      ∧ (t.die d).seq.fetching = false ∧ (t.die d).seq.st = (if (s.die d).seq.st = .running then .halted else (s.die d).seq.st)
      ∧ (t.die d).seq.halted.contains q.val = true
      ∧ ((s.die d).seq.haltValid = false → (t.die d).seq.haltStatus = sEPOCH ∧ (t.die d).seq.haltClass = q.val)
      ∧ (t.die d).mv = (s.die d).mv ∧ (t.die d).ctx = (s.die d).ctx ∧ (t.die d).hist = (s.die d).hist ∧ (t.die d).summ = (s.die d).summ
      ∧ ((s.die d).slots.toList.all (·.isNone) = true → (t.die d).started = (s.die d).started ∧ (∀ e, e ≠ d → t.die e = s.die e)
        ∧ t.ports = s.ports ∧ t.fab = s.fab))
  ∧ ∀ i d q op acc work c rest s, engineRow i = some (d, q, op, acc, work) → AtHead s d q op c rest → waitsOf (s.die d) c.words = .hold →
    ((enginesOf c.words).all fun e => (s.die d).eng[e].st == .run) = false →
    ∃ t, exec i s = .next t ∧ t = { s with dies := t.dies } ∧ (∀ e, e ≠ d → t.die e = s.die e)
      ∧ (∀ e : Fin 17, (t.die d).eng[e] = if e ∈ enginesOf c.words then wake (s.die d).eng[e] else (s.die d).eng[e])
      ∧ t.die d = { s.die d with
          eng := (t.die d).eng, queues := (s.die d).queues.set q ({ c with clock := some (c.clock.getD s.clk.beat) } :: rest) }

/-- What no command of an engine other than the fabric engine touches, unless it ends on a marked token and halts its die (EngineStarts says what that leaves): another die, a port, the fabric, a token or mark, an epoch,
or the other started commands of its own die; only an ME and VE queue changes an ME or VE, only the Gecko queue a context. -/
def Obligations.EngineIsolation : Prop :=
  ∀ (i : Instr) (d : Fin 8) (q : Fin 9) (op : Nat) (acc : Accept) (work : Nat → Nat → Words → W Res) (s t : State),
    engineRow i = some (d, q, op, acc, work) → q ≠ 6 →
    (∀ c rest, (s.die d).queues[q] = c :: rest → waitsOf (s.die d) c.words ≠ .epoch) → exec i s = .next t →
    (∀ e, e ≠ d → t.die e = s.die e) ∧ t.ports = s.ports ∧ t.fab = s.fab ∧ t.sec = s.sec
      ∧ (t.die d).tokens = (s.die d).tokens ∧ (t.die d).marks = (s.die d).marks ∧ (t.die d).epochs = (s.die d).epochs
      ∧ (t.die d).slots = (s.die d).slots ∧ (t.die d).win = (s.die d).win ∧ (∃ l, (t.die d).started = (s.die d).started ++ l)
      ∧ (∀ m : Fin 4, q.val ≠ m.val → (t.die d).mv[m] = (s.die d).mv[m]) ∧ (4 ≤ q.val → (t.die d).summ = (s.die d).summ)
      ∧ (q ≠ 8 → (t.die d).ctx = (s.die d).ctx)

/-- MATMUL, DGRAD and SPLIT (R131, R133, R135, R147, R151): with both operands read, every element of the product is the sequence of its
passes over its depth, from the bank's own value where the command continues and from +0 else; the rest of the bank, the other
bank, the other engines and, where no stored bit is upset, all of memory are as before. With an operand that fails its
status stands with the command and the bank reads +0.
Where the manual is silent it says the model's own choices (log 4 and 52). -/
def Obligations.MatrixProducts : Prop :=
  (∀ (i : Instr) (d : Fin 8) (m : Fin 4) (op : Nat) (c : Queued) (rest : List Queued) (s : State),
    (i, op) ∈ [(Instr.matmul d m, 1), (.dgrad d m, 2), (.split d m, 4)] → Ready s d (meQueue m) op productFree c rest →
    (operandsRead s d m c rest).2.2.2.1 = sOK → fld (cw c.words 12) 9 0 ≤ 512 →
    nwf (0 : Word) ((s.die d).mv[m].bank (fld (cw c.words 12) 18 18)) →
    ∃ t, exec i s = .next t ∧ StartedFrom s t d (meQueue m) c rest ∧ EngineFrame s t ∧ LastStatus t d sOK
      ∧ (∀ r < fld (cw c.words 11) 11 0, ∀ j < fld (cw c.words 12) 9 0, ∃ k : Ctr,
          nget 0 ((t.die d).mv[m].bank (fld (cw c.words 12) 18 18)) (512 * r + j) =
            ((element (fld (cw c.words 11) 31 16)
              ((passesOf c.words (operandsRead s d m c rest).1 (operandsRead s d m c rest).2.1).map fun p => (p.1 r, fun x => p.2 x j))
              (if bitOf (cw c.words 12) 19 then nget 0 ((s.die d).mv[m].bank (fld (cw c.words 12) 18 18)) (512 * r + j) else 0)).run k).1)
      ∧ (∀ x, ¬(x / 512 < fld (cw c.words 11) 11 0 ∧ x % 512 < fld (cw c.words 12) 9 0) →
          nget 0 ((t.die d).mv[m].bank (fld (cw c.words 12) 18 18)) x = nget 0 ((s.die d).mv[m].bank (fld (cw c.words 12) 18 18)) x)
      ∧ (t.die d).mv = (s.die d).mv.set m ((s.die d).mv[m].setBank (fld (cw c.words 12) 18 18) ((t.die d).mv[m].bank (fld (cw c.words 12) 18 18)))
      ∧ (s.mem.errs = [] → t.mem = s.mem))
  ∧ ∀ (i : Instr) (d : Fin 8) (m : Fin 4) (op : Nat) (c : Queued) (rest : List Queued) (s : State),
    (i, op) ∈ [(Instr.matmul d m, 1), (.dgrad d m, 2), (.split d m, 4)] → Ready s d (meQueue m) op productFree c rest →
    (operandsRead s d m c rest).2.2.2.1 ≠ sOK →
    ∃ t, exec i s = .next t ∧ StartedFrom s t d (meQueue m) c rest ∧ LastStatus t d (operandsRead s d m c rest).2.2.2.1
      ∧ (t.die d).mv = (s.die d).mv.set m ((s.die d).mv[m].setBank (fld (cw c.words 12) 18 18) []) ∧ bitOf (rget t (meA d m)) 1 = true

/-- SETPOS, HCLEAR, VTLOAD and the table of a VE command (R164, R165, R178, R180): the placement takes the command's words; the bins of
the named records are zero and nothing else of the histogram store changes; a table that R164 allows stands in its slot, valid; a
command whose table is not there ends with ABSENT and changes no bank, memory, summary slot or histogram.
Where the manual is silent it says the model's own choices (log 4 and 52). -/
def Obligations.VectorEngineState : Prop :=
  (∀ (d : Fin 8) (m : Fin 4) c rest s, Ready s d (meQueue m) 0x49 veFree c rest → ∃ t, exec (.setpos d m) s = .next t
    ∧ StartedFrom s t d (meQueue m) c rest ∧ EngineFrame s t ∧ LastStatus t d sOK ∧ t.mem = s.mem
    ∧ (t.die d).mv = (s.die d).mv.set m { (s.die d).mv[m] with
        row0 := (cw c.words 5).toNat + 2 ^ 32 * fld (cw c.words 6) 7 0, col0 := (cw c.words 7).toNat
        rowLen := (cw c.words 8).toNat, maskOff := (cw c.words 9).toNat })
  ∧ (∀ (d : Fin 8) (m : Fin 4) c rest s, Ready s d (meQueue m) 0x4B veFree c rest → ∃ t, exec (.hclear d m) s = .next t
    ∧ StartedFrom s t d (meQueue m) c rest ∧ EngineFrame s t ∧ LastStatus t d sOK ∧ t.mem = s.mem ∧ (t.die d).mv = (s.die d).mv
    ∧ (∀ r b, b < 272 → nget 0 (t.die d).hist (272 * r + b) =
        if fld (cw c.words 11) 11 0 ≤ r ∧ r < fld (cw c.words 11) 11 0 + fld (cw c.words 5) 15 0 ∧ 16 ≤ b then 0
        else nget 0 (s.die d).hist (272 * r + b)))
  ∧ (∀ (d : Fin 8) (m : Fin 4) c rest s, s.mem.wf → Ready s d (meQueue m) 0x4A vtFree c rest → GoodTile s d (fld (cw c.words 7) 21 0 * 4096) →
    permitted s (partOf s d) d (fld (cw c.words 7) 21 0 * 4096) false = true →
    tableOk (s.mem.bytes (keyOf d (fld (cw c.words 7) 21 0 * 4096)) 4096) = true → nwf (0 : Byte) (s.die d).mv[m].tables →
    ∃ t, exec (.vtload d m) s = .next t ∧ StartedFrom s t d (meQueue m) c rest ∧ EngineFrame s t ∧ LastStatus t d sOK ∧ t.mem = s.mem
      ∧ (∀ n, nget false (t.die d).mv[m].valid n = if n = fld (cw c.words 6) 31 28 then true else nget false (s.die d).mv[m].valid n)
      ∧ (∀ n, nget 0 (t.die d).mv[m].tables n =
          if n / 4096 = fld (cw c.words 6) 31 28 then atD 0 (s.mem.bytes (keyOf d (fld (cw c.words 7) 21 0 * 4096)) 4096) (n % 4096)
          else nget 0 (s.die d).mv[m].tables n)
      ∧ (t.die d).mv[m].bank0 = (s.die d).mv[m].bank0 ∧ (t.die d).mv[m].bank1 = (s.die d).mv[m].bank1)
  ∧ ∀ (i : Instr) (d : Fin 8) (m : Fin 4) (op : Nat) c rest slot mode s,
    (i, op) ∈ [(Instr.epi d m, 0x40), (.bwd d m, 0x41), (.smxMax d m, 0x44), (.smxExp d m, 0x45), (.smxLazy d m, 0x46), (.smxFinal d m, 0x48)] →
    Ready s d (meQueue m) op veFree c rest → veTable c.words = some (slot, mode) → nget false (s.die d).mv[m].valid slot = false →
    ∃ t, exec i s = .next t ∧ StartedFrom s t d (meQueue m) c rest ∧ LastStatus t d sABSENT ∧ t.mem = s.mem ∧ (t.die d).mv = (s.die d).mv
      ∧ (t.die d).summ = (s.die d).summ ∧ (t.die d).hist = (s.die d).hist ∧ bitOf (rget t (veA d m)) 1 = true

/-- EPOCH_OPEN, EPOCH_CLOSE and PHASE (R330, R341, R352 to R354): an idle epoch opens in a slot of its own, here with an empty abort list;
one that is open or closed is refused with STATE; an open epoch that nothing keeps open closes and frees its slot; a phase is armed
on every port it names, behind those armed before it, and is refused with STATE outside NORMAL. From its START_BEAT on an armed phase takes
its port over once the phase before has sent its last slot, and fails with LINK where the port is not UP (R330): PHASE_TAKEOVER. A notice
that is on its way aborts its epoch and is passed on (R355, R356): ABORT_NOTICE.
Where the manual is silent it says the model's own choices (log 3, 4 and 47). -/
def Obligations.EpochsAndPhases : Prop :=
  (∀ (d : Fin 8) c rest s, Ready s d 6 0x10 (fun _ _ ws => !bitOf (cw ws 5) 31) c rest → fld (cw c.words 6) 8 0 = 0 →
    epochSt (s.die d) (fld (cw c.words 5) 15 0) = .idle → (s.die d).slots.toList.all (·.isSome) = false →
    epochSlot (s.die d) (fld (cw c.words 5) 15 0) = none →
    ∃ t, exec (.epochOpen d) s = .next t ∧ StartedFrom s t d 6 c rest ∧ EngineFrame s t ∧ LastStatus t d sOK
      ∧ (∀ x, epochSt (t.die d) x = if x = fld (cw c.words 5) 15 0 then .open_ else epochSt (s.die d) x)
      ∧ (∃ e, epochSlot (t.die d) (fld (cw c.words 5) 15 0) = some e ∧ e.number = fld (cw c.words 5) 15 0 ∧ e.buckets = fld (cw c.words 6) 31 16
        ∧ e.red = fld (cw c.words 5) 30 30 ∧ e.abortTokens = [])
      ∧ t.ports = s.ports ∧ t.fab = s.fab ∧ t.mem = s.mem ∧ (t.die d).tokens = (s.die d).tokens)
  ∧ (∀ (d : Fin 8) c rest s, Ready s d 6 0x10 (fun _ _ ws => !bitOf (cw ws 5) 31) c rest →
    (epochSt (s.die d) (fld (cw c.words 5) 15 0) = .open_ ∨ epochSt (s.die d) (fld (cw c.words 5) 15 0) = .closed) →
    ∃ t, exec (.epochOpen d) s = .next t ∧ StartedFrom s t d 6 c rest ∧ LastStatus t d sSTATE
      ∧ (t.die d).epochs = (s.die d).epochs ∧ (t.die d).slots = (s.die d).slots ∧ t.ports = s.ports ∧ t.mem = s.mem)
  ∧ (∀ (d : Fin 8) c rest s, Ready s d 6 0x10 (fun _ _ ws => bitOf (cw ws 5) 31) c rest →
    epochSt (s.die d) (fld (cw c.words 5) 15 0) = .open_ → epochBusy s d (fld (cw c.words 5) 15 0) = false →
    (∀ e, epochSlot (s.die d) (fld (cw c.words 5) 15 0) = some e → e.red = 0 ∨ e.buckets ≤ e.committed.length) →
    ∃ t, exec (.epochClose d) s = .next t ∧ StartedFrom s t d 6 c rest ∧ EngineFrame s t ∧ LastStatus t d sOK
      ∧ (∀ x, epochSt (t.die d) x = if x = fld (cw c.words 5) 15 0 then .closed else epochSt (s.die d) x)
      ∧ epochSlot (t.die d) (fld (cw c.words 5) 15 0) = none ∧ t.ports = s.ports ∧ t.fab = s.fab ∧ t.mem = s.mem)
  ∧ (∀ (d : Fin 8) c rest s, Ready s d 6 0x01 phaseFree c rest → s.fab.mode = 0 →
    (fld (cw c.words 7) 15 0 = 0 ∨ epochSt (s.die d) (fld (cw c.words 7) 15 0) ≠ .aborted) → (∀ p ∈ phasePorts d c.words, (s.port p).st = .up) →
    ∃ t, exec (.phase d) s = .next t ∧ StartedFrom s t d 6 c rest ∧ EngineFrame s t ∧ LastStatus t d sOK
      ∧ (∀ p, t.port p = if p ∈ phasePorts d c.words then
          { s.port p with armed := (s.port p).armed ++ [{ uid := (s.die d).nextUid, table := fld (cw c.words 5) 2 0, start := (cw c.words 6).toNat
                                                          slack := fld (cw c.words 7) 31 16, epoch := fld (cw c.words 7) 15 0 }] } else s.port p)
      ∧ t.fab = s.fab ∧ t.mem = s.mem)
  ∧ (∀ (d : Fin 8) c rest s, Ready s d 6 0x01 phaseFree c rest → s.fab.mode ≠ 0 → ∃ t, exec (.phase d) s = .next t
    ∧ StartedFrom s t d 6 c rest ∧ LastStatus t d sSTATE ∧ t.ports = s.ports ∧ t.mem = s.mem)
  ∧ (∀ p ph rest s, (s.port p).armed = ph :: rest → (s.port p).running = none → (s.port p).st = .up → ph.start ≤ schedBeat s (dieOf p) →
    ∃ t, exec (.phaseTakeover p) s = .next t ∧ t.port p = { s.port p with armed := rest, running := some ph }
      ∧ (∀ x, x ≠ p → t.port x = s.port x) ∧ bitOf (rget t (portA p)) 16 = true ∧ rget t (portA p + 0x24) = 0 ∧ t.dies = s.dies ∧ t.mem = s.mem)
  ∧ (∀ p ph rest s, (s.port p).armed = ph :: rest → (s.port p).running = none → (s.port p).st ≠ .up → ph.start ≤ schedBeat s (dieOf p) →
    ∃ t, exec (.phaseTakeover p) s = .next t ∧ (t.die (dieOf p)).started = (s.die (dieOf p)).started.map (fun c =>
        if c.uid = ph.uid ∧ failing c.status = false then { c with status := sLINK, busy := false } else c)
      ∧ (∀ a ∈ (t.port p).armed, a.uid ≠ ph.uid) ∧ (t.port p).running = none ∧ (t.port p).st = (s.port p).st ∧ t.mem = s.mem)
  ∧ (∀ p s, (∀ ph ∈ (s.port p).armed.head?, (s.port p).running.isSome = true ∨ schedBeat s (dieOf p) < ph.start) →
    exec (.phaseTakeover p) s = .next s)
  ∧ (∀ d (x : Half) n s, s.fab.notices.find? (fun n => n.1 == d.val && n.2.2 == x.toNat) = some n →
    (epochSt (s.die d) x.toNat = .idle ∨ epochSt (s.die d) x.toNat = .open_) → ∃ t, exec (.abortNotice d x) s = .next t
      ∧ (∀ y, epochSt (t.die d) y = if y = x.toNat then .aborted else epochSt (s.die d) y)
      ∧ (epochSt (s.die d) x.toNat = .open_ → epochSlot (t.die d) x.toNat = none
        ∧ ∀ e, epochSlot (s.die d) x.toNat = some e → ∀ k ∈ e.abortTokens, nget false (t.die d).marks k = true)
      ∧ t.fab.notices = s.fab.notices.erase n ++ (allDies.filter (· != d)).map fun e => (e.val, d.val, x.toNat))
  ∧ (∀ d (x : Half) n s, s.fab.notices.find? (fun n => n.1 == d.val && n.2.2 == x.toNat) = some n →
    (epochSt (s.die d) x.toNat = .closed ∨ epochSt (s.die d) x.toNat = .aborted) → ∃ t, exec (.abortNotice d x) s = .next t
      ∧ t.fab.notices = s.fab.notices.erase n ∧ t.dies = s.dies ∧ t.ports = s.ports ∧ t.mem = s.mem)
  ∧ ∀ d (x : Half) s, s.fab.notices.find? (fun n => n.1 == d.val && n.2.2 == x.toNat) = none → exec (.abortNotice d x) s = .next s

/-! ## The Chivary fabric -/

/-- A frame at a port (R317 to R320, R340): on a port that is not UP, or at the row of another type, nothing happens; a frame that fails
its check, a sequenced one out of order, or one that the mode does not carry, is discarded and NAK is set, but for one that fails its check at
the LINK row, which leaves NAK as it is, since a corrupted LINK frame starts no retry episode (R322); a sequenced one in order advances the
expected SEQ by one, clears NAK and counts; a LINK frame has no SEQ, and its ACK frees the retry buffer and moves DLV; on P24 to P31 FAB_SKEW takes
its beat count's difference, less the fibre's delay, to within a beat's cycles, and one beyond a beat sets SKEW_SEEN (R337).
Where the manual is silent it says the model's own choices (log 3, 5 and 54). -/
def Obligations.FrameReceipt : Prop :=
  (∀ i p type frame errs s, frameRow i = some (p, type, frame, errs) → (type = tWRSP → s.ctl.queue = [] ∨ queues s = true) →
    ((s.port p).st ≠ .up ∨ (frameOk frame = true ∧ (FHdr.parse frame).type ≠ type)) → exec i s = .next s)
  ∧ (∀ i p type frame errs s, frameRow i = some (p, type, frame, errs) → (type = tWRSP → s.ctl.queue = [] ∨ queues s = true) →
    (s.port p).st = .up → (frameOk frame = false ∨ (frameOk frame = true ∧ (FHdr.parse frame).type = type ∧ type ≠ tLINK
      ∧ (carried s type = false ∨ ∃ n, (s.port p).rxNext = some n ∧ n ≠ (FHdr.parse frame).seq))) →
    ∃ t, exec i s = .next t
      ∧ t.port p = { withErrs (s.port p) errs with nak := if type = tLINK then (s.port p).nak else true } ∧ (∀ x, x ≠ p → t.port x = s.port x)
      ∧ t.dies = s.dies ∧ t.mem = s.mem ∧ t.ctl = s.ctl ∧ t.fab = s.fab ∧ t.sec = s.sec ∧ RegsKept s t (fun a => ∃ l < 8, a = laneA p l))
  ∧ (∀ i p type frame errs h s, frameRow i = some (p, type, frame, errs) → Arrives s p type frame h → (type = tWRSP → s.ctl.queue = []) →
    ∃ t, exec i s = .next t ∧ (t.port p).rxNext = some (h.seq + 1) ∧ (t.port p).nak = false ∧ (t.port p).errSince = []
      ∧ rget t (portA p + 0x14) = satAdd (rget s (portA p + 0x14)) 1)
  ∧ ∀ p frame errs h s, (s.port p).st = .up → frameOk frame = true → h = FHdr.parse frame → h.type = tLINK → h.ackV = true →
    h.nak = false → h.refuse = false → (s.port p).episode = none → (s.port p).waiting = [] → Underway s p →
    ∃ t, exec (.linkFrame p frame errs) s = .next t
      ∧ t.port p = { withErrs (s.port p) errs with
          ack := seqUpTo h.ack (s.port p).ack (s.port p).txSeq
          dlv := seqUpTo h.dlv (s.port p).dlv (seqUpTo h.ack (s.port p).ack (s.port p).txSeq)
          retry := (s.port p).retry.filter fun f => decide (seqUpTo h.ack (s.port p).ack (s.port p).txSeq ≤ f.seq)
          refusal := if h.refuseAck then none else (s.port p).refusal }
      ∧ (∀ x, x ≠ p → t.port x = s.port x) ∧ t.dies = s.dies ∧ t.ctl = s.ctl
      ∧ (p.val < 24 → t.mem = s.mem)
      ∧ (24 ≤ p.val → (s.mem.wf → MemButRings s t) ∧ ∃ diff : Int,
          beatDiff s p h - 64 < diff ∧ diff < beatDiff s p h + 64 ∧ rget t (portA p + 0x34) = BitVec.ofInt 32 diff
          ∧ bitOf (rget t (portA p)) 7 = (bitOf (rget s (portA p)) 7 || decide (diff < -64 ∨ 64 < diff))
          ∧ (-64 ≤ diff → diff ≤ 64 → t.mem = s.mem))

/-- What an accepted frame brings: nothing is written and no token raised where it is DATA of an epoch that is aborted on the die that
receives it or on the one it names (R356); else a DATA frame with STORE puts its tile and check word at DST_TILE of its die and, as the last of its entry,
signals DST_TOKEN (R334, R336); an EMPTY frame signals alone (R328); an ABORT frame marks DST_TOKEN (R333); an entry for a die that
is not there is refused with ABSENT (R336); a WREQ of this module for a tile that can be read is answered on its route with a WRSP
of its tag, with status OK, the tile and its check word (R342, R343), a WRSP with a failure ends the packet that waits for it (R342, R398); WINDOW_TIMEOUT ends the window copy, or the packet, that
waits for a WRSP with TIMEOUT (R344), and does nothing where none waits, or no RoT acts (R419).
Where the manual is silent it says the model's own choices (log 3, 19, 23 and 30). -/
def Obligations.FrameDelivery : Prop :=
  (∀ p frame errs h st off s, s.mem.wf → Arrives s p tDATA frame h → (s.port p).refusing = false →
    h.late (s.die (dieOf p)) = false → h.late (s.die h.dst) = false → diePresent s h.dst = true → refuseAuth s h.dst h = false →
    crc32c (sub frame 64 4096) = h.check → h.op = 0 → storeOf (h.dstTile * 4096) = some (st, off) → inCheckArea s h.dst st off = false →
    inReserve (h.dstTile * 4096) = false → permitted s (partOf s h.dst) h.dst (h.dstTile * 4096) true = true → tileBusy s h.dst st off = false →
    (∀ c, checkOff s h.dst st off = some c → nget 0 s.mem.errs (keyOf h.dst (h.dstTile * 4096 - off + c) / 64) = 0) → (s.port p).waiting = [] →
    ∃ t, exec (.dataFrame p frame errs) s = .next t
      ∧ (∀ k, byteAt t k = if keyOf h.dst (h.dstTile * 4096) ≤ k ∧ k < keyOf h.dst (h.dstTile * 4096) + 4096
          then atD 0 (sub frame 64 4096) (k - keyOf h.dst (h.dstTile * 4096)) else byteAt s k)
      ∧ (∀ x, checkAt t x = if x = keyOf h.dst (h.dstTile * 4096) / 4096 then h.check else checkAt s x)
      ∧ (∀ n, nget 0 (t.die h.dst).tokens n =
          if (h.last && h.token) = true ∧ n = h.dstToken then satAdd (nget 0 (s.die h.dst).tokens n) 1 else nget 0 (s.die h.dst).tokens n)
      ∧ t.die h.dst = { s.die h.dst with tokens := (t.die h.dst).tokens } ∧ (∀ e, e ≠ h.dst → t.die e = s.die e)
      ∧ (∀ x, x ≠ p → t.port x = s.port x) ∧ t.ctl = s.ctl ∧ t.sec = s.sec)
  ∧ (∀ p frame errs h s, s.mem.wf → Arrives s p tDATA frame h → (h.late (s.die (dieOf p)) || h.late (s.die h.dst)) = true →
    ∃ t, exec (.dataFrame p frame errs) s = .next t ∧ t.dies = s.dies ∧ MemButRings s t)
  ∧ (∀ p frame errs h s, Arrives s p tEMPTY frame h → (s.port p).refusing = false → diePresent s h.dst = true → refuseAuth s h.dst h = false →
    ∃ t, exec (.emptyFrame p frame errs) s = .next t ∧ t.mem = s.mem
      ∧ (∀ n, nget 0 (t.die h.dst).tokens n =
          if (h.last && h.token) = true ∧ n = h.dstToken then satAdd (nget 0 (s.die h.dst).tokens n) 1 else nget 0 (s.die h.dst).tokens n)
      ∧ t.die h.dst = { s.die h.dst with tokens := (t.die h.dst).tokens } ∧ (∀ e, e ≠ h.dst → t.die e = s.die e))
  ∧ (∀ p frame errs h s, Arrives s p tABORT frame h → diePresent s h.dst = true → refuseAuth s h.dst h = false → h.epoch = 0 →
    (s.port p).waiting = [] → ∃ t, exec (.abortFrame p frame errs) s = .next t ∧ t.mem = s.mem ∧ rget t (fabA (dieOf p) + 0x14) = satAdd (rget s (fabA (dieOf p) + 0x14)) 1
      ∧ (∀ n, nget false (t.die h.dst).marks n = if h.token = true ∧ n = h.dstToken then true else nget false (s.die h.dst).marks n)
      ∧ t.die h.dst = { s.die h.dst with marks := (t.die h.dst).marks } ∧ (∀ e, e ≠ h.dst → t.die e = s.die e))
  ∧ (∀ p frame errs h s, Arrives s p tDATA frame h → (s.port p).refusing = false → h.late (s.die (dieOf p)) = false →
    diePresent s h.dst = false → ∃ t, exec (.dataFrame p frame errs) s = .next t
      ∧ (t.port p).refusal = some (h.seq, sABSENT) ∧ (t.port p).refusing = !h.last ∧ bitOf (rget t (portA p)) 6 = true
      ∧ rget t (portA p + 0x28) = satAdd (rget s (portA p + 0x28)) 1 ∧ t.dies = s.dies)
  ∧ (∀ p frame errs h out s, s.mem.wf → Arrives s p tWREQ frame h → h.dstModule = s.clk.module → frame.length = 68 → s.fab.mode ≠ 0 →
    diePresent s h.dst = true → isProt s (partOf s h.dst) = false → permitted s (partOfDie s h.srcDie) h.dst (h.dstTile * 4096) false = true →
    GoodTile s h.dst (h.dstTile * 4096) → memPresent s h.dst (h.dstTile * 4096) = true → routePort s h.srcModule h.w16 = some out → (s.port out).st = .up →
    (s.port out).waiting = [] → hasRoom (s.port out) 1 = true →
    ∃ t, exec (.wreq p frame errs) s = .next t ∧ (t.port out).txSeq = (s.port out).txSeq + 1
      ∧ (∃ f, (t.port out).retry = (s.port out).retry ++ [f] ∧ f.seq = (s.port out).txSeq ∧ (FHdr.parse f.bytes).type = tWRSP
        ∧ (FHdr.parse f.bytes).w16 = h.w16 ∧ (FHdr.parse f.bytes).status = sOK ∧ (FHdr.parse f.bytes).dstModule = h.srcModule
        ∧ (FHdr.parse f.bytes).dstDie = h.srcDie ∧ (FHdr.parse f.bytes).dstTile = h.dstTile
        ∧ (FHdr.parse f.bytes).check = checkAt s (keyOf h.dst (h.dstTile * 4096) / 4096)
        ∧ f.bytes.drop 64 = s.mem.bytes (keyOf h.dst (h.dstTile * 4096)) 4096)
      ∧ (∀ x, x ≠ p → x ≠ out → t.port x = s.port x) ∧ t.dies = s.dies ∧ t.mem = s.mem ∧ t.ctl = s.ctl)
  ∧ (∀ p frame errs h w s, Arrives s p tWRSP frame h → h.dstModule = s.clk.module → (s.die h.dst).win = none → s.ctl.winPkt = some w →
    w.die = h.dst.val → w.tag = h.w16 → (h.status ≠ sOK ∨ w.wrote = true) → unheeded s = false → s.ctl.queue = [] →
    ∃ t, exec (.wrsp p frame errs) s = .next t ∧ t.ctl.winPkt = none ∧ Replied t w.pkt w.opcode.toNat h.status [] ∧ t.mem = s.mem ∧ t.dies = s.dies)
  ∧ (∀ d w s, (s.die d).win = some w → w.waiting ≠ [] → (s.ctl.queue = [] ∨ queues s = true) → ∃ t, exec (.windowTimeout d) s = .next t ∧ (t.die d).win = none
    ∧ (t.die d).started = (s.die d).started.map (fun c => if c.uid = w.uid ∧ failing c.status = false then { c with status := sTIMEOUT, busy := false } else c)
    ∧ (∀ e, e ≠ d → t.die e = s.die e) ∧ t.ctl = s.ctl ∧ t.ports = s.ports ∧ t.mem = s.mem)
  ∧ (∀ d w s, (s.die d).win = none → s.ctl.winPkt = some w → w.die = d.val → unheeded s = false → s.ctl.queue = [] → ∃ t, exec (.windowTimeout d) s = .next t
    ∧ t.ctl.winPkt = none ∧ Replied t w.pkt w.opcode.toNat sTIMEOUT [] ∧ t.dies = s.dies ∧ t.ports = s.ports ∧ t.mem = s.mem)
  ∧ ∀ d s, (∀ w, (s.die d).win = some w → w.waiting = []) → ((s.die d).win = none → ∀ w, s.ctl.winPkt = some w → w.die ≠ d.val ∨ unheeded s = true) →
    (s.ctl.queue = [] ∨ queues s = true) →
    exec (.windowTimeout d) s = .next s

/-- Replays, episodes and lanes (R319 to R324): ACK_TIMEOUT sends nothing anew where nothing is outstanding, else it counts a replay and
opens an episode or goes on with it; the episode ends when every frame sent before its start has been received; the first replay after errors of one lane excludes it and narrows the port, and
the fourth the lane with the most errors where nothing has narrowed it yet, or the port goes DOWN where that leaves fewer than two lanes; the eighth replay, or 4 µs of an
episode, takes the port DOWN. WIDTH_CHANGE_DONE ends a width change, or one that the peer's episode began: this end excludes the lane and
narrows too (R322). A LINK frame in a gap changes nothing at its sender.
Where the manual is silent it says the model's own choices (log 3, 5 and 55). -/
def Obligations.LinkEvents : Prop :=
  (∀ p s, ((s.port p).st ≠ .up ∨ (s.port p).retry = []) → exec (.ackTimeout p) s = .next s)
  ∧ (∀ p s, (s.port p).st = .up → (s.port p).retry ≠ [] → ∃ t, exec (.ackTimeout p) s = .next t
    ∧ rget t (portA p + 0x18) = satAdd (rget s (portA p + 0x18)) 1 ∧ bitOf (rget t (portA p)) 2 = true
    ∧ ((s.port p).episode = none → rget t (portA p + 0x1C) = satAdd (rget s (portA p + 0x1C)) 1))
  ∧ (∀ p s, (s.port p).st = .up → (s.port p).retry ≠ [] → (s.port p).episode = none → oneLane (s.port p) (s.port p).errSince = none →
    ∃ t, exec (.ackTimeout p) s = .next t
      ∧ t.port p = { s.port p with episode := some { replays := 1, upTo := (s.port p).txSeq }, errEpisode := [] }
      ∧ (∀ x, x ≠ p → t.port x = s.port x) ∧ t.dies = s.dies ∧ t.mem = s.mem)
  ∧ (∀ p l s, (s.port p).st = .up → (s.port p).retry ≠ [] → (s.port p).episode = none → oneLane (s.port p) (s.port p).errSince = some l →
    2 ≤ narrower (s.port p).width → ∃ t, exec (.ackTimeout p) s = .next t ∧ (t.port p).st = .up ∧ (t.port p).width = narrower (s.port p).width
      ∧ (t.port p).excluded = l :: (s.port p).excluded ∧ (t.port p).changing = true ∧ (t.port p).retry = (s.port p).retry
      ∧ (t.port p).episode = some { replays := 1, upTo := (s.port p).txSeq, degraded := true }
      ∧ bitOf (rget t (portA p)) 4 = true ∧ (∀ x, x ≠ p → t.port x = s.port x))
  ∧ (∀ p e s, (s.port p).st = .up → (s.port p).retry ≠ [] → (s.port p).episode = some e → 1 ≤ e.replays → e.replays < 7 →
    (e.replays ≠ 3 ∨ e.degraded = true) →
    ∃ t, exec (.ackTimeout p) s = .next t ∧ t.port p = { s.port p with episode := some { e with replays := e.replays + 1 } }
      ∧ (∀ x, x ≠ p → t.port x = s.port x))
  ∧ (∀ p e s, (s.port p).st = .up → (s.port p).retry ≠ [] → (s.port p).episode = some e → e.replays = 3 → e.degraded = false →
    2 ≤ narrower (s.port p).width → ∃ t, exec (.ackTimeout p) s = .next t
      ∧ t.port p = { s.port p with
          episode := some { e with replays := 4, degraded := true }, width := narrower (s.port p).width, changing := true
          excluded := worstLane (s.port p) (s.port p).errEpisode :: (s.port p).excluded }
      ∧ bitOf (rget t (portA p)) 4 = true ∧ (∀ x, x ≠ p → t.port x = s.port x))
  ∧ (∀ p s, (s.port p).st = .up → (s.port p).retry ≠ [] → narrower (s.port p).width < 2 →
    (((s.port p).episode = none ∧ oneLane (s.port p) (s.port p).errSince ≠ none)
      ∨ ∃ e, (s.port p).episode = some e ∧ e.replays = 3 ∧ e.degraded = false) →
    ∃ t, exec (.ackTimeout p) s = .next t ∧ (t.port p).st = .down ∧ (t.port p).width = 0 ∧ (t.port p).retry = [] ∧ bitOf (rget t (portA p)) 3 = true)
  ∧ (∀ p frame errs h e s, (s.port p).st = .up → frameOk frame = true → h = FHdr.parse frame → h.type = tLINK →
    h.ackV = true → h.nak = false → h.refuse = false → (s.port p).episode = some e → ∃ t, exec (.linkFrame p frame errs) s = .next t
      ∧ (t.port p).episode = if e.upTo ≤ seqUpTo h.ack (s.port p).ack (s.port p).txSeq then none else some e)
  ∧ (∀ p e s, (s.port p).st = .up → (s.port p).retry ≠ [] → (s.port p).episode = some e → 7 ≤ e.replays → ∃ t, exec (.ackTimeout p) s = .next t
    ∧ (t.port p).st = .down ∧ (t.port p).width = 0 ∧ (t.port p).retry = [] ∧ bitOf (rget t (portA p)) 3 = true)
  ∧ (∀ p s, (s.port p).st = .up → (s.port p).episode.isSome = true → ∃ t, exec (.retryBudgetExpiry p) s = .next t
    ∧ (t.port p).st = .down ∧ (t.port p).width = 0 ∧ (t.port p).retry = [] ∧ bitOf (rget t (portA p)) 3 = true
    ∧ (∀ x, (t.port x).txSeq = (s.port x).txSeq))
  ∧ (∀ p s, (s.port p).episode = none → exec (.retryBudgetExpiry p) s = .next s)
  ∧ (∀ p peer s, ((s.port p).changing = true ∨ ∀ l, peer = some l → (s.port p).st ≠ .up ∨ (activeLanes (s.port p)).contains l.val = false) →
    (s.port p).waiting = [] → Underway s p → ∃ t, exec (.widthChangeDone { port := p, peer }) s = .next t ∧ t.port p = { s.port p with
        changing := false
        running := if (s.port p).changing then (s.port p).running.map (PhaseRun.stretched s p (s.port p).width) else (s.port p).running }
    ∧ (∀ x, x ≠ p → t.port x = s.port x) ∧ t = { s with ports := t.ports })
  ∧ (∀ p (l : Fin 8) s, (s.port p).changing = false → (s.port p).st = .up → (activeLanes (s.port p)).contains l.val = true →
    2 ≤ narrower (s.port p).width → (s.port p).waiting = [] → Underway s p → ∃ t, exec (.widthChangeDone { port := p, peer := some l }) s = .next t
    ∧ t.port p = { s.port p with
        excluded := l.val :: (s.port p).excluded, width := narrower (s.port p).width
        running := (s.port p).running.map (PhaseRun.stretched s p (narrower (s.port p).width)) }
    ∧ (∀ x, x ≠ p → t.port x = s.port x) ∧ bitOf (rget t (portA p)) 4 = true ∧ t.dies = s.dies ∧ t.mem = s.mem)
  ∧ (∀ p peer s, ∃ t, exec (.widthChangeDone { port := p, peer }) s = .next t ∧ (t.port p).changing = false
    ∧ (peer = none ∨ 2 ≤ narrower (s.port p).width → ∀ x, x ≠ p → t.port x = s.port x))
  ∧ ∀ p s, exec (.gapLinkFrame p) s = .next s

/-- SLOT_START and PHASE_WATCHDOG (R317, R323, R327 to R333): a slot that is due sends its frames, COUNT of them, with LIVE no more than the word at
LIVE_LINE, or one EMPTY, under consecutive SEQ, each with the slot's destination, its tile and check word, the last with its token, from tiles
that read without an error; one that is not VALID sends nothing and is passed;
one whose wait stands on a marked token sends an ABORT frame for its token and fails its command with EPOCH; one whose wait does not hold stays. A slot
later than SLACK marks its command OVERRUN, or SUBSUMED on a halted die; during a retry episode the decision is deferred.
Where the manual is silent it says the model's own choices (log 3, 5 and 20). -/
def Obligations.PhaseEvents : Prop :=
  (∀ p ph w n s, s.mem.wf → SlotReady s p ph w n →
    (∀ i < n, GoodTile s (dieOf p) (((atD 0 w 2).toNat + i) * 4096)
      ∧ permitted s (partOf s (dieOf p)) (dieOf p) (((atD 0 w 2).toNat + i) * 4096) false = true) →
    ∃ t, exec (.slotStart p) s = .next t ∧ (t.port p).txSeq = (s.port p).txSeq + max n 1 ∧ (t.port p).waiting = []
      ∧ (∃ l, (t.port p).retry = (s.port p).retry ++ l ∧ l.map (·.seq) = (List.range (max n 1)).map ((s.port p).txSeq + ·)
        ∧ ∀ i f, l[i]? = some f → SlotFrame s p ph w n i f.bytes)
      ∧ (∃ lag, 64 * lateBeats s p ph ≤ lag ∧ lag < 64 * (lateBeats s p ph + 1) ∧ (t.port p).running = afterSlot s p { ph.started s p n lag with
          next := ph.next + 1, firstSeq := some (ph.firstSeq.getD (s.port p).txSeq), lastSeq := some ((s.port p).txSeq + max n 1 - 1) })
      ∧ (∀ x, x ≠ p → t.port x = s.port x) ∧ t.dies = s.dies ∧ t.mem = s.mem)
  ∧ (∀ p ph s, (s.port p).running = some ph → (s.port p).st = .up → (s.port p).changing = false → (s.port p).waiting = [] →
    ph.start + ph.next ≤ schedBeat s (dieOf p) → ph.failed = false → ph.next < tableLen s p ph.table →
    slValid (slotOf s p ph.table ph.next) = false →
    ∃ t, exec (.slotStart p) s = .next t
      ∧ (∃ lag, 64 * lateBeats s p ph ≤ lag ∧ lag < 64 * (lateBeats s p ph + 1)
        ∧ (t.port p).running = afterSlot s p { ph with next := ph.next + 1, lag, ends := none }
        ∧ rget t (portA p + 0x20) = w32 (min lag 0xFFFFFFFF)
        ∧ rget t (portA p + 0x24) = w32 (max (rget s (portA p + 0x24)).toNat (min lag 0xFFFFFFFF)))
      ∧ (t.port p).txSeq = (s.port p).txSeq ∧ (t.port p).retry = (s.port p).retry ∧ (∀ x, x ≠ p → t.port x = s.port x)
      ∧ t.dies = s.dies ∧ t.mem = s.mem)
  ∧ (∀ p ph w s, (s.port p).running = some ph → (s.port p).st = .up → (s.port p).changing = false → (s.port p).waiting = [] →
    hasRoom (s.port p) 1 = true → ph.start + ph.next ≤ schedBeat s (dieOf p) →
    ph.failed = false → w = slotOf s p ph.table ph.next → slValid w = true →
    slotWait (s.die (dieOf p)) w = .epoch → ∃ t, exec (.slotStart p) s = .next t
      ∧ (t.port p).txSeq = (s.port p).txSeq + 1
      ∧ (∃ f, (t.port p).retry = (s.port p).retry ++ [f] ∧ f.seq = (s.port p).txSeq ∧ (FHdr.parse f.bytes).type = tABORT
        ∧ (FHdr.parse f.bytes).token = slToken w ∧ (FHdr.parse f.bytes).dstModule = fld (atD 0 w 4) 31 20
        ∧ (FHdr.parse f.bytes).dstDie = fld (atD 0 w 4) 19 17 ∧ (FHdr.parse f.bytes).dstToken = fld (atD 0 w 4) 11 0)
      ∧ (t.die (dieOf p)).started = (s.die (dieOf p)).started.map (fun c =>
          if c.uid = ph.uid ∧ failing c.status = false then { c with status := sEPOCH, busy := false } else c)
      ∧ t.mem = s.mem)
  ∧ (∀ p ph s, (s.port p).running = some ph → (s.port p).st = .up → (s.port p).changing = false → ph.start + ph.next ≤ schedBeat s (dieOf p) →
    ph.failed = false → slValid (slotOf s p ph.table ph.next) = true →
    slotWait (s.die (dieOf p)) (slotOf s p ph.table ph.next) = .wait → exec (.slotStart p) s = .next s)
  ∧ (∀ p s, ((s.port p).running = none ∨ (s.port p).st ≠ .up) → exec (.slotStart p) s = .next s)
  ∧ (∀ p ph c s, lateOn s p = [ph] → (s.port p).episode = none → (s.die (dieOf p)).started.find? (·.uid == ph.uid) = some c → c.timing = 0 →
    failing c.status = false → ∃ t, exec (.phaseWatchdog p) s = .next t
      ∧ (t.die (dieOf p)).started = (s.die (dieOf p)).started.map (fun x => if x.uid = ph.uid then
          { x with timing := if (s.die (dieOf p)).seq.st = .halted then sSUBSUMED else sOVERRUN } else x)
      ∧ (t.die (dieOf p)).seq.overruns = satAdd (s.die (dieOf p)).seq.overruns 1 ∧ bitOf (rget t (portA p)) 5 = true ∧ t.ports = s.ports)
  ∧ (∀ p s, (s.port p).episode.isSome = true → ∃ t, exec (.phaseWatchdog p) s = .next t
      ∧ t.port p = { s.port p with running := (s.port p).running.map (deferLate s p), draining := (s.port p).draining.map (deferLate s p) }
      ∧ (∀ x, x ≠ p → t.port x = s.port x) ∧ t.dies = s.dies ∧ t.mem = s.mem)
  ∧ ∀ p s, lateOn s p = [] → (s.port p).episode = none → exec (.phaseWatchdog p) s = .next s

end
end

