-- ==== Sys2Proof/Laws/Bytes.lean ====
section
/-! SUPPORT. Laws of bytes: what little-endian bytes read as, and the check word of a tile of zeros. -/

namespace Sys2Proof.Machine

@[simp] theorem natLE_length (n v : Nat) : (natLE n v).length = n := by
  induction n generalizing v with
  | zero => rfl
  | succ n ih => simp [natLE, ih]

/-- Little-endian bytes spell the number modulo their width. -/
theorem leNat_natLE (n v : Nat) : leNat (natLE n v) = v % 256 ^ n := by
  induction n generalizing v with
  | zero => simp [natLE, leNat, Nat.mod_one]
  | succ n ih =>
    have h : (256 : Nat) ^ (n + 1) = 256 * 256 ^ n := by rw [Nat.pow_succ, Nat.mul_comm]
    rw [natLE, leNat, ih, b8, BitVec.toNat_ofNat, h, Nat.mod_mul]

/-- A word written as four bytes behind others reads back. -/
theorem rdW_natLE (b : List Byte) (c : Word) : rdW (b ++ natLE 4 c.toNat) b.length = c := by
  have h : (natLE 4 c.toNat).take 4 = natLE 4 c.toNat := List.take_of_length_le (by simp)
  rw [rdW, rd, List.drop_left, h, leNat_natLE, w32]
  apply BitVec.eq_of_toNat_eq
  rw [BitVec.toNat_ofNat]
  have := c.isLt
  omega

/-- One bit of the CRC on numbers. -/
def crcBitN (c : Nat) : Nat := if c % 2 = 1 then (c >>> 1) ^^^ 0x82F63B78 else c >>> 1
/-- A zero byte of the CRC on numbers. -/
def crcZeroN (c : Nat) : Nat := crcBitN (crcBitN (crcBitN (crcBitN (crcBitN (crcBitN (crcBitN (crcBitN c)))))))
/-- The CRC over zero bytes on numbers; the match makes each byte's value a numeral before the next one's. -/
def crcZerosN : Nat → Nat → Nat
  | 0, c => c
  | n + 1, c => match crcZeroN c with
    | 0 => crcZerosN n 0
    | k + 1 => crcZerosN n (k + 1)
theorem crcBit_toNat (c : Word) : (crcBit c).toNat = crcBitN c.toNat := by
  unfold crcBit crcBitN; split <;> simp [BitVec.toNat_ushiftRight, BitVec.toNat_xor]
theorem crcByte_zero_toNat (c : Word) : (crcByte c 0).toNat = crcZeroN c.toNat := by
  have : c ^^^ (0 : Byte).setWidth 32 = c := by simp
  rw [crcByte, this, crcZeroN]; simp only [crcBit_toNat]
theorem crcZerosN_succ (n c : Nat) : crcZerosN (n + 1) c = crcZerosN n (crcZeroN c) := by
  have h : ∀ x, (match x with | 0 => crcZerosN n 0 | k + 1 => crcZerosN n (k + 1)) = crcZerosN n x := fun x => by cases x <;> rfl
  exact h (crcZeroN c)
theorem crcZerosN_foldl (n : Nat) (c : Word) : crcZerosN n c.toNat = ((List.replicate n (0 : Byte)).foldl crcByte c).toNat := by
  induction n generalizing c with
  | zero => rfl
  | succ n ih => rw [List.replicate_succ, List.foldl_cons, ← ih, crcByte_zero_toNat, crcZerosN_succ]
/-- The check word of a tile of zeros (R118). -/
theorem crc_zero_tile : crc32c (zeros 4096) = crcZeroTile := by
  have h : crcZerosN 4096 (0xFFFFFFFF#32).toNat = 0x6706BE76 := by decide +kernel
  rw [crcZerosN_foldl] at h
  have h' : (List.replicate 4096 (0 : Byte)).foldl crcByte 0xFFFFFFFF#32 = 0x6706BE76#32 := BitVec.eq_of_toNat_eq h
  rw [crc32c, zeros, h']; rfl

end Sys2Proof.Machine
end

