-- ==== Sys2Proof/Laws/Maps.lean ====
section
/-! SUPPORT. Laws of the sparse maps: what a read after a write gives, and that every operation keeps the canonical form. -/

namespace Sys2Proof.Machine

variable {α : Type}

theorem nwf_nil (d : α) : nwf d [] := by simp [nwf]

theorem nwf_tail {d : α} {p : Nat × α} {m : NMap α} (h : nwf d (p :: m)) : nwf d m :=
  ⟨h.1.of_cons, fun q hq => h.2 q (List.mem_cons_of_mem _ hq)⟩

theorem nwf_head_lt {d : α} {p q : Nat × α} {m : NMap α} (h : nwf d (p :: m)) (hq : q ∈ m) : p.1 < q.1 :=
  (List.pairwise_cons.1 h.1).1 q hq

theorem nwf_filter {d : α} {m : NMap α} (h : nwf d m) (f : Nat × α → Bool) : nwf d (m.filter f) :=
  ⟨h.1.filter f, fun p hp => h.2 p (List.mem_filter.1 hp).1⟩

theorem nclear_nwf {d : α} {m : NMap α} (h : nwf d m) (base len : Nat) : nwf d (nclear m base len) := nwf_filter h _

theorem nget_of_ne {d : α} {m : NMap α} {x : Nat} (h : ∀ p ∈ m, p.1 ≠ x) : nget d m x = d := by
  induction m with
  | nil => rfl
  | cons p r ih =>
    have h1 : ¬ x = p.1 := fun hx => h p (List.mem_cons_self ..) hx.symm
    obtain ⟨k, v⟩ := p
    simp only at h1
    simp only [nget, h1, if_false]
    exact ih fun q hq => h q (List.mem_cons_of_mem _ hq)

theorem nget_of_lt {d : α} {m : NMap α} {x : Nat} (h : ∀ p ∈ m, x < p.1) : nget d m x = d :=
  nget_of_ne fun p hp => Nat.ne_of_gt (h p hp)

variable [DecidableEq α]

theorem nset_mem {d : α} {m : NMap α} {k : Nat} {v : α} {p : Nat × α} (h : p ∈ nset d m k v) :
    (p = (k, v) ∧ v ≠ d) ∨ (p ∈ m ∧ p.1 ≠ k) ∨ (p ∈ m ∧ v ≠ d) := by
  induction m with
  | nil =>
    simp only [nset] at h
    split at h <;> simp_all
  | cons q r ih =>
    obtain ⟨k', v'⟩ := q
    simp only [nset] at h
    split at h
    · split at h
      · rcases ih h with h | h | h <;> simp_all
      · rcases List.mem_cons.1 h with h | h <;> simp_all
    · split at h
      · rename_i hk
        rcases List.mem_cons.1 h with h | h
        · exact .inl ⟨h, hk.2⟩
        · exact .inr (.inr ⟨h, hk.2⟩)
      · rename_i hk _
        rcases List.mem_cons.1 h with rfl | h
        · exact .inr (.inl ⟨List.mem_cons_self .., fun hh => hk hh.symm⟩)
        · rcases ih h with h | h | h
          · exact .inl h
          · exact .inr (.inl ⟨List.mem_cons_of_mem _ h.1, h.2⟩)
          · exact .inr (.inr ⟨List.mem_cons_of_mem _ h.1, h.2⟩)

theorem nset_nwf {d : α} {m : NMap α} (h : nwf d m) (k : Nat) (v : α) : nwf d (nset d m k v) := by
  induction m with
  | nil =>
    simp only [nset]
    split
    · exact nwf_nil d
    · constructor <;> simp_all
  | cons q r ih =>
    obtain ⟨k', v'⟩ := q
    have hr := nwf_tail h
    have hd : v' ≠ d := h.2 (k', v') (List.mem_cons_self ..)
    have hlt : ∀ p ∈ r, k' < p.1 := fun p hp => nwf_head_lt h hp
    have hi := ih hr
    simp only [nset]
    split
    · rename_i hk
      subst hk
      split
      · exact hi
      · refine ⟨List.pairwise_cons.2 ⟨hlt, hr.1⟩, ?_⟩
        intro p hp
        rcases List.mem_cons.1 hp with rfl | hp
        · assumption
        · exact hr.2 p hp
    · split
      · rename_i hk
        refine ⟨List.pairwise_cons.2 ⟨?_, h.1⟩, ?_⟩
        · intro p hp
          rcases List.mem_cons.1 hp with rfl | hp
          · exact hk.1
          · exact Nat.lt_trans hk.1 (hlt p hp)
        · intro p hp
          rcases List.mem_cons.1 hp with rfl | hp
          · exact hk.2
          · exact h.2 p hp
      · rename_i h1 h2
        refine ⟨List.pairwise_cons.2 ⟨?_, hi.1⟩, ?_⟩
        · intro p hp
          rcases nset_mem hp with ⟨rfl, hv⟩ | hp | hp
          · have : ¬ k < k' := fun hh => h2 ⟨hh, hv⟩
            simp only
            omega
          · exact hlt p hp.1
          · exact hlt p hp.1
        · intro p hp
          rcases List.mem_cons.1 hp with rfl | hp
          · exact hd
          · exact hi.2 p hp

/-- A read after a write, with a default of its own. -/
theorem nget_nset' (e d : α) (m : NMap α) (k : Nat) (v : α) (x : Nat) :
    nget e (nset d m k v) x = if x = k then (if v = d then e else v) else nget e m x := by
  induction m with
  | nil =>
    simp only [nset]
    split <;> simp [nget]
  | cons q r ih =>
    obtain ⟨k', v'⟩ := q
    simp only [nset]
    split
    · rename_i hk
      subst hk
      split
      · rename_i hv
        rw [ih]
        by_cases hx : x = k <;> simp [nget, hx, hv]
      · by_cases hx : x = k <;> simp_all [nget]
    · rename_i hk
      split
      · rename_i hv
        simp [nget, hv.2]
      · by_cases hx : x = k'
        · subst hx
          simp [nget, Ne.symm hk]
        · simp [nget, hx, ih]

/-- A read after a write. -/
@[simp] theorem nget_nset (d : α) (m : NMap α) (k : Nat) (v : α) (x : Nat) :
    nget d (nset d m k v) x = if x = k then v else nget d m x := by
  induction m with
  | nil =>
    simp only [nset]
    split
    · rename_i hv
      simp [nget, hv]
    · simp [nget]
  | cons q r ih =>
    obtain ⟨k', v'⟩ := q
    simp only [nset]
    split
    · rename_i hk
      subst hk
      split
      · rw [ih]
        by_cases hx : x = k <;> simp [nget, hx]
      · by_cases hx : x = k <;> simp [nget, hx]
    · rename_i hk
      split
      · simp [nget]
      · by_cases hx : x = k'
        · subst hx
          simp [nget, Ne.symm hk]
        · simp [nget, hx, ih]

theorem ncells_bounds {d : α} {b : Nat} {vs : List α} {p : Nat × α} (h : p ∈ ncells d b vs) :
    b ≤ p.1 ∧ p.1 < b + vs.length ∧ p.2 ≠ d := by
  induction vs generalizing b with
  | nil => simp [ncells] at h
  | cons v r ih =>
    simp only [ncells] at h
    split at h
    · have := ih h
      simp only [List.length_cons]
      refine ⟨by omega, by omega, this.2.2⟩
    · rcases List.mem_cons.1 h with rfl | h
      · simp_all
      · have := ih h
        simp only [List.length_cons]
        refine ⟨by omega, by omega, this.2.2⟩

theorem ncells_nwf (d : α) (b : Nat) (vs : List α) : nwf d (ncells d b vs) := by
  induction vs generalizing b with
  | nil => exact nwf_nil d
  | cons v r ih =>
    simp only [ncells]
    split
    · exact ih (b + 1)
    · refine ⟨List.pairwise_cons.2 ⟨?_, (ih (b + 1)).1⟩, ?_⟩
      · intro p hp
        have := ncells_bounds hp
        simp only
        omega
      · intro p hp
        rcases List.mem_cons.1 hp with rfl | hp
        · assumption
        · exact (ih (b + 1)).2 p hp

omit [DecidableEq α] in
theorem takeWhile_lt (m : NMap α) (c : Nat) : ∀ p ∈ m.takeWhile (fun p => decide (p.1 < c)), p.1 < c := by
  induction m with
  | nil => simp
  | cons q r ih =>
    intro p hp
    simp only [List.takeWhile] at hp
    split at hp
    · rename_i hq
      rcases List.mem_cons.1 hp with rfl | hp
      · simpa using hq
      · exact ih p hp
    · simp at hp

omit [DecidableEq α] in
theorem dropWhile_ge {m : NMap α} (hs : m.Pairwise fun p q => p.1 < q.1) (c : Nat) :
    ∀ p ∈ m.dropWhile (fun p => decide (p.1 < c)), c ≤ p.1 := by
  induction m with
  | nil => simp
  | cons q r ih =>
    simp only [List.dropWhile]
    split
    · exact ih hs.of_cons
    · rename_i hq
      intro p hp
      simp at hq
      rcases List.mem_cons.1 hp with rfl | hp
      · exact hq
      · exact Nat.le_trans hq (Nat.le_of_lt ((List.pairwise_cons.1 hs).1 p hp))

theorem nsetRun_nwf {d : α} {m : NMap α} (h : nwf d m) (base : Nat) (vs : List α) : nwf d (nsetRun d m base vs) := by
  have ht : ∀ p ∈ m.takeWhile (fun p => decide (p.1 < base)), p.1 < base := by
    exact takeWhile_lt m base
  have hdr := dropWhile_ge h.1 (base + vs.length)
  have hc := ncells_nwf d base vs
  refine ⟨?_, ?_⟩
  · rw [nsetRun, List.pairwise_append, List.pairwise_append]
    refine ⟨⟨h.1.sublist (List.takeWhile_sublist _), hc.1, ?_⟩, h.1.sublist (List.dropWhile_sublist _), ?_⟩
    · intro p hp q hq
      have := ht p hp
      have := ncells_bounds hq
      omega
    · intro p hp q hq
      have hq := hdr q hq
      rcases List.mem_append.1 hp with hp | hp
      · have := ht p hp
        omega
      · have := ncells_bounds hp
        omega
  · intro p hp
    rw [nsetRun] at hp
    rcases List.mem_append.1 hp with hp | hp
    · rcases List.mem_append.1 hp with hp | hp
      · exact h.2 p ((List.takeWhile_sublist _).mem hp)
      · exact (ncells_bounds hp).2.2
    · exact h.2 p ((List.dropWhile_sublist _).mem hp)

omit [DecidableEq α] in
theorem nget_append_left {d : α} {a b : NMap α} {x : Nat} (h : ∀ p ∈ b, x < p.1) : nget d (a ++ b) x = nget d a x := by
  induction a with
  | nil => exact nget_of_lt h
  | cons q r ih =>
    obtain ⟨k, v⟩ := q
    simp only [List.cons_append, nget, ih]

omit [DecidableEq α] in
theorem nget_append_right {d : α} {a b : NMap α} {x : Nat} (h : ∀ p ∈ a, p.1 < x) : nget d (a ++ b) x = nget d b x := by
  induction a with
  | nil => rfl
  | cons q r ih =>
    obtain ⟨k, v⟩ := q
    have h1 := h (k, v) (List.mem_cons_self ..)
    have h2 : ¬ x = k := by simp only at h1; omega
    simp only [List.cons_append, nget, h2, if_false]
    exact ih fun p hp => h p (List.mem_cons_of_mem _ hp)

theorem nget_ncells {d : α} {b : Nat} {vs : List α} {x : Nat} :
    nget d (ncells d b vs) x = if b ≤ x then (vs[x - b]?).getD d else d := by
  induction vs generalizing b with
  | nil => simp [ncells, nget]
  | cons v r ih =>
    by_cases hx : x = b
    · subst hx
      simp only [ncells]
      split
      · rename_i hv
        rw [ih]
        simp only [hv, Nat.sub_self, Nat.le_refl, if_true, List.getElem?_cons_zero, Option.getD_some]
        split
        · omega
        · rfl
      · simp [nget]
    · by_cases hb : b ≤ x
      · have h1 : b + 1 ≤ x := by omega
        have h2 : x - b = (x - (b + 1)) + 1 := by omega
        simp only [ncells]
        split
        · rw [ih]; simp [h1, h2]
        · simp only [nget, hx, if_false]; rw [ih]; simp [h1, h2]
      · rw [nget_of_lt fun p hp => by have := ncells_bounds hp; omega]
        simp [hb]

omit [DecidableEq α] in
theorem nget_takeWhile {d : α} {m : NMap α} {c x : Nat} (h : x < c) (hs : m.Pairwise fun p q => p.1 < q.1) :
    nget d (m.takeWhile fun p => decide (p.1 < c)) x = nget d m x := by
  rw [← List.takeWhile_append_dropWhile (p := fun p => decide (p.1 < c)) (l := m)] 
  rw [nget_append_left (b := m.dropWhile _) fun p hp => by have := dropWhile_ge hs c p hp; omega]
  simp

omit [DecidableEq α] in
theorem nget_dropWhile {d : α} {m : NMap α} {c x : Nat} (h : c ≤ x) :
    nget d (m.dropWhile fun p => decide (p.1 < c)) x = nget d m x := by
  conv => rhs; rw [← List.takeWhile_append_dropWhile (p := fun p => decide (p.1 < c)) (l := m)]
  exact (nget_append_right fun p hp => by have := takeWhile_lt m c p hp; omega).symm

/-- A read after a run of writes of a canonical map. -/
theorem nget_nsetRun {d : α} {m : NMap α} (h : nwf d m) (base : Nat) (vs : List α) (x : Nat) :
    nget d (nsetRun d m base vs) x = if base ≤ x ∧ x < base + vs.length then (vs[x - base]?).getD d else nget d m x := by
  have hb : ∀ p ∈ m.dropWhile (fun p => decide (p.1 < base + vs.length)), base + vs.length ≤ p.1 := dropWhile_ge h.1 _
  rw [nsetRun]
  by_cases h1 : base ≤ x
  · by_cases h2 : x < base + vs.length
    · rw [nget_append_left fun p hp => by have := hb p hp; omega,
        nget_append_right fun p hp => by have := takeWhile_lt m base p hp; omega, nget_ncells]
      simp [h1, h2]
    · rw [nget_append_right, nget_dropWhile (by omega)]
      · simp [h2]
      · intro p hp
        rcases List.mem_append.1 hp with hp | hp
        · have := takeWhile_lt m base p hp
          omega
        · have := ncells_bounds hp
          omega
  · rw [List.append_assoc, nget_append_left, nget_takeWhile (by omega) h.1]
    · simp [h1]
    · intro p hp
      rcases List.mem_append.1 hp with hp | hp
      · have := ncells_bounds hp
        omega
      · have := hb p hp
        omega

omit [DecidableEq α] in
theorem nrunGo_eq {d : α} (n : Nat) (m : NMap α) (b : Nat) (hs : m.Pairwise fun p q => p.1 < q.1) (hb : ∀ p ∈ m, b ≤ p.1) :
    nrunGo d n m b = (List.range n).map fun i => nget d m (b + i) := by
  induction n generalizing m b with
  | zero => simp [nrunGo]
  | succ n ih =>
    rw [List.range_succ_eq_map, List.map_cons, List.map_map]
    cases m with
    | nil =>
      simp only [nrunGo, nget]
      rw [ih [] (b + 1) List.Pairwise.nil (by simp)]
      simp [nget, Function.comp_def]
    | cons q r =>
      obtain ⟨k, v⟩ := q
      have hk : b ≤ k := hb (k, v) (List.mem_cons_self ..)
      have hr := (List.pairwise_cons.1 hs)
      simp only [nrunGo]
      split
      · rename_i hkb
        subst hkb
        rw [ih r (k + 1) hr.2 fun p hp => hr.1 p hp]
        simp only [nget, Nat.add_zero, if_true, List.cons.injEq, true_and]
        apply List.map_congr_left
        intro i _
        have h1 : ¬ k + Nat.succ i = k := by omega
        simp only [Function.comp, h1, if_false]
        congr 1
        omega
      · rename_i hkb
        rw [ih ((k, v) :: r) (b + 1) hs]
        · have h1 : ¬ b + 0 = k := by omega
          have h2 : nget d r (b + 0) = d := nget_of_lt fun p hp => by have := hr.1 p hp; simp only at this; omega
          simp only [nget, h1, h2, if_false, List.cons.injEq, true_and]
          apply List.map_congr_left
          intro i _
          have : b + 1 + i = b + Nat.succ i := by omega
          simp only [Function.comp, this]
        · intro p hp
          rcases List.mem_cons.1 hp with rfl | hp
          · simp only; omega
          · have := hr.1 p hp
            simp only at this
            omega

omit [DecidableEq α] in
/-- A run of reads of a canonical map is its reads. -/
theorem nrun_eq {d : α} {m : NMap α} (h : m.Pairwise fun p q => p.1 < q.1) (base len : Nat) :
    nrun d m base len = (List.range len).map fun i => nget d m (base + i) := by
  rw [nrun, nrunGo_eq _ _ _ (h.sublist (List.dropWhile_sublist _)) (dropWhile_ge h base)]
  apply List.map_congr_left
  intro i _
  exact nget_dropWhile (by omega)

omit [DecidableEq α] in
@[simp] theorem nrunGo_length {d : α} (n : Nat) (m : NMap α) (b : Nat) : (nrunGo d n m b).length = n := by
  induction n generalizing m b with
  | zero => rfl
  | succ n ih =>
    cases m with
    | nil => simp [nrunGo, ih]
    | cons q r =>
      simp only [nrunGo]
      split <;> simp [ih]

omit [DecidableEq α] in
@[simp] theorem nrun_length {d : α} (m : NMap α) (base len : Nat) : (nrun d m base len).length = len := by simp [nrun]

end Sys2Proof.Machine
end

