-- ==== Sys2Proof/Laws/Mem.lean ====
section
/-! SUPPORT. Laws of memory: every operation keeps the canonical form, and what a byte, a check word and a mark read as
after an operation. -/

namespace Sys2Proof.Machine

theorem dropUnits_nwf {α : Type} {d : α} {m : NMap α} (h : nwf d m) (u n : Nat) : nwf d (dropUnits m u n) := by
  unfold dropUnits
  split
  · exact nwf_nil d
  · exact nclear_nwf h u n

/-- Every memory operation keeps the canonical form. -/
theorem Mem.apply_wf {m : Mem} (h : m.wf) (op : MemOp) : (m.apply op).wf := by
  obtain ⟨h1, h2, h3, h4, h5⟩ := h
  cases op with
  | put k bs => exact ⟨nsetRun_nwf h1 _ _, h2, dropUnits_nwf h3 _ _, h4, dropUnits_nwf h5 _ _⟩
  | chk t w => exact ⟨h1, nset_nwf h2 _ _, h3, nset_nwf h4 _ _, h5⟩
  | err u p => exact ⟨h1, h2, nset_nwf h3 _ _, h4, h5⟩
  | chkErr t p => exact ⟨h1, h2, h3, nset_nwf h4 _ _, h5⟩
  | back u o => exact ⟨h1, h2, h3, h4, nset_nwf h5 _ _⟩
  | wipe k len n r => exact ⟨nwf_filter h1 _, nwf_filter h2 _, nwf_filter h3 _, nwf_filter h4 _, nwf_filter h5 _⟩

/-- Operations in order keep the canonical form. -/
theorem Mem.applyAll_wf {m : Mem} (h : m.wf) (ops : List MemOp) : (m.applyAll ops).wf := by
  induction ops generalizing m with
  | nil => exact h
  | cons op r ih => exact ih (Mem.apply_wf h op)

theorem Mem.applyAll_nil (m : Mem) : m.applyAll [] = m := rfl
theorem Mem.applyAll_cons (m : Mem) (op : MemOp) (r : List MemOp) : m.applyAll (op :: r) = (m.apply op).applyAll r := rfl
theorem Mem.applyAll_append (m : Mem) (a b : List MemOp) : m.applyAll (a ++ b) = (m.applyAll a).applyAll b := by
  simp [Mem.applyAll, List.foldl_append]

/-- The byte that a store leaves at a key. -/
theorem Mem.put_byte {m : Mem} (h : m.wf) (k : Nat) (bs : List Byte) (x : Nat) :
    nget 0 (m.apply (.put k bs)).cells x = if k ≤ x ∧ x < k + bs.length then (bs[x - k]?).getD 0 else nget 0 m.cells x :=
  nget_nsetRun h.1 k bs x
/-- The check word that a check write leaves at a tile. -/
theorem Mem.chk_check (m : Mem) (t : Nat) (w : Word) (x : Nat) :
    nget crcZeroTile (m.apply (.chk t w)).checks x = if x = t then w else nget crcZeroTile m.checks x :=
  nget_nset _ _ t w x
@[simp] theorem Mem.put_checks (m : Mem) (k : Nat) (bs : List Byte) : (m.apply (.put k bs)).checks = m.checks := rfl
@[simp] theorem Mem.chk_cells (m : Mem) (t : Nat) (w : Word) : (m.apply (.chk t w)).cells = m.cells := rfl
@[simp] theorem Mem.chk_errs (m : Mem) (t : Nat) (w : Word) : (m.apply (.chk t w)).errs = m.errs := rfl
@[simp] theorem Mem.err_cells (m : Mem) (u p : Nat) : (m.apply (.err u p)).cells = m.cells := rfl
@[simp] theorem Mem.err_checks (m : Mem) (u p : Nat) : (m.apply (.err u p)).checks = m.checks := rfl
@[simp] theorem Mem.chkErr_cells (m : Mem) (t p : Nat) : (m.apply (.chkErr t p)).cells = m.cells := rfl
@[simp] theorem Mem.back_cells (m : Mem) (u : Nat) (o : Option Nat) : (m.apply (.back u o)).cells = m.cells := rfl
/-- The upsets of a unit after some are noted. -/
theorem Mem.err_errs (m : Mem) (u p x : Nat) : nget 0 (m.apply (.err u p)).errs x = if x = u then p else nget 0 m.errs x :=
  nget_nset _ _ u p x

/-- A map filtered by its keys, read. -/
theorem nget_filter {α : Type} (d : α) (m : NMap α) (f : Nat → Bool) (x : Nat) :
    nget d (m.filter fun p => f p.1) x = if f x then nget d m x else d := by
  induction m with
  | nil => simp [nget]
  | cons q r ih =>
    obtain ⟨k, v⟩ := q
    by_cases hx : x = k
    · subst hx
      by_cases hf : f x <;> simp [hf, nget, ih]
    · by_cases hf : f k <;> simp [hf, nget, hx, ih]

/-- A byte after a fill: zero on the tiles it reaches, as before elsewhere. -/
theorem Mem.wipe_byte (m : Mem) (k len n r x : Nat) :
    nget 0 (m.apply (.wipe k len n r)).cells x = if wiped k len n r (x / 4096) then 0 else nget 0 m.cells x := by
  have := nget_filter (0 : Byte) m.cells (fun y => !wiped k len n r (y / 4096)) x
  simp only [Mem.apply]
  rw [this]
  by_cases hw : wiped k len n r (x / 4096) <;> simp [hw]

/-- Reading a run of bytes is reading each. -/
theorem Mem.bytes_eq {m : Mem} (h : m.wf) (k n : Nat) : m.bytes k n = (List.range n).map fun i => nget 0 m.cells (k + i) :=
  nrun_eq h.1.1 k n
@[simp] theorem Mem.bytes_length (m : Mem) (k n : Nat) : (m.bytes k n).length = n := by simp [Mem.bytes]

/-- A step's outcome has its memory in canonical form. -/
theorem Work.result_wf {s : State} (h : s.mem.wf) (w : Work) : (w.result s).mem.wf := Mem.applyAll_wf h _
/-- So has the state that a piece of work leaves. -/
theorem W.on_wf {s : State} (h : s.mem.wf) (p : W Unit) : (W.on s p).mem.wf := Work.result_wf h _

/-- A step within a scope that takes memory from its work keeps the canonical form. -/
theorem W.within_wf {scope : State → State → State} (hm : ∀ s t, (scope s t).mem = t.mem) {s t : State} {p : W Unit}
    (h : s.mem.wf) (hs : W.within scope s p = .next t) : t.mem.wf := by
  cases hs
  rw [hm]
  exact W.on_wf h p

end Sys2Proof.Machine
end

