-- ==== Sys2Proof/Laws/State.lean ====
section
/-! SUPPORT. What each update of the state leaves of each field, and what each scope lets through. -/

namespace Sys2Proof.Machine

@[simp] theorem State.onDie_pending (s : State) (d : Fin 8) (g : Die → Die) : (s.onDie d g).pending = s.pending := rfl
@[simp] theorem State.onDie_free (s : State) (d : Fin 8) (g : Die → Die) : (s.onDie d g).free = s.free := rfl
@[simp] theorem State.onDie_mem (s : State) (d : Fin 8) (g : Die → Die) : (s.onDie d g).mem = s.mem := rfl
@[simp] theorem State.onDie_regs (s : State) (d : Fin 8) (g : Die → Die) : (s.onDie d g).regs = s.regs := rfl
@[simp] theorem State.onDie_miss (s : State) (d : Fin 8) (g : Die → Die) : (s.onDie d g).miss = s.miss := rfl
@[simp] theorem State.onDie_regions (s : State) (d : Fin 8) (g : Die → Die) : (s.onDie d g).regions = s.regions := rfl
@[simp] theorem State.onDie_hold (s : State) (d : Fin 8) (g : Die → Die) : (s.onDie d g).hold = s.hold := rfl
@[simp] theorem State.onDie_lost (s : State) (d : Fin 8) (g : Die → Die) : (s.onDie d g).lost = s.lost := rfl
@[simp] theorem State.onDie_ports (s : State) (d : Fin 8) (g : Die → Die) : (s.onDie d g).ports = s.ports := rfl
@[simp] theorem State.onDie_fab (s : State) (d : Fin 8) (g : Die → Die) : (s.onDie d g).fab = s.fab := rfl
@[simp] theorem State.onDie_ctl (s : State) (d : Fin 8) (g : Die → Die) : (s.onDie d g).ctl = s.ctl := rfl
@[simp] theorem State.onDie_sec (s : State) (d : Fin 8) (g : Die → Die) : (s.onDie d g).sec = s.sec := rfl
@[simp] theorem State.onDie_images (s : State) (d : Fin 8) (g : Die → Die) : (s.onDie d g).images = s.images := rfl
@[simp] theorem State.onDie_pwr (s : State) (d : Fin 8) (g : Die → Die) : (s.onDie d g).pwr = s.pwr := rfl
@[simp] theorem State.onDie_clk (s : State) (d : Fin 8) (g : Die → Die) : (s.onDie d g).clk = s.clk := rfl
@[simp] theorem State.onDie_tiers (s : State) (d : Fin 8) (g : Die → Die) : (s.onDie d g).tiers = s.tiers := rfl
@[simp] theorem State.onDie_snapSeq (s : State) (d : Fin 8) (g : Die → Die) : (s.onDie d g).snapSeq = s.snapSeq := rfl
@[simp] theorem rset_pending (s : State) (a : Nat) (v : Word) : (rset s a v).pending = s.pending := rfl
@[simp] theorem rset_free (s : State) (a : Nat) (v : Word) : (rset s a v).free = s.free := rfl
@[simp] theorem rset_mem (s : State) (a : Nat) (v : Word) : (rset s a v).mem = s.mem := rfl
@[simp] theorem rset_miss (s : State) (a : Nat) (v : Word) : (rset s a v).miss = s.miss := rfl
@[simp] theorem rset_regions (s : State) (a : Nat) (v : Word) : (rset s a v).regions = s.regions := rfl
@[simp] theorem rset_dies (s : State) (a : Nat) (v : Word) : (rset s a v).dies = s.dies := rfl
@[simp] theorem rset_hold (s : State) (a : Nat) (v : Word) : (rset s a v).hold = s.hold := rfl
@[simp] theorem rset_lost (s : State) (a : Nat) (v : Word) : (rset s a v).lost = s.lost := rfl
@[simp] theorem rset_ports (s : State) (a : Nat) (v : Word) : (rset s a v).ports = s.ports := rfl
@[simp] theorem rset_fab (s : State) (a : Nat) (v : Word) : (rset s a v).fab = s.fab := rfl
@[simp] theorem rset_ctl (s : State) (a : Nat) (v : Word) : (rset s a v).ctl = s.ctl := rfl
@[simp] theorem rset_sec (s : State) (a : Nat) (v : Word) : (rset s a v).sec = s.sec := rfl
@[simp] theorem rset_images (s : State) (a : Nat) (v : Word) : (rset s a v).images = s.images := rfl
@[simp] theorem rset_pwr (s : State) (a : Nat) (v : Word) : (rset s a v).pwr = s.pwr := rfl
@[simp] theorem rset_clk (s : State) (a : Nat) (v : Word) : (rset s a v).clk = s.clk := rfl
@[simp] theorem rset_tiers (s : State) (a : Nat) (v : Word) : (rset s a v).tiers = s.tiers := rfl
@[simp] theorem rset_snapSeq (s : State) (a : Nat) (v : Word) : (rset s a v).snapSeq = s.snapSeq := rfl
@[simp] theorem rset_die (s : State) (a : Nat) (v : Word) (e : Fin 8) : (rset s a v).die e = s.die e := rfl
@[simp] theorem ror_pending (s : State) (a mask : Nat) : (ror s a mask).pending = s.pending := rfl
@[simp] theorem ror_free (s : State) (a mask : Nat) : (ror s a mask).free = s.free := rfl
@[simp] theorem ror_mem (s : State) (a mask : Nat) : (ror s a mask).mem = s.mem := rfl
@[simp] theorem ror_miss (s : State) (a mask : Nat) : (ror s a mask).miss = s.miss := rfl
@[simp] theorem ror_regions (s : State) (a mask : Nat) : (ror s a mask).regions = s.regions := rfl
@[simp] theorem ror_dies (s : State) (a mask : Nat) : (ror s a mask).dies = s.dies := rfl
@[simp] theorem ror_hold (s : State) (a mask : Nat) : (ror s a mask).hold = s.hold := rfl
@[simp] theorem ror_lost (s : State) (a mask : Nat) : (ror s a mask).lost = s.lost := rfl
@[simp] theorem ror_ports (s : State) (a mask : Nat) : (ror s a mask).ports = s.ports := rfl
@[simp] theorem ror_fab (s : State) (a mask : Nat) : (ror s a mask).fab = s.fab := rfl
@[simp] theorem ror_ctl (s : State) (a mask : Nat) : (ror s a mask).ctl = s.ctl := rfl
@[simp] theorem ror_sec (s : State) (a mask : Nat) : (ror s a mask).sec = s.sec := rfl
@[simp] theorem ror_images (s : State) (a mask : Nat) : (ror s a mask).images = s.images := rfl
@[simp] theorem ror_pwr (s : State) (a mask : Nat) : (ror s a mask).pwr = s.pwr := rfl
@[simp] theorem ror_clk (s : State) (a mask : Nat) : (ror s a mask).clk = s.clk := rfl
@[simp] theorem ror_tiers (s : State) (a mask : Nat) : (ror s a mask).tiers = s.tiers := rfl
@[simp] theorem ror_snapSeq (s : State) (a mask : Nat) : (ror s a mask).snapSeq = s.snapSeq := rfl
@[simp] theorem ror_die (s : State) (a mask : Nat) (e : Fin 8) : (ror s a mask).die e = s.die e := rfl
@[simp] theorem rclr_pending (s : State) (a mask : Nat) : (rclr s a mask).pending = s.pending := rfl
@[simp] theorem rclr_free (s : State) (a mask : Nat) : (rclr s a mask).free = s.free := rfl
@[simp] theorem rclr_mem (s : State) (a mask : Nat) : (rclr s a mask).mem = s.mem := rfl
@[simp] theorem rclr_miss (s : State) (a mask : Nat) : (rclr s a mask).miss = s.miss := rfl
@[simp] theorem rclr_regions (s : State) (a mask : Nat) : (rclr s a mask).regions = s.regions := rfl
@[simp] theorem rclr_dies (s : State) (a mask : Nat) : (rclr s a mask).dies = s.dies := rfl
@[simp] theorem rclr_hold (s : State) (a mask : Nat) : (rclr s a mask).hold = s.hold := rfl
@[simp] theorem rclr_lost (s : State) (a mask : Nat) : (rclr s a mask).lost = s.lost := rfl
@[simp] theorem rclr_ports (s : State) (a mask : Nat) : (rclr s a mask).ports = s.ports := rfl
@[simp] theorem rclr_fab (s : State) (a mask : Nat) : (rclr s a mask).fab = s.fab := rfl
@[simp] theorem rclr_ctl (s : State) (a mask : Nat) : (rclr s a mask).ctl = s.ctl := rfl
@[simp] theorem rclr_sec (s : State) (a mask : Nat) : (rclr s a mask).sec = s.sec := rfl
@[simp] theorem rclr_images (s : State) (a mask : Nat) : (rclr s a mask).images = s.images := rfl
@[simp] theorem rclr_pwr (s : State) (a mask : Nat) : (rclr s a mask).pwr = s.pwr := rfl
@[simp] theorem rclr_clk (s : State) (a mask : Nat) : (rclr s a mask).clk = s.clk := rfl
@[simp] theorem rclr_tiers (s : State) (a mask : Nat) : (rclr s a mask).tiers = s.tiers := rfl
@[simp] theorem rclr_snapSeq (s : State) (a mask : Nat) : (rclr s a mask).snapSeq = s.snapSeq := rfl
@[simp] theorem rclr_die (s : State) (a mask : Nat) (e : Fin 8) : (rclr s a mask).die e = s.die e := rfl
@[simp] theorem rfield_pending (s : State) (a hi lo v : Nat) : (rfield s a hi lo v).pending = s.pending := rfl
@[simp] theorem rfield_free (s : State) (a hi lo v : Nat) : (rfield s a hi lo v).free = s.free := rfl
@[simp] theorem rfield_mem (s : State) (a hi lo v : Nat) : (rfield s a hi lo v).mem = s.mem := rfl
@[simp] theorem rfield_miss (s : State) (a hi lo v : Nat) : (rfield s a hi lo v).miss = s.miss := rfl
@[simp] theorem rfield_regions (s : State) (a hi lo v : Nat) : (rfield s a hi lo v).regions = s.regions := rfl
@[simp] theorem rfield_dies (s : State) (a hi lo v : Nat) : (rfield s a hi lo v).dies = s.dies := rfl
@[simp] theorem rfield_hold (s : State) (a hi lo v : Nat) : (rfield s a hi lo v).hold = s.hold := rfl
@[simp] theorem rfield_lost (s : State) (a hi lo v : Nat) : (rfield s a hi lo v).lost = s.lost := rfl
@[simp] theorem rfield_ports (s : State) (a hi lo v : Nat) : (rfield s a hi lo v).ports = s.ports := rfl
@[simp] theorem rfield_fab (s : State) (a hi lo v : Nat) : (rfield s a hi lo v).fab = s.fab := rfl
@[simp] theorem rfield_ctl (s : State) (a hi lo v : Nat) : (rfield s a hi lo v).ctl = s.ctl := rfl
@[simp] theorem rfield_sec (s : State) (a hi lo v : Nat) : (rfield s a hi lo v).sec = s.sec := rfl
@[simp] theorem rfield_images (s : State) (a hi lo v : Nat) : (rfield s a hi lo v).images = s.images := rfl
@[simp] theorem rfield_pwr (s : State) (a hi lo v : Nat) : (rfield s a hi lo v).pwr = s.pwr := rfl
@[simp] theorem rfield_clk (s : State) (a hi lo v : Nat) : (rfield s a hi lo v).clk = s.clk := rfl
@[simp] theorem rfield_tiers (s : State) (a hi lo v : Nat) : (rfield s a hi lo v).tiers = s.tiers := rfl
@[simp] theorem rfield_snapSeq (s : State) (a hi lo v : Nat) : (rfield s a hi lo v).snapSeq = s.snapSeq := rfl
@[simp] theorem rfield_die (s : State) (a hi lo v : Nat) (e : Fin 8) : (rfield s a hi lo v).die e = s.die e := rfl
@[simp] theorem rbump_pending (s : State) (a n : Nat) : (rbump s a n).pending = s.pending := by unfold rbump; split <;> rfl
@[simp] theorem rbump_free (s : State) (a n : Nat) : (rbump s a n).free = s.free := by unfold rbump; split <;> rfl
@[simp] theorem rbump_mem (s : State) (a n : Nat) : (rbump s a n).mem = s.mem := by unfold rbump; split <;> rfl
@[simp] theorem rbump_miss (s : State) (a n : Nat) : (rbump s a n).miss = s.miss := by unfold rbump; split <;> rfl
@[simp] theorem rbump_regions (s : State) (a n : Nat) : (rbump s a n).regions = s.regions := by unfold rbump; split <;> rfl
@[simp] theorem rbump_dies (s : State) (a n : Nat) : (rbump s a n).dies = s.dies := by unfold rbump; split <;> rfl
@[simp] theorem rbump_hold (s : State) (a n : Nat) : (rbump s a n).hold = s.hold := by unfold rbump; split <;> rfl
@[simp] theorem rbump_lost (s : State) (a n : Nat) : (rbump s a n).lost = s.lost := by unfold rbump; split <;> rfl
@[simp] theorem rbump_ports (s : State) (a n : Nat) : (rbump s a n).ports = s.ports := by unfold rbump; split <;> rfl
@[simp] theorem rbump_fab (s : State) (a n : Nat) : (rbump s a n).fab = s.fab := by unfold rbump; split <;> rfl
@[simp] theorem rbump_ctl (s : State) (a n : Nat) : (rbump s a n).ctl = s.ctl := by unfold rbump; split <;> rfl
@[simp] theorem rbump_sec (s : State) (a n : Nat) : (rbump s a n).sec = s.sec := by unfold rbump; split <;> rfl
@[simp] theorem rbump_images (s : State) (a n : Nat) : (rbump s a n).images = s.images := by unfold rbump; split <;> rfl
@[simp] theorem rbump_pwr (s : State) (a n : Nat) : (rbump s a n).pwr = s.pwr := by unfold rbump; split <;> rfl
@[simp] theorem rbump_clk (s : State) (a n : Nat) : (rbump s a n).clk = s.clk := by unfold rbump; split <;> rfl
@[simp] theorem rbump_tiers (s : State) (a n : Nat) : (rbump s a n).tiers = s.tiers := by unfold rbump; split <;> rfl
@[simp] theorem rbump_snapSeq (s : State) (a n : Nat) : (rbump s a n).snapSeq = s.snapSeq := by unfold rbump; split <;> rfl
@[simp] theorem rbump_die (s : State) (a n : Nat) (e : Fin 8) : (rbump s a n).die e = s.die e := by unfold rbump; split <;> rfl

@[simp] theorem dieScope_pending (s t : State) : (dieScope s t).pending = s.pending := rfl
@[simp] theorem dieScope_free (s t : State) : (dieScope s t).free = t.free := rfl
@[simp] theorem dieScope_mem (s t : State) : (dieScope s t).mem = t.mem := rfl
@[simp] theorem dieScope_regs (s t : State) : (dieScope s t).regs = t.regs := rfl
@[simp] theorem dieScope_miss (s t : State) : (dieScope s t).miss = s.miss := rfl
@[simp] theorem dieScope_regions (s t : State) : (dieScope s t).regions = s.regions := rfl
@[simp] theorem dieScope_dies (s t : State) : (dieScope s t).dies = t.dies := rfl
@[simp] theorem dieScope_hold (s t : State) : (dieScope s t).hold = t.hold := rfl
@[simp] theorem dieScope_lost (s t : State) : (dieScope s t).lost = t.lost := rfl
@[simp] theorem dieScope_ports (s t : State) : (dieScope s t).ports = s.ports := rfl
@[simp] theorem dieScope_fab (s t : State) : (dieScope s t).fab = s.fab := rfl
@[simp] theorem dieScope_ctl (s t : State) : (dieScope s t).ctl = s.ctl := rfl
@[simp] theorem dieScope_sec (s t : State) : (dieScope s t).sec = s.sec := rfl
@[simp] theorem dieScope_images (s t : State) : (dieScope s t).images = s.images := rfl
@[simp] theorem dieScope_pwr (s t : State) : (dieScope s t).pwr = s.pwr := rfl
@[simp] theorem dieScope_clk (s t : State) : (dieScope s t).clk = s.clk := rfl
@[simp] theorem dieScope_tiers (s t : State) : (dieScope s t).tiers = t.tiers := rfl
@[simp] theorem dieScope_snapSeq (s t : State) : (dieScope s t).snapSeq = s.snapSeq := rfl
@[simp] theorem fabScope_pending (s t : State) : (fabScope s t).pending = s.pending := rfl
@[simp] theorem fabScope_free (s t : State) : (fabScope s t).free = t.free := rfl
@[simp] theorem fabScope_mem (s t : State) : (fabScope s t).mem = t.mem := rfl
@[simp] theorem fabScope_regs (s t : State) : (fabScope s t).regs = t.regs := rfl
@[simp] theorem fabScope_miss (s t : State) : (fabScope s t).miss = s.miss := rfl
@[simp] theorem fabScope_regions (s t : State) : (fabScope s t).regions = s.regions := rfl
@[simp] theorem fabScope_dies (s t : State) : (fabScope s t).dies = t.dies := rfl
@[simp] theorem fabScope_hold (s t : State) : (fabScope s t).hold = t.hold := rfl
@[simp] theorem fabScope_lost (s t : State) : (fabScope s t).lost = t.lost := rfl
@[simp] theorem fabScope_ports (s t : State) : (fabScope s t).ports = t.ports := rfl
@[simp] theorem fabScope_fab (s t : State) : (fabScope s t).fab = t.fab := rfl
@[simp] theorem fabScope_ctl (s t : State) : (fabScope s t).ctl = s.ctl := rfl
@[simp] theorem fabScope_sec (s t : State) : (fabScope s t).sec = { s.sec with txEnd := t.sec.txEnd } := rfl
@[simp] theorem fabScope_images (s t : State) : (fabScope s t).images = s.images := rfl
@[simp] theorem fabScope_pwr (s t : State) : (fabScope s t).pwr = s.pwr := rfl
@[simp] theorem fabScope_clk (s t : State) : (fabScope s t).clk = s.clk := rfl
@[simp] theorem fabScope_tiers (s t : State) : (fabScope s t).tiers = t.tiers := rfl
@[simp] theorem fabScope_snapSeq (s t : State) : (fabScope s t).snapSeq = s.snapSeq := rfl
@[simp] theorem readScope_pending (s t : State) : (readScope s t).pending = s.pending := rfl
@[simp] theorem readScope_free (s t : State) : (readScope s t).free = t.free := rfl
@[simp] theorem readScope_mem (s t : State) : (readScope s t).mem = t.mem := rfl
@[simp] theorem readScope_regs (s t : State) : (readScope s t).regs = t.regs := rfl
@[simp] theorem readScope_miss (s t : State) : (readScope s t).miss = t.miss := rfl
@[simp] theorem readScope_regions (s t : State) : (readScope s t).regions = s.regions := rfl
@[simp] theorem readScope_dies (s t : State) : (readScope s t).dies = s.dies := rfl
@[simp] theorem readScope_hold (s t : State) : (readScope s t).hold = t.hold := rfl
@[simp] theorem readScope_lost (s t : State) : (readScope s t).lost = t.lost := rfl
@[simp] theorem readScope_ports (s t : State) : (readScope s t).ports = s.ports := rfl
@[simp] theorem readScope_fab (s t : State) : (readScope s t).fab = s.fab := rfl
@[simp] theorem readScope_ctl (s t : State) : (readScope s t).ctl = t.ctl := rfl
@[simp] theorem readScope_sec (s t : State) : (readScope s t).sec = s.sec := rfl
@[simp] theorem readScope_images (s t : State) : (readScope s t).images = s.images := rfl
@[simp] theorem readScope_pwr (s t : State) : (readScope s t).pwr = s.pwr := rfl
@[simp] theorem readScope_clk (s t : State) : (readScope s t).clk = s.clk := rfl
@[simp] theorem readScope_tiers (s t : State) : (readScope s t).tiers = t.tiers := rfl
@[simp] theorem readScope_snapSeq (s t : State) : (readScope s t).snapSeq = s.snapSeq := rfl
@[simp] theorem boardScope_pending (s t : State) : (boardScope s t).pending = s.pending := rfl
@[simp] theorem boardScope_free (s t : State) : (boardScope s t).free = t.free := rfl
@[simp] theorem boardScope_mem (s t : State) : (boardScope s t).mem = t.mem := rfl
@[simp] theorem boardScope_regs (s t : State) : (boardScope s t).regs = t.regs := rfl
@[simp] theorem boardScope_miss (s t : State) : (boardScope s t).miss = s.miss := rfl
@[simp] theorem boardScope_regions (s t : State) : (boardScope s t).regions = s.regions := rfl
@[simp] theorem boardScope_dies (s t : State) : (boardScope s t).dies = s.dies := rfl
@[simp] theorem boardScope_hold (s t : State) : (boardScope s t).hold = t.hold := rfl
@[simp] theorem boardScope_lost (s t : State) : (boardScope s t).lost = t.lost := rfl
@[simp] theorem boardScope_ports (s t : State) : (boardScope s t).ports = s.ports := rfl
@[simp] theorem boardScope_fab (s t : State) : (boardScope s t).fab = s.fab := rfl
@[simp] theorem boardScope_ctl (s t : State) : (boardScope s t).ctl = s.ctl := rfl
@[simp] theorem boardScope_sec (s t : State) : (boardScope s t).sec = s.sec := rfl
@[simp] theorem boardScope_images (s t : State) : (boardScope s t).images = s.images := rfl
@[simp] theorem boardScope_pwr (s t : State) : (boardScope s t).pwr = t.pwr := rfl
@[simp] theorem boardScope_clk (s t : State) : (boardScope s t).clk = t.clk := rfl
@[simp] theorem boardScope_tiers (s t : State) : (boardScope s t).tiers = t.tiers := rfl
@[simp] theorem boardScope_snapSeq (s t : State) : (boardScope s t).snapSeq = s.snapSeq := rfl
@[simp] theorem wideScope_pending (s t : State) : (wideScope s t).pending = s.pending := rfl
@[simp] theorem wideScope_free (s t : State) : (wideScope s t).free = t.free := rfl
@[simp] theorem wideScope_mem (s t : State) : (wideScope s t).mem = t.mem := rfl
@[simp] theorem wideScope_regs (s t : State) : (wideScope s t).regs = t.regs := rfl
@[simp] theorem wideScope_miss (s t : State) : (wideScope s t).miss = t.miss := rfl
@[simp] theorem wideScope_regions (s t : State) : (wideScope s t).regions = t.regions := rfl
@[simp] theorem wideScope_dies (s t : State) : (wideScope s t).dies = t.dies := rfl
@[simp] theorem wideScope_hold (s t : State) : (wideScope s t).hold = t.hold := rfl
@[simp] theorem wideScope_lost (s t : State) : (wideScope s t).lost = t.lost := rfl
@[simp] theorem wideScope_ports (s t : State) : (wideScope s t).ports = t.ports := rfl
@[simp] theorem wideScope_fab (s t : State) : (wideScope s t).fab = t.fab := rfl
@[simp] theorem wideScope_ctl (s t : State) : (wideScope s t).ctl = t.ctl := rfl
@[simp] theorem wideScope_sec (s t : State) : (wideScope s t).sec = t.sec := rfl
@[simp] theorem wideScope_images (s t : State) : (wideScope s t).images = t.images := rfl
@[simp] theorem wideScope_pwr (s t : State) : (wideScope s t).pwr = t.pwr := rfl
@[simp] theorem wideScope_clk (s t : State) : (wideScope s t).clk = t.clk := rfl
@[simp] theorem wideScope_tiers (s t : State) : (wideScope s t).tiers = t.tiers := rfl
@[simp] theorem wideScope_snapSeq (s t : State) : (wideScope s t).snapSeq = t.snapSeq := rfl

@[simp] theorem Work.result_pending (s : State) (w : Work) : (w.result s).pending = s.pending := rfl
@[simp] theorem Work.result_free (s : State) (w : Work) : (w.result s).free = w.s.free := rfl
@[simp] theorem Work.result_mem (s : State) (w : Work) : (w.result s).mem = s.mem.applyAll w.log.reverse := rfl
@[simp] theorem Work.result_regs (s : State) (w : Work) : (w.result s).regs = w.s.regs := rfl
@[simp] theorem Work.result_miss (s : State) (w : Work) : (w.result s).miss = w.s.miss := rfl
@[simp] theorem Work.result_regions (s : State) (w : Work) : (w.result s).regions = w.s.regions := rfl
@[simp] theorem Work.result_dies (s : State) (w : Work) : (w.result s).dies = w.s.dies := rfl
@[simp] theorem Work.result_hold (s : State) (w : Work) : (w.result s).hold = w.s.hold := rfl
@[simp] theorem Work.result_lost (s : State) (w : Work) : (w.result s).lost = w.s.lost := rfl
@[simp] theorem Work.result_ports (s : State) (w : Work) : (w.result s).ports = w.s.ports := rfl
@[simp] theorem Work.result_fab (s : State) (w : Work) : (w.result s).fab = w.s.fab := rfl
@[simp] theorem Work.result_ctl (s : State) (w : Work) : (w.result s).ctl = w.s.ctl := rfl
@[simp] theorem Work.result_sec (s : State) (w : Work) : (w.result s).sec = w.s.sec := rfl
@[simp] theorem Work.result_images (s : State) (w : Work) : (w.result s).images = w.s.images := rfl
@[simp] theorem Work.result_pwr (s : State) (w : Work) : (w.result s).pwr = w.s.pwr := rfl
@[simp] theorem Work.result_clk (s : State) (w : Work) : (w.result s).clk = w.s.clk := rfl
@[simp] theorem Work.result_tiers (s : State) (w : Work) : (w.result s).tiers = w.s.tiers := rfl
@[simp] theorem Work.result_snapSeq (s : State) (w : Work) : (w.result s).snapSeq = w.s.snapSeq := rfl

@[simp] theorem State.onDie_die (s : State) (d : Fin 8) (g : Die → Die) : (s.onDie d g).die d = g (s.die d) := by
  simp [State.onDie, State.die]
theorem State.onDie_other (s : State) {d e : Fin 8} (g : Die → Die) (h : d ≠ e) : (s.onDie d g).die e = s.die e := by
  have : d.val ≠ e.val := fun hv => h (Fin.ext hv)
  simp [State.onDie, State.die, this]

end Sys2Proof.Machine
end

