-- ==== Sys2Proof/Laws/Regs.lean ====
section
/-! SUPPORT. Laws of the register file: what a register reads as after a change of one. -/

namespace Sys2Proof.Machine

theorem canon_cases (a : Nat) : canon a = a ∨
    (canon a = a % 2 ^ 28 ∧ regUnit a < 8 ∧ regUnit (canon a) = 0 ∧ regBlk (canon a) = regBlk a ∧ regOff (canon a) = regOff a
      ∧ canon a % 4 = a % 4) := by
  unfold canon
  split
  · rename_i h
    refine .inr ⟨rfl, h.1, ?_, ?_, ?_, ?_⟩ <;> (try simp only [regUnit, regBlk, regOff]) <;> omega
  · exact .inl rfl

/-- Every name of a register has its one home's access and reset value. -/
theorem regInfo_canon (a : Nat) : regInfo (canon a) = regInfo a := by
  rcases canon_cases a with h | ⟨_, h2, h3, h4, h5, h6⟩
  · rw [h]
  · unfold regInfo
    rw [h3, h4, h5, h6]
    simp [h2]

theorem regReset_canon (a : Nat) : regReset (canon a) = regReset a := by unfold regReset; rw [regInfo_canon]

theorem regReset_same {a b : Nat} (h : canon b = canon a) : regReset b = regReset a := by
  rw [← regReset_canon b, h, regReset_canon]

/-- A register after a write. -/
@[simp] theorem rget_rset (s : State) (a b : Nat) (v : Word) :
    rget (rset s a v) b = if canon b = canon a then v else rget s b := by
  unfold rget rset
  simp only [nget_nset']
  split
  · rename_i h
    split
    · rename_i hv
      rw [hv, regReset_same h]
    · rfl
  · rfl

@[simp] theorem rget_ror (s : State) (a b mask : Nat) :
    rget (ror s a mask) b = if canon b = canon a then rget s a ||| w32 mask else rget s b := rget_rset _ _ _ _
@[simp] theorem rget_rclr (s : State) (a b mask : Nat) :
    rget (rclr s a mask) b = if canon b = canon a then rget s a &&& ~~~ w32 mask else rget s b := rget_rset _ _ _ _

theorem rget_canon {s : State} {a b : Nat} (h : canon b = canon a) : rget s b = rget s a := by
  unfold rget
  rw [h, regReset_same h]

/-- A counter after it rose. -/
theorem rget_rbump (s : State) (a b n : Nat) :
    rget (rbump s a n) b = if canon b = canon a then (if n = 0 then rget s a else satAdd (rget s a) n) else rget s b := by
  unfold rbump
  split
  · split
    · rename_i h
      exact rget_canon h
    · rfl
  · rw [rget_rset]

end Sys2Proof.Machine
end

