-- ==== Sys2Proof/Laws/Work.lean ====
section
/-! SUPPORT. Working copies: how pieces of work compose, what the shared operations of Ops.lean leave alone, and what they
log. Cite these in place of unfolding the operations. -/

namespace Sys2Proof.Machine

variable {α β γ : Type}

/-! ## Composition -/

@[simp] theorem W.pure_apply (x : α) (w : Work) : (pure x : W α) w = (x, w) := rfl
@[simp] theorem W.bind_apply (p : W α) (k : α → W β) (w : Work) : (p >>= k) w = k (p w).1 (p w).2 := rfl
@[simp] theorem W.map_apply (g : α → β) (p : W α) (w : Work) : (g <$> p) w = (g (p w).1, (p w).2) := rfl
@[simp] theorem getS_apply (w : Work) : getS w = (w.s, w) := rfl
@[simp] theorem modS_apply (g : State → State) (w : Work) : modS g w = ((), { w with s := g w.s }) := rfl
@[simp] theorem emit_apply (op : MemOp) (w : Work) :
    emit op w = ((), { w with s := { w.s with mem := w.s.mem.apply op }, log := op :: w.log }) := rfl

@[simp high] theorem W.getS_bind (k : State → W α) (w : Work) : (getS >>= k) w = k w.s w := rfl
@[simp high] theorem W.getD_bind (d : Fin 8) (k : Die → W α) (w : Work) : (getD d >>= k) w = k (w.s.die d) w := rfl
@[simp high] theorem W.getReg_bind (a : Nat) (k : Word → W α) (w : Work) : (getReg a >>= k) w = k (rget w.s a) w := rfl
@[simp high] theorem W.modS_bind (g : State → State) (k : PUnit → W α) (w : Work) :
    (modS g >>= k) w = k PUnit.unit { w with s := g w.s } := rfl

/-- A step within a scope answers a next state. -/
theorem W.within_next (scope : State → State → State) (s : State) (p : W Unit) : W.within scope s p = .next (scope s (W.on s p)) := rfl

/-- The events of a step sent: none, or each in the order of R411 with the step's cycle. -/
theorem flushEvents_apply (w : Work) : flushEvents w = if w.evs.isEmpty then ((), w) else (do
    let sub ← freeVal
    (w.evs.foldl (fun l e => insertEvent e l) []).forM fun e => post { e with sub := b8 (sub % 64) } : W Unit) { w with evs := [] } := by
  obtain ⟨s, log, evs⟩ := w
  cases evs <;> rfl

/-- A step that raises no event sends none. -/
theorem Work.flushed_of_none {w : Work} (h : w.evs = []) : w.flushed = w := by
  rw [Work.flushed, flushEvents_apply, h]
  rfl

/-! ## What a piece of work keeps -/

/-- A part of the state that a piece of work leaves as it is. -/
def W.Keeps (f : State → γ) (p : W α) : Prop := ∀ w, f (p w).2.s = f w.s
/-- Work that changes no state keeps all of it. -/
theorem W.keeps_id {f : State → γ} {g : Work → Work} (h : ∀ w, (g w).s = w.s) : W.Keeps f (modify g : W PUnit) := fun w => congrArg f (h w)

theorem W.keeps_pure (f : State → γ) (x : α) : W.Keeps f (pure x : W α) := fun _ => rfl
theorem W.keeps_bind {f : State → γ} {p : W α} {k : α → W β} (hp : W.Keeps f p) (hk : ∀ a, W.Keeps f (k a)) : W.Keeps f (p >>= k) :=
  fun w => (hk _ _).trans (hp w)
theorem W.keeps_map {f : State → γ} {p : W α} {g : α → β} (hp : W.Keeps f p) : W.Keeps f (g <$> p) := fun w => hp w
theorem W.keeps_getS (f : State → γ) : W.Keeps f getS := fun _ => rfl
theorem W.keeps_get (f : State → γ) : W.Keeps f (get : W Work) := fun _ => rfl
theorem W.keeps_modS {f : State → γ} {g : State → State} (h : ∀ s, f (g s) = f s) : W.Keeps f (modS g) := fun w => h w.s
theorem W.keeps_emit {f : State → γ} (h : ∀ s m, f { s with mem := m } = f s) (op : MemOp) : W.Keeps f (emit op) := fun w => h w.s _
theorem W.keeps_ite {f : State → γ} {c : Prop} [Decidable c] {p q : W α} (hp : W.Keeps f p) (hq : W.Keeps f q) :
    W.Keeps f (if c then p else q) := by split <;> assumption
theorem W.keeps_dite {f : State → γ} {c : Prop} [Decidable c] {p : c → W α} {q : ¬ c → W α} (hp : ∀ h, W.Keeps f (p h))
    (hq : ∀ h, W.Keeps f (q h)) : W.Keeps f (if h : c then p h else q h) := by split <;> simp_all
theorem W.keeps_forM {f : State → γ} {l : List α} {k : α → W PUnit} (hk : ∀ a, W.Keeps f (k a)) : W.Keeps f (l.forM k) := by
  induction l with
  | nil => exact W.keeps_pure f _
  | cons x r ih => exact W.keeps_bind (hk x) fun _ => ih
theorem W.keeps_mapM {f : State → γ} {l : List α} {k : α → W β} (hk : ∀ a, W.Keeps f (k a)) : W.Keeps f (l.mapM k) := by
  induction l with
  | nil => simpa using W.keeps_pure f ([] : List β)
  | cons x r ih =>
    rw [List.mapM_cons]
    exact W.keeps_bind (hk x) fun _ => W.keeps_bind ih fun _ => W.keeps_pure f _

/-! ## Parts that memory accesses and events leave alone -/

/-- A part of the state that no read, write, event or register change touches. -/
def Passive (f : State → γ) : Prop :=
  ∀ (s : State) m r h l n t, f { s with mem := m, regs := r, hold := h, lost := l, free := n, tiers := t } = f s

theorem passive_dies : Passive (·.dies) := fun _ _ _ _ _ _ _ => rfl
theorem passive_ports : Passive (·.ports) := fun _ _ _ _ _ _ _ => rfl
theorem passive_fab : Passive (·.fab) := fun _ _ _ _ _ _ _ => rfl
theorem passive_ctl : Passive (·.ctl) := fun _ _ _ _ _ _ _ => rfl
theorem passive_sec : Passive (·.sec) := fun _ _ _ _ _ _ _ => rfl
theorem passive_images : Passive (·.images) := fun _ _ _ _ _ _ _ => rfl
theorem passive_pwr : Passive (·.pwr) := fun _ _ _ _ _ _ _ => rfl
theorem passive_clk : Passive (·.clk) := fun _ _ _ _ _ _ _ => rfl
theorem passive_regions : Passive (·.regions) := fun _ _ _ _ _ _ _ => rfl
theorem passive_miss : Passive (·.miss) := fun _ _ _ _ _ _ _ => rfl
theorem passive_pending : Passive (·.pending) := fun _ _ _ _ _ _ _ => rfl
theorem passive_snapSeq : Passive (·.snapSeq) := fun _ _ _ _ _ _ _ => rfl

variable {f : State → γ} (hf : Passive f)
include hf

theorem Passive.mem (s : State) (m) : f { s with mem := m } = f s := hf s m s.regs s.hold s.lost s.free s.tiers
theorem Passive.regs (s : State) (r) : f { s with regs := r } = f s := hf s s.mem r s.hold s.lost s.free s.tiers
theorem Passive.rset (s : State) (a : Nat) (v : Word) : f (rset s a v) = f s := hf.regs s _
theorem keeps_emit (op : MemOp) : W.Keeps f (emit op) := W.keeps_emit hf.mem op
theorem keeps_bump (a n : Nat) : W.Keeps f (bump a n) := by
  refine W.keeps_modS fun s => ?_
  unfold rbump
  split
  · rfl
  · exact hf.rset s _ _
theorem keeps_setFlags (a n : Nat) : W.Keeps f (setFlags a n) := W.keeps_modS fun s => hf.rset s _ _
theorem keeps_setField (a hi lo v : Nat) : W.Keeps f (setField a hi lo v) := W.keeps_modS fun s => hf.rset s _ _
theorem keeps_setReg (a v : Nat) : W.Keeps f (setReg a v) := W.keeps_modS fun s => hf.rset s _ _
theorem keeps_timed (a : Nat) : W.Keeps f (timed a) := keeps_setReg hf a 1
omit hf in
theorem keeps_getReg (a : Nat) : W.Keeps f (getReg a) := W.keeps_bind (W.keeps_getS f) fun _ => W.keeps_pure f _
theorem keeps_freeVal : W.Keeps f freeVal :=
  W.keeps_bind (W.keeps_getS f) fun _ => W.keeps_bind (W.keeps_modS fun s => hf s s.mem s.regs s.hold s.lost _ s.tiers) fun _ => W.keeps_pure f _
theorem keeps_freeWide : W.Keeps f freeWide :=
  W.keeps_bind (W.keeps_getS f) fun _ => W.keeps_bind (W.keeps_modS fun s => hf s s.mem s.regs s.hold s.lost _ s.tiers) fun _ => W.keeps_pure f _
omit hf in
/-- An event waits for the end of its step. -/
theorem keeps_raise (area code : Nat) (st : Byte) (wh : Nat) (detail : List Byte) : W.Keeps f (raise area code st wh detail) :=
  W.keeps_id fun _ => rfl

theorem keeps_failRoom (d : Fin 8) (fs a kind : Nat) : W.Keeps f (failRoom d fs a kind) := by
  have ht : W.Keeps f (do
      setFlags (regA d bMOV 0x800) (if kind = 0 then 2 else 4)
      bump (if kind = 0 then regA d bMOV 0x800 + 0x14 else regA d bMOV 0x800 + 0x10) 1) :=
    W.keeps_bind (keeps_setFlags hf _ _) fun _ => keeps_bump hf _ _
  exact W.keeps_bind (keeps_getReg _) fun _ => W.keeps_ite (W.keeps_bind (keeps_setField hf _ _ _ _) fun _ =>
    W.keeps_bind (keeps_setField hf _ _ _ _) fun _ => W.keeps_bind (keeps_setReg hf _ _) fun _ =>
    W.keeps_bind (keeps_setReg hf _ _) fun _ => ht) ht

theorem keeps_failWgb (d : Fin 8) (off kind : Nat) : W.Keeps f (failWgb d off kind) := by
  have ht : W.Keeps f (do
      setFlags (regA d bME 0x800) (if kind = 0 then 2 else 4)
      bump (regA d bME 0x800 + 0xC) (if kind = 0 then 0 else 1)) :=
    W.keeps_bind (keeps_setFlags hf _ _) fun _ => keeps_bump hf _ _
  exact W.keeps_bind (keeps_getReg _) fun _ => W.keeps_ite (W.keeps_bind (keeps_setField hf _ _ _ _) fun _ =>
    W.keeps_bind (keeps_setReg hf _ _) fun _ => ht) ht

theorem keeps_failExt (b chan a kind : Nat) : W.Keeps f (failExt b chan a kind) := by
  have ht : W.Keeps f (if kind ≠ 3 then do setFlags b 2; bump (b + 0x10) 1 else pure ()) :=
    W.keeps_ite (W.keeps_bind (keeps_setFlags hf _ _) fun _ => keeps_bump hf _ _) (W.keeps_pure f _)
  exact W.keeps_bind (keeps_getReg _) fun _ => W.keeps_ite (W.keeps_bind (keeps_setField hf _ _ _ _) fun _ =>
    W.keeps_bind (keeps_setField hf _ _ _ _) fun _ => W.keeps_bind (keeps_setReg hf _ _) fun _ =>
    W.keeps_bind (keeps_setReg hf _ _) fun _ => ht) ht

/-- A failure's record changes registers only. -/
theorem keeps_recordFail (d : Fin 8) (a kind : Nat) : W.Keeps f (recordFail d a kind) := by
  unfold recordFail
  split
  · exact W.keeps_pure f _
  · exact keeps_failRoom hf _ _ _ _
  · exact keeps_failRoom hf _ _ _ _
  · exact keeps_failWgb hf _ _ _
  · exact W.keeps_ite (W.keeps_pure f _) (keeps_failExt hf _ _ _ _)

theorem keeps_recordCorr (d : Fin 8) (a n : Nat) : W.Keeps f (recordCorr d a n) := by
  unfold recordCorr
  split
  · exact W.keeps_pure f _
  · split <;> exact W.keeps_bind (keeps_setFlags hf _ _) fun _ => keeps_bump hf _ _

/-! ## Reads and writes of memory -/

theorem keeps_judgeUnit (d : Fin 8) (a : Nat) : W.Keeps f (judgeUnit d a) := by
  unfold judgeUnit
  refine W.keeps_bind (W.keeps_getS f) fun s => ?_
  dsimp only
  refine W.keeps_ite (W.keeps_pure f _) ?_
  split
  · exact W.keeps_pure f _
  · refine W.keeps_bind (keeps_freeVal hf) fun _ => W.keeps_bind (keeps_freeWide hf) fun _ => W.keeps_bind (keeps_freeWide hf) fun _ => ?_
    exact W.keeps_pure f _

theorem keeps_noteUnit (kind : Nat) (d : Fin 8) (a : Nat) (v : Verdict) : W.Keeps f (noteUnit kind d a v) := by
  unfold noteUnit
  have ht : W.Keeps f ((List.range v.lost).forM fun _ => recordFail d a kind) := W.keeps_forM fun _ => keeps_recordFail hf _ _ _
  refine W.keeps_ite (W.keeps_bind (keeps_recordCorr hf _ _ _) fun _ => W.keeps_bind (keeps_emit hf _) fun _ => ht) ht

/-- A correction of a lane changes lane counts, registers and events only. -/
theorem keeps_laneHit (d : Fin 8) (off lane : Nat) : W.Keeps f (laneHit d off lane) := by
  unfold laneHit
  refine W.keeps_bind (keeps_getReg _) fun _ => ?_
  refine W.keeps_ite (W.keeps_pure f _) (W.keeps_bind (W.keeps_getS f) fun _ => ?_)
  refine W.keeps_bind (W.keeps_modS fun s => hf s s.mem s.regs s.hold s.lost s.free _) fun _ => ?_
  have ht : ∀ a b e, W.Keeps f (do bump a 1; setFlags b 4; raise 2 2 sOK (whereW d bCEL (off / 4096 % 2)) e) := fun _ _ _ =>
    W.keeps_bind (keeps_bump hf _ _) fun _ => W.keeps_bind (keeps_setFlags hf _ _) fun _ => keeps_raise _ _ _ _ _
  refine W.keeps_ite ?_ (W.keeps_pure f _)
  exact W.keeps_ite (W.keeps_bind (keeps_setField hf _ _ _ _) fun _ => ht _ _ _) (W.keeps_bind (keeps_setField hf _ _ _ _) fun _ => ht _ _ _)

theorem keeps_readUnit (kind : Nat) (d : Fin 8) (a : Nat) : W.Keeps f (readUnit kind d a) := by
  unfold readUnit
  refine W.keeps_bind (keeps_judgeUnit hf _ _) fun v => W.keeps_bind (keeps_noteUnit hf _ _ _ _) fun _ => ?_
  split
  · exact W.keeps_bind (W.keeps_forM fun _ => keeps_laneHit hf _ _ _) fun _ => W.keeps_pure f _
  · exact W.keeps_bind (W.keeps_pure f _) fun _ => W.keeps_pure f _

theorem keeps_readUpsets (d : Fin 8) (a : Nat) (l : List Nat) (bs : List Byte) (bad : Bool) : W.Keeps f (readUpsets d a l bs bad) := by
  induction l generalizing bs bad with
  | nil => exact W.keeps_pure f _
  | cons u r ih => exact W.keeps_bind (keeps_readUnit hf _ _ _) fun _ => ih _ _

/-- A read changes notes of corrections, registers, lane counts and events only. -/
theorem keeps_readBytes (d : Fin 8) (a len : Nat) : W.Keeps f (readBytes d a len) := by
  unfold readBytes
  refine W.keeps_bind (W.keeps_getS f) fun s => W.keeps_ite (W.keeps_pure f _) ?_
  exact W.keeps_bind (keeps_readUpsets hf _ _ _ _ _) fun _ => W.keeps_pure f _

theorem keeps_readCheck (d : Fin 8) (st : Store) (a off : Nat) : W.Keeps f (readCheck d st a off) := by
  unfold readCheck
  refine W.keeps_bind (W.keeps_getS f) fun s => ?_
  dsimp only
  split
  · exact W.keeps_bind (keeps_readBytes hf _ _ _) fun r => by cases r <;> exact W.keeps_pure f _
  · refine W.keeps_ite (W.keeps_pure f _) (W.keeps_bind (keeps_freeVal hf) fun _ => W.keeps_bind (keeps_freeVal hf) fun _ => ?_)
    have ht : ∀ (c : Prop) [Decidable c] (x : W (Except Byte Word)), W.Keeps f x →
        W.Keeps f (if c then do recordFail d a 1; return .error sUNCORR else x) := fun c _ x hx =>
      W.keeps_ite (W.keeps_bind (keeps_recordFail hf _ _ _) fun _ => W.keeps_pure f _) hx
    exact W.keeps_ite (W.keeps_bind (keeps_recordCorr hf _ _ _) fun _ => ht _ _ (W.keeps_pure f _)) (ht _ _ (W.keeps_pure f _))

/-- A tile read changes notes of corrections, registers, lane counts and events only. -/
theorem keeps_oldTile (kind : Nat) (d : Fin 8) (a : Nat) : W.Keeps f (oldTile kind d a) := by
  unfold oldTile
  refine W.keeps_bind (W.keeps_getS f) fun s => ?_
  dsimp only
  split
  · exact W.keeps_pure f _
  · refine W.keeps_ite (W.keeps_pure f _) ?_
    refine W.keeps_ite (W.keeps_bind (keeps_timed hf _) fun _ => ?_) ?_ <;>
    · refine W.keeps_bind (keeps_readBytes hf _ _ _) fun r => ?_
      cases r with
      | error e => exact W.keeps_pure f _
      | ok bs =>
        refine W.keeps_ite (W.keeps_pure f _) (W.keeps_bind (keeps_readCheck hf _ _ _ _) fun c => ?_)
        cases c with
        | error e => exact W.keeps_pure f _
        | ok w => exact W.keeps_ite (W.keeps_bind (keeps_recordFail hf _ _ _) fun _ => W.keeps_pure f _) (W.keeps_pure f _)

theorem keeps_readTile (p : Nat) (d : Fin 8) (a : Nat) : W.Keeps f (readTile p d a) :=
  W.keeps_bind (W.keeps_getS f) fun _ => W.keeps_ite (W.keeps_pure f _) (keeps_oldTile hf _ _ _)

theorem keeps_tendCheck (d : Fin 8) (st : Store) (a off : Nat) : W.Keeps f (tendCheck d st a off) := by
  unfold tendCheck
  refine W.keeps_bind (W.keeps_getS f) fun s => ?_
  dsimp only
  split
  · exact W.keeps_pure f _
  · refine W.keeps_ite (W.keeps_pure f _) (W.keeps_bind (keeps_readUnit hf _ _ _) fun v => W.keeps_ite (W.keeps_pure f _) ?_)
    exact W.keeps_bind (W.keeps_forM fun _ => keeps_emit hf _) fun _ => W.keeps_bind (keeps_emit hf _) fun _ =>
      W.keeps_bind (keeps_emit hf _) fun _ => W.keeps_pure f _

theorem keeps_putCheck (d : Fin 8) (st : Store) (a off : Nat) (w : Word) : W.Keeps f (putCheck d st a off w) :=
  W.keeps_bind (keeps_tendCheck hf _ _ _ _) fun _ => W.keeps_ite (W.keeps_pure f _) (W.keeps_bind (keeps_emit hf _) fun _ => W.keeps_pure f _)

/-- A whole-tile write changes memory, registers, lane counts and events only. -/
theorem keeps_writeTile (p : Nat) (d : Fin 8) (a : Nat) (bs : List Byte) (c : Word) : W.Keeps f (writeTile p d a bs c) := by
  unfold writeTile
  refine W.keeps_bind (W.keeps_getS f) fun s => ?_
  dsimp only
  split
  · exact W.keeps_pure f _
  · refine W.keeps_ite (W.keeps_pure f _) (W.keeps_ite (W.keeps_pure f _) ?_)
    have ht : ∀ e, W.Keeps f (if e ≠ sOK then pure e else do emit (.put (keyOf d (a / 4096 * 4096)) bs); return sOK : W Byte) := fun e =>
      W.keeps_ite (W.keeps_pure f _) (W.keeps_bind (keeps_emit hf _) fun _ => W.keeps_pure f _)
    exact W.keeps_ite (W.keeps_bind (W.keeps_pure f _) fun e => ht e) (W.keeps_bind (keeps_putCheck hf _ _ _ _ _) fun e => ht e)

theorem keeps_healRun (d : Fin 8) (a len : Nat) : W.Keeps f (healRun d a len) := by
  unfold healRun
  refine W.keeps_bind (W.keeps_getS f) fun s => ?_
  dsimp only
  exact W.keeps_ite (W.keeps_pure f _) (W.keeps_forM fun _ => W.keeps_bind (keeps_emit hf _) fun _ => keeps_emit hf _)

theorem keeps_mergePut (d : Fin 8) (t : Nat) (ps : List (Nat × List Byte)) : W.Keeps f (mergePut d t ps) := by
  unfold mergePut
  split
  · exact W.keeps_pure f _
  · refine W.keeps_bind (W.keeps_getS f) fun s => ?_
    rename_i st off _
    have ht : ∀ e, W.Keeps f (if e ≠ sOK then pure e else do
        ps.forM fun x => do
          healRun d x.1 x.2.length
          emit (.put (keyOf d x.1) x.2)
        if st.isRoom then bump (regA d bMOV 0x818) 1
        else if st.isExt then bump (tierBlock d st off + 0x1C) 1
        return sOK : W Byte) := fun e => by
      refine W.keeps_ite (W.keeps_pure f _) (W.keeps_bind (W.keeps_forM fun _ =>
        W.keeps_bind (keeps_healRun hf _ _ _) fun _ => keeps_emit hf _) fun _ => ?_)
      refine W.keeps_ite (W.keeps_bind (keeps_bump hf _ _) fun _ => W.keeps_pure f _) (W.keeps_ite ?_ (W.keeps_pure f _))
      exact W.keeps_bind (keeps_bump hf _ _) fun _ => W.keeps_pure f _
    exact W.keeps_ite (W.keeps_bind (W.keeps_pure f _) fun e => ht e) (W.keeps_bind (keeps_putCheck hf _ _ _ _ _) fun e => ht e)

/-- A merge changes memory, registers, lane counts and events only. -/
theorem keeps_mergeRuns (p : Nat) (d : Fin 8) (t : Nat) (ps : List (Nat × List Byte)) : W.Keeps f (mergeRuns p d t ps) := by
  unfold mergeRuns
  refine W.keeps_bind (W.keeps_getS f) fun s => W.keeps_ite (W.keeps_pure f _) ?_
  exact W.keeps_bind (keeps_oldTile hf _ _ _) fun r => by
    cases r with
    | error e => exact W.keeps_pure f _
    | ok bs => exact keeps_mergePut hf _ _ _

/-- A merge of one run changes memory, registers, lane counts and events only. -/
theorem keeps_mergeTile (p : Nat) (d : Fin 8) (a : Nat) (bs : List Byte) : W.Keeps f (mergeTile p d a bs) :=
  W.keeps_ite (W.keeps_pure f _) (keeps_mergeRuns hf _ _ _ _)

/-! ## Events -/

theorem keeps_putReserve (a : Nat) (bs : List Byte) : W.Keeps f (putReserve a bs) := by
  unfold putReserve
  refine W.keeps_bind (W.keeps_getS f) fun s => ?_
  refine W.keeps_ite (W.keeps_bind (W.keeps_forM fun u => ?_) fun _ => keeps_emit hf _) (keeps_emit hf _)
  refine W.keeps_bind (keeps_judgeUnit hf _ _) fun v => W.keeps_bind (keeps_noteUnit hf _ _ _ _) fun _ => ?_
  exact W.keeps_ite (W.keeps_bind (keeps_emit hf _) fun _ => keeps_emit hf _) (keeps_emit hf _)

theorem keeps_ringWrite (r : Nat) (e : Event) : W.Keeps f (ringWrite r e) :=
  W.keeps_bind (W.keeps_getS f) fun _ => W.keeps_bind (keeps_putReserve hf _ _) fun _ => W.keeps_modS fun s => hf.rset s _ _

theorem keeps_post (e : Event) : W.Keeps f (post e) := by
  refine W.keeps_bind (W.keeps_getS f) fun s => W.keeps_ite (W.keeps_forM fun r => ?_) ?_
  · refine W.keeps_bind (keeps_bump hf _ _) fun _ => W.keeps_bind (keeps_setFlags hf _ _) fun _ => ?_
    exact W.keeps_modS fun s => hf s s.mem s.regs s.hold _ s.free s.tiers
  · refine W.keeps_bind (W.keeps_forM fun r => keeps_ringWrite hf r e) fun _ => ?_
    exact W.keeps_ite (W.keeps_modS fun s => hf s s.mem s.regs _ s.lost s.free s.tiers) (W.keeps_pure f _)

/-- Events change rings, the hold queue and counters only. -/
theorem keeps_flushEvents : W.Keeps f flushEvents := by
  intro w
  rw [flushEvents_apply]
  split
  · rfl
  · exact W.keeps_bind (keeps_freeVal hf) (fun _ => W.keeps_forM fun _ => keeps_post hf _) { w with evs := [] }

/-- A step's outcome keeps what its work keeps. -/
theorem W.on_keeps {p : W Unit} (h : W.Keeps f p) (hp : ∀ (s : State) l, f { s with pending := l } = f s) (s : State) :
    f (W.on s p) = f s :=
  calc f (W.on s p) = f { (p { s }).2.flushed.s with mem := s.mem.applyAll (p { s }).2.flushed.log.reverse } := hp { (p { s }).2.flushed.s with
          mem := s.mem.applyAll (p { s }).2.flushed.log.reverse } s.pending
    _ = f (p { s }).2.flushed.s := hf.mem _ _
    _ = f s := (keeps_flushEvents hf _).trans (h { s })

end Sys2Proof.Machine
end

