-- ==== Sys2Proof/Laws/Steps.lean ====
section
/-! SUPPORT. What the shared steps do: a packet that passes its checks, and a command that starts at its queue's head. -/

namespace Sys2Proof.Machine

/-- A packet that no check refuses: its action runs on the state as the packet stands before the firmware, then its reply is
settled and sent. -/
theorem packet_passes {op : Op} {q : Pkt} {s : State} (h : Passes op q s) (l : List MemOp) (v : List Event) :
    packet op q ⟨s, l, v⟩ =
      let w := op.act q ⟨arrive op.code q s, l, v⟩
      match w.1 with
      | none => ((), w.2)
      | some a => (do settle op.code q a.1; reply op.code q a : W Unit) w.2 := by
  obtain ⟨h1, h2, h0, h3, h4, h5, h6⟩ := h
  have hwin : queues (arrive op.code q s) = false := by
    unfold arrive
    split <;> exact h0
  have hrec : ((arrive op.code q s).sec.recovery && !(op.code == 0 || op.code == 0x50D)) = false := by
    have : (arrive op.code q s).sec = s.sec := by
      unfold arrive
      split <;> rfl
    rw [this]
    by_cases hr : s.sec.recovery = true
    · rcases h5 hr with h | h <;> simp [h]
    · simp [Bool.eq_false_iff.2 hr]
  simp only [packet, W.getS_bind]
  rw [if_neg h3]
  simp only [h1, h2, Bool.not_true, Bool.or_false, Bool.false_eq_true, if_false, W.modS_bind, receive, W.getS_bind, hwin, Bool.not_false, if_true, takePkt, h4, serve]
  simp only [hrec, Bool.false_eq_true, if_false, h6, W.bind_apply]
  split <;> rename_i hx <;> simp [hx]

@[simp] theorem engineWork_die (b t : State) (d : Fin 8) : (engineWork b t).die d = workDie (b.die d) (t.die d) := by
  simp [engineWork, State.die]

/-- Every engine command is the shared start of its queue's head, with its own acceptance and its own work. -/
theorem exec_engineRow {i : Instr} {d : Fin 8} {q : Fin 9} {op : Nat} {acc : Accept} {work : Nat → Nat → Words → W Res} {s : State}
    (h : engineRow i = some (d, q, op, acc, work)) :
    exec i s = W.within fabScope s (startHead d q op acc (work ((((s.die d).queues[q]).head?.map (·.idx)).getD 0))) := by
  cases i <;> simp only [engineRow, Option.some.injEq, Prod.mk.injEq, reduceCtorEq] at h <;> (try exact h.elim) <;>
    obtain ⟨rfl, rfl, rfl, rfl, rfl⟩ := h <;> rfl

/-- A command that is ready starts. -/
theorem startHead_ready {s : State} {d : Fin 8} {q : Fin 9} {op : Nat} {accept : Accept} {c : Queued} {rest : List Queued}
    (h : Ready s d q op accept c rest) (work : Nat → Words → W Res) (l : List MemOp) (v : List Event) :
    StartedFrom s (startHead d q op accept work ⟨s, l, v⟩).2.s d q c rest := by
  obtain ⟨h1, h2, h3, h4, h5, h6, h7, h8⟩ := h
  have hany : ((enginesOf c.words).any fun e => (s.die d).eng[e].st != .run) = false := by
    rw [List.all_eq_true] at h7
    rw [List.any_eq_false]
    intro e he
    have := h7 e he
    simp_all
  have hgo : ¬((s.die d).pw ≠ .run ∨ ((s.die d).seq.st ≠ .running ∧ (s.die d).seq.st ≠ .halted) ∨ (s.die d).seq.halted.contains q.val = true) := by
    rw [h3]
    rcases h2 with h | h <;> simp [h1, h]
  unfold startHead
  simp only [W.getS_bind]
  rw [if_neg hgo]
  simp only [h4, h5, ne_eq, not_true, if_false, h6, hany, h8, Bool.false_eq_true, Bool.not_true]
  refine ⟨?_, ?_, ?_, ?_, ?_⟩
  all_goals simp [modD, timed, setReg, workDie]

end Sys2Proof.Machine
end

