-- ==== Sys2Proof/Tests/Slice0.lean ====
section
/-! SUPPORT. Small tests: ill-formed operands, witnesses that the statements' hypotheses can be met, and worked values of the manual. -/

set_option Elab.async false

namespace Sys2Proof.Tests
open Sys2Proof.Machine

/-! ## States and packets of the tests -/

/-- A packet of master 3, who owns the lease of `live`. -/
def pk (part : Byte) (payload : List Byte) : Pkt := ⟨{ port := 3, seq := 5, master := 3, part, lease := 1 }, payload⟩
/-- A packet of another master, without the lease. -/
def pkOf (m : Fin 5) (payload : List Byte) : Pkt := ⟨{ port := m, seq := 5, master := b8 m.val, part := 0xFF, lease := 0 }, payload⟩
/-- Its header alone. -/
def hd : Hdr := { port := 3, seq := 5, master := 3, part := 0xFF, lease := 1 }

/-- A die in Run with its schedule in a state. -/
def dieIn (st : Sched) : Die := { pw := .run, seq := { st } }
/-- A module in Run whose firmware runs; master 3 owns the lease 1; every die stands in a schedule state. -/
def liveIn (st : Sched) : State := { State.reset with
  dies := Vector.replicate 8 (dieIn st)
  ctl := { lease := .owned 3, leaseId := 1, nextLease := 2, leaseLeft := 1000 }
  sec := { State.reset.sec with serial := 7, seed := 5, tokenKey := sm2G, fwUp := true, imageSvn := Vector.replicate 5 (some 0) }
  pwr := { hub := Vector.replicate 2 .run } }
/-- The module with nothing loaded. -/
def live : State := liveIn .empty
/-- A state with one die replaced. -/
def withDie (d : Fin 8) (x : Die) (s : State) : State := { s with dies := s.dies.set d x }
/-- A state with one port replaced. -/
def withPort (p : Fin 32) (x : Port) (s : State) : State := { s with ports := s.ports.set p x }

/-- Master 3's packets with the numbers and flags of a repetition. -/
def pkF (flags : Byte) (part : Byte) (payload : List Byte) : Pkt := ⟨{ port := 3, seq := 5, flags, master := 3, part, lease := 1 }, payload⟩
abbrev n4 := natLE 4
abbrev n8 := natLE 8
/-- The first byte of the hub A reserve. -/
def resA : Nat := 0x10000000000
/-- A stored reply of master 3 to SEQ 5. -/
def stored : Reply := { opcode := 0, hdr := { port := 3, seq := 5, master := 3, part := 0xFF, lease := 1 }, status := 0, payload := [] }
/-- `live` with another lease. -/
def leased (l : Lease) : State := { live with ctl := { live.ctl with lease := l } }
/-- The module before its always-on domain starts. -/
def dark : State := { live with pwr := { live.pwr with on := false } }
/-- `live` in the lifecycle Sealed, with partition 0 protected, and the same with a key and a tenant. -/
def sealed_ : State := { live with sec := { live.sec with fuseSealed := true, prot := 1 } }
def keyed : State := { sealed_ with sec := { sealed_.sec with pk := Vector.replicate 8 (some (zeros 16)), tenant := Vector.replicate 8 8 } }
/-- The reference is locked. -/
def refd (s : State) : State := rset s clkA 0xC
/-- Every die stopped cleanly. -/
def stoppedS : State := { liveIn .stopped with dies := Vector.replicate 8 { dieIn .stopped with cleanStop := true } }

/-- A byte lies in no ring where none is enabled. -/
theorem no_ring {s : State} (h : ∀ r < 8, ringN s r = 0) (k : Nat) : ¬ inRing s k := by
  rintro ⟨r, hr, h1, h2⟩
  rw [h r hr] at h2
  omega

/-! ## Witnesses: the whole machine, packets and ownership -/

theorem wit_StepRunsFrontCommand : State.reset.pending = [] := by decide

theorem wit_InvKeptByEveryStep : live.Inv ∧ ∃ t, step { live with pending := [.refLost] } = .next t := ⟨by decide +kernel, _, rfl⟩

theorem wit_LeasePackets : Passes opHeartbeat (pk 0xFF []) live ∧ Passes opHandover (pk 0xFF [4]) live ∧ Passes opRelease (pk 0xFF []) live := by
  (repeat' apply And.intro) <;> first | decide +kernel | exact rfl

/-- `live` in the last beat of its lease. -/
def lastBeat (l : Lease) : State := { live with ctl := { live.ctl with lease := l, leaseLeft := 64 } }
theorem wit_LeaseEnd : (ownerOf (lastBeat (.owned 3)).ctl = some 3 ∧ (lastBeat (.owned 3)).ctl.leaseLeft ≤ 64)
    ∧ (ownerOf (lastBeat (.pending 2 4)).ctl = some 2 ∧ (lastBeat (.pending 2 4)).ctl.leaseLeft ≤ 64) ∧ 64 < live.ctl.leaseLeft := by decide +kernel

/-- Master 3's packet 9 is ACCEPTED and runs. -/
def acc9 : State := { live with ctl := { live.ctl with accepted := live.ctl.accepted.set 3 [(9, none)] } }

theorem wit_StatusReaders : Passes opPing (pkOf 2 []) live ∧ Passes opPktStatus (pk 0xFF (n4 9)) acc9 ∧ Passes opSchedStatus (pk 0xFF []) live
    ∧ (partDies live (pk 0xFF [])).all (fun d => !coarsened live 3 (partOf live d)) = true := by
  (repeat' apply And.intro) <;> first | decide +kernel | exact rfl

theorem wit_ClaimGrants : (Fresh opClaim (pkOf 2 []) (leased .free) ∧ (leased .free).ctl.lease = .free)
    ∧ (Fresh opClaim (pkOf 2 []) (leased (.pending 3 2)) ∧ (leased (.pending 3 2)).ctl.lease = .pending 3 2)
    ∧ (Fresh opClaim (pkOf 3 []) live ∧ ownerOf live.ctl = some 3)
    ∧ (Fresh opClaim (pkOf 2 []) live ∧ ownerOf live.ctl = some 3 ∧ live.ctl.lease ≠ .pending 3 2) ∧ dark.pwr.on = false := by
  (repeat' apply And.intro) <;> first | decide +kernel | exact rfl

/-- Master 3's HEARTBEAT under an earlier lease. -/
def lateBeat : Pkt := ⟨{ port := 3, seq := 5, master := 3, part := 0xFF, lease := 2 }, []⟩

theorem wit_ClaimGrants_owner : packetRow (.heartbeat lateBeat) = some (opHeartbeat, lateBeat) ∧ Taken lateBeat live ∧ lateBeat.hdr.flags = 0
    ∧ lateBeat.hdr.version = 1 ∧ lateBeat.hdr.status = 0 ∧ lateBeat.hdr.resv = 0 ∧ lateBeat.hdr.part = 0xFF
    ∧ opHeartbeat.ok (arrive opHeartbeat.code lateBeat live) lateBeat = true ∧ lateBeat.hdr.master.toNat = lateBeat.from.val
    ∧ opHeartbeat.lease = true ∧ opHeartbeat.free (arrive opHeartbeat.code lateBeat live) lateBeat = false ∧ lateBeat.hdr.lease ≠ live.ctl.leaseId := by
  (repeat' apply And.intro) <;> first | decide +kernel | exact rfl

/-- A repetition of master 3's packet 5, whose reply the module holds or not. -/
def again : State := { live with ctl := { live.ctl with replies := live.ctl.replies.set 3 (some stored) } }

theorem wit_RetryRule : packetRow (.ping (pkF 4 0xFF [])) = some (opPing, pkF 4 0xFF []) ∧ Taken (pkF 4 0xFF []) again ∧ Taken (pkF 4 0xFF []) live
    ∧ (pkF 4 0xFF []).hdr.flags.toNat.testBit 2 = true ∧ again.ctl.replies[(pkF 4 0xFF []).from] = some stored
    ∧ stored.hdr.seq = (pkF 4 0xFF []).hdr.seq ∧ live.ctl.replies[(pkF 4 0xFF []).from] = none
    ∧ ∃ t, exec (.ping (pkF 4 0xFF [])) live = .next t := by
  (repeat' apply And.intro) <;> first | decide +kernel | exact rfl | exact ⟨_, rfl⟩

theorem wit_RefusedPacketNoEffect : packetRow (.heartbeat lateBeat) = some (opHeartbeat, lateBeat) ∧ opHeartbeat.code = 0x0002
    ∧ Refuses opHeartbeat lateBeat sOWNER [] live := by
  (repeat' apply And.intro) <;> first | decide +kernel | exact rfl

theorem wit_AcceptedPackets : packetRow (.mapLoad (pk 0xFF (n8 resA ++ n8 64))) = some (opMapLoad, pk 0xFF (n8 resA ++ n8 64))
    ∧ Passes opMapLoad (pk 0xFF (n8 resA ++ n8 64)) live ∧ Passes opSchedLoad (pk 0 (n8 resA ++ n8 4096)) live ∧ Passes opSnapshot (pk 0 []) stoppedS
    ∧ Passes opSecKeyErase (pk 0 []) keyed ∧ Passes opSecCkptImport (pk 0 (n8 0x1000000000 ++ [0] ++ zeros 7 ++ n8 resA)) keyed
    ∧ Passes opSecLifecycle (pk 0xFF ([1] ++ zeros 7 ++ n8 7)) live ∧ Passes opSecLifecycle (pk 0xFF ([3] ++ zeros 7 ++ n8 7)) live
    ∧ Passes opSelftest (pk 0xFF (n4 1 ++ n4 1 ++ zeros 24)) live ∧ Passes opPartSet (pk 0xFF [2, 0]) live := by
  (repeat' apply And.intro) <;> first | decide +kernel | exact rfl

theorem wit_AcceptedWithEffect : Passes opSecCkptExport (pk 0 (n8 0x1000000000 ++ [0] ++ zeros 3 ++ n4 1 ++ n4 1 ++ zeros 4 ++ n8 resA)) keyed
    ∧ Passes opQuiesceAll (pk 0xFF []) live := by
  (repeat' apply And.intro) <;> first | decide +kernel | exact rfl

theorem wit_PortSetRows : ((pk 0xFF (n4 1 ++ n4 0)).at 4 4 = 0 ∧ Passes opPortSet (pk 0xFF (n4 1 ++ n4 0)) live)
    ∧ ((pk 0xFF (n4 1 ++ n4 1)).at 4 4 = 1 ∧ Passes opPortSet (pk 0xFF (n4 1 ++ n4 1)) live)
    ∧ (pk 0xFF (n4 1 ++ n4 2)).at 4 4 = 2 ∧ Passes opPortSet (pk 0xFF (n4 1 ++ n4 2)) (refd live) := by
  (repeat' apply And.intro) <;> first | decide +kernel | exact rfl

/-- Die 0 is Off. -/
def offD : State := withDie 0 {} live

theorem wit_PwrSetRows : packetRow (.pwrSetIdle (pk 0xFF [1, 1])) = some (opPwrSet, pk 0xFF [1, 1]) ∧ Passes opPwrSet (pk 0xFF [1, 1]) live
    ∧ packetRow (.pwrSetDeep (pk 0xFF [1, 3])) = some (opPwrSet, pk 0xFF [1, 3]) ∧ Passes opPwrSet (pk 0xFF [1, 3]) live
    ∧ pwrLong live [1, 1] = false ∧ pwrLong offD [1, 0] = true ∧ Passes opPwrSet (pk 0xFF [1, 0]) offD := by
  (repeat' apply And.intro) <;> first | decide +kernel | exact rfl

/-- An accepted action of an opcode that runs. -/
def acting (op : Half) (payload : List Byte) (s : State) : State :=
  { s with ctl := { s.ctl with actions := [{ master := 3, opcode := op, seq := 9, part := 0, payload }] } }
def act (op : Half) (payload : List Byte) : Action := { master := 3, opcode := op, seq := 9, part := 0, payload }
/-- An exchange of partition 0 whose key is unwrapped. -/
def withKey : State := { live with sec := { live.sec with kx := live.sec.kx.set 0 (some { tenantId := [], pa := (0, 0), ra := (0, 0), scalar := 1, key := some (zeros 16) }) } }

theorem wit_ActionsEnd : CanEnd (acting 0x506 [] live) 0 (act 0x506 []) ∧ CanEnd (acting 0x50A [] live) 0 (act 0x50A [])
    ∧ (CanEnd (acting 0x50B [3] live) 0 (act 0x50B [3]) ∧ rd (act 0x50B [3]).payload 0 1 = 3) ∧ CanEnd (acting 0x800 [2, 0] live) 0 (act 0x800 [2, 0])
    ∧ CanEnd (acting 0x505 (zeros 40) withKey) 0 (act 0x505 (zeros 40)) ∧ ((acting 0x505 [] withKey).sec.kx[(0 : Fin 8)]).bind (·.key) = some (zeros 16) := by
  (repeat' apply And.intro) <;> first | decide +kernel | exact rfl

/-- Eight partitions of one die, each stopped cleanly. -/
def eighths : State := { stoppedS with sec := { stoppedS.sec with parts := 8 } }
/-- A map of the modules 0 to 15, an image of one STOP for each die, and die 0, in a partition of its own, ready to take its part. -/
def mapBytes : List Byte := natLE 2 16 ++ [1, 1, 1, 0, 0, 0] ++ zeros 56 ++ (List.range 16).flatMap fun i => natLE 2 i ++ [1] ++ zeros 5
def entryOf (t u len off : Nat) : List Byte := [b8 t, b8 u, 0, 0] ++ n4 len ++ n8 off
def stopImage : List Byte := natLE 2 0x4753 ++ [1, 0] ++ n4 0x42421412 ++ n8 2368 ++ n4 64 ++ n4 26 ++ zeros 40
  ++ (List.range 8).flatMap (fun d => entryOf 1 d 64 (512 + 192 * d) ++ entryOf 8 d 12 (576 + 192 * d) ++ entryOf 9 d 2 (640 + 192 * d))
  ++ entryOf 4 0xFF 128 2048 ++ entryOf 6 0xFF 192 2176 ++ zeros 32
  ++ (List.range 8).flatMap (fun d => padTo 64 [5, 15] ++ padTo 64 (n8 (loftAt 0 + (32 + 60 * d) * gib) ++ n4 512) ++ zeros 64) ++ zeros 128 ++ mapBytes
def inHubA (bs : List Byte) (s : State) : State := { s with mem := s.mem.applyAll [.put (hubKey resA) bs] }
def loadS : State := inHubA stopImage ([regA 0 bCEL 0, regA 0 bCEL 0x8000, tierBlock 0 (.loft 0) 0].foldl (fun s a => rset s a 0x10) eighths)

theorem wit_ActionsEnd_load : (CanEnd (acting 0x300 (n8 resA ++ n8 2368) loadS) 0 (act 0x300 (n8 resA ++ n8 2368)) ∧ inReserveA resA 2368 = true
      ∧ reserveThere loadS resA 2368 = true ∧ reserveThere { loadS with tiers := { loadS.tiers with chan := [(512, 2)] } } resA 65536 = false ∧ reserveBusy loadS resA 2368 = false ∧ loadS.mem.wf ∧ loadS.mem.errs = [] ∧ diesOf loadS 0 = [0] ∧ (loadS.die 0).seq.st = .stopped ∧ (loadS.die 0).absent = false)
    ∧ verifyImage loadS 0 (reserveBytes loadS resA 2368) 2368 = sOK ∧ verifyImage live 0 (zeros 64) 64 ≠ sOK
    ∧ ((mapOf (reserveBytes (inHubA mapBytes live) resA 192)).any (mapOk 0) = true ∧ mapOf (reserveBytes live resA 64) = none) := by
  (repeat' apply And.intro) <;> first | decide +kernel | exact rfl

/-- A hub A in Off; what the firmware reads of an empty slot; a checkpoint of no tile in hub A's reserve, sealed with the key of `keyed`. -/
def hubOff : State := { live with pwr := { live.pwr with hub := live.pwr.hub.set 0 .off } }
def ckptS : State := inHubA (let h := ckptHead 0 0 1 0 0x1000000000 0; h ++ (gcmSeal (ckptKey keyed.sec 0) (ckptIv 1 hdrIndex) h []).2) keyed
def exportP : List Byte := n8 0x1000000000 ++ [0] ++ zeros 3 ++ n4 1 ++ n4 1 ++ zeros 4 ++ n8 resA

theorem wit_ActionsEnd_service : (CanEnd (acting 0x50B [1] live) 0 (act 0x50B [1]) ∧ rd [1] 0 1 ≠ 3 ∧ lifecycle live = 0 ∧ live.mem.wf)
    ∧ (hubOff.pwr.hub[(0 : Fin 2)] = .off ∧ hubOff.mem.wf ∧ eighths.mem.wf ∧ eighths.pwr.hub[(0 : Fin 2)] ≠ .off ∧ diesOf eighths 0 = [0] ∧ snapPowered eighths 0 = true)
    ∧ snapPowered hubOff 0 = false
    ∧ (match (readRecord 0 (recordAt eighths 0 1 (posOf eighths 0)) 52 { s := eighths }).1 with | .ok _ => true | .error _ => false) = true
    ∧ CanEnd (acting 0x602 (n4 1 ++ n4 1 ++ zeros 24) live) 0 (act 0x602 (n4 1 ++ n4 1 ++ zeros 24))
    ∧ ((acting 0x103 [] live).ctl.actions.length = 1 ∧ ({ live with ctl := { live.ctl with quiesced := true } } : State).ctl.quiesced = true
      ∧ live.ctl.actions.length ≠ 1) := by
  (repeat' apply And.intro) <;> first | decide +kernel | exact rfl

theorem wit_ActionsEnd_rings : ∀ x, inRing eighths x → x < hubKey (atticAt 0) := fun x h => absurd h (no_ring (by decide +kernel) x)

theorem good_cellar : GoodTile keyed 0 0x1000000000 :=
  ⟨.cellar, 0, by decide +kernel, by decide +kernel, by decide +kernel, by decide +kernel, by decide +kernel, by decide +kernel, by decide +kernel⟩

theorem wit_ActionsEnd_checkpoint : (keyed.mem.wf ∧ keyed.mem.errs = [] ∧ rd exportP 0 8 % 4096 = 0 ∧ inReserveA (rd exportP 24 8) (64 + 4112 * rd exportP 16 4) = true
      ∧ reserveBusy keyed (rd exportP 24 8) (64 + 4112 * rd exportP 16 4) = false ∧ inReserve 0x1000000000 = false ∧ permitted keyed 0 (ckptDie exportP) 0x1000000000 false = true)
    ∧ (ckptS.mem.errs = [] ∧ inReserveA resA 64 = true ∧ reserveThere ckptS resA 64 = true ∧ reserveThere ckptS (resA + 64) 4112 = true ∧ reserveBusy ckptS resA 64 = false
      ∧ (gcmOpen (ckptKey ckptS.sec 0) (ckptIv 1 hdrIndex) ((reserveBytes ckptS resA 64).take 48) [] ((reserveBytes ckptS resA 64).drop 48)).isSome = true
      ∧ rd (reserveBytes ckptS resA 64) 8 4 = 1 ∧ rd (reserveBytes ckptS resA 64) 16 8 = 0)
    ∧ gcmOpen (ckptKey keyed.sec 0) (ckptIv 0 hdrIndex) (zeros 48) [] (zeros 16) = none := by
  (repeat' apply And.intro) <;> first | decide +kernel | exact rfl

/-- A packet of master 3 waits for a WRSP, and others of it behind that one. -/
def queued (n : Nat) : State := { live with ctl := { live.ctl with
  winPkt := some { opcode := 0x202, pkt := pk 0 [], die := 0, tag := 9 }, queue := List.replicate n ⟨0, pkOf 3 [], 0⟩ } }

/-- A packet of the reserved opcode 0x0999 on master 3's port. -/
def unknownUnit : List Byte := unitBytes 0x0999 (pkOf 3 []).hdr 0 0 []

theorem wit_UnitsDiscarded : (answers live 3 = true ∧ unitOk [] = false) ∧ (unitOk unknownUnit = true ∧ (∀ op ∈ allOps, op.code ≠ rd unknownUnit 4 2)
      ∧ (b8 (rd unknownUnit 3 1)).toNat.testBit 2 = false ∧ queues live = false) ∧ (answers live 2 = true ∧ unitOk (reqUnit { live.ctl with req := nsetRun 0 live.ctl.req 0 ([].take 4096) }) = false)
    ∧ ((pkOf 3 []).from ≠ 2 ∧ answers (queued 8) (pkOf 3 []).from (pkOf 3 []).hdr.net = true ∧ (pkOf 3 []).wf = true ∧ queueFull (queued 8).ctl 3 = true)
    ∧ (packetRow (.ping (pkOf 3 [])) = some (opPing, pkOf 3 []) ∧ queues (queued 7) = true ∧ queueFull (queued 7).ctl (pkOf 3 []).from = false)
    ∧ queues { live with sec := { live.sec with rotStopped := true } } = true ∧ bitOf (rget (rset live (regA uHub bMBX 0) 1) (regA uHub bMBX 0)) 0 = true := by
  (repeat' apply And.intro) <;> first | decide +kernel | exact rfl

theorem wit_Mailbox : ((pkOf 2 []).from = 2 ∧ (pkOf 2 []).wf = true ∧ answers live 2 = true ∧ live.ctl.submitted = false ∧ bitOf (rget live (regA uHub bMBX 0)) 0 = false)
    ∧ bitOf (rget (rset live (regA uHub bMBX 0) 1) (regA uHub bMBX 0)) 0 = true
    ∧ (packetRow (.heartbeat (pkOf 2 [])) = some (opHeartbeat, pkOf 2 []) ∧ Refuses opHeartbeat (pkOf 2 []) sOWNER [] live ∧ nwf 0 live.ctl.rsp) := by
  (repeat' apply And.intro) <;> first | decide +kernel | exact rfl

/-- A debug token that the key 1 signed with the random number 1, for serial 7 and beat 100. -/
def tokMsg : List Byte := natLE 2 0x4B54 ++ [1, 2] ++ n4 0 ++ n8 7 ++ zeros 32 ++ n8 100 ++ zeros 8
def tokPkt : Pkt := pk 0xFF (tokMsg ++ natLE 32 61929599577652932805766200595008024289204237407085600610212509111231701833670
  ++ natLE 32 26931244816351657975327072309506434238428693158936071978815650122530868606127)

theorem wit_AcceptedPackets_token : Passes opSecToken tokPkt sealed_ := by
  (repeat' apply And.intro) <;> first | decide +kernel | exact rfl

/-- Partition 0's exchange pends, with a tenant of key 1, and the answer of that tenant: S_A, KEYGEN 1, tenant 1, and a wrapped key. -/
def kxS : State := { sealed_ with sec := { sealed_.sec with kx := sealed_.sec.kx.set 0 (some { tenantId := zeros 16, pa := sm2G, ra := sm2G, scalar := 1 }) } }
def kxPkt : Pkt := pk 0 (natLE 32 32906965635953667660878578520613740967066358966378753433286001738642011125653 ++ n4 1 ++ [1, 0, 0, 0] ++ zeros 12
  ++ natLE 32 93319070656015614036218256497033693248944779508730813867337697694128005449484
  ++ natLE 16 242800182781853272445924549805143505685)

theorem wit_AcceptedWithEffect_kx : Passes opSecKxFinish kxPkt kxS := by
  (repeat' apply And.intro) <;> first | decide +kernel | exact rfl

theorem wit_RefusedPacketNoEffect_auth : (Refuses opSecToken (pk 0xFF (tokMsg ++ zeros 64)) sAUTH [] sealed_
      ∧ opSecToken.entry (arrive 0x50A (pk 0xFF (tokMsg ++ zeros 64)) sealed_) (pk 0xFF (tokMsg ++ zeros 64)) = none)
    ∧ Refuses opSecKxFinish (pk 0 (zeros 32 ++ n4 1 ++ [1, 0, 0, 0] ++ zeros 60)) sAUTH [] kxS
    ∧ opSecKxFinish.entry (arrive 0x505 (pk 0 (zeros 32 ++ n4 1 ++ [1, 0, 0, 0] ++ zeros 60)) kxS) (pk 0 (zeros 32 ++ n4 1 ++ [1, 0, 0, 0] ++ zeros 60)) = none := by
  (repeat' apply And.intro) <;> first | decide +kernel | exact rfl

/-! ## Witnesses: registers, regions, flags, memory, events, Gecko records -/

/-- The base register of ring 0, and a state whose ring 0 is enabled with a base in the loft. -/
def evtBase : Nat := ringA 0 + 4
def ringS : State := rset (rset live evtBase 0x10000000) (ringA 0 + 8) 8
/-- An RC register: the maximal lag of port 0. -/
def rcA : Nat := portA 0 + 0x24
theorem wit_RegisterReadsAndWrites : (Passes opRegRead (pk 0xFF (n4 evtBase ++ n4 1)) live ∧ Exact (arrive 0x200 (pk 0xFF (n4 evtBase ++ n4 1)) live) 3 evtBase)
    ∧ ((regInfo rcA).any (·.rc) = true ∧ Passes opRegRead ⟨hd, n4 rcA ++ n4 1⟩ live ∧ Exact (arrive 0x200 ⟨hd, n4 rcA ++ n4 1⟩ live) hd.port rcA)
    ∧ (Passes opRegWrite (oneWord hd evtBase 0x10000000) live ∧ (regInfo evtBase).any (fun i => i.w1c == 0 && i.rw != 0) = true ∧ regUnit evtBase = uHub
      ∧ regBlk evtBase = bEVT ∧ regOff evtBase % 0x40 ≠ 8 ∧ live.ctl.submitted = false)
    ∧ Refuses opRegWrite (oneWord { hd with lease := 2 } evtBase 0) sOWNER [] live := by
  (repeat' apply And.intro) <;> first | decide +kernel | exact rfl

theorem wit_TokenRegisters : (regUnit (regA 0 bTOK 8) = 0 ∧ regBlk (regA 0 bTOK 8) = bTOK ∧ Passes opRegWrite (oneWord hd (regA 0 bTOK 8) 3) (liveIn .loaded))
    ∧ ((live.die 0).seq.st ≠ .loaded ∧ (live.die 0).seq.st ≠ .stopped ∧ Fresh opRegWrite (oneWord hd (regA 0 bTOK 8) 3) live ∧ live.ctl.quiesced = false
      ∧ coarsened live 3 (partOf live 0) = false ∧ dieThere live 3 0 = true)
    ∧ Passes opRegRead (pk 0xFF (n4 (regA 0 bTOK 0x41FC) ++ n4 1)) live ∧ Passes opRegRead (pk 0xFF (n4 (regA 0 bTOK 0x3FFC) ++ n4 1)) live := by
  (repeat' apply And.intro) <;> first | decide +kernel | exact rfl

theorem wit_QueueWrites : Passes opRegWrite (oneWord hd (regA 0 bSEQ 0x10) 3) live ∧ Passes opRegWrite (oneWord hd (ringA 0 + 8) 8) (rset live evtBase 0x10000000)
    ∧ Passes opRegWrite (oneWord hd (ringA 0 + 0x18) 0) ringS
    ∧ (fld (rget (rset ringS (ringA 0 + 0x10) 2) (ringA 0 + 0x10)) 2 0 = 2 ∧ judgeEvt (rset ringS (ringA 0 + 0x10) 2) 0 0x18 0 = none)
    ∧ Passes opRegWrite (oneWord hd (regA uHub bCLK 0x10) 3) live := by
  (repeat' apply And.intro) <;> first | decide +kernel | exact rfl

theorem wit_RegionWrites : ((regionOf (regUnit (regA 0 bSEC 0x2000)) (regOff (regA 0 bSEC 0x2000)) 0).isSome = true
      ∧ (regionOf (regUnit (regA 0 bSEC 0x2000)) (regOff (regA 0 bSEC 0x2000)) 1).isSome = true ∧ Passes opRegWrite (oneWord hd (regA 0 bSEC 0x2000) 3) live)
    ∧ Passes opRegionSet (pk 0xFF ([0, 0, 0, 0] ++ n4 0 ++ n4 1 ++ [3, 0])) live := by
  (repeat' apply And.intro) <;> first | decide +kernel | exact rfl

theorem wit_FlagClears : (w1cMask pwrA ≠ 0 ∧ ¬(regUnit pwrA = uHub ∧ regBlk pwrA = bMBX) ∧ Passes opRegWrite (oneWord hd pwrA 2) live)
    ∧ Passes opFlagMiss (pk 0xFF (n4 pwrA)) live := by
  (repeat' apply And.intro) <;> first | decide +kernel | exact rfl

/-- Reads of 16 bytes of die 0: of its own memory, and of a tile of die 0 of module 3. -/
def readP : Pkt := pk 0 (n8 0x1000 ++ [0, 0] ++ natLE 2 16)
def readG : Pkt := pk 0 (n8 (2 ^ 63 + 3 * 2 ^ 51 + 0x1000) ++ [0, 0] ++ natLE 2 16)
/-- A write of four bytes, at both places. -/
def writeP : Pkt := pk 0 (n8 0x1000 ++ [0, 0] ++ natLE 2 4 ++ zeros 4 ++ [1, 2, 3, 4])
def writeG : Pkt := pk 0 (n8 (2 ^ 63 + 3 * 2 ^ 51 + 0x1000) ++ [0, 0] ++ natLE 2 4 ++ zeros 4 ++ [1, 2, 3, 4])

/-- A tile that nothing has written is good. -/
theorem good_tile : GoodTile live 0 0x1000 :=
  ⟨.front, 0x1000, by decide +kernel, by decide +kernel, by decide +kernel, by decide +kernel, fun _ _ => rfl, fun _ => rfl, by decide +kernel⟩

theorem wit_MemoryReads : (Passes opMemRead readP live ∧ isGlobal (readP.at 0 8) = false ∧ inReserve (readP.at 0 8) = false
      ∧ (storeOf (readP.at 0 8)).all (fun x => !inCheckArea live (memDie readP) x.1 x.2) = true ∧ permitted live readP.part (memDie readP) (readP.at 0 8) false = true)
    ∧ (Passes opMemRead readG live ∧ isGlobal (readG.at 0 8) = true)
    ∧ (askWindow (askerOf live readG) (pktTag readG) (readG.at 0 8) 0 [] { s := arrive 0x202 readG live }).1 = none := by
  (repeat' apply And.intro) <;> first | decide +kernel | exact rfl
theorem wit_MemoryWrites : (Passes opMemWrite writeP live ∧ isGlobal (writeP.at 0 8) = false ∧ inReserve (writeP.at 0 8) = false
      ∧ permitted live writeP.part (memDie writeP) (writeP.at 0 8 / 4096 * 4096) true = true)
    ∧ (Passes opMemWrite writeG live ∧ isGlobal (writeG.at 0 8) = true)
    ∧ (askWindow (askerOf live writeG) (pktTag writeG) (writeG.at 0 8) 0 [] { s := arrive 0x203 writeG live }).1 = none := by
  (repeat' apply And.intro) <;> first | decide +kernel | exact rfl

/-- An event that waits for ring 0. -/
def heldEv : Held := { ev := { area := 0, code := 1, status := 0, where_ := 0, beat := 0, sub := 0, detail := [] }, rings := [0] }
def holdS : State := { ringS with hold := [heldEv] }

theorem wit_EventRings : (Passes opEvtRead (pk 0xFF (n4 0 ++ n4 0 ++ n4 1)) ringS ∧ ringS.mem.errs = []
      ∧ (∀ i < 1, slotOpen ringS (ringEntry ringS 0 (0 + i))))
    ∧ (ringsUp holdS = true ∧ slotOpen holdS (ringSlot holdS 0) ∧ ringUsed holdS 0 < ringN holdS 0 ∧ nget 0 holdS.lost 0 = 0 ∧ holdS.hold.findIdx (waitsFor holdS 0) = 0 ∧ holdS.hold[0]? = some heldEv)
    ∧ nget 0 ({ holdS with lost := nset 0 holdS.lost 0 3 } : State).lost 0 ≠ 0 := by
  (repeat' apply And.intro) <;> first | decide +kernel | exact rfl

/-- Die 0 holds context 0. -/
def ctxS : State := withDie 0 { dieIn .empty with ctx := [(0, ⟨zeros 128, zeros 64⟩)] } live

theorem wit_GeckoPackets : Passes opGekStep (pk 0 ([0, 0, 0, 0] ++ n4 1 ++ zeros 64)) ctxS
    ∧ Passes opGekRead (pk 0 [0, 0, 0, 0]) ctxS ∧ ctxOf (ctxS.die 0) 0 = some ⟨zeros 128, zeros 64⟩ := by
  (repeat' apply And.intro) <;> first | decide +kernel | exact rfl

/-! ## Witnesses: roots of trust, identity, keys, power, clocks -/

/-- A boot image of number 0 with an empty body, signed with the random number 1 under the firmware key 1, and a module that fuses it. -/
def image0 : ImageCopies := ⟨natLE 2 0x4946 ++ zeros 14 ++ sm3 [] ++ zeros 16
  ++ natLE 32 110266983657655771042256869515186657744340544001352172005555038881161918970704
  ++ natLE 32 2762552776350238857081737849417117510860539861802786281144385237565760037610, []⟩
def noImage : ImageCopies := ⟨[], []⟩
def fused : State := { State.reset with sec := { State.reset.sec with firmKey := sm2G } }

theorem wit_BootImages : (fused.pwr.on = true ∧ fused.sec.recovery = false ∧ fused.sec.fwUp = false ∧ nextImage fused.sec = some 0
      ∧ fused.sec.active[(0 : Fin 5)] = 0 ∧ copyOk fused.sec 0 (copyBytes fused.sec 0 0 image0.copy0) = true)
    ∧ (copyTaken fused.sec 0 ⟨[], image0.copy0⟩).map (·.1) = some 1
    ∧ ∀ k < 2, copyOk fused.sec 0 (copyBytes fused.sec 0 k (if k = 0 then noImage.copy0 else noImage.copy1)) = false := by
  (repeat' apply And.intro) <;> first | decide +kernel | exact rfl

theorem wit_Measurements : Passes opSecExtend (pkOf 2 (n4 5 ++ zeros 32)) live ∧ Passes opSecSvnCommit (pk 0xFF (n4 0 ++ n4 0)) live
    ∧ Passes opSecFwWrite (pk 0xFF ([0, 1, 0, 0] ++ n4 0 ++ [1])) live ∧ nwf none live.sec.flash := by
  (repeat' apply And.intro) <;> first | decide +kernel | exact rfl

/-- The mirror holds, and the standby has heard nothing for four beats. -/
def mirrored : State := { live with sec := { live.sec with mirrorOk := true, unheard := 4 } }

theorem wit_RootsOfTrust : (live.sec.fwUp = true ∧ live.sec.rotStopped = false ∧ live.sec.rotB = false ∧ live.sec.noControl = false)
    ∧ (live.sec.mirrorOk = false) ∧ (mirrored.sec.fwUp = true ∧ mirrored.sec.mirrorOk = true ∧ mirrored.sec.rotB = false ∧ 4 ≤ mirrored.sec.unheard)
    ∧ (answers mirrored 3 = true ∧ (pkOf 3 []).hdr.flags.toNat.testBit 2 = false ∧ mirrored.ctl.submitted = false ∧ mirrored.ctl.winPkt = none
      ∧ opPing.refusal mirrored (pkOf 3 []) = none) := by
  decide +kernel

theorem wit_IdentityReaders : Passes opSecIdentity (pk 0xFF []) live ∧ Passes opSecCert (pk 0xFF (n4 0 ++ n4 0)) live ∧ Passes opSecAttest (pk 0xFF (zeros 32)) live
    ∧ Passes opPartRead (pk 0xFF []) live := by
  (repeat' apply And.intro) <;> first | decide +kernel | exact rfl

/-- The token of a module in Service whose EXPIRY_BEAT is beat 0. -/
def service : State := { live with sec := { live.sec with fuseSealed := true, service := true, token := some (2, 0) } }

theorem wit_KeysAndDebug : Passes opSecKxBegin (pk 0 (zeros 16 ++ pointLE sm2G ++ pointLE sm2G)) sealed_ ∧ Passes opSecDebugSet (pk 0xFF [1]) sealed_
    ∧ lifecycle sealed_ = 1 ∧ (lifecycle service = 2 ∧ service.sec.token = some (2, 0) ∧ (0 : Nat) ≤ service.clk.beat) := by
  (repeat' apply And.intro) <;> first | decide +kernel | exact rfl

/-- The module whose dies and hubs are Off but whose firmware runs, and transitions under way. -/
def allOff : State := { live with dies := Vector.replicate 8 {}, pwr := {} }
def moving : State := { withDie 0 { dieIn .empty with target := some .deep } live with pwr := { live.pwr with hubTarget := live.pwr.hubTarget.set 0 (some .idle) } }

/-- Die 0 and hub A wake from Off under a reset of the input that stands. -/
def waking : State := withDie 0 { target := some .run } { live with pwr := { hub := #v[.off, .run], hubTarget := #v[some .run, none], resetInput := true } }

/-- Die 0 has stood in Run for longer than a window of 1 ms. -/
def steadyS : State := withDie 0 { dieIn .empty with up := 700 } { live with clk := { live.clk with up := 700 } }

theorem wit_PowerPackets_steady : Passes opPwrRead (pk 0xFF []) steadyS ∧ readsExactly steadyS 3 0 ∧ clkStood steadyS 0 = true
    ∧ railStood steadyS 0 = true := by
  (repeat' apply And.intro) <;> first | decide +kernel | exact rfl

theorem wit_PowerPacketsAndTransitions : Passes opPwrLimit (pk 0xFF (n4 0 ++ n4 3600 ++ n4 4000)) live
    ∧ (Passes opPwrRead (pk 0xFF []) allOff ∧ allOff.clk.up < beatsMs ∧ ∀ d, (allOff.die d).pw = .off)
    ∧ ((moving.die 0).target = some .deep ∧ (moving.die 0).pw ≠ .off ∧ (moving.die 0).pw ≠ .deep) ∧ moving.pwr.hubTarget[(0 : Fin 2)] = some .idle
    ∧ atRest.contains (moving.die 0).seq.st = true
    ∧ (((withDie 0 { dieIn .running with target := some .off } live).die 0).target = some .off ∧ atRest.contains ((liveIn .running).die 0).seq.st = false)
    ∧ ((waking.die 0).target = some .run ∧ (waking.die 0).pw = .off ∧ cellarReady waking 0 = false)
    ∧ (waking.pwr.hubTarget[(0 : Fin 2)] = some .run ∧ waking.pwr.hub[(0 : Fin 2)] = .off ∧ heldOff waking (.hub 0) = true) := by
  (repeat' apply And.intro) <;> first | decide +kernel | exact rfl

theorem wit_TripsAndResets : (live.die 0).pw ≠ .off ∧ (live.die (stackDie 15)).pw ≠ .off ∧ live.pwr.hub[(1 : Fin 2)] ≠ .off
    ∧ (live.pwr.on = true ∧ live.pwr.resetInput = false) ∧ live.pwr.resetRail.contains (8 + 1) = false ∧ live.pwr.resetRail.contains 0 = false
    ∧ powered (live.die 0) = true ∧ powered (waking.die 0) = true ∧ powered (live.die (stackDie 15)) = true := by
  decide +kernel

theorem wit_SupplyAndBoard : (live.pwr.on = true ∧ live.pwr.warnInput = false) ∧ live.pwr.presence = true ∧ live.pwr.ready = false := by decide +kernel

theorem wit_AlwaysOn : live.pwr.on = true ∧ dark.pwr.on = false ∧ dark.pwr.frontEnd = true
    ∧ ({ dark with pwr := { dark.pwr with frontEnd := false } } : State).pwr.frontEnd = false := by decide +kernel

/-- A pulse has come 256 periods before the present beat, and one that is off by a period. -/
def pulsed (x : Nat) : State := { live with clk := { live.clk with up := 4, lastPulse := some x } }

/-- `live` with every die's arithmetic clock at a frequency. -/
def atFreq (f : Nat) : State := (List.range 8).foldl (fun (s : State) d => rset s (regA d bCLK 0) f) live

theorem wit_Clocks : bitOf (rget (refd live) clkA) 2 = true ∧ ({ live with clk := { live.clk with holdover := true } } : State).clk.holdover = true
    ∧ bitOf (rget (rset live clkA 0x20) clkA) 5 = true
    ∧ ((pulsed 768).clk.lastPulse = some (256 * (pulsed 768).clk.up + 0 - 256) ∧ 256 ≤ 256 * (pulsed 768).clk.up + 0)
    ∧ ((pulsed 767).clk.lastPulse = some 767 ∧ 767 + 256 ≠ 256 * (pulsed 767).clk.up + 0)
    ∧ 64 < live.ctl.leaseLeft ∧ (∀ d : Fin 8, floorMHz ≤ freqOf (atFreq 3600) d)
    ∧ (ownerOf (lastBeat (.owned 3)).ctl = some 3 ∧ (lastBeat (.owned 3)).ctl.leaseLeft ≤ 64)
    ∧ (freqOf (atFreq 3575) 7 < floorMHz ∧ darkDie ((atFreq 3575).die 7) = false ∧ (atFreq 3575).pwr.belowFloor.contains 7 = false) := by decide +kernel

theorem wit_AdaptiveLoops : ((live.die 0).pw = .run ∧ freqOf live 0 + 25 < 2 ^ 32) ∧ pulled { live with pwr := { live.pwr with warnInput := true } } 0 = true
    ∧ (limit live 3 1 < 4801 ∧ floorMHz < freqOf (atFreq 3625) 0) ∧ (pulled live 0 = false ∧ 4800 ≤ limit live 3 1)
    ∧ (live.pwr.rails[(0 : Fin 8)] < max (railSteps live).1 (min (railSteps live).2 (2 * (900 - 650) / 5)) ∧ 650 ≤ limit live 1 1)
    ∧ (darkDie (live.die 0) = false ∧ (live.port 0).st ≠ .disabled ∧ limit live 5 0 < 64 ∧ limit live 5 1 < 64)
    ∧ bitOf (rget live (regA 0 bPWR 0)) 4 = false ∧ bitOf (rget (rset live (regA 0 bPWR 0) 0x10) (regA 0 bPWR 0)) 4 = true ∧ limit live 4 1 < 1000 := by
  decide +kernel

/-! ## Witnesses: schedules, ports, tiers -/

/-- Partition 0's dies are Loaded and ready to start: the fabric NORMAL, the reference locked, the store rooms filled. -/
def readyS : State := { (List.range 8).foldl (fun (s : State) d => rset s (regA d bMOV 0x800) 8) (refd (liveIn .loaded)) with fab := { mode := 0 } }
/-- Partition 0 has an image. -/
def imageS : State := { live with images := live.images.set 0 { bytes := [0], digest := [0] } }

theorem wit_SchedulePackets : Passes opSchedStart (pk 0 (n8 16)) readyS ∧ Passes opSchedStop (pk 0 []) (liveIn .running)
    ∧ Passes opSchedUnload (pk 0 []) (liveIn .loaded) ∧ Passes opRecipeSeed (pk 0 (zeros 72)) imageS ∧ hasImage imageS 0 = true := by
  (repeat' apply And.intro) <;> first | decide +kernel | exact rfl

/-- A die in Run at a STOP it has executed. -/
def atStop : State := withDie 0 { pw := .run, seq := { st := .running, stopped := true } } live

theorem wit_ScheduleEdges : (((liveIn .armed).die 0).seq.st = .armed ∧ ((liveIn .armed).die 0).seq.startBeat ≤ (liveIn .armed).clk.beat)
    ∧ (idleDie (atStop.die 0) = true ∧ (atStop.die 0).seq.st = .running ∧ (atStop.die 0).seq.stopped = true)
    ∧ (idleDie ((liveIn .stopping).die 0) = true ∧ ((liveIn .stopping).die 0).seq.st = .stopping) := by decide +kernel

/-- Port 0 in a state. -/
def portIn (st : PortSt) : State := withPort 0 { st } live

theorem wit_PortTraining : Passes opFabSetmode (pk 0xFF [0]) live ∧ ((live.port 0).st = .down ∧ live.sec.bootFail.testBit 3 = false)
    ∧ ((portIn .disabled).port 0).st = .disabled
    ∧ (((portIn .training).port 0).st = .training ∧ (portIn .training).fab.ownerMap = none
      ∧ 2 ≤ ((List.range 8).filter fun l => atD false [true, false, false, true] l).length)
    ∧ ((List.range 8).filter fun l => atD false [true] l).length < 2
    ∧ darkDie ((portIn .training).die (dieOf 0)) = false ∧ darkDie ((withDie 0 {} (portIn .training)).die (dieOf 0)) = true := by
  (repeat' apply And.intro) <;> first | decide +kernel | exact rfl

/-- Every channel has settled. -/
def settledS : State := { live with tiers := { live.tiers with chan := (List.range 556).map fun n => (n, 1) } }

theorem wit_TrainingAndFills : (nget 0 live.tiers.chan (chanNo (.cellar 0 0)) = 0 ∧ tierPowered live (tierOf (.cellar 0 0)) = true)
    ∧ (∀ x ∈ [0, 33], x < 34) ∧ (nget 0 live.tiers.chan (chanNo (.attic 1 5)) = 0 ∧ tierPowered live (tierOf (.attic 1 5)) = true)
    ∧ (isTrained settledS (.cellar 15) = false ∧ settled settledS (.cellar 15) = true ∧ tierPowered settledS (.cellar 15) = true
      ∧ settledS.sec.bootFail.testBit 2 = false)
    ∧ (isTrained settledS (.loft 1) = false ∧ settled settledS (.loft 1) = true ∧ tierPowered settledS (.loft 1) = true)
    ∧ (isTrained settledS (.attic 0) = false ∧ settled settledS (.attic 0) = true ∧ tierPowered settledS (.attic 0) = true)
    ∧ storesReady live 7 = false ∧ darkDie (live.die 7) = false := by
  (repeat' apply And.intro) <;> first | decide +kernel | exact rfl

/-- A corrected unit waits to be written back, in the last line of the front and in the cellar. -/
def backS : State := { live with mem := { live.mem with errs := [(dieKey 0 0x1FFFFFFF / 64, 1), (dieKey 0 0x1000000000 / 64, 1)]
                                                        back := [(dieKey 0 0x1FFFFFFF / 64, some 0), (dieKey 0 0x1000000000 / 64, some 0)] } }

/-- Memory keys of the last code word of stack C0, and of the last of a loft and an attic. -/
def celKey : Nat := dieKey 0 0x27FFFFEFFF
def lftKey : Nat := hubKey 0x1FFFFFFFFFF
def atcKey : Nat := hubKey 0x63FFFFFFFFF
/-- Lane 0 of the cellar's code word has been corrected seven times. -/
def hitsS : State := { live with tiers := { live.tiers with laneHits := [(laneKey 0 (0x27FFFFEFFF - 0x1000000000) 0, 7)] } }
/-- What the cellar's decoder makes of a pattern on that code word. -/
def celVerdict (p : Nat) : Verdict := judgeCellar (erasedLanes (rget live (eraseMapA 0 (0x27FFFFEFFF - 0x1000000000)))) p
  (storedBytes live 0 .cellar (celKey % 2 ^ 48 / 64 * 64) ((0x27FFFFEFFF - 0x1000000000) / 64 * 64) 64) id

theorem wit_ScrubAndRefresh : (darkDie (live.die 0) = false ∧ (∀ u, u / 2 = dieKey 0 0x1FFFFFFF / 128 → nget 0 live.mem.errs u = 0) ∧ ∀ r < 8, ringN live r = 0)
    ∧ (storeOf 0x1FFFFFFF = some (.front, 0x1FFFFFFF) ∧ storeOf 0xDFFFFFFF = some (.tier 0, 0x5FFFFFFF) ∧ storeOf 0x300000000 = some (.wgb, 0)
      ∧ Store.isExt .front = false ∧ Store.isExt (.tier 0) = false ∧ Store.isExt .wgb = false)
    ∧ ((storeOf (dieKey 0 0x1FFFFFFF % 2 ^ 48)).any (fun x => x.1.isExt) = false ∧ nget none backS.mem.back (dieKey 0 0x1FFFFFFF / 64) = some 0)
    ∧ ((storeOf (dieKey 0 0x1000000000 % 2 ^ 48)).any (fun x => x.1.isExt) = true ∧ nget none backS.mem.back (dieKey 0 0x1000000000 / 64) = some 0)
    ∧ (keyBusy backS (dieKey 0 0x1FFFFFFF) = false ∧ keyBusy backS (dieKey 0 0x1000000000) = false
      ∧ keyBusy (rset live (genA 0 (.attic 1 5)) 4) (hubKey 0x63FFFFFF000) = true)
    ∧ backS.mem.wf ∧ (live.die (stackDie 15)).pw ≠ .off := by
  (repeat' apply And.intro) <;> first | decide +kernel | exact fun _ _ => rfl | exact rfl

theorem wit_ScrubOfTiers : (∀ x ∈ [(celKey, Store.cellar), (lftKey, .loft 1), (atcKey, .attic 1)],
      (storeOf (x.1 % 2 ^ 48)).map (·.1) = some x.2 ∧ x.2.isExt = true ∧ keyPowered live x.1 = true ∧ keyBusy live x.1 = false ∧ nget 0 live.mem.errs (x.1 / 64) = 0)
    ∧ storeOf (celKey % 2 ^ 48) = some (.cellar, 0x27FFFFEFFF - 0x1000000000)
    ∧ ((celVerdict 1).lost = 0 ∧ (celVerdict 1).corr = 1 ∧ (celVerdict 1).left = 0 ∧ (celVerdict 1).lanes = [0]) ∧ (celVerdict 0x010101).lost ≠ 0
    ∧ (0 ∉ erasedLanes (rget live (eraseMapA 0 (0x27FFFFEFFF - 0x1000000000)))
      ∧ 7 ≤ nget 0 hitsS.tiers.laneHits (laneKey 0 (0x27FFFFEFFF - 0x1000000000) 0)
      ∧ (erasedLanes (rget live (eraseMapA 0 (0x27FFFFEFFF - 0x1000000000)))).length < 2)
    ∧ ringsApart live atcKey := by
  refine ⟨by decide +kernel, by decide +kernel, by decide +kernel, by decide +kernel, by decide +kernel, Or.inl (by decide +kernel)⟩

/-- The generator of the last channel of die 0, with a range, and the same while it runs; those of the last channels of a loft and an attic. -/
def tgCh : Channel := .cellar 1 31
def tgA : Nat := genA 0 tgCh
def tgHub (ch : Channel) : State := rset (rset live (genA 0 ch) 0x40) (genA 0 ch + 8) 1
def tgS : State := rset (rset live tgA 0x40) (tgA + 8) 1
def tgRuns : State := { rset tgS tgA 0xC044 with tiers := { tgS.tiers with runs := [(chanNo tgCh, { ctrl := 0xC044, base := 0, limit := 1, count := 1 })] } }

theorem wit_TrafficGenerators : genChan 0 63 = some tgCh ∧ genChan 0 95 = some (.loft 1 15) ∧ genChan 0 107 = some (.attic 1 5)
    ∧ Passes opRegWrite (oneWord hd (genA 0 (.loft 1 15)) (((rget (tgHub (.loft 1 15)) (genA 0 (.loft 1 15))).toNat &&& 0x0FFFFFF0) + 1)) (tgHub (.loft 1 15))
    ∧ Passes opRegWrite (oneWord hd (genA 0 (.attic 1 5)) (((rget (tgHub (.attic 1 5)) (genA 0 (.attic 1 5))).toNat &&& 0x0FFFFFF0) + 1)) (tgHub (.attic 1 5))
    ∧ Passes opRegWrite (oneWord hd tgA (((rget tgS tgA).toNat &&& 0x0FFFFFF0) + 1)) tgS
    ∧ Passes opRegWrite (oneWord hd tgA (((rget tgRuns tgA).toNat &&& 0x0FFFFFF0) + 2)) tgRuns ∧ bitOf (rget tgRuns tgA) 2 = true
    ∧ (let r := nget {} tgRuns.tiers.runs (chanNo tgCh); fld r.ctrl 15 14 ≠ 0 ∧ bitOf r.ctrl 5 = false ∧ r.count ≠ 0)
    ∧ nget false ({ tgRuns with tiers := { tgRuns.tiers with stopping := [(chanNo tgCh, true)] } } : State).tiers.stopping (chanNo tgCh) = true := by
  (repeat' apply And.intro) <;> first | decide +kernel | exact rfl

/-- A valid snapshot of partition 0 in slot 1. -/
def snapWrites : List MemOp := [.put (hubKey (recordAt eighths 0 1 0)) (natLE 2 0x534E ++ [1]),
  .put (hubKey (recordAt eighths 0 1 0) + 128) [1]]
def snapped : State := { eighths with mem := eighths.mem.applyAll snapWrites }

theorem wit_AcceptedPackets_restore : Passes opRestore (pk 0 [1]) snapped ∧ snapped.mem.wf := by
  (repeat' apply And.intro) <;> first | decide +kernel | exact rfl

/-! ## Witnesses: the sequencer and the engines -/

/-- The words of a command: its class and opcode with flags, word 4, and its operand words from word 5 on. -/
def cmd (cls op flags w4 : Nat) (ops : List Nat) : Words := ([op + 256 * cls + flags, 0, 0, 0, w4] ++ ops ++ zeros16).map w32 |>.take 16
where zeros16 := List.replicate 16 0
/-- A sequencer with a command at its place, and die 0 running with it. -/
def seqAt (ws : Words) : Seq := { st := .running, space := [ws], fetching := true, stack := [7], logBase := loftAt 0 + 32 * gib, logN := 256 }
def placed (ws : Words) : State := withDie 0 { pw := .run, seq := seqAt ws } live
/-- Die 0 running with a command at the head of a queue. -/
def headDie (q : Fin 9) (ws : Words) : Die := { dieIn .running with queues := (Vector.replicate 9 []).set q [⟨0, ws, none, 0⟩] }
def heads (q : Fin 9) (ws : Words) : State := withDie 0 (headDie q ws) live

theorem wit_SequencerForwards : (cClass (cmd 5 1 0 0 []) < 9 ∧ current ((placed (cmd 5 1 0 0 [])).die 0) = some (cmd 5 1 0 0 [])
      ∧ ((placed (cmd 5 1 0 0 [])).die 0).queues[(5 : Fin 9)].length < 256)
    ∧ 256 ≤ ((withDie 0 { (placed (cmd 8 1 0 0 [])).die 0 with queues := Vector.replicate 9 (List.replicate 256 ⟨0, [], none, 0⟩) } live).die 0).queues[(8 : Fin 9)].length
    ∧ (current ((placed (cmd 15 0 0 0 [])).die 0) = some (cmd 15 0 0 0 []) ∧ cClass (cmd 15 0 0 0 []) = 15)
    ∧ (current ((placed (cmd 15 0 0x1000 0 [])).die 0) = some (cmd 15 0 0x1000 0 []) ∧ waitsOf ((placed ((cmd 15 0 0x1000 0 []).set 2 1)).die 0) ((cmd 15 0 0x1000 0 []).set 2 1) = .wait)
    ∧ current (live.die 0) = none := by
  (repeat' apply And.intro) <;> first | decide +kernel | exact rfl

/-- A WAITBEAT of beat 5 with LATE 1, with and without a record, and the schedule beats 5 to 7. -/
def waitAt (flags : Nat) : Words := cmd 15 1 flags 0 [5, 1]
def atBeat (n : Nat) (ws : Words) : State := { placed ws with clk := { live.clk with beat := n } }

/-- The tile of the log of `placed` reads without an error. -/
theorem record_fits : RecordFits (atBeat 7 (waitAt 0x8000)) 0 := by
  refine ⟨by decide +kernel, ⟨.loft 0, 32 * gib, ?_⟩, ?_, ?_⟩
  · exact ⟨by decide +kernel, by decide +kernel, by decide +kernel, by decide +kernel, fun _ _ => rfl, fun _ => rfl, by decide +kernel⟩
  · decide +kernel
  · decide +kernel

theorem wit_ControlCommands : (ControlReady (placed (cmd 15 0 0 0 [])) 0 0 (cmd 15 0 0 0 []))
    ∧ (ControlReady (atBeat 5 (waitAt 0)) 0 1 (waitAt 0) ∧ (cw (waitAt 0) 5).toNat ≤ schedBeat (atBeat 5 (waitAt 0)) 0
      ∧ schedBeat (atBeat 6 (waitAt 0)) 0 ≤ (cw (waitAt 0) 5).toNat + fld (cw (waitAt 0) 6) 15 0)
    ∧ schedBeat (atBeat 4 (waitAt 0)) 0 < (cw (waitAt 0) 5).toNat
    ∧ ((cw (waitAt 0x8000) 5).toNat + fld (cw (waitAt 0x8000) 6) 15 0 < schedBeat (atBeat 7 (waitAt 0x8000)) 0
      ∧ ((atBeat 7 (waitAt 0x8000)).die 0).seq.ctlHeld = false ∧ current ((atBeat 7 (waitAt 0x8000)).die 0) = some (waitAt 0x8000))
    ∧ ControlReady (placed (cmd 15 2 0 0 [])) 0 2 (cmd 15 2 0 0 []) ∧ ControlReady (placed (cmd 15 3 0 0 [])) 0 3 (cmd 15 3 0 0 [])
    ∧ (ControlReady (placed (cmd 15 4 0 0 [])) 0 4 (cmd 15 4 0 0 []) ∧ ((placed (cmd 15 4 0 0 [])).die 0).seq.stack = [7])
    ∧ ControlReady (placed (cmd 15 5 0 0 [])) 0 5 (cmd 15 5 0 0 []) := by
  (repeat' apply And.intro) <;> first | decide +kernel | exact .inl (by decide +kernel) | exact rfl

/-- A WAITBEAT that completes in its beat and writes a record. -/
theorem wit_ControlCommands_logged : ControlReady (atBeat 5 (waitAt 0x8000)) 0 1 (waitAt 0x8000) ∧ cLog (waitAt 0x8000) = true
    ∧ schedBeat (atBeat 5 (waitAt 0x8000)) 0 ≤ (cw (waitAt 0x8000) 5).toNat + fld (cw (waitAt 0x8000) 6) 15 0 := by
  refine ⟨⟨by decide +kernel, by decide +kernel, by decide +kernel, rfl, by decide +kernel, .inr ⟨by decide +kernel, ⟨.loft 0, 32 * gib, ?_⟩, ?_, ?_⟩⟩, ?_, ?_⟩
  · exact ⟨by decide +kernel, by decide +kernel, by decide +kernel, by decide +kernel, fun _ _ => rfl, fun _ => rfl, by decide +kernel⟩
  all_goals decide +kernel

/-- The late WAITBEAT while its completion is held for log space, its overrun counted. -/
def lateHeld : State := withDie 0 { (placed (waitAt 0x8000)).die 0 with seq := { seqAt (waitAt 0x8000) with ctlHeld := true, ctlTiming := sOVERRUN } } (atBeat 7 (waitAt 0x8000))

theorem wit_ControlCommands_held : current (lateHeld.die 0) = some (waitAt 0x8000) ∧ (lateHeld.die 0).seq.ctlHeld = true ∧ RecordFits lateHeld 0
    ∧ (lateHeld.die 0).seq.ctlTiming ≠ 0 ∧ (cw (waitAt 0x8000) 5).toNat ≤ schedBeat lateHeld 0 := by
  refine ⟨rfl, rfl, ⟨by decide +kernel, ⟨.loft 0, 32 * gib, ?_⟩, by decide +kernel, by decide +kernel⟩, by decide, by decide⟩
  exact ⟨by decide +kernel, by decide +kernel, by decide +kernel, by decide +kernel, fun _ _ => rfl, fun _ => rfl, by decide +kernel⟩

/-- The same with an overrun that has not been counted, and no ring to write its event into. -/
def heldOnTime : State := withDie 0 { lateHeld.die 0 with seq := { (lateHeld.die 0).seq with ctlTiming := 0 } } lateHeld
theorem wit_ControlCommands_late : (∀ i < 32, ¬ inRing (atBeat 7 (waitAt 0x8000)) (nextRecord (atBeat 7 (waitAt 0x8000)) 0 + i))
    ∧ (current (heldOnTime.die 0) = some (waitAt 0x8000) ∧ (heldOnTime.die 0).seq.ctlHeld = true ∧ (heldOnTime.die 0).seq.ctlTiming = 0
      ∧ (cw (waitAt 0x8000) 5).toNat + fld (cw (waitAt 0x8000) 6) 15 0 < schedBeat heldOnTime 0)
    ∧ RecordFits heldOnTime 0 ∧ ∀ i < 32, ¬ inRing heldOnTime (nextRecord heldOnTime 0 + i) := by
  refine ⟨fun i _ => no_ring (by decide +kernel) _, by decide +kernel, ⟨by decide +kernel, ⟨.loft 0, 32 * gib, ?_⟩, by decide +kernel, by decide +kernel⟩,
    fun i _ => no_ring (by decide +kernel) _⟩
  exact ⟨by decide +kernel, by decide +kernel, by decide +kernel, by decide +kernel, fun _ _ => rfl, fun _ => rfl, by decide +kernel⟩

theorem wit_WarmAndSleep : ControlReady (placed (cmd 15 6 0 0 [1])) 0 6 (cmd 15 6 0 0 [1]) ∧ ControlReady (placed (cmd 15 7 0 0 [1])) 0 7 (cmd 15 7 0 0 [1]) := by
  (repeat' apply And.intro) <;> first | decide +kernel | exact .inl (by decide +kernel) | exact rfl

/-- A NOP that waits for one count of token 0, which is marked. -/
def nopWait : Words := (cmd 15 0 0x1000 0 []).set 2 1
def markedWait : State := withDie 0 { (placed nopWait).die 0 with marks := [(0, true)] } live

theorem wit_MarkedWaitHalts : current (markedWait.die 0) = some nopWait ∧ cClass nopWait = 15
    ∧ waitsOf (markedWait.die 0) nopWait = .epoch ∧ (markedWait.die 0).seq.ctlHeld = false ∧ (markedWait.die 0).seq.haltValid = false := by decide +kernel

/-- Started commands of the mover: one done, one to be recorded in a log with 160 free entries, one that failed, one over its budget. -/
def startedOne (x : Started) : State :=
  { withDie 0 { (placed []).die 0 with started := [x], seq := { seqAt [] with logWr := 96 } } live with clk := { live.clk with beat := 9 } }
def doneOne : Started := { idx := 0, words := cmd 5 1 0 0 [], clock := 0 }
def loggedOne : Started := { idx := 0, words := cmd 5 1 0x8000 0 [], clock := 0 }
def failedOne : Started := { doneOne with status := sCHECK }
def slowOne : Started := { idx := 0, words := (cmd 8 1 0 0 []).set 1 0x90000, clock := 0 }

/-- One that found no output, and a copy of the mover that completes past its budget. -/
def emptyOne : Started := { idx := 0, words := cmd 7 1 0 0 [], clock := 0, status := sEMPTY }
def slowCopy : Started := { idx := 0, words := (cmd 5 1 0 0 []).set 1 0x80000, clock := 0 }

def slowHead : State := { withDie 0 { dieIn .running with queues := (Vector.replicate 9 []).set 8 [⟨0, slowOne.words, some 0, 0⟩] } live with
  clk := { live.clk with beat := 9 } }

theorem wit_CommandCompletes : (cClass doneOne.words < 9 ∧ ((startedOne doneOne).die 0).pw = .run ∧ ((startedOne doneOne).die 0).started[0]? = some doneOne
      ∧ workDone (startedOne doneOne) 0 doneOne = true ∧ failing doneOne.status = false ∧ doneOne.timing = 0 ∧ pastBudget 9 0 doneOne.words = false
      ∧ cLog doneOne.words = false)
    ∧ (workDone (startedOne emptyOne) 0 emptyOne = true ∧ failing emptyOne.status = false ∧ pastBudget 9 0 emptyOne.words = false)
    ∧ (((startedOne loggedOne).die 0).started[0]? = some loggedOne ∧ workDone (startedOne loggedOne) 0 loggedOne = true ∧ loggedOne.held = false
      ∧ cLog loggedOne.words = true ∧ logFree ((startedOne loggedOne).die 0).seq = 160)
    ∧ (workDone (startedOne failedOne) 0 failedOne = true ∧ failing failedOne.status = true)
    ∧ (((startedOne slowOne).die 0).started[0]? = some slowOne ∧ cBudget slowOne.words = 9 ∧ slowOne.timing = 0
      ∧ overBudget (startedOne slowOne).clk.beat slowOne.clock slowOne.words = true ∧ overBudget 9 slowCopy.clock slowCopy.words = true)
    ∧ (((startedOne slowCopy).die 0).started[0]? = some slowCopy ∧ workDone (startedOne slowCopy) 0 slowCopy = true ∧ failing slowCopy.status = false
      ∧ slowCopy.timing = 0 ∧ pastBudget (startedOne slowCopy).clk.beat slowCopy.clock slowCopy.words = true)
    ∧ (slowHead.die 0).queues[(8 : Fin 9)] = [⟨0, slowOne.words, some 0, 0⟩] ∧ overBudget slowHead.clk.beat 0 slowOne.words = true
      ∧ (slowHead.die 0).seq.halted.contains 8 = false := by
  (repeat' apply And.intro) <;> first | decide +kernel | exact rfl

/-- Die 0 with every engine in a state. -/
def engS (e : Eng) : State := withDie 0 { dieIn .running with eng := Vector.replicate 17 e, seq := { st := .running, napHold := 1 } } live

theorem wit_EngineSleep : (((engS { sleepTo := some true }).die 0).eng[(16 : Fin 17)].sleepTo = some true ∧ engineFree ((engS {}).die 0) 16 = true)
    ∧ (((engS { st := .idle, sleepTo := some true }).die 0).eng[(16 : Fin 17)].st = .idle ∧ engineFree ((engS { st := .idle, sleepTo := some true }).die 0) 16 = true)
    ∧ (((engS { quiet := 1 }).die 0).eng[(0 : Fin 17)].st = .run ∧ max 1 ((engS { quiet := 1 }).die 0).seq.idleHold ≤ ((engS { quiet := 1 }).die 0).eng[(0 : Fin 17)].quiet)
    ∧ (((engS { st := .idle, idle := 1 }).die 0).eng[(0 : Fin 17)].st = .idle ∧ ((engS { st := .idle, idle := 1 }).die 0).seq.napHold ≠ 0
      ∧ ((engS { st := .idle, idle := 1 }).die 0).seq.napHold ≤ ((engS { st := .idle, idle := 1 }).die 0).eng[(0 : Fin 17)].idle)
    ∧ ((engS { st := .waking }).die 0).eng[(0 : Fin 17)].st = .waking := by decide +kernel

/-- One command of each engine stands ready at its queue's head. -/
theorem wit_EngineCommandsRun : Ready (heads 0 (cmd 0 1 0 0 [])) 0 0 0x01 productFree ⟨0, cmd 0 1 0 0 [], none, 0⟩ []
    ∧ Ready (heads 3 (cmd 3 0x40 0 0 [])) 0 3 0x40 veFree ⟨0, cmd 3 0x40 0 0 [], none, 0⟩ []
    ∧ Ready (heads 4 (cmd 4 1 0 0 [])) 0 4 1 frogFree ⟨0, cmd 4 1 0 0 [], none, 0⟩ [] ∧ Ready (heads 5 (cmd 5 1 0 0 [])) 0 5 1 movFree ⟨0, cmd 5 1 0 0 [], none, 0⟩ []
    ∧ Ready (heads 7 (cmd 7 1 0 0 [])) 0 7 1 auxFree ⟨0, cmd 7 1 0 0 [], none, 0⟩ [] ∧ Ready (heads 7 (cmd 7 0x10 0 0 [])) 0 7 0x10 auxFree ⟨0, cmd 7 0x10 0 0 [], none, 0⟩ []
    ∧ Ready (heads 8 (cmd 8 1 0 0 [])) 0 8 1 gekFree ⟨0, cmd 8 1 0 0 [], none, 0⟩ [] ∧ Ready (heads 6 (cmd 6 1 0 0 [])) 0 6 1 phaseFree ⟨0, cmd 6 1 0 0 [], none, 0⟩ []
    ∧ Ready (heads 6 (cmd 6 0x11 0 0 [])) 0 6 0x11 redFree ⟨0, cmd 6 0x11 0 0 [], none, 0⟩ []
    ∧ (engineRow (.matmul 0 0)).isSome = true ∧ (engineRow (.rscan 0)).isSome = true := by
  (repeat' apply And.intro) <;> first | decide +kernel | exact .inl rfl | exact rfl

/-- Commands that do not start: one that waits, one in a halted queue, one on an engine that holds another, one on a marked token, one asleep. -/
def busyMover : State := withDie 0 { headDie 5 (cmd 5 1 0 0 []) with started := List.replicate 16 { idx := 0, words := cmd 5 1 0 0 [], clock := 0, busy := true } } live
theorem wit_EngineStarts : waitsOf ((heads 5 ((cmd 5 1 0x1000 0 []).set 2 1)).die 0) ((cmd 5 1 0x1000 0 []).set 2 1) = .wait
    ∧ (withDie 0 { headDie 5 (cmd 5 1 0 0 []) with seq := { st := .running, halted := [5] } } live |>.die 0).seq.halted.contains 5 = true
    ∧ (AtHead busyMover 0 5 1 ⟨0, cmd 5 1 0 0 [], none, 0⟩ [] ∧ movFree busyMover 0 (cmd 5 1 0 0 []) = false)
    ∧ waitsOf (markedWait.die 0) ((cmd 5 1 0x1000 0 []).set 2 1) = .epoch ∧ (markedWait.die 0).slots.toList.all (·.isNone) = true
    ∧ AtHead (withDie 0 { headDie 5 ((cmd 5 1 0x1000 0 []).set 2 1) with marks := [(0, true)] } live) 0 5 1 ⟨0, (cmd 5 1 0x1000 0 []).set 2 1, none, 0⟩ []
    ∧ ((enginesOf (cmd 5 1 0 0 [])).all fun e => (engS { st := .nap }).die 0 |>.eng[e].st == .run) = false := by
  (repeat' apply And.intro) <;> first | decide +kernel | exact .inl rfl | exact rfl

theorem wit_EngineIsolation : (engineRow (.matmul 0 0)).isSome = true ∧ (live.die 0).queues[(0 : Fin 9)] = [] ∧ ∃ t, exec (.matmul 0 0) live = .next t := ⟨rfl, rfl, _, rfl⟩

/-- A product of one element, and one whose first operand lies where no memory is. -/
def mm : Queued := ⟨0, cmd 0 1 0 0 [0, 1, 0, 0, 0, 0, 1 + 65536, 1], none, 0⟩
def mmBad : Queued := ⟨0, cmd 0 1 0 0 [0x3FFFFF, 1, 0, 0, 0, 0, 1 + 65536, 1], none, 0⟩

theorem wit_MatrixProducts : (Ready (heads 0 mm.words) 0 (meQueue 0) 1 productFree mm [] ∧ (operandsRead (heads 0 mm.words) 0 0 mm []).2.2.2.1 = sOK
      ∧ fld (cw mm.words 12) 9 0 ≤ 512 ∧ nwf (0 : Word) (((heads 0 mm.words).die 0).mv[(0 : Fin 4)].bank (fld (cw mm.words 12) 18 18)))
    ∧ Ready (heads 0 mmBad.words) 0 (meQueue 0) 1 productFree mmBad [] ∧ (operandsRead (heads 0 mmBad.words) 0 0 mmBad []).2.2.2.1 ≠ sOK := by
  (repeat' apply And.intro) <;> first | decide +kernel | exact .inl rfl | exact rfl

theorem wordsOf_zeros (n : Nat) : wordsOf (List.replicate (4 * n) 0) = List.replicate n 0 := by
  induction n with
  | zero => rfl
  | succ n ih =>
    have h : 4 * (n + 1) = 4 * n + 1 + 1 + 1 + 1 := by omega
    rw [h]; simp only [List.replicate_succ, wordsOf, ih]; rfl

theorem tw_zeros (n i : Nat) : tw (List.replicate n (0 : Word)).toArray i = 0 := by
  rw [tw, Array.getD_eq_getD_getElem?, List.getElem?_toArray, List.getElem?_replicate]; split <;> rfl

theorem allZero_zeros (k m n : Nat) : allZero (sub (List.replicate k 0) m n) = true := by
  rw [allZero, List.all_eq_true]
  intro x hx
  rw [List.eq_of_mem_replicate (List.mem_of_mem_drop (List.mem_of_mem_take hx))]; rfl

theorem bytes_empty (k n : Nat) : ({} : Mem).bytes k n = List.replicate n 0 := by
  rw [Mem.bytes, nrun_eq List.Pairwise.nil]
  induction n with
  | zero => rfl
  | succ n ih => rw [List.range_succ, List.map_append, ih, List.replicate_succ']; rfl

/-- A tile of zeros is a table that R164 allows. -/
theorem zero_table : tableOk (live.mem.bytes (keyOf 0 0x1000) 4096) = true := by
  have h : ∀ n, 8 ≤ n → tableOk (({} : Mem).bytes (keyOf 0 0x1000) (4 * n)) = true := fun n _ => by
    rw [bytes_empty, tableOk]
    simp only [wordsOf_zeros, tw_zeros, allZero_zeros, tMode, tElo, Bool.and_true]
    decide +kernel
  exact h 1024 (by decide)

theorem wit_VectorEngineState : Ready (heads 0 (cmd 0 0x49 0 0 [])) 0 (meQueue 0) 0x49 veFree ⟨0, cmd 0 0x49 0 0 [], none, 0⟩ []
    ∧ Ready (heads 0 (cmd 0 0x4B 0 0 [])) 0 (meQueue 0) 0x4B veFree ⟨0, cmd 0 0x4B 0 0 [], none, 0⟩ []
    ∧ (Ready (heads 0 (cmd 0 0x4A 0 0 [0, 0, 1])) 0 (meQueue 0) 0x4A vtFree ⟨0, cmd 0 0x4A 0 0 [0, 0, 1], none, 0⟩ []
      ∧ permitted (heads 0 (cmd 0 0x4A 0 0 [0, 0, 1])) 0 0 0x1000 false = true ∧ tableOk (live.mem.bytes (keyOf 0 0x1000) 4096) = true)
    ∧ (Ready (heads 0 (cmd 0 0x46 0 0 [0, 0xF0000000])) 0 (meQueue 0) 0x46 veFree ⟨0, cmd 0 0x46 0 0 [0, 0xF0000000], none, 0⟩ []
      ∧ veTable (cmd 0 0x46 0 0 [0, 0xF0000000]) = some (15, some 2) ∧ nget false (live.die 0).mv[(0 : Fin 4)].valid 15 = false) := by
  (repeat' apply And.intro) <;> first | with_reducible exact zero_table | decide +kernel | exact .inl rfl | exact rfl

/-- An EPOCH that opens or closes epoch 1, and die 0 with the epoch open. -/
def openCmd : Words := cmd 6 0x10 0 0 [1, 0]
def closeCmd : Words := cmd 6 0x10 0 0 [0x80000001, 0]
def epochS (ws : Words) : State := withDie 0 { headDie 6 ws with
  epochs := [(1, .open_)], slots := (Vector.replicate 16 none).set 0 (some { red := 0, number := 1, buckets := 0 }) } live
def phaseCmd : Words := cmd 6 1 0 0 [0x10, 0, 0]
def phaseS : State := { withPort 0 { st := .up } (heads 6 phaseCmd) with fab := { mode := 0 } }

/-- A phase of command 3; port 0 at beat 2 as given; a notice on its way to die 0. -/
def ph0 : PhaseRun := { uid := 3, table := 0, start := 0, slack := 1, epoch := 0 }
def portRuns (x : Port) : State := withPort 0 x { live with clk := { live.clk with beat := 2 } }
def noticed : State := { live with fab := { live.fab with notices := [(0, 1, 7)] } }

theorem wit_EpochsAndPhases : (Ready (heads 6 openCmd) 0 6 0x10 (fun _ _ ws => !bitOf (cw ws 5) 31) ⟨0, openCmd, none, 0⟩ [] ∧ fld (cw openCmd 6) 8 0 = 0
      ∧ epochSt ((heads 6 openCmd).die 0) 1 = .idle ∧ ((heads 6 openCmd).die 0).slots.toList.all (·.isSome) = false ∧ epochSlot ((heads 6 openCmd).die 0) 1 = none)
    ∧ (Ready (epochS openCmd) 0 6 0x10 (fun _ _ ws => !bitOf (cw ws 5) 31) ⟨0, openCmd, none, 0⟩ [] ∧ epochSt ((epochS openCmd).die 0) 1 = .open_)
    ∧ (Ready (epochS closeCmd) 0 6 0x10 (fun _ _ ws => bitOf (cw ws 5) 31) ⟨0, closeCmd, none, 0⟩ [] ∧ epochBusy (epochS closeCmd) 0 1 = false
      ∧ epochSlot ((epochS closeCmd).die 0) 1 = some { red := 0, number := 1, buckets := 0 })
    ∧ (Ready phaseS 0 6 1 phaseFree ⟨0, phaseCmd, none, 0⟩ [] ∧ phaseS.fab.mode = 0 ∧ fld (cw phaseCmd 7) 15 0 = 0
      ∧ (phasePorts 0 phaseCmd).all (fun p => (phaseS.port p).st == .up) = true ∧ phasePorts 0 phaseCmd = [0])
    ∧ (Ready (heads 6 phaseCmd) 0 6 1 phaseFree ⟨0, phaseCmd, none, 0⟩ [] ∧ (heads 6 phaseCmd).fab.mode ≠ 0)
    ∧ ((portRuns { st := .up, armed := [ph0] }).port 0).armed = [ph0] ∧ ((portRuns { st := .up, armed := [ph0] }).port 0).running = none
    ∧ ph0.start ≤ schedBeat (portRuns { st := .up, armed := [ph0] }) (dieOf 0)
    ∧ (((portRuns { armed := [ph0] }).port 0).st ≠ .up ∧ ((portRuns { armed := [ph0] }).port 0).running = none)
    ∧ (∀ ph ∈ ((portRuns { running := some ph0, armed := [ph0] }).port 0).armed.head?, ((portRuns { running := some ph0, armed := [ph0] }).port 0).running.isSome = true)
    ∧ (noticed.fab.notices.find? (fun n => n.1 == 0 && n.2.2 == 7) = some (0, 1, 7) ∧ epochSt (noticed.die 0) 7 = .idle)
    ∧ epochSt ((withDie 0 { dieIn .running with epochs := [(7, .open_)] } noticed).die 0) 7 = .open_
    ∧ epochSt ((withDie 0 { dieIn .running with epochs := [(7, .closed)] } noticed).die 0) 7 = .closed
    ∧ live.fab.notices.find? (fun n => n.1 == 0 && n.2.2 == 7) = none := by
  (repeat' apply And.intro) <;> first | decide +kernel | exact .inl rfl | exact rfl

/-! ## Witnesses: the Chivary fabric -/

/-- A frame with its CRC. -/
def frame (h : FHdr) (tile : List Byte) : List Byte := h.bytes ++ tile ++ n4 (crc32c (h.bytes ++ tile)).toNat
/-- Port 0 is UP and expects SEQ 5. -/
def brS : State := withPort 0 { st := .up, width := 8, rxNext := some 5 } live
/-- The same in NORMAL. -/
def upS : State := { brS with fab := { mode := 0 } }
/-- The headers of frames of SEQ 5 and 6 from module 3 for tile 1 of die 0. -/
def dataH : FHdr := { type := tDATA, last := true, token := true, srcModule := 3, dstTile := 1, dstToken := 4095, seq := 5, check := crcZeroTile }
def emptyH : FHdr := { type := tEMPTY, last := true, token := true, srcModule := 3, seq := 5 }
def abortH : FHdr := { type := tABORT, token := true, srcModule := 3, seq := 5 }
def linkH : FHdr := { type := tLINK, ackV := true }
def wreqH : FHdr := { type := tWREQ, last := true, srcModule := 3, dstTile := 1, seq := 5 }
def wrspH : FHdr := { type := tWRSP, last := true, srcModule := 3, seq := 5, w16 := 9, status := sABSENT }

theorem wit_FrameReceipt : frameRow (.emptyFrame 0 (frame emptyH []) []) = some (0, tEMPTY, frame emptyH [], [])
    ∧ (live.port 0).st ≠ .up
    ∧ ((upS.port 0).st = .up ∧ frameOk [] = false) ∧ (frameOk (frame { emptyH with seq := 6 } []) = true ∧ (FHdr.parse (frame { emptyH with seq := 6 } [])).type = tEMPTY
      ∧ (upS.port 0).rxNext = some 5 ∧ 5 ≠ (FHdr.parse (frame { emptyH with seq := 6 } [])).seq)
    ∧ Arrives upS 0 tEMPTY (frame emptyH []) emptyH
    ∧ (brS.port 0).st = .up ∧ carried brS tEMPTY = false ∧ upS.ctl.queue = []
    ∧ (frameOk (frame linkH []) = true ∧ linkH = FHdr.parse (frame linkH []) ∧ linkH.type = tLINK ∧ (upS.port 0).episode = none ∧ (upS.port 0).waiting = []) := by
  (repeat' apply And.intro) <;> first | decide +kernel | exact rfl

/-- P24 is UP, and a LINK frame's beat count is two beats ahead. -/
def upS24 : State := withPort 24 { st := .up, width := 8, fibre := 3 } upS
theorem wit_FrameReceipt_rack : (upS24.port 24).st = .up ∧ (upS24.port 24).episode = none ∧ (upS24.port 24).waiting = [] ∧ (upS24.port 24).running = none
    ∧ upS24.mem.wf ∧ (linkH.nak = false ∧ linkH.refuse = false)
    ∧ beatDiff { upS24 with clk := { upS24.clk with beat := 10 } } 24 { linkH with w16 := 12 } = 131
    ∧ beatDiff { upS24 with clk := { upS24.clk with beat := 10 } } 24 { linkH with w16 := 9 } = -61 := by
  (repeat' apply And.intro) <;> first | decide +kernel | exact rfl

/-- A die of module 0 is Off; a packet waits for the answer of tag 9. -/
def offS : State := withDie 0 {} upS
def waitS : State := { brS with ctl := { brS.ctl with winPkt := some { opcode := 0x202, pkt := pk 0 [], die := 0, tag := 9 } } }

/-- The CRC of a frame is that of the bytes before it. -/
theorem frame_crc (h : FHdr) (tile : List Byte) :
    crc32c ((frame h tile).take ((frame h tile).length - 4)) = rdW (frame h tile) ((frame h tile).length - 4) := by
  have hl : (frame h tile).length - 4 = (h.bytes ++ tile).length := by simp [frame]; omega
  rw [hl, frame, rdW_natLE, List.take_left]

/-- A full DATA frame is whole. -/
theorem data_ok : frameOk (frame dataH (zeros 4096)) = true := by
  unfold frameOk
  rw [frame_crc]
  simp only [beq_self_eq_true, Bool.and_true]
  decide +kernel

/-- Its tile's check word is the header's. -/
theorem data_check : crc32c (sub (frame dataH (zeros 4096)) 64 4096) = dataH.check := by
  have h : sub (frame dataH (zeros 4096)) 64 4096 = zeros 4096 := by
    have : dataH.bytes.length = 64 := by decide +kernel
    rw [sub, frame, List.append_assoc, List.drop_left' this]
    exact List.take_left' List.length_replicate
  rw [h, crc_zero_tile]; rfl

theorem wit_FrameDelivery : (Arrives upS 0 tDATA (frame dataH (zeros 4096)) dataH ∧ (upS.port 0).refusing = false ∧ dataH.late (upS.die 0) = false ∧ diePresent upS dataH.dst = true
      ∧ refuseAuth upS dataH.dst dataH = false ∧ crc32c (sub (frame dataH (zeros 4096)) 64 4096) = dataH.check ∧ storeOf (dataH.dstTile * 4096) = some (.front, 4096)
      ∧ inCheckArea upS dataH.dst .front 4096 = false ∧ inReserve (dataH.dstTile * 4096) = false
      ∧ permitted upS (partOf upS dataH.dst) dataH.dst (dataH.dstTile * 4096) true = true ∧ tileBusy upS dataH.dst .front 4096 = false
      ∧ checkOff upS dataH.dst .front 4096 = none ∧ (upS.port 0).waiting = [] ∧ upS.mem.wf)
    ∧ (Arrives upS 0 tEMPTY (frame emptyH []) emptyH ∧ diePresent upS emptyH.dst = true ∧ refuseAuth upS emptyH.dst emptyH = false)
    ∧ (Arrives upS 0 tABORT (frame abortH []) abortH ∧ diePresent upS abortH.dst = true ∧ refuseAuth upS abortH.dst abortH = false ∧ abortH.epoch = 0)
    ∧ (Arrives offS 0 tDATA (frame dataH (zeros 4096)) dataH ∧ diePresent offS dataH.dst = false)
    ∧ ({ dataH with epoch := 1 } : FHdr).late (({ epochs := [(1, .aborted)] } : Die)) = true := by
  (repeat' apply And.intro) <;> first | with_reducible exact data_ok | with_reducible exact data_check | decide +kernel | exact rfl
/-- The port of the answer's route is UP too. -/
def routeS : State := withPort 4 { st := .up, width := 8 } brS
/-- Die 0 runs the window copy of command 3, which waits for tile 9. -/
def copyS : State := withDie 0 { dieIn .running with started := [{ idx := 0, words := [], clock := 0, uid := 3 }], win := some { uid := 3, next := 1, waiting := [9] } } live
theorem wit_FrameDelivery_window : (routePort routeS wreqH.srcModule wreqH.w16 = some 4 ∧ (routeS.port 4).st = .up ∧ (routeS.port 4).waiting = [] ∧ hasRoom (routeS.port 4) 1 = true ∧ Arrives routeS 0 tWREQ (frame wreqH []) wreqH ∧ wreqH.dstModule = routeS.clk.module ∧ (frame wreqH []).length = 68 ∧ routeS.fab.mode ≠ 0
      ∧ isProt routeS (partOf routeS wreqH.dst) = false ∧ permitted routeS (partOfDie routeS wreqH.srcDie) wreqH.dst (wreqH.dstTile * 4096) false = true
      ∧ memPresent routeS wreqH.dst (wreqH.dstTile * 4096) = true ∧ routeS.mem.wf)
    ∧ (Arrives waitS 0 tWRSP (frame wrspH []) wrspH ∧ (waitS.die wrspH.dst).win = none ∧ wrspH.status ≠ sOK ∧ waitS.ctl.queue = [] ∧ unheeded waitS = false)
    ∧ ((copyS.die 0).win = some { uid := 3, next := 1, waiting := [9] } ∧ copyS.ctl.queue = [])
    ∧ ((waitS.die 0).win = none ∧ waitS.ctl.winPkt.any (·.die == 0) = true) ∧ ((live.die 0).win = none ∧ live.ctl.winPkt = none) := by
  (repeat' apply And.intro) <;> first | decide +kernel | exact rfl
/-- Port 0 with frames outstanding, code words in error on lane 3, and an episode. -/
def retryS (errs : List Nat) (e : Option Episode) : State :=
  withPort 0 { st := .up, width := 8, retry := [⟨0, []⟩], txSeq := 1, errSince := errs, episode := e } live

theorem wit_LinkEvents : ((live.port 0).st ≠ .up) ∧ (((retryS [] none).port 0).st = .up ∧ ((retryS [] none).port 0).retry ≠ []
      ∧ oneLane ((retryS [] none).port 0) ((retryS [] none).port 0).errSince = none)
    ∧ (oneLane ((retryS [3] none).port 0) ((retryS [3] none).port 0).errSince = some 3 ∧ 2 ≤ narrower ((retryS [3] none).port 0).width)
    ∧ (((retryS [] (some ⟨6, 1, false⟩)).port 0).episode = some ⟨6, 1, false⟩) ∧ (((retryS [] (some ⟨7, 1, false⟩)).port 0).episode = some ⟨7, 1, false⟩)
    ∧ (((retryS [] (some ⟨3, 1, false⟩)).port 0).episode = some ⟨3, 1, false⟩ ∧ 2 ≤ narrower ((retryS [] (some ⟨3, 1, false⟩)).port 0).width ∧ narrower 2 < 2)
    ∧ (frameOk (frame linkH []) = true ∧ linkH = FHdr.parse (frame linkH []) ∧ linkH.nak = false ∧ linkH.refuse = false) ∧ (upS.port 0).episode = none
    ∧ ((upS.port 0).changing = false ∧ (activeLanes (upS.port 0)).contains (7 : Fin 8).val = true ∧ 2 ≤ narrower (upS.port 0).width ∧ (upS.port 0).waiting = []) := by
  (repeat' apply And.intro) <;> first | decide +kernel | exact rfl

/-- A slot that sends one tile or waits for token 0; die 0 with command 3, and port 0 with that slot at beat 2. -/
def slotW (w0 w1 : Nat) : List Word := [w32 w0, w32 w1, 1, 0, 0, 0, 0, 0]
def phasing (w : List Word) (x : Port) : State := withDie 0 { dieIn .running with
  started := [{ idx := 0, words := cmd 6 1 0 0 [], clock := 0, uid := 3 }], marks := [(5, true)] } (portRuns { x with tables := [[w]] })
def runsP : Port := { st := .up, width := 8, running := some ph0 }

/-- SLOT_START runs: a slot of one tile is ready; one with LIVE whose count word is 0, one that is not VALID, one that aborts, one that waits. -/
theorem slot_ready : SlotReady (phasing (slotW 0x80000001 0) runsP) 0 ph0 (slotW 0x80000001 0) 1 := by
  refine ⟨?_, ?_, ?_, ?_, ?_, ?_, ?_, ?_, ?_, fun h => absurd h ?_, ?_, ?_⟩ <;> decide +kernel
theorem wit_PhaseEvents : permitted (phasing (slotW 0x80000001 0) runsP) 0 0 0x1000 false = true
    ∧ slotFrames (phasing (slotW 0x90000001 0) runsP) 0 (slotW 0x90000001 0) = 0
    ∧ permitted (phasing (slotW 0x90000001 0) runsP) (partOf (phasing (slotW 0x90000001 0) runsP) 0) 0 0 false = true
    ∧ slValid (slotOf (phasing [] runsP) 0 0 0) = false
    ∧ (slValid (slotOf (phasing (slotW 0xC0050001 1) runsP) 0 0 0) = true ∧ slotWait ((phasing (slotW 0xC0050001 1) runsP).die 0) (slotOf (phasing (slotW 0xC0050001 1) runsP) 0 0 0) = .epoch
      ∧ hasRoom ((phasing (slotW 0xC0050001 1) runsP).port 0) 1 = true)
    ∧ slotWait ((phasing (slotW 0xC0000001 1) runsP).die 0) (slotOf (phasing (slotW 0xC0000001 1) runsP) 0 0 0) = .wait := by
  (repeat' apply And.intro) <;> first | decide +kernel | exact rfl

/-- PHASE_WATCHDOG runs: a slot that waits beyond SLACK, one that has started too late, and the decision deferred. -/
theorem wit_PhaseEvents_watchdog : (lateOn (phasing [] runsP) 0 = [ph0] ∧ ((phasing [] runsP).port 0).episode = none
      ∧ (((phasing [] runsP).die 0).started.find? (·.uid == ph0.uid)).any (fun c => c.timing == 0 && !failing c.status) = true)
    ∧ lateOn (phasing [] { st := .up, draining := [{ ph0 with lag := 65 }] }) 0 = [{ ph0 with lag := 65 }]
    ∧ ((phasing [] { runsP with episode := some ⟨1, 1, false⟩ }).port 0).episode.isSome = true ∧ lateOn live 0 = [] := by
  (repeat' apply And.intro) <;> first | decide +kernel | exact rfl

/-! ## Ill-formed operands -/

theorem test_wf_length : (pk 0xFF (zeros 4061)).wf = false ∧ (pk 0xFF (zeros 4060)).wf = true := by decide +kernel
theorem test_wf_frame : frameWf (zeros 4165) [] = false ∧ frameWf (zeros 4164) [] = true ∧ frameWf [] (List.replicate 9 { lane := 0 }) = false ∧ frameWf [] [{ lane := 7, bad := 65 }] = false := by decide +kernel

/-! ## Worked values of the manual -/

/-- A counted result, with its counters. -/
def counts {α : Type} (x : Cnt α) : α × Ctr := x.run {}

/-- "Worked conversions": 11.25, 480.0 and 2^-16, 2^-18 below zero, and the stochastic 12.0. -/
theorem test_convert : counts (roundTo .e4m3 .rne 0 (fval 0x41340000)) = (0x53, {}) ∧ counts (roundTo .e4m3 .rtz 0 (fval 0x41340000)) = (0x53, {})
    ∧ counts (roundTo .e4m3 .sr 0 (fval 0x41340000)) = (0x54, {}) ∧ counts (roundTo .e4m3 .rne 0 (fval 0x43F00000)) = (0x7E, { ovf := 1 })
    ∧ counts (roundTo .e5m2 .rne 0 (fval 0xB7800000)) = (0x81, {}) ∧ counts (roundTo .e5m2 .rne 0 (fval 0xB6800000)) = (0, { ufz := 1 }) := by
  decide +kernel

/-- "One slice through the window": 2^10 - 2^10 + 2^-50 and 2^10 - 2^10 + 2^-71. -/
def sliceA (i : Nat) : Dy := if i = 0 ∨ i = 64 then ⟨1, 0⟩ else if i = 32 then ⟨-1, 0⟩ else ⟨0, 0⟩
def sliceB (e : Int) (i : Nat) : Dy := if i = 0 ∨ i = 32 then ⟨1, 10⟩ else if i = 64 then ⟨1, e⟩ else ⟨0, 0⟩
theorem test_slice : ((element 128 [(sliceA, sliceB (-50))] 0).run {}).1 = 0x26800000 ∧ ((element 128 [(sliceA, sliceB (-71))] 0).run {}).1 = 0 := by
  decide +kernel

/-- "One cellar tile": the region entry of local address 0x0012_3456_7000 of die D2. -/
theorem test_region : storeOf 0x001234567000 = some (.cellar, 0x234567000) ∧ regionKey 2 .cellar 0x234567000 = regionOf 2 0x12344 0 := by decide +kernel

/-- A data part of x^4 times 1, bit 7 of data byte 35, leaves g(x)'s lower coefficients as its check symbols (R249). -/
def lastSymbol : List Byte := (zeros 64).set 35 0x80
theorem test_rs_encode : rsEncode lastSymbol = (zeros 63) ++ [1, 0x0F, 0x36, 0x78, 0x40] ∧ rsBytes (rsEncode lastSymbol) = lastSymbol := by decide +kernel
/-- A lane erased, both its symbols wrong, and one more symbol wrong elsewhere: corrected (R250, f = 2 and e = 1). -/
theorem test_rs_decode : rsDecode [33] (xorB (rsEncode lastSymbol) ((((zeros 68).set 65 7).set 67 9).set 5 0xFF)) = some (rsEncode lastSymbol, [65, 67, 5]) := by
  decide +kernel

/-- "One element end to end": three contributions quantised with the agreed byte 0x7E and H 9. -/
theorem test_reduction : counts (quantBlock 0x7E 9 [fval 0x3F400000, fval 0xBDCCCCCD, fval 0x33000000])
    = (bytesOf [0x00300000, 0xFFF9999A, 0], { ufz := 1 }) := by decide +kernel

/-- "A rack controller watching die D2": a counter coarsened. -/
theorem test_coarse : coarsen (coarseOf bME 0x18) 0x0012F0A1 = 0x00120000 := by decide +kernel

/-- "Output lengths at the borders". -/
theorem test_nconv_lengths : (⟨16, 3, 1, 1, 0⟩ : Axis).out = 14 ∧ (⟨16, 3, 2, 2, 1⟩ : Axis).out = 8 ∧ (⟨16, 2, 1, 4, 0⟩ : Axis).out = 4
    ∧ (⟨3, 5, 1, 1, 0⟩ : Axis).out = -1 ∧ (⟨4, 5, 1, 4, 0⟩ : Axis).out = 0 := by decide +kernel

end Sys2Proof.Tests
end

section
/-! Proof of O20: the mailbox's traffic around a packet (what an arrival, a settled answer and a reply may change), a packet's whole way,
register writes of one word, the token block's words (R99), and the packets that write and read them. -/

namespace Sys2Proof.Machine

variable {α β : Type}

/-! ## What a packet's arrival and its reply change -/

/-- The mailbox's traffic: of a working copy only the mailbox block's registers and buffers, the stored replies and the lease's time
may differ, no memory change is logged and no event is raised (R393, R401, R414, R415). -/
structure MailOnly (w w' : Work) : Prop where
  state : w'.s = { w.s with
    regs := w'.s.regs
    ctl := { w.s.ctl with
      replies := w'.s.ctl.replies, leaseLeft := w'.s.ctl.leaseLeft, req := w'.s.ctl.req, rsp := w'.s.ctl.rsp
      mbxIrqs := w'.s.ctl.mbxIrqs } }
  regs : RegsKept w.s w'.s mbxReg
  log : w'.log = w.log
  evs : w'.evs = w.evs

theorem MailOnly.refl (w : Work) : MailOnly w w := ⟨rfl, fun _ _ => rfl, rfl, rfl⟩

theorem MailOnly.trans {w w' w'' : Work} (h : MailOnly w w') (h' : MailOnly w' w'') : MailOnly w w'' where
  state := by
    rw [h'.state, h.state]
  regs a ha := (h'.regs a ha).trans (h.regs a ha)
  log := h'.log.trans h.log
  evs := h'.evs.trans h.evs

/-- Work that is the mailbox's traffic alone. -/
def W.Mails (p : W α) : Prop := ∀ w, MailOnly w (p w).2

theorem W.mails_pure (x : α) : W.Mails (pure x) := fun w => .refl w
theorem W.mails_bind {p : W α} {k : α → W β} (hp : W.Mails p) (hk : ∀ a, W.Mails (k a)) : W.Mails (p >>= k) :=
  fun w => (hp w).trans (hk _ _)
theorem W.mails_getS_bind {k : State → W α} (hk : ∀ s, W.Mails (k s)) : W.Mails (getS >>= k) := fun w => hk w.s w
theorem W.mails_ite {c : Prop} [Decidable c] {p q : W α} (hp : c → W.Mails p) (hq : ¬ c → W.Mails q) :
    W.Mails (if c then p else q) := by
  split
  · exact hp ‹_›
  · exact hq ‹_›

/-- A change of the mailbox's fields of the control plane is its traffic. -/
theorem W.mails_ctl {g : State → Ctl}
    (h : ∀ s, g s = { s.ctl with
      replies := (g s).replies, leaseLeft := (g s).leaseLeft, req := (g s).req, rsp := (g s).rsp, mbxIrqs := (g s).mbxIrqs }) :
    W.Mails (modS fun s => { s with ctl := g s }) := fun w => by
  refine ⟨?_, fun _ _ => rfl, rfl, rfl⟩
  simp only [modS_apply]
  rw [← h]

theorem mbxReg_regA {o : Nat} (ho : o < 2 ^ 23) : mbxReg (regA uHub bMBX o) := by
  simp only [mbxReg, regUnit, regBlk, regA, uHub, bMBX]
  omega

/-- No register outside the mailbox block shares its home with one inside. -/
theorem canon_ne_of_mbxReg {a b : Nat} (ha : mbxReg a) (hb : ¬ mbxReg b) : canon b ≠ canon a := by
  have hca : canon a = a := if_neg fun h => by have := ha.1; simp only [uHub] at this; omega
  rw [hca]
  rintro rfl
  rcases canon_cases b with h | ⟨-, -, h, -⟩
  · exact hb (h ▸ ha)
  · exact absurd (h.symm.trans ha.1) (by decide)

/-- A write of a register of the mailbox block is its traffic. -/
theorem mailOnly_rset (w : Work) {a : Nat} (ha : mbxReg a) (v : Word) : MailOnly w { w with s := rset w.s a v } :=
  ⟨rfl, fun b hb => by rw [rget_rset, if_neg (canon_ne_of_mbxReg ha hb)], rfl, rfl⟩
theorem mails_bump {a : Nat} (ha : mbxReg a) (n : Nat) : W.Mails (bump a n) := fun w => by
  simp only [bump, modS_apply, rbump]
  split
  · exact .refl w
  · exact mailOnly_rset w ha _
theorem mails_setField {a : Nat} (ha : mbxReg a) (hi lo v : Nat) : W.Mails (setField a hi lo v) := fun w => mailOnly_rset w ha _

/-- Sending a reply is the mailbox's traffic (R414, R415). -/
theorem mails_sendReply (m : Fin 5) (r : Reply) : W.Mails (sendReply m r) := by
  refine W.mails_bind (mails_bump (mbxReg_regA (by omega)) 1) fun _ => ?_
  refine W.mails_ite (fun _ => W.mails_bind (mails_bump (mbxReg_regA (by omega)) 1) fun _ => ?_) fun _ => ?_
  all_goals
    exact W.mails_ite (fun _ => W.mails_bind (W.mails_ctl fun _ => rfl) fun _ =>
        W.mails_bind (mails_setField (mbxReg_regA (by decide)) 1 0 2) fun _ => W.mails_ctl fun _ => rfl)
      fun _ => W.mails_pure ()

/-- A packet that arrives is the mailbox's traffic (R414). -/
theorem mailOnly_arrive (code : Nat) (q : Pkt) (w : Work) : MailOnly w { w with s := arrive code q w.s } := by
  unfold arrive
  split
  · have hreq (bs : List Byte) : W.Mails (modS fun s => { s with ctl := { s.ctl with req := nsetRun 0 s.ctl.req 0 bs } }) :=
      W.mails_ctl fun _ => rfl
    exact (hreq _ w).trans (mailOnly_rset _ (mbxReg_regA (by decide)) _)
  · exact .refl w

/-- The lease's restart and the reply's way out are the mailbox's traffic, where the answer is neither an acceptance nor an AUTH. -/
theorem mails_settle {st : Byte} (hacc : st ≠ sACCEPTED) (code : Nat) (q : Pkt) : W.Mails (settle code q st) := by
  refine W.mails_getS_bind fun s => ?_
  rw [if_neg hacc]
  exact W.mails_ite (fun _ => W.mails_bind (W.mails_ctl fun _ => rfl) fun _ => W.mails_pure ()) fun _ => W.mails_pure ()

theorem mails_reply {st : Byte} (hauth : st ≠ sAUTH) (code : Nat) (q : Pkt) (pl : List Byte) : W.Mails (reply code q (st, pl)) := by
  refine W.mails_bind (W.mails_ctl fun _ => rfl) fun _ => W.mails_bind (mails_sendReply _ _) fun _ => ?_
  rw [if_neg hauth]
  exact W.mails_pure ()

/-- Sending a reply leaves the stored replies as they are. -/
theorem keeps_replies_sendReply (m : Fin 5) (r : Reply) : W.Keeps (·.ctl.replies) (sendReply m r) := by
  have hbump : ∀ a n, W.Keeps (·.ctl.replies) (bump a n) := fun a n => W.keeps_modS fun s => congrArg Ctl.replies (rbump_ctl s a n)
  refine W.keeps_bind (hbump _ _) fun _ => W.keeps_ite (W.keeps_bind (hbump _ _) fun _ => ?_) ?_
  all_goals
    exact W.keeps_ite (W.keeps_bind (W.keeps_modS fun _ => rfl) fun _ => W.keeps_bind (W.keeps_modS fun _ => rfl) fun _ =>
      W.keeps_modS fun _ => rfl) (W.keeps_pure _ ())

/-- A reply is stored for a RETRY (R393). -/
theorem reply_replied {st : Byte} (hauth : st ≠ sAUTH) (code : Nat) (q : Pkt) (pl : List Byte) (w : Work) :
    Replied (reply code q (st, pl) w).2.s q code st pl := by
  simp only [Replied, reply, W.bind_apply, if_neg hauth, W.pure_apply]
  have h := keeps_replies_sendReply q.from
    { opcode := BitVec.ofNat 16 code, hdr := q.hdr, status := st.setWidth 16, payload := pl }
  simp only [h _]
  simp

/-! ## Steps that log no memory change and raise no event -/

/-- A step whose work logs no memory change and raises no event has its work's state as outcome. -/
theorem W.within_of_quiet {scope : State → State → State} {s : State} {p : W Unit} (hlog : (p { s }).2.log = [])
    (hevs : (p { s }).2.evs = []) :
    W.within scope s p = .next (scope s { (p { s }).2.s with pending := s.pending, mem := s.mem }) := by
  rw [W.within_next, W.on, Work.flushed_of_none hevs, Work.result, hlog]
  rfl

/-- The mailbox's traffic leaves what a register write leaves. -/
theorem MailOnly.writeFrame {w w' : Work} (h : MailOnly w w') (own : Nat → Prop) :
    WriteFrame w.s { w'.s with pending := w.s.pending, mem := w.s.mem } own := by
  have hs := h.state
  have hregs : ∀ a, ¬(own a ∨ mbxReg a) → rget w'.s a = rget w.s a := fun a ha => h.regs a fun hm => ha (.inr hm)
  refine ⟨⟨fun _ => rfl, fun _ => rfl⟩, ?_, ?_, ?_, ?_, ?_, ?_, rfl, ?_, ?_, ?_, ?_, ?_, ?_, hregs⟩
  all_goals exact hs ▸ rfl

/-- The mailbox's traffic beside a change of a die. -/
theorem MailOnly.onDie {w w' : Work} (h : MailOnly w w') (d : Fin 8) (f : Die → Die) :
    MailOnly { w with s := w.s.onDie d f } { w' with s := w'.s.onDie d f } where
  state := by
    rw [h.state]
    rfl
  regs := h.regs
  log := h.log
  evs := h.evs

theorem MailOnly.dies {w w' : Work} (h : MailOnly w w') : w'.s.dies = w.s.dies := by rw [h.state]
theorem MailOnly.sec {w w' : Work} (h : MailOnly w w') : w'.s.sec = w.s.sec := by rw [h.state]
theorem MailOnly.lease {w w' : Work} (h : MailOnly w w') : w'.s.ctl.lease = w.s.ctl.lease := by rw [h.state]
theorem MailOnly.quiesced {w w' : Work} (h : MailOnly w w') : w'.s.ctl.quiesced = w.s.ctl.quiesced := by rw [h.state]
theorem MailOnly.winPkt {w w' : Work} (h : MailOnly w w') : w'.s.ctl.winPkt = w.s.ctl.winPkt := by rw [h.state]

@[simp] theorem arrive_dies (code : Nat) (q : Pkt) (s : State) : (arrive code q s).dies = s.dies := (mailOnly_arrive code q { s }).dies
@[simp] theorem arrive_die (code : Nat) (q : Pkt) (s : State) (d : Fin 8) : (arrive code q s).die d = s.die d := by simp [State.die]
@[simp] theorem arrive_sec (code : Nat) (q : Pkt) (s : State) : (arrive code q s).sec = s.sec := (mailOnly_arrive code q { s }).sec
@[simp] theorem arrive_lease (code : Nat) (q : Pkt) (s : State) : (arrive code q s).ctl.lease = s.ctl.lease :=
  (mailOnly_arrive code q { s }).lease
@[simp] theorem arrive_quiesced (code : Nat) (q : Pkt) (s : State) : (arrive code q s).ctl.quiesced = s.ctl.quiesced :=
  (mailOnly_arrive code q { s }).quiesced
@[simp] theorem arrive_winPkt (code : Nat) (q : Pkt) (s : State) : (arrive code q s).ctl.winPkt = s.ctl.winPkt :=
  (mailOnly_arrive code q { s }).winPkt
@[simp] theorem queues_arrive (code : Nat) (q : Pkt) (s : State) : queues (arrive code q s) = queues s := by
  simp [queues]

/-- Whom a reading is coarsened for depends on the partitions, their tenants and the lease's holder. -/
@[simp] theorem coarsened_arrive (code : Nat) (q : Pkt) (s : State) (m : Fin 5) (p : Nat) :
    coarsened (arrive code q s) m p = coarsened s m p := by simp [coarsened, isProt, isTenant, ownerOf]
@[simp] theorem partOf_arrive (code : Nat) (q : Pkt) (s : State) (d : Fin 8) : partOf (arrive code q s) d = partOf s d := by simp [partOf]
@[simp] theorem dieThere_arrive (code : Nat) (q : Pkt) (s : State) (m : Fin 5) (d : Fin 8) :
    dieThere (arrive code q s) m d = dieThere s m d := by simp [dieThere]

/-! ## A packet's whole way -/

/-- A packet that no check refuses and whose action answers OK, logs nothing and raises nothing: what its step leaves is what the
action leaves but for the mailbox's traffic, and the reply carries the answer. -/
theorem packet_answered {op : Op} {q : Pkt} {s s' : State} {pl : List Byte} (scope : State → State → State) (h : Passes op q s)
    (hact : op.act q { s := arrive op.code q s } = (some (sOK, pl), { s := s' })) :
    ∃ w : Work, W.within scope s (packet op q) = .next (scope s { w.s with pending := s.pending, mem := s.mem })
      ∧ MailOnly { s := s' } w ∧ Replied w.s q op.code sOK pl := by
  have hrun : packet op q { s } = (do settle op.code q sOK; reply op.code q (sOK, pl) : W Unit) { s := s' } := by
    have := packet_passes h [] []
    simpa only [hact] using this
  have hauth : sOK ≠ sAUTH := by decide
  have hmail : MailOnly { s := s' } (packet op q { s }).2 := by
    rw [hrun]
    exact W.mails_bind (mails_settle (by decide) op.code q) (fun _ => mails_reply hauth op.code q pl) { s := s' }
  refine ⟨_, W.within_of_quiet hmail.log hmail.evs, hmail, ?_⟩
  rw [hrun]
  exact reply_replied hauth op.code q pl _

/-- A packet that the order of checks refuses is answered with the refusal, which its opcode may record (R395). -/
theorem packet_refused {op : Op} {q : Pkt} {st : Byte} {pl : List Byte} {s : State} (h : Refuses op q st pl s) (l : List MemOp)
    (v : List Event) :
    packet op q ⟨s, l, v⟩ = (do
      if (op.entry (arrive op.code q s) q).isNone then op.turned q st
      reply op.code q (st, pl) : W Unit) ⟨arrive op.code q s, l, v⟩ := by
  obtain ⟨hans, hwf, hq, hmbx, hretry, hrec, href⟩ := h
  simp only [packet, W.getS_bind, if_neg hmbx, hans, hwf, Bool.not_true, Bool.or_false, Bool.false_eq_true, if_false, W.modS_bind,
    receive, queues_arrive, hq, Bool.not_false, if_true, takePkt, hretry, serve, arrive_sec, hrec, Bool.false_and, href]

/-- A refused packet whose opcode records nothing and whose status is not AUTH: its reply carries the refusal, and its step leaves
everything but the mailbox's traffic. -/
theorem packet_refused_replied {op : Op} {q : Pkt} {st : Byte} {pl : List Byte} {s : State} (scope : State → State → State)
    (h : Refuses op q st pl s) (hauth : st ≠ sAUTH) (hturned : op.turned q st = pure ()) :
    ∃ w : Work, W.within scope s (packet op q) = .next (scope s { w.s with pending := s.pending, mem := s.mem })
      ∧ MailOnly { s } w ∧ Replied w.s q op.code st pl := by
  have hrun : packet op q { s } = reply op.code q (st, pl) { s := arrive op.code q s } := by
    rw [packet_refused h, hturned]
    split <;> rfl
  have hmail : MailOnly { s } (packet op q { s }).2 := by
    rw [hrun]
    exact (mailOnly_arrive op.code q { s }).trans (mails_reply hauth _ _ _ _)
  refine ⟨_, W.within_of_quiet hmail.log hmail.evs, hmail, ?_⟩
  rw [hrun]
  exact reply_replied hauth _ _ _ _

/-- A packet that passes the order of checks passes its parts: the first steps and the opcode's own. -/
theorem Op.refusal_eq_none {op : Op} {s : State} {q : Pkt} (h : op.refusal s q = none) :
    op.entry s q = none ∧ op.rest s q = none := by
  unfold Op.refusal at h
  split at h
  · cases h
  · rename_i hentry
    refine ⟨Option.eq_none_iff_forall_not_mem.2 hentry, ?_⟩
    split at h
    · split at h
      · split at h <;> cases h
      · cases h
    · split at h
      · cases h
      · assumption

theorem Op.ok_of_entry {op : Op} {s : State} {q : Pkt} (h : op.entry s q = none) : op.ok s q = true := by
  cases hok : op.ok s q with
  | true => rfl
  | false =>
    simp only [Op.entry, hok, Bool.not_false, Bool.or_true, if_true] at h
    cases h

/-- What an opcode's own checks refuse after the first steps is the packet's refusal, while no QUIESCE has begun. -/
theorem Op.refusal_of_rest {op : Op} {s : State} {q : Pkt} {a : Ans} (hentry : op.entry s q = none) (hquiet : s.ctl.quiesced = false)
    (hrest : op.rest s q = some a) : op.refusal s q = some a := by
  simp [Op.refusal, hentry, hquiet, hrest]

/-! ## A packet's way past the dies -/

/-- Sending a reply leaves the dies. -/
theorem keeps_dies_sendReply (m : Fin 5) (r : Reply) : W.Keeps (·.dies) (sendReply m r) := fun w => (mails_sendReply m r w).dies

/-- Every reply leaves the dies, one of AUTH and its record included. -/
theorem keeps_dies_reply (code : Nat) (q : Pkt) (a : Ans) : W.Keeps (·.dies) (reply code q a) := by
  refine W.keeps_bind (W.keeps_modS fun _ => rfl) fun _ => W.keeps_bind (keeps_dies_sendReply _ _) fun _ => ?_
  exact W.keeps_ite (W.keeps_bind (keeps_bump passive_dies _ _) fun _ => keeps_setFlags passive_dies _ _) (W.keeps_pure _ ())

theorem keeps_dies_settle (code : Nat) (q : Pkt) (st : Byte) : W.Keeps (·.dies) (settle code q st) := by
  refine W.keeps_bind (W.keeps_getS _) fun s => ?_
  refine W.keeps_ite (W.keeps_bind (W.keeps_modS fun _ => rfl) fun _ => ?_) ?_
  all_goals exact W.keeps_ite (W.keeps_modS fun _ => rfl) (W.keeps_pure _ ())

/-- A repetition brings a reply and nothing else (R393). -/
theorem keeps_dies_retry (code : Nat) (q : Pkt) : W.Keeps (·.dies) (retry code q) := by
  refine W.keeps_bind (W.keeps_getS _) fun s => ?_
  split
  · exact W.keeps_ite (W.keeps_bind (W.keeps_modS fun _ => rfl) fun _ => keeps_dies_sendReply _ _) (keeps_dies_reply _ _ _)
  · exact keeps_dies_reply _ _ _

/-- A packet served leaves the dies where its action and its refusal's record do. -/
theorem serve_dies {op : Op} {q : Pkt} {w : Work} (hturned : ∀ st, W.Keeps (·.dies) (op.turned q st))
    (hact : (op.act q w).2.s.dies = w.s.dies) : (serve op q w).2.s.dies = w.s.dies := by
  simp only [serve, W.getS_bind]
  split
  · exact keeps_dies_reply _ _ _ w
  · cases op.refusal w.s q with
    | some a =>
      split
      · exact W.keeps_bind (hturned _) (fun _ => keeps_dies_reply _ _ _) w
      · exact keeps_dies_reply _ _ _ w
    | none =>
      rcases hdone : op.act q w with ⟨_ | a, w'⟩ <;> rw [hdone] at hact <;> simp only [W.bind_apply, hdone]
      · exact hact
      · exact (W.keeps_bind (keeps_dies_settle _ _ _) (fun _ => keeps_dies_reply _ _ _) _).trans hact

/-- A packet that arrives, whatever becomes of it, leaves the dies where its action and its refusal's record do. -/
theorem packet_dies {op : Op} {q : Pkt} {w : Work} (hturned : ∀ st, W.Keeps (·.dies) (op.turned q st))
    (hact : (op.act q { w with s := arrive op.code q w.s }).2.s.dies = w.s.dies) : (packet op q w).2.s.dies = w.s.dies := by
  simp only [packet, W.getS_bind]
  split
  · rfl
  · split
    · rfl
    · simp only [W.modS_bind, receive, W.getS_bind]
      have harrive : (arrive op.code q w.s).dies = w.s.dies := arrive_dies _ _ _
      split
      · simp only [takePkt]
        split
        · exact (keeps_dies_retry _ _ _).trans harrive
        · exact (serve_dies hturned (hact.trans harrive.symm)).trans harrive
      · split
        · exact (keeps_dies_reply _ _ _ _).trans harrive
        · exact harrive

/-! ## Register writes of one word (R400) -/

theorem writeWords_of_go {m : Fin 5} {a : Nat} {vs : List Word} {w w' : Work} {r : Option Byte}
    (h : writeWordsGo m a vs w = (r, w')) : writeWords m a vs w = (r, if r.isSome then w else w') := by
  change (match (writeWordsGo m a vs w).1 with
    | some e => (do set w; return some e : W (Option Byte))
    | none => return none) (writeWordsGo m a vs w).2 = _
  rw [h]
  cases r <;> rfl

/-- A one-word write that is refused changes nothing. -/
theorem writeWords_refused {m : Fin 5} {a : Nat} {v : Word} {e : Byte} {w : Work} (h : judgeWord w.s m a v.toNat = some e) :
    writeWords m a [v] w = (some e, w) :=
  have hgo : writeWordsGo m a [v] w = (some e, w) := by simp only [writeWordsGo, W.bind_apply, getS_apply, h, W.pure_apply]
  writeWords_of_go hgo

/-- A one-word write that is not refused writes its word. -/
theorem writeWords_written {m : Fin 5} {a : Nat} {v : Word} {w : Work} (h : judgeWord w.s m a v.toNat = none) :
    writeWords m a [v] w = (none, (writeWord a v.toNat w).2) :=
  writeWords_of_go (by simp only [writeWordsGo, W.bind_apply, getS_apply, h, W.pure_apply])

/-! ## The token block (R99) -/

theorem w32_toNat (v : Word) : w32 v.toNat = v := by rw [w32, BitVec.ofNat_toNat, BitVec.setWidth_eq]


/-- What a write of a word of the token block makes of its die: a token's word, or the 32 marks of a word of the map (R99). -/
def Die.putTok (off v : Nat) (x : Die) : Die :=
  if off < 0x4000 then { x with tokens := nset 0 x.tokens (off / 4) (w32 v) }
  else { x with marks := (List.range 32).foldl (fun m i => nset false m (32 * ((off - 0x4000) / 4) + i) (v.testBit i)) x.marks }

theorem Die.putTok_token {off : Nat} (ho : off < 0x4000) (v : Nat) (x : Die) :
    x.putTok off v = { x with tokens := nset 0 x.tokens (off / 4) (w32 v) } := if_pos ho
theorem Die.putTok_map {off : Nat} (ho : ¬ off < 0x4000) (v : Nat) (x : Die) :
    x.putTok off v = { x with
      marks := (List.range 32).foldl (fun m i => nset false m (32 * ((off - 0x4000) / 4) + i) (v.testBit i)) x.marks } := if_neg ho

/-- A run of marks set one by one. -/
theorem nget_foldl_marks (m : NMap Bool) (base v k n : Nat) :
    nget false ((List.range k).foldl (fun m i => nset false m (base + i) (v.testBit i)) m) n
      = if base ≤ n ∧ n < base + k then v.testBit (n - base) else nget false m n := by
  induction k with
  | zero => rw [if_neg (by omega)]; rfl
  | succ k ih =>
    rw [List.range_succ, List.foldl_append, List.foldl_cons, List.foldl_nil, nget_nset, ih]
    by_cases hn : n = base + k
    · rw [if_pos hn, if_pos (by omega), hn, Nat.add_sub_cancel_left]
    · rw [if_neg hn]
      exact ite_congr (propext (by omega)) (fun _ => rfl) fun _ => rfl

theorem Die.putTok_tokens {off : Nat} (hoff : off % 4 = 0) (v : Word) (x : Die) (n : Nat) :
    nget 0 (x.putTok off v.toNat).tokens n = if 4 * n = off ∧ off < 0x4000 then v else nget 0 x.tokens n := by
  by_cases ho : off < 0x4000
  · rw [Die.putTok_token ho, nget_nset, w32_toNat]
    exact ite_congr (propext (by omega)) (fun _ => rfl) fun _ => rfl
  · rw [Die.putTok_map ho, if_neg (by omega)]

theorem Die.putTok_marks (off v : Nat) (x : Die) (n : Nat) :
    nget false (x.putTok off v).marks n
      = if 0x4000 ≤ off ∧ n / 32 = (off - 0x4000) / 4 then v.testBit (n % 32) else nget false x.marks n := by
  by_cases ho : off < 0x4000
  · rw [Die.putTok_token ho, if_neg (by omega)]
  · rw [Die.putTok_map ho, nget_foldl_marks]
    by_cases hn : n / 32 = (off - 0x4000) / 4
    · rw [if_pos (by omega), if_pos (by omega)]
      congr 1
      omega
    · rw [if_neg (by omega), if_neg (by omega)]

/-- Nothing but the die's tokens and marks changes. -/
theorem Die.putTok_frame (off v : Nat) (x : Die) :
    x.putTok off v = { x with tokens := (x.putTok off v).tokens, marks := (x.putTok off v).marks } := by
  by_cases ho : off < 0x4000
  · rw [Die.putTok_token ho]
  · rw [Die.putTok_map ho]

/-- Changes of one die, one after the other, are one change. -/
theorem State.onDie_onDie (s : State) (d : Fin 8) (f g : Die → Die) : (s.onDie d f).onDie d g = s.onDie d fun x => g (f x) := by
  simp [State.onDie]

theorem State.onDie_id (s : State) (d : Fin 8) : (s.onDie d fun x => x) = s := by simp [State.onDie]

/-- A loop that changes one die. -/
theorem forM_modD (d : Fin 8) (g : α → Die → Die) (l : List α) (w : Work) :
    (l.forM fun i => modD d (g i)) w = ((), { w with s := w.s.onDie d fun x => l.foldl (fun y i => g i y) x }) := by
  induction l generalizing w with
  | nil => simp [State.onDie_id]
  | cons i r ih =>
    change (r.forM fun i => modD d (g i)) (modD d (g i) w).2 = _
    rw [ih]
    simp [modD, State.onDie_onDie]

/-- Marks of a die set one by one are its map of marks, so changed. -/
theorem foldl_setMarks (base v : Nat) (l : List Nat) (x : Die) :
    l.foldl (fun (y : Die) i => { y with marks := nset false y.marks (base + i) (v.testBit i) }) x
      = { x with marks := l.foldl (fun m i => nset false m (base + i) (v.testBit i)) x.marks } := by
  induction l generalizing x with
  | nil => rfl
  | cons i r ih => simp only [List.foldl_cons, ih]

/-- The address `a` names a word of the token block of die `d`. -/
structure TokWord (a : Nat) (d : Fin 8) : Prop where
  unit : regUnit a = d.val
  blk : regBlk a = bTOK
  named : regInfo a ≠ none

section
variable {a : Nat} {d : Fin 8} (ha : TokWord a d)
include ha

theorem TokWord.unit_lt : regUnit a < 8 := ha.unit ▸ d.isLt
theorem TokWord.die_eq : (⟨regUnit a, ha.unit_lt⟩ : Fin 8) = d := Fin.ext ha.unit

/-- A word of the token block is a word: all its bits are readable and writable. -/
theorem TokWord.info : a % 4 = 0 ∧ regInfo a = some { rw := 0xFFFFFFFF } := by
  have hn := ha.named
  have hu := ha.unit_lt
  by_cases h4 : a % 4 = 0
  · refine ⟨h4, ?_⟩
    have htok : regInfo a = tokInfo (regOff a) := by simp [regInfo, h4, hu, ha.blk, bTOK]
    rw [htok] at hn ⊢
    unfold tokInfo at hn ⊢
    split
    · rfl
    · rename_i ho
      exact absurd (if_neg ho) hn
  · exact absurd (by simp [regInfo, h4]) hn

theorem TokWord.off_aligned : regOff a % 4 = 0 := by
  have := ha.info.1
  simp only [regOff]
  omega

theorem TokWord.not_waitingLag (s : State) : waitingLag s a = none := by
  simp [waitingLag, ha.blk, bTOK, bFAB]

/-- Only in Loaded and Stopped is a write of a token or of marks let through (R99). -/
theorem TokWord.judgeWord_eq (s : State) (m : Fin 5) (v : Nat) :
    judgeWord s m a v = if (s.die d).seq.st = .loaded ∨ (s.die d).seq.st = .stopped then none else some sSTATE := by
  simp only [judgeWord, if_neg ha.named, dif_pos ha.unit_lt, if_pos ha.blk, ha.die_eq]

theorem TokWord.writeSpecial_eq (v : Nat) (w : Work) :
    writeSpecial a v w = (true, { w with s := w.s.onDie d (Die.putTok (regOff a) v) }) := by
  have hseq : ¬(regBlk a = bSEQ ∧ regOff a = 0x10) := by rw [ha.blk]; exact fun h => absurd h.1 (by decide)
  simp only [writeSpecial, dif_pos ha.unit_lt, ha.die_eq, if_neg hseq, if_pos ha.blk]
  by_cases ho : regOff a < 0x4000
  · have hput : (fun x : Die => { x with tokens := nset 0 x.tokens (regOff a / 4) (w32 v) }) = Die.putTok (regOff a) v :=
      funext fun x => (Die.putTok_token ho v x).symm
    simp only [if_pos ho, W.bind_apply, modD, modS_apply, W.pure_apply, hput]
  · simp only [if_neg ho, W.bind_apply, forM_modD, W.pure_apply, foldl_setMarks, ← Die.putTok_map ho]

theorem TokWord.writeWord_eq (v : Nat) (w : Work) :
    writeWord a v w = ((), { w with s := w.s.onDie d (Die.putTok (regOff a) v) }) := by
  simp only [writeWord, ha.info.2, W.bind_apply, ha.writeSpecial_eq, if_true, W.pure_apply]

/-- All of a one-word write's effect on a token block, or none of it. -/
theorem TokWord.writeWords_eq (m : Fin 5) (v : Word) (w : Work) :
    writeWords m a [v] w = if (w.s.die d).seq.st = .loaded ∨ (w.s.die d).seq.st = .stopped
      then (none, { w with s := w.s.onDie d (Die.putTok (regOff a) v.toNat) }) else (some sSTATE, w) := by
  have hjudge := ha.judgeWord_eq w.s m v.toNat
  split
  · rename_i hst
    rw [writeWords_written (hjudge.trans (if_pos hst)), ha.writeWord_eq]
  · rename_i hst
    rw [writeWords_refused (hjudge.trans (if_neg hst))]

/-- The block has one register for each word of it: its token, or the bits of its marks. -/
theorem TokWord.viewOf_eq (s : State) : viewOf s a = some (viewTok s d (regOff a)) := by
  simp [viewOf, ha.unit_lt, ha.die_eq, ha.blk, bTOK, bSEQ]

/-- A token's register holds no measured or timed value. -/
theorem TokWord.openRange_eq (s : State) : openRange s a = none := by
  simp [openRange, ha.unit_lt, ha.blk, bTOK, bME, bVE, bFRG, bMOV, bCEL, bLFT, bATC, bGEK, bPWR]

/-- A master that no coarsening touches reads the current value, in every state, and the read changes nothing (R99, R440). -/
theorem TokWord.readBy_eq {m : Fin 5} {w : Work} (hexact : coarsened w.s m (partOf w.s d) = false) :
    readBy m a w = (w32 (viewTok w.s d (regOff a)), w) := by
  have htemp : tempReg w.s a = none := by simp [tempReg, ha.unit_lt, ha.blk, bTOK, bPWR, bCEL, bLFT, bATC]
  have hhot : hubHot w.s a = false := by simp [hubHot, ha.blk, bTOK, bLFT, bATC]
  have hall (x : Word) : x &&& ~~~ w32 0 = x := BitVec.and_allOnes
  have hread : readReg a w = (w32 (viewTok w.s d (regOff a)), w) := by
    simp only [readReg, W.getS_bind, ha.openRange_eq, ha.viewOf_eq, hhot, ha.not_waitingLag, ha.info.2, hall, Bool.false_eq_true,
      if_false, W.pure_apply]
  have has : readAs m a w = (w32 (viewTok w.s d (regOff a)), w) := by
    simp only [readAs, W.getS_bind, htemp, Option.filter_none]
    simp only [W.bind_apply, hread, dif_pos ha.unit_lt, ha.die_eq, hexact, Bool.false_eq_true, and_false, if_false, W.pure_apply]
  simp only [readBy, W.bind_apply, has, ha.info.2]
  simp

end

/-! ## Packets that write a word of the token block -/

/-- A number's little-endian bytes at an offset behind others read back. -/
theorem rd_natLE_at (b c : List Byte) (n v : Nat) (hv : v < 256 ^ n) : rd (b ++ natLE n v ++ c) b.length n = v := by
  have htake : (natLE n v ++ c).take n = natLE n v := by
    rw [List.take_append_of_le_length (by simp), List.take_of_length_le (by simp)]
  rw [rd, List.append_assoc, List.drop_left, htake, leNat_natLE, Nat.mod_eq_of_lt hv]

section
variable (h : Hdr) (a v : Word)

@[simp] theorem oneWord_from (x y : Nat) : (oneWord h x y).from = h.port := rfl
@[simp] theorem oneWord_at_address : (oneWord h a.toNat v.toNat).at 0 4 = a.toNat :=
  rd_natLE_at [] (natLE 4 1 ++ natLE 4 v.toNat) 4 a.toNat a.isLt
@[simp] theorem oneWord_at_count (x y : Nat) : (oneWord h x y).at 4 4 = 1 := by
  have hrd := rd_natLE_at (natLE 4 x) (natLE 4 y) 4 1 (by decide)
  rwa [natLE_length] at hrd
@[simp] theorem regWords_oneWord : regWords (oneWord h a.toNat v.toNat) = [a.toNat] := by simp [regWords, List.range_succ]
@[simp] theorem writeVals_oneWord (x : Nat) : writeVals (oneWord h x v.toNat) = [v] := by
  have hdrop : (oneWord h x v.toNat).payload.drop 8 = natLE 4 v.toNat := by
    have hleft : ((natLE 4 x ++ natLE 4 1) ++ natLE 4 v.toNat).drop (natLE 4 x ++ natLE 4 1).length = natLE 4 v.toNat := List.drop_left
    rwa [List.length_append, natLE_length, natLE_length] at hleft
  have hval : leNat (natLE 4 v.toNat) = v.toNat := (leNat_natLE 4 v.toNat).trans (Nat.mod_eq_of_lt v.isLt)
  rw [writeVals, hdrop]
  change [w32 (leNat (natLE 4 v.toNat))] = [v]
  rw [hval, w32_toNat]

end

/-- The action of a REG_WRITE of one word. -/
theorem opRegWrite_act_oneWord (h : Hdr) (a v : Word) (w : Work) :
    opRegWrite.act (oneWord h a.toNat v.toNat) w = (some (sOK, []), (writeWords h.port a.toNat [v] w).2) := by
  change (answer sOK) (writeWords (oneWord h a.toNat v.toNat).from _ _ w).2 = _
  rw [oneWord_at_address, writeVals_oneWord]
  rfl

/-- A token write's row is its packet. -/
theorem exec_tokenWrite {a : Word} {d : Fin 8} (hu : regUnit a.toNat = d.val) (hb : regBlk a.toNat = bTOK) (h : Hdr) (v : Word)
    (s : State) :
    exec (.tokenWrite h a v) s = W.within wideScope s (packet opRegWrite (oneWord h a.toNat v.toNat)) := by
  have hrow : (regBlk a.toNat == bTOK && decide (regUnit a.toNat < 8)) = true := by simp [hb, hu]
  change W.within wideScope s (writeRow (regBlk a.toNat == bTOK && decide (regUnit a.toNat < 8)) h a.toNat v.toNat) = _
  rw [hrow, writeRow, if_pos rfl]

/-- A REG_WRITE whose form is right names registers. -/
theorem opRegWrite_named {s : State} {q : Pkt} (hok : opRegWrite.ok s q = true) {a : Nat} (ha : a ∈ regWords q) : regInfo a ≠ none := by
  simp only [opRegWrite, Bool.and_eq_true, List.all_eq_true] at hok
  obtain ⟨⟨-, hnamed⟩, -⟩ := hok
  exact Option.isSome_iff_ne_none.1 (hnamed a ha)

/-- No refusal of a list is the first where none is. -/
theorem eq_none_of_firstOf {l : List (Option Ans)} (h : firstOf l = none) {x : Option Ans} (hx : x ∈ l) : x = none := by
  induction l with
  | nil => cases hx
  | cons y r ih =>
    cases y with
    | some a => cases h
    | none =>
      rcases List.mem_cons.1 hx with rfl | hr
      · rfl
      · exact ih h hr

/-- A REG_WRITE that its own checks let through has no word refused. -/
theorem wordsRefusal_of_rest {s : State} {q : Pkt} (hrest : opRegWrite.rest s q = none) : wordsRefusal s q = none := by
  have hword : (wordsRefusal s q).map (fun st => (st, ([] : List Byte))) = none := eq_none_of_firstOf hrest (by simp)
  exact Option.map_eq_none_iff.1 hword

section
variable {a v : Word} {d : Fin 8} (ha : TokWord a.toNat d)
include ha

theorem TokWord.wordsRefusal_eq (h : Hdr) (s : State) :
    wordsRefusal s (oneWord h a.toNat v.toNat)
      = if (s.die d).seq.st = .loaded ∨ (s.die d).seq.st = .stopped then none else some sSTATE := by
  change (writeWords (oneWord h a.toNat v.toNat).from _ _ { s }).1 = _
  rw [oneWord_at_address, writeVals_oneWord, ha.writeWords_eq]
  split <;> rfl

/-- The action of a token write in Loaded or Stopped. -/
theorem TokWord.act_of_writable {w : Work} (hst : (w.s.die d).seq.st = .loaded ∨ (w.s.die d).seq.st = .stopped) (h : Hdr) :
    opRegWrite.act (oneWord h a.toNat v.toNat) w
      = (some (sOK, []), { w with s := w.s.onDie d (Die.putTok (regOff a.toNat) v.toNat) }) := by
  rw [opRegWrite_act_oneWord, ha.writeWords_eq, if_pos hst]

/-- A token's registers have no consumer of their own that writes without the lease (R406). -/
theorem TokWord.consumerWrite_eq (s : State) (m : Fin 5) : consumerWrite s m a.toNat = false := by
  simp [consumerWrite, ha.unit_lt, ha.blk, bTOK, bSEQ]

theorem TokWord.regParts_eq (s : State) : regParts s [a.toNat] = [partOf s d] := by
  simp [regParts, ha.unit_lt, ha.die_eq, ha.blk, bTOK, bLFT, bATC]

theorem TokWord.regsThere_eq (s : State) (m : Fin 5) : regsThere s m [a.toNat] = dieThere s m d := by
  simp [regsThere, ha.unit_lt, ha.die_eq]

/-- The write outside Loaded and Stopped is refused with STATE, where no earlier step of R395 refuses it. -/
theorem TokWord.refusal_of_not_writable {s : State} (hst : ¬((s.die d).seq.st = .loaded ∨ (s.die d).seq.st = .stopped)) (h : Hdr)
    (hentry : opRegWrite.entry s (oneWord h a.toNat v.toNat) = none) (hquiet : s.ctl.quiesced = false)
    (hexact : coarsened s h.port (partOf s d) = false) (hthere : dieThere s h.port d = true) :
    opRegWrite.refusal s (oneWord h a.toNat v.toNat) = some (sSTATE, []) := by
  refine Op.refusal_of_rest hentry hquiet ?_
  have hguard : guard s h.port [partOf s d] = none := by simp [guard, refuseIf, hexact]
  simp only [opRegWrite, oneWord_from, regWords_oneWord, List.filter_cons, ha.consumerWrite_eq, Bool.not_false, if_true, List.filter_nil,
    ha.regParts_eq, hguard, ha.wordsRefusal_eq, if_neg hst, ha.regsThere_eq, hthere]
  rfl

end

section
variable {h : Hdr} {a v : Word} {d : Fin 8} {s : State} (hu : regUnit a.toNat = d.val) (hb : regBlk a.toNat = bTOK)
include hu hb

/-- A REG_WRITE in the token block whose form is right names a word of it. -/
theorem TokWord.of_entry (hentry : opRegWrite.entry s (oneWord h a.toNat v.toNat) = none) : TokWord a.toNat d :=
  ⟨hu, hb, opRegWrite_named (Op.ok_of_entry hentry) (by simp)⟩

/-- A token write passes in Loaded and Stopped only (R99). -/
theorem writable_of_passes (hp : Passes opRegWrite (oneWord h a.toNat v.toNat) s) :
    TokWord a.toNat d ∧ ((s.die d).seq.st = .loaded ∨ (s.die d).seq.st = .stopped) := by
  obtain ⟨-, -, -, -, -, -, hrefusal⟩ := hp
  obtain ⟨hentry, hrest⟩ := Op.refusal_eq_none hrefusal
  have ha := TokWord.of_entry hu hb hentry
  have hwords : wordsRefusal _ _ = none := wordsRefusal_of_rest hrest
  rw [ha.wordsRefusal_eq, arrive_die] at hwords
  refine ⟨ha, Decidable.byContradiction fun hst => ?_⟩
  rw [if_neg hst] at hwords
  cases hwords

/-- A token write that passes: the word is written, the reply is OK, and nothing else of any die changes. -/
theorem tokenWrite_passes (hp : Passes opRegWrite (oneWord h a.toNat v.toNat) s) :
    ∃ t, exec (.tokenWrite h a v) s = .next t ∧ Replied t (oneWord h a.toNat v.toNat) 0x201 sOK []
      ∧ t.dies = (s.onDie d (Die.putTok (regOff a.toNat) v.toNat)).dies ∧ WriteFrame s t (fun _ => False) := by
  obtain ⟨ha, hst⟩ := writable_of_passes hu hb hp
  have hact : opRegWrite.act (oneWord h a.toNat v.toNat) { s := arrive 0x201 (oneWord h a.toNat v.toNat) s }
      = (some (sOK, []), { s := (arrive 0x201 (oneWord h a.toNat v.toNat) s).onDie d (Die.putTok (regOff a.toNat) v.toNat) }) :=
    ha.act_of_writable (by simpa using hst) h
  obtain ⟨w, hstep, hmail, hreply⟩ := packet_answered wideScope hp hact
  have hall : MailOnly { s := s.onDie d (Die.putTok (regOff a.toNat) v.toNat) } w :=
    ((mailOnly_arrive 0x201 (oneWord h a.toNat v.toNat) { s }).onDie d _).trans hmail
  exact ⟨_, (exec_tokenWrite hu hb h v s).trans hstep, hreply, hall.dies, hall.writeFrame _⟩

/-- The action of a token write outside Loaded and Stopped changes nothing, whether its address names a word or not. -/
theorem act_of_not_writable {w : Work} (hst : ¬((w.s.die d).seq.st = .loaded ∨ (w.s.die d).seq.st = .stopped)) :
    (opRegWrite.act (oneWord h a.toNat v.toNat) w).2 = w := by
  rw [opRegWrite_act_oneWord]
  by_cases hn : regInfo a.toNat = none
  · have hjudge : judgeWord w.s h.port a.toNat v.toNat = some sPARAM := if_pos hn
    rw [writeWords_refused hjudge]
  · have ha : TokWord a.toNat d := ⟨hu, hb, hn⟩
    rw [ha.writeWords_eq, if_neg hst]

/-- A token write outside Loaded and Stopped, whatever else holds of it, leaves every die as it was (R99). -/
theorem tokenWrite_dies_of_not_writable (hst : ¬((s.die d).seq.st = .loaded ∨ (s.die d).seq.st = .stopped)) :
    ∃ t, exec (.tokenWrite h a v) s = .next t ∧ t.dies = s.dies := by
  have hact : (opRegWrite.act (oneWord h a.toNat v.toNat) { s := arrive 0x201 (oneWord h a.toNat v.toNat) s }).2
      = { s := arrive 0x201 (oneWord h a.toNat v.toNat) s } := act_of_not_writable hu hb (by simpa using hst)
  have hkeep : (packet opRegWrite (oneWord h a.toNat v.toNat) { s }).2.s.dies = s.dies := by
    refine packet_dies (fun _ => W.keeps_pure _ ()) ?_
    exact (congrArg (fun w : Work => w.s.dies) hact).trans (arrive_dies _ _ _)
  refine ⟨_, (exec_tokenWrite hu hb h v s).trans (W.within_next _ _ _), ?_⟩
  rw [wideScope_dies, W.on, Work.result_dies]
  exact (keeps_flushEvents passive_dies _).trans hkeep

/-- A token write that only its state refuses is answered with STATE. -/
theorem tokenWrite_refused (hst : ¬((s.die d).seq.st = .loaded ∨ (s.die d).seq.st = .stopped))
    (hf : Fresh opRegWrite (oneWord h a.toNat v.toNat) s) (hquiet : s.ctl.quiesced = false)
    (hexact : coarsened s h.port (partOf s d) = false) (hthere : dieThere s h.port d = true) :
    ∃ t, exec (.tokenWrite h a v) s = .next t ∧ Replied t (oneWord h a.toNat v.toNat) 0x201 sSTATE [] := by
  obtain ⟨⟨hans, hwf, hq, hmbx⟩, hretry, hrec, hentry⟩ := hf
  have ha := TokWord.of_entry hu hb hentry
  have hrefusal := ha.refusal_of_not_writable (by simpa using hst) h hentry (by simpa using hquiet) (by simpa using hexact)
    (by simpa using hthere)
  obtain ⟨w, hstep, -, hreply⟩ := packet_refused_replied wideScope ⟨hans, hwf, hq, hmbx, hretry, hrec, hrefusal⟩ (by decide) rfl
  exact ⟨_, (exec_tokenWrite hu hb h v s).trans hstep, hreply⟩

end

/-! ## Packets that read a word of the token block -/

theorem opRegRead_named {s : State} {q : Pkt} (hok : opRegRead.ok s q = true) {a : Nat} (ha : a ∈ regWords q) : regInfo a ≠ none := by
  simp only [opRegRead, Bool.and_eq_true, List.all_eq_true] at hok
  obtain ⟨-, hnamed⟩ := hok
  exact Option.isSome_iff_ne_none.1 (hnamed a ha)

/-- The bits of the sum of a range's numbered bits are those bits. -/
theorem packWord_bits (f : Nat → Bool) (n : Nat) :
    packWord n 1 (fun i => b2n (f i)) < 2 ^ n ∧ ∀ i < n, (packWord n 1 fun i => b2n (f i)).testBit i = f i := by
  induction n with
  | zero => exact ⟨Nat.one_pos, fun i hi => absurd hi (Nat.not_lt_zero i)⟩
  | succ n ih =>
    obtain ⟨hlt, hbits⟩ := ih
    have hsum : packWord (n + 1) 1 (fun i => b2n (f i)) = 2 ^ n * b2n (f n) + packWord n 1 fun i => b2n (f i) := by
      simp only [packWord, List.range_succ, List.foldl_append, List.foldl_cons, List.foldl_nil, Nat.one_mul]
      rw [Nat.mul_comm (2 ^ n), Nat.add_comm]
    rw [hsum]
    refine ⟨?_, fun i hi => ?_⟩
    · have hb : b2n (f n) ≤ 1 := by cases f n <;> decide
      have hmul : 2 ^ n * b2n (f n) ≤ 2 ^ n * 1 := Nat.mul_le_mul_left _ hb
      omega
    · rw [Nat.testBit_two_pow_mul_add _ hlt]
      split
      · exact hbits i ‹_›
      · have hin : i = n := by omega
        subst hin
        rw [Nat.sub_self]
        cases f i <;> rfl

/-- What a word of the token block reads as: its token, or its 32 marks (R99). -/
theorem viewTok_token {s : State} {d : Fin 8} {o : Nat} (ho : o < 0x4000) :
    (w32 (viewTok s d o)).toNat = (nget 0 (s.die d).tokens (o / 4)).toNat := by
  rw [viewTok, if_pos ho, w32_toNat]

theorem viewTok_mark {s : State} {d : Fin 8} {o : Nat} (ho : 0x4000 ≤ o) {i : Nat} (hi : i < 32) :
    (w32 (viewTok s d o)).toNat.testBit i = nget false (s.die d).marks (32 * ((o - 0x4000) / 4) + i) := by
  obtain ⟨hlt, hbits⟩ := packWord_bits (fun i => nget false (s.die d).marks (32 * ((o - 0x4000) / 4) + i)) 32
  rw [viewTok, if_neg (by omega), bitWord, w32, BitVec.toNat_ofNat, Nat.mod_eq_of_lt hlt]
  exact hbits i hi

/-- A read of a word of the token block that passes is answered with the word's current value, whatever state the die is in. -/
theorem tokenRead_passes {q : Pkt} {d : Fin 8} {s : State} (hp : Passes opRegRead q s) (hone : q.at 4 4 = 1)
    (hu : regUnit (q.at 0 4) = d.val) (hb : regBlk (q.at 0 4) = bTOK) (hexact : coarsened s q.from (partOf s d) = false) :
    ∃ t, exec (.regRead q) s = .next t
      ∧ Replied t q 0x200 sOK (natLE 4 (w32 (viewTok s d (regOff (q.at 0 4)))).toNat) := by
  have hwords : regWords q = [q.at 0 4] := by simp [regWords, hone, List.range_succ]
  have ha : TokWord (q.at 0 4) d := by
    obtain ⟨-, -, -, -, -, -, hrefusal⟩ := hp
    exact ⟨hu, hb, opRegRead_named (Op.ok_of_entry (Op.refusal_eq_none hrefusal).1) (by simp [hwords])⟩
  have hview : viewTok (arrive 0x200 q s) d (regOff (q.at 0 4)) = viewTok s d (regOff (q.at 0 4)) := by simp [viewTok]
  have hread : readBy q.from (q.at 0 4) { s := arrive 0x200 q s }
      = (w32 (viewTok (arrive 0x200 q s) d (regOff (q.at 0 4))), { s := arrive 0x200 q s }) := ha.readBy_eq (by simpa using hexact)
  have hact : opRegRead.act q { s := arrive 0x200 q s }
      = (some (sOK, natLE 4 (w32 (viewTok s d (regOff (q.at 0 4)))).toNat), { s := arrive 0x200 q s }) := by
    simp only [opRegRead, hwords, List.mapM_cons, List.mapM_nil, W.bind_apply, hread, hview, W.pure_apply, bytesOf, List.flatMap_cons,
      List.flatMap_nil, List.append_nil]
  obtain ⟨w, hstep, -, hreply⟩ := packet_answered readScope hp hact
  exact ⟨_, hstep, hreply⟩

/-- Settles O20: a token write is the die's `putTok` where it passes, which is in Loaded and Stopped only, a refusal with STATE elsewhere;
a read answers `viewTok`; both maps are empty at reset. -/
theorem tokenRegisters : Obligations.TokenRegisters := by
  unfold Obligations.TokenRegisters
  refine ⟨?written, ?states, ?kept, ?refused, ?read, ?reset⟩
  case written =>
    intro h a v d s hu hb hp
    obtain ⟨t, hstep, hreply, hdies, hframe⟩ := tokenWrite_passes hu hb hp
    obtain ⟨ha, -⟩ := writable_of_passes hu hb hp
    have hdie : t.die d = (s.die d).putTok (regOff a.toNat) v.toNat :=
      (congrArg (·[d]) hdies).trans (State.onDie_die s d _)
    refine ⟨t, hstep, hreply, ?_, ?_, ?_, fun e he => (congrArg (·[e]) hdies).trans (State.onDie_other s _ he.symm), hframe⟩
    · rw [hdie]
      exact Die.putTok_tokens ha.off_aligned v (s.die d)
    · rw [hdie]
      exact Die.putTok_marks _ _ _
    · rw [hdie]
      exact Die.putTok_frame _ _ _
  case states =>
    exact fun h a v d s hu hb hp => (writable_of_passes hu hb hp).2
  case kept =>
    exact fun h a v d s hu hb hl hs => tokenWrite_dies_of_not_writable hu hb (not_or.2 ⟨hl, hs⟩)
  case refused =>
    exact fun h a v d s hu hb hl hs hf hquiet hexact hthere => tokenWrite_refused hu hb (not_or.2 ⟨hl, hs⟩) hf hquiet hexact hthere
  case read =>
    intro q d s hp hone hu hb hexact
    obtain ⟨t, hstep, hreply⟩ := tokenRead_passes hp hone hu hb hexact
    exact ⟨t, hstep, _, hreply, viewTok_token, fun ho i hi => viewTok_mark ho hi⟩
  case reset =>
    intro d n
    have hd : State.reset.die d = {} := by simp [State.reset, State.die]
    rw [hd]
    exact ⟨rfl, rfl⟩

end Sys2Proof.Machine
end

section
/-! Proof of O9: a packet row's step and scope, packets that bring nothing but a reply, and CLAIM's grants (R402). -/

namespace Sys2Proof.Machine

variable {γ : Type}

/-! ## What a reply leaves of the control plane -/

/-- Sending a reply touches the mailbox's reply buffer and its interrupts alone of the control plane. -/
theorem keeps_ctl_sendReply {g : Ctl → γ} (hg : ∀ (c : Ctl) rsp n, g { c with rsp, mbxIrqs := n } = g c) (m : Fin 5) (r : Reply) :
    W.Keeps (fun s => g s.ctl) (sendReply m r) := by
  have hbump : ∀ a n, W.Keeps (fun s => g s.ctl) (bump a n) := fun a n => W.keeps_modS fun s => congrArg g (rbump_ctl s a n)
  refine W.keeps_bind (hbump _ _) fun _ => W.keeps_ite (W.keeps_bind (hbump _ _) fun _ => ?_) ?_
  all_goals
    exact W.keeps_ite (W.keeps_bind (W.keeps_modS fun s => hg s.ctl _ _) fun _ => W.keeps_bind (W.keeps_modS fun _ => rfl) fun _ =>
      W.keeps_modS fun s => hg s.ctl _ _) (W.keeps_pure _ ())

theorem keeps_leaseLeft_reply (code : Nat) (q : Pkt) (a : Ans) : W.Keeps (·.ctl.leaseLeft) (reply code q a) := by
  refine W.keeps_bind (W.keeps_modS fun _ => rfl) fun _ => W.keeps_bind (keeps_ctl_sendReply (fun _ _ _ => rfl) _ _) fun _ => ?_
  exact W.keeps_ite (W.keeps_bind (W.keeps_modS fun s => congrArg Ctl.leaseLeft (rbump_ctl s _ _)) fun _ => W.keeps_modS fun _ => rfl)
    (W.keeps_pure _ ())

/-- A packet that arrives touches the mailbox's request buffer alone of the control plane (R414). -/
theorem arrive_ctl (code : Nat) (q : Pkt) (s : State) :
    (arrive code q s).ctl = { s.ctl with req := (arrive code q s).ctl.req } := by
  unfold arrive
  split <;> rfl
@[simp] theorem arrive_leaseLeft (code : Nat) (q : Pkt) (s : State) : (arrive code q s).ctl.leaseLeft = s.ctl.leaseLeft := by rw [arrive_ctl]
@[simp] theorem arrive_leaseId (code : Nat) (q : Pkt) (s : State) : (arrive code q s).ctl.leaseId = s.ctl.leaseId := by rw [arrive_ctl]
@[simp] theorem arrive_nextLease (code : Nat) (q : Pkt) (s : State) : (arrive code q s).ctl.nextLease = s.ctl.nextLease := by rw [arrive_ctl]
@[simp] theorem arrive_ownerOf (code : Nat) (q : Pkt) (s : State) : ownerOf (arrive code q s).ctl = ownerOf s.ctl := by simp [ownerOf]
@[simp] theorem arrive_mayClaim (code : Nat) (q : Pkt) (s : State) (m : Fin 5) : mayClaim (arrive code q s).ctl m = mayClaim s.ctl m := by
  simp [mayClaim]

theorem MailOnly.leaseId {w w' : Work} (h : MailOnly w w') : w'.s.ctl.leaseId = w.s.ctl.leaseId := by rw [h.state]
theorem MailOnly.nextLease {w w' : Work} (h : MailOnly w w') : w'.s.ctl.nextLease = w.s.ctl.nextLease := by rw [h.state]
theorem MailOnly.actions {w w' : Work} (h : MailOnly w w') : w'.s.ctl.actions = w.s.ctl.actions := by rw [h.state]
theorem MailOnly.accepted {w w' : Work} (h : MailOnly w w') : w'.s.ctl.accepted = w.s.ctl.accepted := by rw [h.state]

/-- What the mailbox's traffic leaves as it is, is what a packet leaves that brings its reply alone. -/
theorem MailOnly.replyFrame {s t : State} (h : MailOnly { s } { s := t }) : ReplyFrame s t := by
  have ht : t = _ := h.state
  refine ⟨?_, h.sec, ?_, ?_, ?_, ?_, ?_, ?_, h.lease, h.leaseId, h.winPkt, h.regs⟩
  case refine_1 => exact ⟨h.dies, ht ▸ rfl, ht ▸ rfl, ht ▸ rfl, ht ▸ rfl, ht ▸ rfl, ht ▸ rfl, ht ▸ rfl⟩
  case refine_2 => exact ⟨fun _ => ht ▸ rfl, fun _ => ht ▸ rfl⟩
  all_goals exact ht ▸ rfl

/-! ## A packet row's step -/

/-- A scope that lets a packet's reply through: the whole control plane, and a change of registers beside it. -/
structure PktScope (scope : State → State → State) : Prop where
  ctl : ∀ s t, (scope s t).ctl = t.ctl
  mail : ∀ s regs ctl, scope s { s with regs, ctl } = { s with regs, ctl }

theorem pwrRow_packet {t : Pw} {q : Pkt} (h : pwrTarget q.payload = t) (s : State) :
    pwrRow t q s = W.within wideScope s (packet opPwrSet q) :=
  congrArg (W.within wideScope s) (if_neg fun hn => hn.2.2 h)
theorem portSetRow_packet {n : Nat} {q : Pkt} (h : q.at 4 4 = n) (s : State) :
    portSetRow n q s = W.within wideScope s (packet opPortSet q) :=
  congrArg (W.within wideScope s) (if_neg fun hn => hn.2.2 h)
theorem selftestRow_packet {n : Nat} {q : Pkt} (h : q.at 0 4 = n) (s : State) :
    selftestRow n q s = W.within readScope s (packet opSelftest q) :=
  congrArg (W.within readScope s) (if_neg fun hn => hn.2.2.2 h)
theorem lifecycleRow_packet {n other : Nat} {q : Pkt} (h : q.at 0 1 = n) (s : State) :
    lifecycleRow n other q s = W.within readScope s (packet opSecLifecycle q) :=
  congrArg (W.within readScope s) (if_neg fun hn => hn.2.2 (hn.2.1.symm.trans h))

theorem PktScope.read : PktScope readScope := ⟨fun _ _ => rfl, fun _ _ _ => rfl⟩
theorem PktScope.wide : PktScope wideScope := ⟨fun _ _ => rfl, fun _ _ _ => rfl⟩

/-- A packet row's step is its packet's work, in a scope that lets the reply through. -/
theorem exec_packetRow {c : Instr} {op : Op} {q : Pkt} (h : packetRow c = some (op, q)) :
    ∃ scope, PktScope scope ∧ ∀ s, exec c s = W.within scope s (packet op q) := by
  cases c with
  | pwrSetRun p | pwrSetIdle p | pwrSetNap p | pwrSetDeep p | pwrSetOff p =>
    simp only [packetRow, Option.ite_none_right_eq_some, Option.some.injEq, Prod.mk.injEq] at h
    obtain ⟨ht, rfl, rfl⟩ := h
    exact ⟨_, .wide, pwrRow_packet ht⟩
  | portSetDisable p | portSetEnable p | portSetTrain p =>
    simp only [packetRow, Option.ite_none_right_eq_some, Option.some.injEq, Prod.mk.injEq] at h
    obtain ⟨hn, rfl, rfl⟩ := h
    exact ⟨_, .wide, portSetRow_packet hn⟩
  | selftestStoreMarch p | selftestCellarArray p | selftestEngineKnownAnswer p | selftestOnPackageLinks p | selftestPortTraffic p
  | selftestCryptoKnownAnswer p =>
    simp only [packetRow, Option.ite_none_right_eq_some, Option.some.injEq, Prod.mk.injEq] at h
    obtain ⟨hn, rfl, rfl⟩ := h
    exact ⟨_, .read, selftestRow_packet hn⟩
  | secLifecycleSealed p | secLifecycleRetired p =>
    simp only [packetRow, Option.ite_none_right_eq_some, Option.some.injEq, Prod.mk.injEq] at h
    obtain ⟨hn, rfl, rfl⟩ := h
    exact ⟨_, .read, lifecycleRow_packet hn⟩
  | _ =>
    simp only [packetRow, reduceCtorEq, Option.some.injEq, Prod.mk.injEq] at h <;>
    · obtain ⟨rfl, rfl⟩ := h
      refine ⟨_, ?_, fun _ => rfl⟩
      exact ⟨fun _ _ => rfl, fun _ _ _ => rfl⟩

/-- A packet row's step leaves the control plane as its packet's work does: no event touches it. -/
theorem exec_packetRow_ctl {c : Instr} {op : Op} {q : Pkt} (h : packetRow c = some (op, q)) (s : State) :
    ∃ t, exec c s = .next t ∧ t.ctl = (packet op q { s }).2.s.ctl := by
  obtain ⟨scope, hscope, hexec⟩ := exec_packetRow h
  exact ⟨_, (hexec s).trans (W.within_next _ _ _), (hscope.ctl _ _).trans (keeps_flushEvents passive_ctl _)⟩

/-- A packet whose work is the mailbox's traffic alone: its step leaves what its work leaves. -/
theorem exec_packetRow_of_mailOnly {c : Instr} {op : Op} {q : Pkt} {s : State} (h : packetRow c = some (op, q))
    (hmail : MailOnly { s } (packet op q { s }).2) : exec c s = .next (packet op q { s }).2.s := by
  obtain ⟨scope, hscope, hexec⟩ := exec_packetRow h
  have hstate := hmail.state
  rw [hexec, W.within_of_quiet hmail.log hmail.evs, hstate]
  exact congrArg _ (hscope.mail s _ _)

/-! ## Packets that bring their reply alone -/

/-- A packet whose work is a reply other than AUTH brings that reply and nothing else, and leaves the lease's time as it is. -/
theorem exec_reply_only {c : Instr} {op : Op} {q : Pkt} {s : State} {st : Byte} {pl : List Byte} (h : packetRow c = some (op, q))
    (hauth : st ≠ sAUTH) (hrun : packet op q { s } = reply op.code q (st, pl) { s := arrive op.code q s }) :
    ∃ t, exec c s = .next t ∧ MailOnly { s } { s := t } ∧ t.ctl.leaseLeft = s.ctl.leaseLeft ∧ Replied t q op.code st pl := by
  have hmail : MailOnly { s } (packet op q { s }).2 := by
    rw [hrun]
    exact (mailOnly_arrive op.code q { s }).trans (mails_reply hauth _ _ _ _)
  refine ⟨_, exec_packetRow_of_mailOnly h hmail, ⟨hmail.state, hmail.regs, rfl, rfl⟩, ?_, ?_⟩
  · rw [hrun]
    exact (keeps_leaseLeft_reply _ _ _ _).trans (arrive_leaseLeft _ _ _)
  · rw [hrun]
    exact reply_replied hauth _ _ _ _

/-- What the first steps of R395 refuse is the packet's refusal. -/
theorem Op.refusal_of_entry {op : Op} {s : State} {q : Pkt} {a : Ans} (h : op.entry s q = some a) : op.refusal s q = some a := by
  simp [Op.refusal, h]

/-- A packet that the first steps of R395 refuse, with another status than AUTH, brings its reply alone, whatever its opcode. -/
theorem exec_refused_at_entry {c : Instr} {op : Op} {q : Pkt} {s : State} {st : Byte} {pl : List Byte} (h : packetRow c = some (op, q))
    (htaken : Taken q s) (hretry : q.hdr.flags.toNat.testBit 2 = false) (hrec : s.sec.recovery = false)
    (hentry : op.entry (arrive op.code q s) q = some (st, pl)) (hauth : st ≠ sAUTH) :
    ∃ t, exec c s = .next t ∧ MailOnly { s } { s := t } ∧ t.ctl.leaseLeft = s.ctl.leaseLeft ∧ Replied t q op.code st pl := by
  obtain ⟨hans, hwf, hq, hmbx⟩ := htaken
  refine exec_reply_only h hauth ?_
  rw [packet_refused ⟨hans, hwf, hq, hmbx, hretry, hrec, Op.refusal_of_entry hentry⟩, hentry]
  rfl

/-- A packet in due form that needs the lease, and whose sender does not hold it under the ID it carries, is refused with OWNER (R395). -/
theorem Op.entry_owner {op : Op} {s : State} {q : Pkt} (hflags : q.hdr.flags = 0) (hversion : q.hdr.version = 1) (hstatus : q.hdr.status = 0)
    (hresv : q.hdr.resv = 0) (hpart : q.hdr.part.toNat ≤ 7 ∨ q.hdr.part = 0xFF) (hok : op.ok s q = true)
    (hmaster : q.hdr.master.toNat = q.from.val) (hlease : op.lease = true) (hfree : op.free s q = false) (hrec : s.sec.recovery = false)
    (hnot : ownerOf s.ctl ≠ some q.from ∨ q.hdr.lease ≠ s.ctl.leaseId) : op.entry s q = some (sOWNER, []) := by
  have howner : (ownerOf s.ctl == some q.hdr.port && q.hdr.lease == s.ctl.leaseId) = false := by
    rw [Bool.and_eq_false_iff]
    exact hnot.imp beq_eq_false_iff_ne.2 beq_eq_false_iff_ne.2
  have hport : q.hdr.master.toNat = q.hdr.port.val := hmaster
  rcases hpart.imp_left Nat.not_lt.2 with hp | hp <;>
    simp [Op.entry, hflags, hversion, hstatus, hresv, hp, hok, hport, hlease, hrec, howner, hfree]

/-! ## CLAIM (R402) -/

/-- A master may claim a lease that is FREE, offered to it, or its own. -/
theorem mayClaim_iff (c : Ctl) (m : Fin 5) :
    mayClaim c m = true ↔ c.lease = .free ∨ (∃ o, c.lease = .pending o m) ∨ ownerOf c = some m := by
  cases hl : c.lease with
  | free => simp [mayClaim, hl]
  | owned o => simp [mayClaim, ownerOf, hl]
  | pending o t => simp [mayClaim, ownerOf, hl, or_comm]

/-- What CLAIM's own check says is all that refuses it after the first steps of R395. -/
theorem opClaim_refusal {s : State} {q : Pkt} (hentry : opClaim.entry s q = none) : opClaim.refusal s q = opClaim.rest s q := by
  have hquiet : (s.ctl.quiesced && opClaim.lease && !wakesAll opClaim.code q) = false := by simp [opClaim]
  have hkey : refuseIf (keyOps.contains opClaim.code && acting s keyActions) sBUSY = none := by simp [opClaim, keyOps, refuseIf]
  simp only [Op.refusal, hentry, hquiet, hkey, Bool.false_eq_true, if_false]
  cases opClaim.rest s q <;> rfl

/-- A CLAIM that a master may make passes. -/
theorem claim_passes {q : Pkt} {s : State} (h : Fresh opClaim q s) (hmay : mayClaim s.ctl q.from = true) : Passes opClaim q s := by
  obtain ⟨⟨hans, hwf, hq, hmbx⟩, hretry, hrec, hentry⟩ := h
  refine ⟨hans, hwf, hq, hmbx, hretry, fun hr => absurd hr (by simp [hrec]), ?_⟩
  rw [opClaim_refusal hentry]
  exact if_pos ((arrive_mayClaim _ _ _ _).trans hmay)

/-- The owner's own CLAIM restarts its lease. -/
theorem opClaim_act_owner {q : Pkt} {w : Work} (h : ownerOf w.s.ctl = some q.from) :
    opClaim.act q w = (some (sOK, natLE 4 w.s.ctl.leaseId.toNat ++ natLE 4 2000), (restartLease w).2) := by
  simp [opClaim, h, restartLease]

/-- The control plane once a master has been granted the lease: it owns it under the next ID, for its full length. -/
def Ctl.granted (c : Ctl) (m : Fin 5) : Ctl :=
  { c with lease := .owned m, leaseId := c.nextLease, nextLease := satAdd c.nextLease 1, leaseLeft := leaseCycles }

@[simp] theorem raise_state (area code : Nat) (st : Byte) (wh : Nat) (detail : List Byte) (w : Work) :
    (raise area code st wh detail w).2.s = w.s := rfl

/-- The CLAIM of a new owner: the lease is its own, and the reply carries the new ID. -/
theorem opClaim_act_new {q : Pkt} {w : Work} (h : ownerOf w.s.ctl ≠ some q.from) :
    (opClaim.act q w).1 = some (sOK, natLE 4 w.s.ctl.nextLease.toNat ++ natLE 4 2000)
      ∧ (opClaim.act q w).2.s.ctl = w.s.ctl.granted q.from := by
  simp [opClaim, h, restartLease, Ctl.granted]

/-- A lease that has its full length keeps it as an answer is settled. -/
theorem settle_leaseLeft {code : Nat} {q : Pkt} {st : Byte} {w : Work} (hst : st ≠ sACCEPTED) (h : w.s.ctl.leaseLeft = leaseCycles) :
    (settle code q st w).2.s.ctl.leaseLeft = leaseCycles := by
  simp only [settle, W.getS_bind, if_neg hst]
  split
  · rfl
  · exact h

/-- What a packet's answer OK leaves of the control plane, where the lease has its full length: all but the mailbox. -/
theorem settle_reply_ok (code : Nat) (q : Pkt) (pl : List Byte) {w : Work} (hleft : w.s.ctl.leaseLeft = leaseCycles) :
    let w' := (reply code q (sOK, pl) (settle code q sOK w).2).2
    MailOnly w w' ∧ w'.s.ctl.leaseLeft = leaseCycles ∧ Replied w'.s q code sOK pl := by
  have hauth : sOK ≠ sAUTH := by decide
  have hacc : sOK ≠ sACCEPTED := by decide
  refine ⟨(mails_settle hacc code q w).trans (mails_reply hauth code q pl _), ?_, reply_replied hauth code q pl _⟩
  exact (keeps_leaseLeft_reply _ _ _ _).trans (settle_leaseLeft hacc hleft)

/-- A CLAIM that is granted leaves of the lease what its action leaves, and its reply carries the answer. -/
theorem claim_granted {q : Pkt} {s : State} {pl : List Byte} {w : Work} (h : Passes opClaim q s)
    (hact : opClaim.act q { s := arrive 1 q s } = (some (sOK, pl), w)) (hleft : w.s.ctl.leaseLeft = leaseCycles) :
    ∃ t, exec (.claim q) s = .next t ∧ t.ctl.leaseLeft = leaseCycles ∧ t.ctl.lease = w.s.ctl.lease ∧ t.ctl.leaseId = w.s.ctl.leaseId
      ∧ t.ctl.nextLease = w.s.ctl.nextLease ∧ Replied t q 1 sOK pl := by
  have hrun : packet opClaim q { s } = reply 1 q (sOK, pl) (settle 1 q sOK w).2 := by
    have hpass := packet_passes h [] []
    simp only [show opClaim.code = 1 from rfl, hact] at hpass
    exact hpass
  obtain ⟨t, hexec, ht⟩ := exec_packetRow_ctl (c := .claim q) rfl s
  obtain ⟨hmail, htime, hreply⟩ := settle_reply_ok 1 q pl hleft
  rw [hrun] at ht
  rw [← ht] at htime
  refine ⟨t, hexec, htime, ?_, ?_, ?_, ?_⟩
  · rw [ht, hmail.lease]
  · rw [ht, hmail.leaseId]
  · rw [ht, hmail.nextLease]
  · rwa [Replied, ht]

/-- The owner's own CLAIM restarts its lease and leaves it as it is otherwise. -/
theorem claim_by_owner {q : Pkt} {s : State} (h : Passes opClaim q s) (howner : ownerOf s.ctl = some q.from) :
    ∃ t, exec (.claim q) s = .next t ∧ t.ctl.leaseLeft = leaseCycles ∧ ownerOf t.ctl = some q.from ∧ t.ctl.leaseId = s.ctl.leaseId
      ∧ t.ctl.nextLease = s.ctl.nextLease ∧ Replied t q 1 sOK (natLE 4 t.ctl.leaseId.toNat ++ natLE 4 2000) := by
  obtain ⟨t, hexec, hleft, hlease, hid, hnext, hreply⟩ := claim_granted h (opClaim_act_owner (by simpa using howner)) rfl
  replace hlease : t.ctl.lease = s.ctl.lease := hlease.trans (arrive_lease _ _ _)
  replace hid : t.ctl.leaseId = s.ctl.leaseId := hid.trans (arrive_leaseId _ _ _)
  refine ⟨t, hexec, hleft, ?_, hid, hnext.trans (arrive_nextLease _ _ _), ?_⟩
  · rwa [ownerOf, hlease]
  · rw [hid]
    simpa using hreply

/-- The CLAIM of another master that may have the lease: it takes it under the next ID. -/
theorem claim_by_other {q : Pkt} {s : State} (h : Passes opClaim q s) (howner : ownerOf s.ctl ≠ some q.from) :
    ∃ t, exec (.claim q) s = .next t ∧ t.ctl.leaseLeft = leaseCycles ∧ t.ctl.lease = .owned q.from ∧ t.ctl.leaseId = s.ctl.nextLease
      ∧ t.ctl.nextLease = satAdd s.ctl.nextLease 1 ∧ Replied t q 1 sOK (natLE 4 t.ctl.leaseId.toNat ++ natLE 4 2000) := by
  obtain ⟨hans, hctl⟩ := opClaim_act_new (q := q) (w := { s := arrive 1 q s }) (by simpa using howner)
  obtain ⟨t, hexec, hleft, hlease, hid, hnext, hreply⟩ := claim_granted h (Prod.ext hans rfl) (by rw [hctl]; rfl)
  rw [hctl] at hlease hid hnext
  replace hid : t.ctl.leaseId = s.ctl.nextLease := hid.trans (arrive_nextLease _ _ _)
  refine ⟨t, hexec, hleft, hlease, hid, ?_, ?_⟩
  · simpa [Ctl.granted] using hnext
  · rw [hid]
    simpa using hreply

/-- A CLAIM that a master may not make receives BUSY with the owner's ID, and brings that reply alone. -/
theorem claim_busy {q : Pkt} {s : State} {o : Fin 5} (h : Fresh opClaim q s) (howner : ownerOf s.ctl = some o)
    (hmay : mayClaim s.ctl q.from = false) :
    ∃ t, exec (.claim q) s = .next t ∧ MailOnly { s } { s := t } ∧ t.ctl.leaseLeft = s.ctl.leaseLeft ∧ Replied t q 1 sBUSY [b8 o.val] := by
  obtain ⟨⟨hans, hwf, hq, hmbx⟩, hretry, hrec, hentry⟩ := h
  have hrefusal : opClaim.refusal (arrive opClaim.code q s) q = some (sBUSY, [b8 o.val]) := by
    rw [opClaim_refusal hentry]
    simp [opClaim, hmay, howner]
  refine exec_reply_only (c := .claim q) rfl (by decide) ?_
  rw [packet_refused ⟨hans, hwf, hq, hmbx, hretry, hrec, hrefusal⟩]
  split <;> rfl

/-- Settles O9: the three granting cases of CLAIM are `mayClaim`; the owner's restarts its lease, another master's takes the next ID; any other
CLAIM, and a packet without the lease it needs, bring their reply alone; the counter stands at 1 at each start. -/
theorem claimGrants : Obligations.ClaimGrants := by
  unfold Obligations.ClaimGrants
  refine ⟨?granted, ?busy, ⟨rfl, ?started⟩, ?owner⟩
  case granted =>
    intro q s hf hmay
    have hp := claim_passes hf ((mayClaim_iff _ _).2 hmay)
    by_cases howner : ownerOf s.ctl = some q.from
    · obtain ⟨t, hexec, hleft, hown, hid, hnext, hreply⟩ := claim_by_owner hp howner
      exact ⟨t, hexec, hleft, by rw [if_pos howner]; exact ⟨hown, hid, hnext⟩, hreply⟩
    · obtain ⟨t, hexec, hleft, hlease, hid, hnext, hreply⟩ := claim_by_other hp howner
      exact ⟨t, hexec, hleft, by rw [if_neg howner]; exact ⟨hlease, hid, hnext⟩, hreply⟩
  case busy =>
    intro q o s hf howner hne hpending
    have hmay : mayClaim s.ctl q.from = false := by
      cases hl : s.ctl.lease with
      | free => simp [ownerOf, hl] at howner
      | owned o' => simp_all [ownerOf, mayClaim]
      | pending o' m => simp_all [ownerOf, mayClaim]
    obtain ⟨t, hexec, hmail, hleft, hreply⟩ := claim_busy hf howner hmay
    exact ⟨t, hexec, hreply, hmail.replyFrame, hleft, hmail.nextLease⟩
  case started =>
    intro s hoff hclosed
    refine ⟨_, rfl, ?_⟩
    simp [hoff, hclosed, cold]
  case owner =>
    intro c op q s hrow htaken hflags hrec hversion hstatus hresv hpart hok hmaster hlease hfree hnot
    have hentry : op.entry (arrive op.code q s) q = some (sOWNER, []) :=
      Op.entry_owner hflags hversion hstatus hresv hpart hok hmaster hlease hfree (by simpa using hrec) (by simpa using hnot)
    obtain ⟨t, hexec, hmail, hleft, hreply⟩ := exec_refused_at_entry hrow htaken (by rw [hflags]; rfl) hrec hentry (by decide)
    exact ⟨t, hexec, hreply, hmail.replyFrame, hleft, hmail.actions⟩

end Sys2Proof.Machine
end

section
/-! What the work of packets leaves of the control plane: ports, epochs, dies, tiers, readings and windows touch nothing of it. -/

namespace Sys2Proof.Machine

variable {α β γ : Type}

/-! ## Composition, more -/

/-- A step taken under a condition, before what follows in either case. -/
theorem W.keeps_when {f : State → γ} {c : Prop} [Decidable c] {p : W PUnit} {k : PUnit → W β} (hp : W.Keeps f p)
    (hk : ∀ x, W.Keeps f (k x)) : W.Keeps f (if c then p >>= k else k ⟨⟩) :=
  W.keeps_ite (W.keeps_bind hp hk) (hk _)

/-- One of two steps taken, before what follows with the answer of either. -/
theorem W.keeps_either {f : State → γ} {c : Prop} [Decidable c] {p p' : W α} {k : α → W β} (hp : W.Keeps f p) (hp' : W.Keeps f p')
    (hk : ∀ x, W.Keeps f (k x)) : W.Keeps f (if c then p >>= k else p' >>= k) :=
  W.keeps_ite (W.keeps_bind hp hk) (W.keeps_bind hp' hk)

theorem W.keeps_foldlM {f : State → γ} {l : List α} {k : β → α → W β} (hk : ∀ b a, W.Keeps f (k b a)) (b : β) :
    W.Keeps f (l.foldlM k b) := by
  induction l generalizing b with
  | nil => exact W.keeps_pure f _
  | cons x r ih => exact W.keeps_bind (hk b x) fun _ => ih _

theorem keeps_getDie {f : State → γ} (d : Fin 8) : W.Keeps f (getD d) := W.keeps_bind (W.keeps_getS f) fun _ => W.keeps_pure f _
theorem keeps_getP {f : State → γ} (p : Fin 32) : W.Keeps f (getP p) := W.keeps_bind (W.keeps_getS f) fun _ => W.keeps_pure f _

section
variable {g : Ctl → γ}

/-- The control plane is a part that memory accesses, events and registers leave alone. -/
theorem passive_of_ctl : Passive (fun s => g s.ctl) := fun _ _ _ _ _ _ _ => rfl

theorem keeps_ctl_modD (d : Fin 8) (h : Die → Die) : W.Keeps (fun s => g s.ctl) (modD d h) := W.keeps_modS fun _ => rfl
theorem keeps_ctl_modSeq (d : Fin 8) (h : Seq → Seq) : W.Keeps (fun s => g s.ctl) (modSeq d h) := keeps_ctl_modD d _
theorem keeps_ctl_modP (p : Fin 32) (h : Port → Port) : W.Keeps (fun s => g s.ctl) (modP p h) := W.keeps_modS fun _ => rfl
theorem keeps_ctl_modC (h : Sec → Sec) : W.Keeps (fun s => g s.ctl) (modC h) := W.keeps_modS fun _ => rfl
theorem keeps_ctl_modPw (h : Pwr → Pwr) : W.Keeps (fun s => g s.ctl) (modPw h) := W.keeps_modS fun _ => rfl
theorem keeps_ctl_failStarted (d : Fin 8) (uid : Nat) (st : Byte) : W.Keeps (fun s => g s.ctl) (failStarted d uid st) :=
  keeps_ctl_modD _ _

/-! ## Frames and ports -/

theorem keeps_ctl_sendNow (p : Fin 32) (h : FHdr) (tile : List Byte) : W.Keeps (fun s => g s.ctl) (sendNow p h tile) := by
  refine W.keeps_bind (W.keeps_getS _) fun s => W.keeps_bind (keeps_ctl_modP _ _) fun _ => W.keeps_bind (W.keeps_modS fun s => ?_) fun _ =>
    W.keeps_bind (keeps_bump passive_of_ctl _ _) fun _ => W.keeps_ite (keeps_bump passive_of_ctl _ _) (W.keeps_pure _ _)
  dsimp only
  split <;> rfl

theorem keeps_ctl_sendFrame (p : Fin 32) (h : FHdr) (tile : List Byte) : W.Keeps (fun s => g s.ctl) (sendFrame p h tile) :=
  W.keeps_bind (W.keeps_getS _) fun _ => W.keeps_ite
    (W.keeps_bind (keeps_ctl_sendNow _ _ _) fun _ => W.keeps_pure _ _) (W.keeps_bind (keeps_ctl_modP _ _) fun _ => W.keeps_pure _ _)

theorem keeps_ctl_portFail (p : Fin 32) (st : Byte) : W.Keeps (fun s => g s.ctl) (portFail p st) :=
  W.keeps_bind (keeps_getP p) fun _ => W.keeps_ite
    (W.keeps_bind (keeps_setField passive_of_ctl _ _ _ _) fun _ => keeps_ctl_modP _ _) (W.keeps_pure _ _)

theorem keeps_ctl_lagNow (p : Fin 32) (ph : PhaseRun) : W.Keeps (fun s => g s.ctl) (lagNow p ph) :=
  W.keeps_bind (keeps_freeVal passive_of_ctl) fun _ => W.keeps_bind (W.keeps_getS _) fun _ => W.keeps_pure _ _

theorem keeps_ctl_noteLag (p : Fin 32) (ph : PhaseRun) : W.Keeps (fun s => g s.ctl) (noteLag p ph) :=
  W.keeps_bind (keeps_ctl_lagNow p ph) fun _ => W.keeps_bind (keeps_getReg _) fun _ =>
    W.keeps_bind (keeps_setReg passive_of_ctl _ _) fun _ => W.keeps_bind (keeps_setReg passive_of_ctl _ _) fun _ => W.keeps_pure _ _

theorem keeps_ctl_noteWaiting (p : Fin 32) (ph : PhaseRun) : W.Keeps (fun s => g s.ctl) (noteWaiting p ph) :=
  W.keeps_bind (W.keeps_getS _) fun _ => W.keeps_bind (keeps_freeVal passive_of_ctl) fun _ => W.keeps_ite
    (W.keeps_bind (keeps_ctl_noteLag p ph) fun _ => W.keeps_pure _ _) (W.keeps_pure _ _)

theorem keeps_ctl_showLanes (p : Fin 32) : W.Keeps (fun s => g s.ctl) (showLanes p) :=
  W.keeps_bind (keeps_getP p) fun _ => W.keeps_forM fun _ => keeps_setField passive_of_ctl _ _ _ _

theorem keeps_ctl_setPort (action : Nat) (p : Fin 32) : W.Keeps (fun s => g s.ctl) (setPort action p) := by
  unfold setPort
  split
  · exact W.keeps_bind (keeps_ctl_modP _ _) fun _ => keeps_ctl_showLanes p
  · exact keeps_ctl_modP _ _
  · exact W.keeps_bind (keeps_ctl_modP _ _) fun _ => keeps_ctl_showLanes p

theorem keeps_ctl_trainPorts (d : Fin 8) : W.Keeps (fun s => g s.ctl) (trainPorts d) :=
  W.keeps_bind (W.keeps_getS _) fun _ => W.keeps_ite (W.keeps_pure _ _)
    (W.keeps_forM fun p => W.keeps_bind (keeps_ctl_modP _ _) fun _ => keeps_ctl_showLanes p)

/-! ## Phases and epochs -/

theorem keeps_ctl_dropPhase (p : Fin 32) (uid : Nat) : W.Keeps (fun s => g s.ctl) (dropPhase p uid) :=
  W.keeps_bind (W.keeps_getS _) fun _ =>
    W.keeps_bind (W.keeps_forM fun ph => W.keeps_ite (keeps_ctl_noteWaiting p ph) (W.keeps_pure _ _)) fun _ =>
    W.keeps_bind (keeps_ctl_modP _ _) fun _ => W.keeps_bind (W.keeps_getS _) fun _ =>
    W.keeps_ite (keeps_setField passive_of_ctl _ _ _ _) (W.keeps_pure _ _)

theorem keeps_ctl_abortSlots (p : Fin 32) (ph : PhaseRun) : W.Keeps (fun s => g s.ctl) (abortSlots p ph) :=
  W.keeps_bind (W.keeps_getS _) fun _ => W.keeps_forM fun _ => W.keeps_ite
    (W.keeps_bind (keeps_ctl_sendFrame _ _ _) fun _ => W.keeps_pure _ _) (W.keeps_pure _ _)

/-- A phase of an epoch that ends on a port. -/
theorem keeps_ctl_endPhase (d : Fin 8) (p : Fin 32) (uid : Nat) (st : Byte) :
    W.Keeps (fun s => g s.ctl) (do failStarted d uid st; dropPhase p uid) :=
  W.keeps_bind (keeps_ctl_failStarted _ _ _) fun _ => keeps_ctl_dropPhase _ _

theorem keeps_ctl_abortPort (d : Fin 8) (x : Nat) (p : Fin 32) : W.Keeps (fun s => g s.ctl) (abortPort d x p) :=
  W.keeps_bind (keeps_getP p) fun _ =>
    W.keeps_bind (W.keeps_forM fun _ => W.keeps_ite (keeps_ctl_modP _ _) (W.keeps_pure _ _)) fun _ =>
    W.keeps_bind (W.keeps_getS _) fun _ =>
    W.keeps_bind (W.keeps_forM fun ph => W.keeps_ite
      (W.keeps_when (keeps_ctl_abortSlots p ph) fun _ => keeps_ctl_endPhase d p ph.uid sEPOCH) (W.keeps_pure _ _)) fun _ =>
    W.keeps_forM fun ph => W.keeps_ite (keeps_ctl_endPhase d p ph.uid sEPOCH) (W.keeps_pure _ _)

theorem keeps_ctl_redFail (d : Fin 8) (epoch : Nat) (st : Byte) : W.Keeps (fun s => g s.ctl) (redFail d epoch st) :=
  W.keeps_bind (keeps_getDie d) fun _ => W.keeps_ite
    (W.keeps_bind (keeps_setField passive_of_ctl _ _ _ _) fun _ => W.keeps_bind (keeps_setField passive_of_ctl _ _ _ _) fun _ =>
      keeps_ctl_modD _ _) (W.keeps_pure _ _)

theorem keeps_ctl_abortEpoch (d : Fin 8) (x origin arrival : Nat) : W.Keeps (fun s => g s.ctl) (abortEpoch d x origin arrival) := by
  refine W.keeps_bind (W.keeps_getS _) fun s => ?_
  dsimp only
  split
  · exact W.keeps_pure _ _
  · exact W.keeps_pure _ _
  · refine W.keeps_bind (keeps_ctl_modD _ _) fun _ => W.keeps_ite
      (W.keeps_bind (W.keeps_forM fun _ => keeps_ctl_modD _ _) fun _ => W.keeps_bind (keeps_ctl_modD _ _) fun _ =>
        W.keeps_bind (W.keeps_forM fun p => keeps_ctl_abortPort d x p) fun _ => W.keeps_bind (keeps_ctl_modD _ _) fun _ => ?_) ?_
    all_goals
      exact W.keeps_bind (W.keeps_forM fun _ => W.keeps_bind (W.keeps_getS _) fun _ => W.keeps_ite
          (W.keeps_bind (keeps_ctl_sendFrame _ _ _) fun _ => W.keeps_pure _ _) (W.keeps_pure _ _)) fun _ =>
        W.keeps_bind (W.keeps_modS fun _ => rfl) fun _ => W.keeps_bind (keeps_ctl_redFail _ _ _) fun _ =>
        W.keeps_bind (keeps_bump passive_of_ctl _ _) fun _ => W.keeps_bind (keeps_setFlags passive_of_ctl _ _) fun _ =>
        keeps_raise _ _ _ _ _

theorem keeps_ctl_abortOpen (d : Fin 8) : W.Keeps (fun s => g s.ctl) (abortOpen d) :=
  W.keeps_bind (keeps_getDie d) fun _ => W.keeps_forM fun _ => keeps_ctl_abortEpoch _ _ _ _

theorem keeps_ctl_endFree (d : Fin 8) (uid : Option Nat) (st : Byte) : W.Keeps (fun s => g s.ctl) (endFree d uid st) :=
  W.keeps_forM fun p => W.keeps_bind (keeps_getP p) fun _ => W.keeps_forM fun ph =>
    W.keeps_ite (keeps_ctl_endPhase d p ph.uid st) (W.keeps_pure _ _)

theorem keeps_ctl_failPhase (d : Fin 8) (uid : Nat) (st : Byte) : W.Keeps (fun s => g s.ctl) (failPhase d uid st) :=
  W.keeps_bind (keeps_ctl_failStarted _ _ _) fun _ => W.keeps_bind (W.keeps_forM fun _ => keeps_ctl_modP _ _) fun _ =>
    keeps_ctl_endFree _ _ _

theorem keeps_ctl_portDown (p : Fin 32) : W.Keeps (fun s => g s.ctl) (portDown p) :=
  W.keeps_bind (keeps_getP p) fun _ => W.keeps_ite (W.keeps_pure _ _) <|
    W.keeps_bind (keeps_ctl_modP _ _) fun _ => W.keeps_bind (keeps_ctl_portFail _ _) fun _ =>
    W.keeps_bind (keeps_setFlags passive_of_ctl _ _) fun _ => W.keeps_bind (keeps_ctl_showLanes p) fun _ =>
    W.keeps_bind (keeps_raise _ _ _ _ _) fun _ => W.keeps_forM fun _ =>
    W.keeps_ite (W.keeps_bind (keeps_setFlags passive_of_ctl _ _) fun _ => W.keeps_bind (keeps_ctl_modD _ _) fun _ =>
      W.keeps_bind (keeps_ctl_failPhase _ _ _) fun _ => keeps_ctl_dropPhase _ _)
      (W.keeps_bind (keeps_ctl_failPhase _ _ _) fun _ => keeps_ctl_dropPhase _ _)

theorem keeps_ctl_darkPorts (d : Fin 8) : W.Keeps (fun s => g s.ctl) (darkPorts d) :=
  W.keeps_forM fun p => W.keeps_bind (keeps_ctl_portDown p) fun _ => keeps_ctl_modP _ _

/-! ## Schedules and images -/

theorem keeps_ctl_stopOne (d : Fin 8) : W.Keeps (fun s => g s.ctl) (stopOne d) :=
  W.keeps_bind (keeps_getDie d) fun _ => W.keeps_ite (keeps_ctl_modSeq _ _)
    (W.keeps_bind (keeps_ctl_modD _ _) fun _ => W.keeps_bind (keeps_ctl_abortOpen d) fun _ => keeps_ctl_endFree _ _ _)

theorem keeps_ctl_dropImage (p : Nat) : W.Keeps (fun s => g s.ctl) (dropImage p) :=
  W.keeps_bind (W.keeps_getS _) fun _ =>
    W.keeps_bind (W.keeps_forM fun _ => W.keeps_bind (keeps_ctl_modD _ _) fun _ => W.keeps_forM fun _ => keeps_ctl_modP _ _) fun _ =>
    W.keeps_dite (fun _ => W.keeps_modS fun _ => rfl) fun _ => W.keeps_pure _ _

theorem keeps_ctl_modImage (p : Nat) (h : Image → Image) : W.Keeps (fun s => g s.ctl) (modImage p h) :=
  W.keeps_dite (fun _ => W.keeps_modS fun _ => rfl) fun _ => W.keeps_pure _ _

/-! ## Keys and measurements -/

theorem keeps_ctl_extendMr (i : Fin 8) (digest : List Byte) : W.Keeps (fun s => g s.ctl) (extendMr i digest) := W.keeps_modS fun _ => rfl
theorem keeps_ctl_setKeys (d : Fin 8) (b : Bool) : W.Keeps (fun s => g s.ctl) (setKeys d b) := W.keeps_modS fun _ => rfl

theorem keeps_ctl_installKeys : W.Keeps (fun s => g s.ctl) installKeys :=
  W.keeps_bind (W.keeps_modS fun _ => rfl) fun _ => W.keeps_bind (W.keeps_getS _) fun _ => W.keeps_modS fun _ => rfl

theorem keeps_ctl_newBoot : W.Keeps (fun s => g s.ctl) newBoot :=
  W.keeps_bind (keeps_freeWide passive_of_ctl) fun _ => W.keeps_bind (W.keeps_modS fun _ => rfl) fun _ => keeps_ctl_installKeys

/-! ## Tiers and their generators -/

theorem keeps_ctl_untrain (t : Tier) : W.Keeps (fun s => g s.ctl) (untrain t) :=
  W.keeps_bind (W.keeps_getS _) fun _ => W.keeps_when (W.keeps_modS fun _ => rfl) fun _ => keeps_setField passive_of_ctl _ _ _ _

theorem keeps_ctl_dropGens (blk n : Nat) : W.Keeps (fun s => g s.ctl) (dropGens blk n) :=
  W.keeps_forM fun _ => keeps_setField passive_of_ctl _ _ _ _

theorem keeps_ctl_fillChannel (ch : Channel) : W.Keeps (fun s => g s.ctl) (fillChannel ch) :=
  W.keeps_bind (keeps_emit passive_of_ctl _) fun _ => W.keeps_bind (W.keeps_getS _) fun _ =>
    W.keeps_forM fun _ => keeps_emit passive_of_ctl _

theorem keeps_ctl_judgeUnitBy (lanes : Option (List Nat)) (d : Fin 8) (a : Nat) : W.Keeps (fun s => g s.ctl) (judgeUnitBy lanes d a) := by
  refine W.keeps_bind (W.keeps_getS _) fun s => ?_
  dsimp only
  refine W.keeps_ite (W.keeps_pure _ _) ?_
  split
  · exact W.keeps_pure _ _
  · exact W.keeps_bind (keeps_freeVal passive_of_ctl) fun _ => W.keeps_bind (keeps_freeWide passive_of_ctl) fun _ =>
      W.keeps_bind (keeps_freeWide passive_of_ctl) fun _ => W.keeps_pure _ _

theorem keeps_ctl_readMany {judge : W Verdict} (hj : W.Keeps (fun s => g s.ctl) judge) (d : Fin 8) (off k n : Nat) :
    W.Keeps (fun s => g s.ctl) (readMany judge d off k n) := by
  induction k generalizing n with
  | zero => exact W.keeps_pure _ _
  | succ k ih =>
    cases n with
    | zero => exact W.keeps_pure _ _
    | succ n =>
      exact W.keeps_bind hj fun v => W.keeps_bind (W.keeps_getS _) fun s =>
        W.keeps_bind (W.keeps_forM fun _ => W.keeps_forM fun _ => keeps_laneHit passive_of_ctl _ _ _) fun _ =>
        W.keeps_bind (ih _) fun _ => W.keeps_pure _ _

theorem keeps_ctl_countSame (mask : Nat) (place : Nat → Nat → Nat) (i : Nat) (l : List (Verdict × Nat)) (c : GenCount) :
    W.Keeps (fun s => g s.ctl) (countSame mask place i l c) := by
  induction l generalizing i c with
  | nil => exact W.keeps_pure _ _
  | cons x r ih =>
    exact W.keeps_bind (keeps_freeVal passive_of_ctl) fun _ => W.keeps_bind (keeps_freeVal passive_of_ctl) fun _ => ih _ _

theorem keeps_ctl_countUnit (lanes : Option (List Nat)) (d : Fin 8) (a n : Nat) (c : GenCount) :
    W.Keeps (fun s => g s.ctl) (countUnit lanes d a n c) :=
  W.keeps_bind (keeps_ctl_readMany (keeps_ctl_judgeUnitBy lanes d a) _ _ _ _) fun _ => W.keeps_pure _ _

theorem keeps_ctl_countRound (lanes : Option (List Nat)) (d : Fin 8) (times : Nat → Nat) (l : List (Nat × Nat)) (c : GenCount) :
    W.Keeps (fun s => g s.ctl) (countRound lanes d times l c) := by
  induction l generalizing c with
  | nil => exact W.keeps_pure _ _
  | cons x r ih => exact W.keeps_bind (keeps_ctl_countUnit _ _ _ _ _) fun _ => ih _

theorem keeps_ctl_countUpsets (lanes : Option (List Nat)) (d : Fin 8) (reads lo hi : Nat) (sequential : Bool) (units : List (Nat × Nat)) :
    W.Keeps (fun s => g s.ctl) (countUpsets lanes d reads lo hi sequential units) :=
  W.keeps_ite (W.keeps_pure _ _) <| W.keeps_ite
    (W.keeps_bind (W.keeps_foldlM (fun _ _ => keeps_ctl_countRound _ _ _ _ _) _) fun _ =>
      W.keeps_bind (keeps_ctl_countRound _ _ _ _ _) fun _ => keeps_ctl_countRound _ _ _ _ _)
    (W.keeps_foldlM (fun _ _ => W.keeps_bind (keeps_freeVal passive_of_ctl) fun _ => keeps_ctl_countUnit _ _ _ _ _) _)

theorem keeps_ctl_genCount (ch : Channel) (r : GenRun) (n : Nat) : W.Keeps (fun s => g s.ctl) (genCount ch r n) := by
  refine W.keeps_bind (W.keeps_getS _) fun s => W.keeps_ite (keeps_ctl_countUpsets _ _ _ _ _ _ _) ?_
  cases ch with
  | cellar k pc =>
    refine W.keeps_ite (W.keeps_pure _ _) (W.keeps_bind (keeps_ctl_readMany ?_ _ _ _ _) fun _ => keeps_ctl_countSame _ _ _ _ _)
    exact W.keeps_bind (keeps_getReg _) fun _ => W.keeps_pure _ _
  | loft h c => exact W.keeps_pure _ _
  | attic h c => exact W.keeps_pure _ _

theorem keeps_ctl_genDone (ch : Channel) : W.Keeps (fun s => g s.ctl) (genDone ch) := by
  have hset : ∀ a v, W.Keeps (fun s => g s.ctl) (setReg a v) := keeps_setReg passive_of_ctl
  refine W.keeps_bind (W.keeps_getS _) fun _ => W.keeps_bind (W.keeps_getS _) fun _ => W.keeps_bind (keeps_getReg _) fun _ =>
    W.keeps_ite (W.keeps_pure _ _) <| W.keeps_bind (keeps_freeVal passive_of_ctl) fun _ => W.keeps_bind (keeps_ctl_genCount _ _ _) fun _ =>
    W.keeps_bind (hset _ _) fun _ => W.keeps_bind (hset _ _) fun _ => W.keeps_bind (hset _ _) fun _ =>
    W.keeps_bind (hset _ _) fun _ => W.keeps_bind (hset _ _) fun _ => W.keeps_bind (keeps_freeVal passive_of_ctl) fun _ =>
    W.keeps_bind (hset _ _) fun _ => ?_
  cases ch with
  | cellar k pc =>
    refine W.keeps_bind (hset _ _) fun _ => W.keeps_bind (hset _ _) fun _ => W.keeps_when (keeps_ctl_fillChannel _) fun _ => ?_
    exact W.keeps_bind (keeps_setField passive_of_ctl _ _ _ _) fun _ => W.keeps_modS fun _ => rfl
  | loft h c | attic h c =>
    exact W.keeps_when (keeps_ctl_fillChannel _) fun _ =>
      W.keeps_bind (keeps_setField passive_of_ctl _ _ _ _) fun _ => W.keeps_modS fun _ => rfl

/-! ## Power states -/

theorem keeps_ctl_freeSummaries : W.Keeps (fun s => g s.ctl) freeSummaries :=
  W.keeps_bind (W.keeps_getS _) fun _ => W.keeps_bind (W.keeps_modS fun _ => rfl) fun _ => W.keeps_pure _ _

theorem keeps_ctl_loseSram (d : Fin 8) : W.Keeps (fun s => g s.ctl) (loseSram d) := by
  refine W.keeps_bind (keeps_emit passive_of_ctl _) fun _ => W.keeps_bind (keeps_setField passive_of_ctl _ _ _ _) fun _ =>
    W.keeps_bind (keeps_ctl_modD _ _) fun _ => W.keeps_bind (W.keeps_getS _) fun _ =>
    W.keeps_either keeps_ctl_freeSummaries (W.keeps_pure _ _) fun _ => keeps_ctl_modD _ _

theorem keeps_ctl_enterDeep (d : Fin 8) : W.Keeps (fun s => g s.ctl) (enterDeep d) :=
  W.keeps_bind (keeps_ctl_modD _ _) fun _ => W.keeps_bind (keeps_ctl_darkPorts d) fun _ => W.keeps_bind (keeps_ctl_loseSram d) fun _ =>
    W.keeps_bind (W.keeps_getS _) fun _ => W.keeps_when (keeps_ctl_setKeys _ _) fun _ => keeps_ctl_modD _ _

theorem keeps_ctl_railChanges (d : Fin 8) : W.Keeps (fun s => g s.ctl) (railChanges d) := W.keeps_modS fun _ => rfl
theorem keeps_ctl_clkChanges (d : Fin 8) : W.Keeps (fun s => g s.ctl) (clkChanges d) := W.keeps_modS fun _ => rfl

theorem keeps_ctl_setRail (d : Fin 8) (k : Nat) : W.Keeps (fun s => g s.ctl) (setRail d k) :=
  W.keeps_bind (keeps_ctl_railChanges d) fun _ => W.keeps_bind (keeps_ctl_modPw _) fun _ => keeps_setReg passive_of_ctl _ _

theorem keeps_ctl_railUp (d : Fin 8) : W.Keeps (fun s => g s.ctl) (railUp d) :=
  W.keeps_bind (W.keeps_getS _) fun _ => W.keeps_bind (keeps_freeVal passive_of_ctl) fun _ => keeps_ctl_setRail _ _

theorem keeps_ctl_inRun (d : Fin 8) : W.Keeps (fun s => g s.ctl) (inRun d) :=
  W.keeps_bind (keeps_ctl_clkChanges d) fun _ => W.keeps_bind (keeps_ctl_modD _ _) fun _ => W.keeps_bind (keeps_ctl_railUp d) fun _ =>
    keeps_ctl_trainPorts d

theorem keeps_ctl_wakeDeep (d : Fin 8) : W.Keeps (fun s => g s.ctl) (wakeDeep d) :=
  W.keeps_bind (keeps_emit passive_of_ctl _) fun _ => W.keeps_bind (keeps_setField passive_of_ctl _ _ _ _) fun _ =>
    W.keeps_bind (keeps_ctl_setKeys _ _) fun _ => W.keeps_bind (W.keeps_getS _) fun _ => W.keeps_bind (keeps_ctl_modD _ _) fun _ =>
    keeps_ctl_inRun d

theorem keeps_ctl_enteredOff : W.Keeps (fun s => g s.ctl) enteredOff :=
  W.keeps_bind (W.keeps_getS _) fun _ => W.keeps_bind (keeps_ctl_modC _) fun _ => W.keeps_ite (keeps_ctl_modPw _) (W.keeps_pure _ _)

theorem keeps_ctl_settleOff (was : Bool) : W.Keeps (fun s => g s.ctl) (settleOff was) :=
  W.keeps_bind (W.keeps_getS _) fun _ => W.keeps_ite keeps_ctl_enteredOff (W.keeps_pure _ _)

theorem keeps_ctl_oweReset : W.Keeps (fun s => g s.ctl) oweReset :=
  W.keeps_bind (W.keeps_getS _) fun _ => W.keeps_ite
    (W.keeps_bind (keeps_ctl_modPw _) fun _ => keeps_raise _ _ _ _ _) (W.keeps_pure _ _)

theorem keeps_ctl_pwrLater (b : List Byte) : W.Keeps (fun s => g s.ctl) (pwrLater b) :=
  W.keeps_bind (W.keeps_getS _) fun _ => W.keeps_when keeps_ctl_newBoot fun _ =>
    W.keeps_bind (W.keeps_forM fun _ => W.keeps_bind (W.keeps_getS _) fun _ => W.keeps_ite (keeps_ctl_setKeys _ _) (W.keeps_pure _ _)) fun _ =>
    W.keeps_bind (W.keeps_forM fun _ => keeps_ctl_modD _ _) fun _ => W.keeps_forM fun _ => keeps_ctl_modPw _

/-! ## Readings -/

theorem keeps_ctl_readReg (a : Nat) : W.Keeps (fun s => g s.ctl) (readReg a) := by
  refine W.keeps_bind (W.keeps_getS _) fun s => ?_
  split
  · exact W.keeps_bind (keeps_freeVal passive_of_ctl) fun _ => W.keeps_pure _ _
  · refine W.keeps_ite (W.keeps_bind (keeps_freeVal passive_of_ctl) fun _ => W.keeps_pure _ _) ?_
    split
    · exact W.keeps_bind (keeps_ctl_noteWaiting _ _) fun _ => keeps_getReg _
    · split <;> exact W.keeps_pure _ _

theorem keeps_ctl_coarseTemp (bits : Nat) : W.Keeps (fun s => g s.ctl) (coarseTemp bits) :=
  W.keeps_bind (keeps_freeVal passive_of_ctl) fun _ => W.keeps_pure _ _

theorem keeps_ctl_readAs (m : Fin 5) (a : Nat) : W.Keeps (fun s => g s.ctl) (readAs m a) := by
  refine W.keeps_bind (W.keeps_getS _) fun s => ?_
  split
  · exact W.keeps_ite (W.keeps_pure _ _) (W.keeps_bind (keeps_ctl_coarseTemp _) fun _ => W.keeps_pure _ _)
  · exact W.keeps_bind (keeps_ctl_readReg a) fun _ =>
      W.keeps_dite (fun _ => W.keeps_ite (W.keeps_pure _ _) (W.keeps_pure _ _)) fun _ => W.keeps_pure _ _

theorem keeps_ctl_readBy (m : Fin 5) (a : Nat) : W.Keeps (fun s => g s.ctl) (readBy m a) := by
  refine W.keeps_bind (keeps_ctl_readAs m a) fun _ => W.keeps_bind (W.keeps_getS _) fun _ => ?_
  split
  · exact W.keeps_when (keeps_setReg passive_of_ctl _ _) fun _ => W.keeps_pure _ _
  · exact W.keeps_pure _ _

theorem keeps_ctl_measured (on : Bool) (n k : Nat) : W.Keeps (fun s => g s.ctl) (measured on n k) :=
  W.keeps_ite (W.keeps_pure _ _) (W.keeps_bind (keeps_freeVal passive_of_ctl) fun _ => W.keeps_pure _ _)

theorem keeps_ctl_tempReading (on coarse : Bool) (bits : Nat) : W.Keeps (fun s => g s.ctl) (tempReading on coarse bits) :=
  W.keeps_ite (W.keeps_pure _ _) <| W.keeps_ite (keeps_ctl_coarseTemp _) (W.keeps_bind (keeps_freeVal passive_of_ctl) fun _ => W.keeps_pure _ _)

theorem keeps_ctl_dieReading (m : Fin 5) (d : Fin 8) : W.Keeps (fun s => g s.ctl) (dieReading m d) := by
  have htemp : ∀ on coarse bits, W.Keeps (fun s => g s.ctl) (tempReading on coarse bits) := keeps_ctl_tempReading
  exact W.keeps_bind (W.keeps_getS _) fun s => W.keeps_either (W.keeps_pure _ _) (keeps_ctl_measured _ _ _) fun freq =>
    W.keeps_either (W.keeps_pure _ _) (keeps_ctl_measured _ _ _) fun volt =>
    W.keeps_bind (htemp _ _ _) fun _ => W.keeps_bind (htemp _ _ _) fun _ => W.keeps_bind (htemp _ _ _) fun _ =>
    W.keeps_bind (keeps_ctl_measured _ _ _) fun _ => W.keeps_pure _ _

/-! ## Memory and windows -/

theorem keeps_ctl_laneAccess (d : Fin 8) (a : Nat) : W.Keeps (fun s => g s.ctl) (laneAccess d a) :=
  W.keeps_ite (keeps_timed passive_of_ctl _) (W.keeps_pure _ _)

theorem keeps_ctl_sendWindow (h : FHdr) (tile : List Byte) : W.Keeps (fun s => g s.ctl) (sendWindow h tile) := by
  refine W.keeps_bind (W.keeps_getS _) fun s => ?_
  split
  · exact W.keeps_pure _ _
  · exact W.keeps_ite (W.keeps_bind (keeps_ctl_sendFrame _ _ _) fun _ => W.keeps_pure _ _) (W.keeps_pure _ _)

theorem keeps_ctl_serveWindow (req : Nat) (dst : Fin 8) (a : Nat) (check : Word) (tile : List Byte) :
    W.Keeps (fun s => g s.ctl) (serveWindow req dst a check tile) := by
  refine W.keeps_bind (W.keeps_getS _) fun s => W.keeps_bind (keeps_bump passive_of_ctl _ _) fun _ =>
    W.keeps_ite (W.keeps_pure _ _) <| W.keeps_ite (W.keeps_pure _ _) <| W.keeps_ite (W.keeps_pure _ _) <| W.keeps_ite (W.keeps_pure _ _) <|
    W.keeps_bind (keeps_ctl_laneAccess _ _) fun _ => W.keeps_ite (W.keeps_bind (keeps_readTile passive_of_ctl _ _ _) fun r => ?_) <|
    W.keeps_ite (W.keeps_pure _ _) (W.keeps_bind (keeps_writeTile passive_of_ctl _ _ _ _ _) fun _ => W.keeps_pure _ _)
  cases r with
  | error e => exact W.keeps_pure _ _
  | ok bs => exact W.keeps_bind (W.keeps_getS _) fun _ => W.keeps_pure _ _

theorem keeps_ctl_askWindow (d : Fin 8) (tag a : Nat) (check : Word) (tile : List Byte) :
    W.Keeps (fun s => g s.ctl) (askWindow d tag a check tile) := by
  refine W.keeps_bind (W.keeps_getS _) fun s => W.keeps_ite (W.keeps_pure _ _) <| W.keeps_ite
    (W.keeps_bind (keeps_ctl_serveWindow _ _ _ _ _) fun _ => W.keeps_bind (keeps_bump passive_of_ctl _ _) fun _ => W.keeps_pure _ _)
    (W.keeps_bind (keeps_ctl_sendWindow _ _) fun r => ?_)
  cases r <;> exact W.keeps_pure _ _

theorem keeps_ctl_localRead (q : Pkt) : W.Keeps (fun s => g s.ctl) (localRead q) := by
  refine W.keeps_bind (W.keeps_getS _) fun s => ?_
  dsimp only
  split
  · exact W.keeps_pure _ _
  · refine W.keeps_ite (W.keeps_pure _ _) (W.keeps_bind (keeps_ctl_laneAccess _ _) fun _ => W.keeps_ite
      (W.keeps_ite (W.keeps_pure _ _) (W.keeps_bind (keeps_readBytes passive_of_ctl _ _ _) fun r => ?_))
      (W.keeps_bind (keeps_oldTile passive_of_ctl _ _ _) fun r => ?_))
    all_goals cases r <;> exact W.keeps_pure _ _

theorem keeps_ctl_localWrite (q : Pkt) : W.Keeps (fun s => g s.ctl) (localWrite q) := by
  refine W.keeps_bind (W.keeps_getS _) fun s => ?_
  dsimp only
  split
  · exact W.keeps_pure _ _
  · exact W.keeps_ite (W.keeps_pure _ _) (W.keeps_bind (keeps_ctl_laneAccess _ _) fun _ => keeps_mergeTile passive_of_ctl _ _ _ _)

end

end Sys2Proof.Machine
end

section
/-! Proof of O10: no packet's work touches the stored replies, RETRY answers from them, and what each packet leaves of them (R393). -/

namespace Sys2Proof.Machine

/-! ## Work that also changes the control plane -/

theorem keeps_replies_failActions (hit : Action → Bool) : W.Keeps (·.ctl.replies) (failActions hit) := W.keeps_modS fun _ => rfl
theorem keeps_replies_failSnaps (hit : Nat → Bool) : W.Keeps (·.ctl.replies) (failSnaps hit) := keeps_replies_failActions _

theorem keeps_replies_offDie (d : Fin 8) : W.Keeps (·.ctl.replies) (offDie d) := by
  refine W.keeps_bind (keeps_getDie d) fun _ => W.keeps_bind (W.keeps_getS _) fun _ => W.keeps_bind (keeps_replies_failSnaps _) fun _ =>
    W.keeps_bind (W.keeps_modS fun _ => rfl) fun _ => W.keeps_bind (keeps_ctl_darkPorts d) fun _ =>
    W.keeps_bind (W.keeps_forM fun _ => keeps_ctl_modP _ _) fun _ => W.keeps_bind (keeps_ctl_loseSram d) fun _ =>
    W.keeps_bind (keeps_emit passive_of_ctl _) fun _ =>
    W.keeps_bind (W.keeps_forM fun _ => W.keeps_bind (keeps_ctl_untrain _) fun _ => keeps_ctl_dropGens _ _) fun _ =>
    W.keeps_bind (keeps_ctl_setKeys _ _) fun _ => W.keeps_bind (keeps_ctl_modD _ _) fun _ => W.keeps_bind (W.keeps_getS _) fun _ =>
    W.keeps_dite (fun _ => W.keeps_ite (W.keeps_modS fun _ => rfl) (W.keeps_pure _ _)) fun _ => W.keeps_pure _ _

theorem keeps_replies_offHub (h : Fin 2) : W.Keeps (·.ctl.replies) (offHub h) :=
  W.keeps_bind (keeps_replies_failSnaps _) fun _ => W.keeps_bind (keeps_ctl_modPw _) fun _ =>
    W.keeps_bind (keeps_emit passive_of_ctl _) fun _ => W.keeps_bind (keeps_emit passive_of_ctl _) fun _ =>
    W.keeps_bind (keeps_ctl_untrain _) fun _ => W.keeps_bind (keeps_ctl_untrain _) fun _ =>
    W.keeps_bind (keeps_ctl_dropGens _ _) fun _ => keeps_ctl_dropGens _ _

theorem keeps_replies_changeDie (d : Fin 8) (t : Pw) : W.Keeps (·.ctl.replies) (changeDie d t) := by
  refine W.keeps_bind (keeps_getDie d) fun die => W.keeps_ite (W.keeps_pure _ _) ?_
  extract_lets enter change
  have henter : ∀ r, W.Keeps (·.ctl.replies) (enter r) := fun r => by
    dsimp only [enter]
    split
    · exact keeps_ctl_modD _ _
    · exact W.keeps_bind (keeps_ctl_modD _ _) fun _ => W.keeps_bind (keeps_freeVal passive_of_ctl) fun _ =>
        W.keeps_bind (W.keeps_getS _) fun _ => keeps_setReg passive_of_ctl _ _
    · exact keeps_ctl_enterDeep d
    · exact W.keeps_pure _ _
  have hchange : ∀ r, W.Keeps (·.ctl.replies) (change r) := fun r => by
    refine W.keeps_ite (keeps_replies_offDie d) ?_
    split
    · exact W.keeps_bind (keeps_ctl_wakeDeep d) henter
    · exact W.keeps_bind (keeps_ctl_inRun d) henter
    · exact henter ()
    · exact W.keeps_bind (keeps_ctl_modD _ _) fun _ => W.keeps_bind (W.keeps_getS _) fun _ => W.keeps_bind (keeps_ctl_setRail _ _) henter
    · exact W.keeps_bind (keeps_ctl_modD _ _) henter
  exact W.keeps_ite (hchange ()) (W.keeps_bind (keeps_ctl_clkChanges d) fun _ => W.keeps_bind (keeps_ctl_railChanges d) hchange)

theorem keeps_replies_changeHub (h : Fin 2) (t : Pw) : W.Keeps (·.ctl.replies) (changeHub h t) :=
  W.keeps_bind (W.keeps_getS _) fun _ => W.keeps_ite (W.keeps_pure _ _) <| W.keeps_ite (keeps_replies_offHub h) <|
    W.keeps_bind (keeps_ctl_modPw _) fun _ => keeps_ctl_oweReset

theorem keeps_replies_pwrNow (b : List Byte) : W.Keeps (·.ctl.replies) (pwrNow b) :=
  W.keeps_bind (W.keeps_getS _) fun _ => W.keeps_bind (W.keeps_forM fun _ => keeps_replies_changeDie _ _) fun _ =>
    W.keeps_bind (W.keeps_forM fun _ => keeps_replies_changeHub _ _) fun _ => keeps_ctl_settleOff _

theorem keeps_replies_windowRead (code : Nat) (q : Pkt) (d : Fin 8) (check : Word) (tile : List Byte) :
    W.Keeps (·.ctl.replies) (windowRead code q d check tile) := by
  refine W.keeps_ite (W.keeps_pure _ _) <| W.keeps_ite (W.keeps_pure _ _) <| W.keeps_bind (keeps_ctl_askWindow _ _ _ _ _) fun r => ?_
  cases r with
  | some x => exact W.keeps_pure _ _
  | none => exact W.keeps_bind (W.keeps_modS fun _ => rfl) fun _ => W.keeps_pure _ _

theorem keeps_replies_windowPkt (code : Nat) (q : Pkt) : W.Keeps (·.ctl.replies) (windowPkt code q) := by
  refine W.keeps_bind (W.keeps_getS _) fun s => W.keeps_bind (keeps_ctl_askWindow _ _ _ _ _) fun r => ?_
  cases r with
  | some x => exact W.keeps_ite (keeps_replies_windowRead _ _ _ _ _) (W.keeps_pure _ _)
  | none => exact W.keeps_bind (W.keeps_modS fun _ => rfl) fun _ => W.keeps_pure _ _

/-! ## The opcodes -/

/-- An opcode whose work leaves the stored replies as they are. -/
structure Op.KeepsReplies (op : Op) : Prop where
  act : ∀ q, W.Keeps (·.ctl.replies) (op.act q)
  turned : ∀ q st, W.Keeps (·.ctl.replies) (op.turned q st)

theorem Op.KeepsReplies.of_act {op : Op} (hturned : op.turned = fun _ _ => pure ()) (hact : ∀ q, W.Keeps (·.ctl.replies) (op.act q)) :
    op.KeepsReplies := ⟨hact, fun _ _ => hturned ▸ W.keeps_pure _ _⟩

/-- An opcode whose action runs later. -/
theorem Op.KeepsReplies.of_accepted {op : Op} (hturned : op.turned = fun _ _ => pure ()) (hact : op.act = fun _ => answer sACCEPTED) :
    op.KeepsReplies := .of_act hturned fun _ => hact ▸ W.keeps_pure _ _

@[simp] theorem opSchedLoad_keepsReplies : opSchedLoad.KeepsReplies := .of_accepted rfl rfl
@[simp] theorem opMapLoad_keepsReplies : opMapLoad.KeepsReplies := .of_accepted rfl rfl
@[simp] theorem opSecKeyErase_keepsReplies : opSecKeyErase.KeepsReplies := .of_accepted rfl rfl
@[simp] theorem opSecCkptImport_keepsReplies : opSecCkptImport.KeepsReplies := .of_accepted rfl rfl
@[simp] theorem opSecLifecycle_keepsReplies : opSecLifecycle.KeepsReplies := .of_accepted rfl rfl
@[simp] theorem opPartSet_keepsReplies : opPartSet.KeepsReplies := .of_accepted rfl rfl
@[simp] theorem opSnapshot_keepsReplies : opSnapshot.KeepsReplies := .of_accepted rfl rfl
@[simp] theorem opRestore_keepsReplies : opRestore.KeepsReplies := .of_accepted rfl rfl
@[simp] theorem opSelftest_keepsReplies : opSelftest.KeepsReplies := .of_accepted rfl rfl

@[simp] theorem opPing_keepsReplies : opPing.KeepsReplies :=
  .of_act rfl fun _ => W.keeps_bind (W.keeps_getS _) fun _ => W.keeps_pure _ _
@[simp] theorem opHeartbeat_keepsReplies : opHeartbeat.KeepsReplies :=
  .of_act rfl fun _ => W.keeps_bind (W.keeps_modS fun _ => rfl) fun _ => W.keeps_bind (W.keeps_getS _) fun _ => W.keeps_pure _ _
@[simp] theorem opHandover_keepsReplies : opHandover.KeepsReplies :=
  .of_act rfl fun _ => W.keeps_bind (W.keeps_modS fun _ => rfl) fun _ => W.keeps_bind (keeps_raise _ _ _ _ _) fun _ => W.keeps_pure _ _
@[simp] theorem opRelease_keepsReplies : opRelease.KeepsReplies :=
  .of_act rfl fun _ => W.keeps_bind (W.keeps_modS fun _ => rfl) fun _ => W.keeps_bind (keeps_raise _ _ _ _ _) fun _ => W.keeps_pure _ _
@[simp] theorem opClaim_keepsReplies : opClaim.KeepsReplies := by
  refine .of_act rfl fun _ => W.keeps_bind (W.keeps_getS _) fun _ => W.keeps_ite
    (W.keeps_bind (W.keeps_modS fun _ => rfl) fun _ => W.keeps_bind (keeps_raise _ _ _ _ _) fun _ => ?_) ?_
  all_goals exact W.keeps_bind (W.keeps_modS fun _ => rfl) fun _ => W.keeps_bind (W.keeps_getS _) fun _ => W.keeps_pure _ _
@[simp] theorem opPktStatus_keepsReplies : opPktStatus.KeepsReplies :=
  .of_act rfl fun _ => W.keeps_bind (W.keeps_getS _) fun _ => W.keeps_pure _ _

@[simp] theorem opRegRead_keepsReplies : opRegRead.KeepsReplies :=
  .of_act rfl fun q => W.keeps_bind (W.keeps_mapM fun a => keeps_ctl_readBy q.from a) fun _ => W.keeps_pure _ _
@[simp] theorem opMemRead_keepsReplies : opMemRead.KeepsReplies :=
  .of_act rfl fun q => W.keeps_ite (keeps_replies_windowPkt _ _) (W.keeps_bind (keeps_ctl_localRead q) fun _ => W.keeps_pure _ _)
@[simp] theorem opMemWrite_keepsReplies : opMemWrite.KeepsReplies :=
  .of_act rfl fun q => W.keeps_ite (keeps_replies_windowPkt _ _) (W.keeps_bind (keeps_ctl_localWrite q) fun _ => W.keeps_pure _ _)
@[simp] theorem opRegionSet_keepsReplies : opRegionSet.KeepsReplies :=
  .of_act rfl fun _ => W.keeps_bind (W.keeps_forM fun _ => W.keeps_modS fun _ => rfl) fun _ => W.keeps_pure _ _
@[simp] theorem opEvtRead_keepsReplies : opEvtRead.KeepsReplies := by
  refine .of_act rfl fun _ => W.keeps_bind (W.keeps_getS _) fun _ => W.keeps_ite (W.keeps_pure _ _)
    (W.keeps_bind (W.keeps_mapM fun _ => keeps_readBytes passive_of_ctl _ _ _) fun es => ?_)
  split <;> exact W.keeps_pure _ _
@[simp] theorem opFlagMiss_keepsReplies : opFlagMiss.KeepsReplies :=
  .of_act rfl fun _ => W.keeps_bind (W.keeps_getS _) fun _ => W.keeps_when (W.keeps_modS fun _ => rfl) fun _ => W.keeps_pure _ _
@[simp] theorem opGekStep_keepsReplies : opGekStep.KeepsReplies :=
  .of_act rfl fun _ => W.keeps_bind (W.keeps_forM fun _ => keeps_ctl_modD _ _) fun _ => W.keeps_pure _ _
@[simp] theorem opGekRead_keepsReplies : opGekRead.KeepsReplies := by
  refine .of_act rfl fun _ => W.keeps_bind (W.keeps_getS _) fun _ => ?_
  split <;> exact W.keeps_pure _ _

@[simp] theorem opSchedStart_keepsReplies : opSchedStart.KeepsReplies :=
  .of_act rfl fun _ => W.keeps_bind (W.keeps_getS _) fun _ => W.keeps_bind (W.keeps_forM fun _ =>
    W.keeps_bind (keeps_ctl_modD _ _) fun _ => W.keeps_modS fun _ => rfl) fun _ => W.keeps_pure _ _
@[simp] theorem opSchedStop_keepsReplies : opSchedStop.KeepsReplies :=
  .of_act rfl fun _ => W.keeps_bind (W.keeps_getS _) fun _ => W.keeps_bind (W.keeps_forM fun d => keeps_ctl_stopOne d) fun _ =>
    W.keeps_pure _ _
@[simp] theorem opSchedUnload_keepsReplies : opSchedUnload.KeepsReplies :=
  .of_act rfl fun _ => W.keeps_bind (keeps_ctl_dropImage _) fun _ => W.keeps_pure _ _
@[simp] theorem opSchedStatus_keepsReplies : opSchedStatus.KeepsReplies :=
  .of_act rfl fun q => W.keeps_bind (W.keeps_getS _) fun _ => W.keeps_bind (W.keeps_mapM fun a => keeps_ctl_readAs q.from a) fun _ =>
    W.keeps_pure _ _
@[simp] theorem opRecipeSeed_keepsReplies : opRecipeSeed.KeepsReplies :=
  .of_act rfl fun _ => W.keeps_bind (W.keeps_getS _) fun _ => W.keeps_when (keeps_ctl_modImage _ _) fun _ => W.keeps_pure _ _
@[simp] theorem opPortSet_keepsReplies : opPortSet.KeepsReplies :=
  .of_act rfl fun _ => W.keeps_bind (W.keeps_forM fun p => keeps_ctl_setPort _ p) fun _ => W.keeps_pure _ _
@[simp] theorem opFabSetmode_keepsReplies : opFabSetmode.KeepsReplies :=
  .of_act rfl fun _ => W.keeps_bind (W.keeps_modS fun _ => rfl) fun _ =>
    W.keeps_when (W.keeps_forM fun _ => keeps_ctl_modP _ _) fun _ => W.keeps_pure _ _

@[simp] theorem opPwrSet_keepsReplies : opPwrSet.KeepsReplies := by
  refine .of_act rfl fun _ => W.keeps_bind (W.keeps_getS _) fun _ => W.keeps_when (W.keeps_modS fun _ => rfl) fun _ => W.keeps_ite
    (W.keeps_bind (keeps_ctl_pwrLater _) fun _ => W.keeps_pure _ _) (W.keeps_bind (keeps_replies_pwrNow _) fun _ => W.keeps_pure _ _)
@[simp] theorem opPwrLimit_keepsReplies : opPwrLimit.KeepsReplies :=
  .of_act rfl fun _ => W.keeps_bind (keeps_setReg passive_of_ctl _ _) fun _ => W.keeps_bind (keeps_setReg passive_of_ctl _ _) fun _ =>
    W.keeps_pure _ _
@[simp] theorem opPwrRead_keepsReplies : opPwrRead.KeepsReplies :=
  .of_act rfl fun q => W.keeps_bind (W.keeps_getS _) fun _ => W.keeps_bind (keeps_ctl_measured _ _ _) fun _ =>
    W.keeps_bind (keeps_ctl_measured _ _ _) fun _ => W.keeps_bind (W.keeps_mapM fun _ => keeps_ctl_tempReading _ _ _) fun _ =>
    W.keeps_bind (keeps_ctl_readReg _) fun _ => W.keeps_bind (keeps_ctl_measured _ _ _) fun _ =>
    W.keeps_bind (W.keeps_mapM fun d => keeps_ctl_dieReading q.from d) fun _ => W.keeps_pure _ _
@[simp] theorem opQuiesceAll_keepsReplies : opQuiesceAll.KeepsReplies :=
  .of_act rfl fun _ => W.keeps_bind (W.keeps_modS fun _ => rfl) fun _ => W.keeps_bind (W.keeps_forM fun ch =>
    W.keeps_bind (W.keeps_modS fun _ => rfl) fun _ => W.keeps_bind (keeps_ctl_genDone ch) fun _ => W.keeps_modS fun _ => rfl) fun _ =>
    W.keeps_pure _ _

@[simp] theorem opPartRead_keepsReplies : opPartRead.KeepsReplies :=
  .of_act rfl fun _ => W.keeps_bind (W.keeps_getS _) fun _ => W.keeps_pure _ _
@[simp] theorem opSecIdentity_keepsReplies : opSecIdentity.KeepsReplies :=
  .of_act rfl fun _ => W.keeps_bind (W.keeps_getS _) fun _ => W.keeps_pure _ _
@[simp] theorem opSecCert_keepsReplies : opSecCert.KeepsReplies :=
  .of_act rfl fun _ => W.keeps_bind (W.keeps_getS _) fun _ => W.keeps_pure _ _
@[simp] theorem opSecAttest_keepsReplies : opSecAttest.KeepsReplies :=
  .of_act rfl fun _ => W.keeps_bind (keeps_freeWide passive_of_ctl) fun _ => W.keeps_bind (W.keeps_getS _) fun _ => W.keeps_pure _ _
@[simp] theorem opSecExtend_keepsReplies : opSecExtend.KeepsReplies :=
  .of_act rfl fun _ => W.keeps_bind (keeps_ctl_extendMr _ _) fun _ => W.keeps_pure _ _
@[simp] theorem opSecSvnCommit_keepsReplies : opSecSvnCommit.KeepsReplies :=
  .of_act rfl fun _ => W.keeps_bind (keeps_ctl_modC _) fun _ => W.keeps_pure _ _
@[simp] theorem opSecFwWrite_keepsReplies : opSecFwWrite.KeepsReplies :=
  .of_act rfl fun _ => W.keeps_bind (keeps_ctl_modC _) fun _ => W.keeps_pure _ _
@[simp] theorem opSecCkptExport_keepsReplies : opSecCkptExport.KeepsReplies :=
  .of_act rfl fun _ => W.keeps_bind (keeps_ctl_modC _) fun _ => W.keeps_pure _ _
@[simp] theorem opSecDebugSet_keepsReplies : opSecDebugSet.KeepsReplies :=
  .of_act rfl fun _ => W.keeps_bind (keeps_ctl_modC _) fun _ => W.keeps_pure _ _
@[simp] theorem opSecKxBegin_keepsReplies : opSecKxBegin.KeepsReplies :=
  .of_act rfl fun _ => W.keeps_bind (keeps_freeWide passive_of_ctl) fun _ => W.keeps_bind (W.keeps_getS _) fun _ =>
    W.keeps_bind (keeps_ctl_modC _) fun _ => W.keeps_pure _ _
@[simp] theorem opSecKxFinish_keepsReplies : opSecKxFinish.KeepsReplies where
  act _ := W.keeps_bind (keeps_ctl_modC _) fun _ => W.keeps_pure _ _
  turned _ _ := W.keeps_ite (W.keeps_bind (keeps_ctl_modC _) fun _ => keeps_setFlags passive_of_ctl _ _) (W.keeps_pure _ _)
@[simp] theorem opSecToken_keepsReplies : opSecToken.KeepsReplies where
  act _ := W.keeps_pure _ _
  turned _ _ := W.keeps_ite (keeps_setFlags passive_of_ctl _ _) (W.keeps_pure _ _)

/-- Every packet row's opcode leaves the stored replies as they are. -/
theorem packetRow_keepsReplies {c : Instr} {op : Op} {q : Pkt} (h : packetRow c = some (op, q)) : op.KeepsReplies := by
  cases c with
  | pwrSetRun p | pwrSetIdle p | pwrSetNap p | pwrSetDeep p | pwrSetOff p | portSetDisable p | portSetEnable p | portSetTrain p
  | selftestStoreMarch p | selftestCellarArray p | selftestEngineKnownAnswer p | selftestOnPackageLinks p | selftestPortTraffic p
  | selftestCryptoKnownAnswer p | secLifecycleSealed p | secLifecycleRetired p =>
    simp only [packetRow, Option.ite_none_right_eq_some, Option.some.injEq, Prod.mk.injEq] at h
    obtain ⟨-, rfl, -⟩ := h
    simp
  | _ =>
    simp only [packetRow, reduceCtorEq, Option.some.injEq, Prod.mk.injEq] at h <;>
    · obtain ⟨rfl, -⟩ := h
      simp

end Sys2Proof.Machine
end

section
/-! Proof of O10: what every packet leaves of the stored replies, and RETRY's answer from them (R393). -/

namespace Sys2Proof.Machine

/-! ## The stored replies after a packet -/

/-- A stored reply as RETRY sends it: to where the repeated packet came from (R388). -/
def Reply.resent (r : Reply) (q : Pkt) : Reply := { r with hdr := { r.hdr with net := q.hdr.net } }

/-- Work with a master's last reply stored. -/
def Work.stored (w : Work) (m : Fin 5) (r : Reply) : Work :=
  { w with s := { w.s with ctl := { w.s.ctl with replies := w.s.ctl.replies.set m (some r) } } }
theorem mailOnly_stored (w : Work) (m : Fin 5) (r : Reply) : MailOnly w (w.stored m r) :=
  W.mails_ctl (g := fun s => { s.ctl with replies := s.ctl.replies.set m (some r) }) (fun _ => rfl) w

/-- The stored replies after a packet: as before, or the sender's was sent again, or the sender's is a reply to this packet. -/
def RepliesAfter (code : Nat) (q : Pkt) (v v' : Vector (Option Reply) 5) : Prop :=
  v' = v ∨ (∃ r, v[q.from] = some r ∧ v' = v.set q.from (some (r.resent q)))
    ∨ ∃ st : Byte, ∃ payload, v' = v.set q.from (some { opcode := BitVec.ofNat 16 code, hdr := q.hdr, status := st.setWidth 16, payload })

@[simp] theorem arrive_replies (code : Nat) (q : Pkt) (s : State) : (arrive code q s).ctl.replies = s.ctl.replies := by rw [arrive_ctl]
@[simp] theorem arrive_rsp (code : Nat) (q : Pkt) (s : State) : (arrive code q s).ctl.rsp = s.ctl.rsp := by rw [arrive_ctl]

/-- Every answer is stored as its master's last reply. -/
theorem reply_stores (code : Nat) (q : Pkt) (a : Ans) (w : Work) :
    RepliesAfter code q w.s.ctl.replies (reply code q a w).2.s.ctl.replies := by
  have hbump : ∀ a n, W.Keeps (·.ctl.replies) (bump a n) := fun a n => W.keeps_modS fun s => congrArg Ctl.replies (rbump_ctl s a n)
  refine .inr (.inr ⟨a.1, a.2, ?_⟩)
  simp only [reply, W.modS_bind]
  refine W.keeps_bind (f := (·.ctl.replies)) (keeps_replies_sendReply _ _) (fun _ => ?_) _
  exact W.keeps_ite (W.keeps_bind (hbump _ _) fun _ => W.keeps_modS fun _ => rfl) (W.keeps_pure _ ())

theorem keeps_replies_settle (code : Nat) (q : Pkt) (st : Byte) : W.Keeps (·.ctl.replies) (settle code q st) :=
  W.keeps_bind (W.keeps_getS _) fun _ => W.keeps_when (W.keeps_modS fun _ => rfl) fun _ =>
    W.keeps_ite (W.keeps_modS fun _ => rfl) (W.keeps_pure _ ())

/-- RETRY with the SEQ of the stored reply sends it again. -/
theorem retry_of_seq {code : Nat} {q : Pkt} {r : Reply} {w : Work} (hr : w.s.ctl.replies[q.from] = some r) (hseq : r.hdr.seq = q.hdr.seq) :
    retry code q w = sendReply q.from (r.resent q)
      (w.stored q.from (r.resent q)) := by
  simp only [retry, W.getS_bind, hr, if_pos hseq]
  rfl

/-- RETRY with another SEQ, or before any reply, is refused with PARAM. -/
theorem retry_of_ne {code : Nat} {q : Pkt} {w : Work} (h : ∀ r, w.s.ctl.replies[q.from] = some r → r.hdr.seq ≠ q.hdr.seq) :
    retry code q w = reply code q (sPARAM, []) w := by
  simp only [retry, W.getS_bind]
  cases hr : w.s.ctl.replies[q.from] with
  | none => rfl
  | some r => simp only [if_neg (h r hr)]

/-- RETRY leaves the stored reply sent again, or a refusal. -/
theorem retry_stores (code : Nat) (q : Pkt) (w : Work) : RepliesAfter code q w.s.ctl.replies (retry code q w).2.s.ctl.replies := by
  by_cases h : ∃ r, w.s.ctl.replies[q.from] = some r ∧ r.hdr.seq = q.hdr.seq
  · obtain ⟨r, hr, hseq⟩ := h
    rw [retry_of_seq hr hseq]
    exact .inr (.inl ⟨r, hr, keeps_replies_sendReply _ _ _⟩)
  · rw [retry_of_ne fun r hr hseq => h ⟨r, hr, hseq⟩]
    exact reply_stores _ _ _ _

/-- What follows work that leaves the stored replies stores its own reply. -/
theorem RepliesAfter.of_eq {code : Nat} {q : Pkt} {v u v' : Vector (Option Reply) 5} (h : RepliesAfter code q u v') (hu : u = v) :
    RepliesAfter code q v v' := hu ▸ h

/-- A packet served stores its reply, or waits for one. -/
theorem serve_stores {op : Op} (hop : op.KeepsReplies) (q : Pkt) (w : Work) :
    RepliesAfter op.code q w.s.ctl.replies (serve op q w).2.s.ctl.replies := by
  simp only [serve, W.getS_bind]
  split
  · exact reply_stores _ _ _ _
  · cases op.refusal w.s q with
    | some a =>
      split
      · exact (reply_stores _ _ _ _).of_eq (hop.turned q a.1 w)
      · exact reply_stores _ _ _ _
    | none =>
      have hact := hop.act q w
      rcases hdone : op.act q w with ⟨_ | a, w'⟩ <;> rw [hdone] at hact <;> simp only [W.bind_apply, hdone]
      · exact .inl hact
      · exact (reply_stores _ _ _ _).of_eq ((keeps_replies_settle _ _ _ _).trans hact)

/-- A packet, whatever becomes of it, touches no stored reply but its sender's. -/
theorem packet_stores {op : Op} (hop : op.KeepsReplies) (q : Pkt) (w : Work) :
    RepliesAfter op.code q w.s.ctl.replies (packet op q w).2.s.ctl.replies := by
  simp only [packet, W.getS_bind]
  split
  · exact .inl rfl
  · split
    · exact .inl rfl
    · rw [W.modS_bind, ← arrive_replies op.code q w.s]
      simp only [receive, W.getS_bind]
      split
      · simp only [takePkt]
        split
        · exact retry_stores _ _ _
        · exact serve_stores hop _ _
      · split
        · exact reply_stores _ _ _ _
        · exact .inl rfl

/-- Only the sender's stored reply may change, to one of three. -/
theorem RepliesAfter.cases {code : Nat} {q : Pkt} {s t : State} (h : RepliesAfter code q s.ctl.replies t.ctl.replies) :
    (∀ m, m ≠ q.from → t.ctl.replies[m] = s.ctl.replies[m])
      ∧ (t.ctl.replies[q.from] = s.ctl.replies[q.from]
        ∨ (∃ r, s.ctl.replies[q.from] = some r ∧ t.ctl.replies[q.from] = some (r.resent q))
        ∨ ∃ st pl, Replied t q code st pl) := by
  have hother (x : Option Reply) (m : Fin 5) (hm : m ≠ q.from) : (s.ctl.replies.set q.from x)[m] = s.ctl.replies[m] :=
    Vector.getElem_set_ne _ _ (Fin.val_ne_of_ne hm.symm)
  have hself (x : Option Reply) : (s.ctl.replies.set q.from x)[q.from] = x := Vector.getElem_set_self _
  obtain h | ⟨r, hr, h⟩ | ⟨st, pl, h⟩ := h
  · exact ⟨fun _ _ => by rw [h], .inl (by rw [h])⟩
  · exact ⟨fun m hm => by rw [h, hother _ m hm], .inr (.inl ⟨r, hr, by rw [h, hself]⟩)⟩
  · exact ⟨fun m hm => by rw [h, hother _ m hm], .inr (.inr ⟨st, pl, by rw [Replied, h, hself]⟩)⟩

/-! ## A reply's way out (R392, R414, R415) -/

/-- A register of the mailbox block has no second name. -/
theorem canon_of_mbxReg {a : Nat} (ha : mbxReg a) : canon a = a := if_neg fun h => by
  have := ha.1
  simp only [uHub] at this
  omega

theorem keeps_rget_modS_of_ne {a b : Nat} (ha : mbxReg a) (hb : mbxReg b) (hne : b ≠ a) {g : State → State} {v : State → Word}
    (hg : ∀ s, rget (g s) b = if canon b = canon a then v s else rget s b) : W.Keeps (rget · b) (modS g) :=
  W.keeps_modS fun s => (hg s).trans (if_neg (by rwa [canon_of_mbxReg ha, canon_of_mbxReg hb]))

/-- Where the replies to a master are counted (R415). -/
abbrev replyCountA (m : Fin 5) : Nat := regA uHub bMBX (0x20 + 4 * m.val)

/-- A reply sent counts one more reply of its master. -/
theorem sendReply_counts (m : Fin 5) (r : Reply) (w : Work) :
    rget (sendReply m r w).2.s (replyCountA m) = satAdd (rget w.s (replyCountA m)) 1 := by
  have hm : m.val < 5 := m.isLt
  have hcount : mbxReg (replyCountA m) := mbxReg_regA (by omega)
  have hrefused : W.Keeps (rget · (replyCountA m)) (bump (regA uHub bMBX (0x60 + 4 * m.val)) 1) :=
    keeps_rget_modS_of_ne (mbxReg_regA (by omega)) hcount (by simp only [replyCountA, regA]; omega) fun s => rget_rbump s _ _ _
  have hready : W.Keeps (rget · (replyCountA m)) (setField (regA uHub bMBX 0) 1 0 2) :=
    keeps_rget_modS_of_ne (mbxReg_regA (by decide)) hcount (by simp only [replyCountA, regA]; omega) fun s => rget_rset _ _ _ _
  simp only [sendReply, bump, W.modS_bind]
  refine (W.keeps_when (f := (rget · (replyCountA m))) hrefused (fun _ => ?_) _).trans ?_
  · exact W.keeps_ite (W.keeps_bind (W.keeps_modS fun _ => rfl) fun _ => W.keeps_bind hready fun _ => W.keeps_modS fun _ => rfl)
      (W.keeps_pure _ ())
  · exact (rget_rbump _ _ _ _).trans ((if_pos rfl).trans (if_neg (by decide)))

/-- Master 2's reply stands in MBX_RSP. -/
theorem sendReply_rsp (r : Reply) (w : Work) : (sendReply 2 r w).2.s.ctl.rsp = nsetRun 0 w.s.ctl.rsp 0 r.bytes := by
  simp only [sendReply, bump, W.modS_bind, if_pos]
  split <;> simp [setField, rfield, mbxInterrupt]

/-- A run of cells written reads back. -/
theorem nrun_nsetRun {d : Byte} {m : NMap Byte} (h : nwf d m) (base : Nat) (bs : List Byte) :
    nrun d (nsetRun d m base bs) base bs.length = bs := by
  rw [nrun_eq (nsetRun_nwf h base bs).1]
  refine List.ext_getElem (by simp) fun i hi _ => ?_
  simp only [List.length_map, List.length_range] at hi
  simp [nget_nsetRun h, hi]

/-! ## RETRY (R393) -/

/-- A packet with RETRY that its port takes is answered from the stored reply, whatever its opcode. -/
theorem packet_retried {op : Op} {q : Pkt} {s : State} (h : Taken q s) (hretry : q.hdr.flags.toNat.testBit 2 = true) :
    packet op q { s } = retry op.code q { s := arrive op.code q s } := by
  obtain ⟨hans, hwf, hq, hmbx⟩ := h
  simp only [packet, W.getS_bind, if_neg hmbx, hans, hwf, Bool.not_true, Bool.or_false, Bool.false_eq_true, if_false, W.modS_bind,
    receive, queues_arrive, hq, Bool.not_false, if_true, takePkt, hretry]

/-- The counts of replies are as before when a packet arrives. -/
theorem rget_arrive_replyCount (code : Nat) (q : Pkt) (s : State) (m : Fin 5) :
    rget (arrive code q s) (replyCountA m) = rget s (replyCountA m) := by
  have hm : m.val < 5 := m.isLt
  have hreq : W.Keeps (rget · (replyCountA m)) (setFlags (regA uHub bMBX 0) 1) :=
    keeps_rget_modS_of_ne (mbxReg_regA (by decide)) (mbxReg_regA (by omega)) (by simp only [regA]; omega) fun s =>
      rget_ror s _ _ _
  unfold arrive
  split
  · exact hreq { s := _ }
  · rfl

/-- A repetition of the packet that the stored reply answers sends that reply again, and does nothing but the mailbox's traffic. -/
theorem exec_retry_of_seq {c : Instr} {op : Op} {q : Pkt} {r : Reply} {s : State} (h : packetRow c = some (op, q)) (htaken : Taken q s)
    (hretry : q.hdr.flags.toNat.testBit 2 = true) (hr : s.ctl.replies[q.from] = some r) (hseq : r.hdr.seq = q.hdr.seq) :
    let w := sendReply q.from (r.resent q) (Work.stored { s := arrive op.code q s } q.from (r.resent q))
    exec c s = .next w.2.s ∧ MailOnly { s } { s := w.2.s } := by
  have hrun : packet op q { s } = sendReply q.from (r.resent q) (Work.stored { s := arrive op.code q s } q.from (r.resent q)) := by
    rw [packet_retried htaken hretry, retry_of_seq (by rwa [arrive_replies]) hseq]
  have hmail : MailOnly { s } (packet op q { s }).2 := by
    rw [hrun]
    exact ((mailOnly_arrive op.code q { s }).trans (mailOnly_stored _ _ _)).trans (mails_sendReply _ _ _)
  rw [← hrun]
  exact ⟨exec_packetRow_of_mailOnly h hmail, hmail.state, hmail.regs, rfl, rfl⟩

/-- Settles O10: RETRY sends the stored reply again or is refused with PARAM, the mailbox's traffic in both cases; every packet row's work keeps
the stored replies, so that only the reply to the packet, or the one sent again, takes its sender's place. -/
theorem retryRule : Obligations.RetryRule := by
  unfold Obligations.RetryRule
  refine ⟨?again, ?refused, ?every⟩
  case again =>
    intro c op q r s hrow htaken hretry hr hseq
    obtain ⟨hexec, hmail⟩ := exec_retry_of_seq hrow htaken hretry hr hseq
    refine ⟨_, hexec, ?_, hmail.replyFrame, ?_, hmail.actions, hmail.accepted, ?_, fun hq hwf => ?_⟩
    · refine (keeps_replies_sendReply _ _ _).trans ?_
      simp [Work.stored, Reply.resent]
    · exact (keeps_ctl_sendReply (g := Ctl.leaseLeft) (fun _ _ _ => rfl) _ _ _).trans (arrive_leaseLeft _ _ _)
    · exact (sendReply_counts _ _ _).trans (congrArg (satAdd · 1) (rget_arrive_replyCount _ _ _ _))
    · rw [hq, sendReply_rsp]
      have hwf' : nwf 0 (arrive op.code q s).ctl.rsp := by rwa [arrive_rsp]
      exact nrun_nsetRun hwf' 0 r.bytes
  case refused =>
    intro c op q s hrow htaken hretry hne
    have hrun : packet op q { s } = reply op.code q (sPARAM, []) { s := arrive op.code q s } := by
      rw [packet_retried htaken hretry, retry_of_ne (by simpa using hne)]
    obtain ⟨t, hexec, hmail, hleft, hreply⟩ := exec_reply_only hrow (by decide) hrun
    exact ⟨t, hexec, hreply, hmail.replyFrame, hleft, hmail.actions, hmail.accepted⟩
  case every =>
    intro c op q s t hrow hexec
    obtain ⟨t', hexec', hctl⟩ := exec_packetRow_ctl hrow s
    obtain rfl : t' = t := Host.Outcome.next.inj (hexec'.symm.trans hexec)
    have hstores := packet_stores (packetRow_keepsReplies hrow) q { s }
    rw [← hctl] at hstores
    exact hstores.cases

end Sys2Proof.Machine
end
